-- ==== Sys2Proof/Word.lean ====
section
/-! DEFINITION. The word types of the block: bytes, halfwords, 32-bit words and bus addresses (R13, R22,
R24, R60), and the two plain list types that the spec passes around (a frame's bytes, a client's identity). -/

namespace Sys2Proof

/-- One byte of DMA memory or of an 8-bit register. -/
abbrev Byte := BitVec 8

/-- A 16-bit descriptor field. -/
abbrev Half := BitVec 16

/-- A 32-bit word: an operation word, a register, a statistics counter. -/
abbrev Word := BitVec 32

/-- A bus address (R61: "Bus addresses are 32 bits wide"). -/
abbrev BusAddr := BitVec 32

/-- A frame: its bytes in address order (R63). -/
abbrev Frame := List Byte

/-- The identity of a client of the host transport (R29): a name, never computed with. -/
abbrev Client := Nat

end Sys2Proof
end

