-- ==== Sys2Proof/Config.lean ====
section
/-! DEFINITION. The configuration record of R11: every value the source leaves open is a field here, and the
machine holds one such record for ever (State.config). The two parameters that are functions on unbounded data
(CFG_UPDATE, CFG_BLOCK) and the free values (of an undriven line, of a bit that reads as anything, of a field the device
does not find where it reads it) are uninterpreted constants: they have no body, so no proof can see a value of them. -/

namespace Sys2Proof

/-- The mode flags of `configure` (R93): SEL bits 0, 1, 2. -/
structure ModeFlags where
  promiscuous : Bool
  multicast   : Bool
  broadcast   : Bool
deriving DecidableEq, Repr

/-- `REG_OFFSET(r)` (R11, R70): the port offset of each device register. -/
structure RegOffsets where
  scbStatus : Nat
  scbIsr    : Nat
  scbCmd    : Nat
  scbIcr    : Nat
  scbPtr    : Nat
  scbPort   : Nat
  serCtl    : Nat
deriving DecidableEq, Repr

/-- `CMD_CODE(unit, cmd)` (R11, R104): the code an engine's SCB_CMD field holds for each command. The code of NOP
is 0 for both engines (R40). -/
structure CmdCodes where
  cuStart          : BitVec 4
  cuDumpStatistics : BitVec 4
  cuLoadBase       : BitVec 4
  ruStart          : BitVec 3
  ruLoadBase       : BitVec 3
deriving DecidableEq, Repr

/-- The codes of R104 and of the opcode table. -/
def CmdCodes.table : CmdCodes where
  cuStart := 1
  cuDumpStatistics := 5
  cuLoadBase := 6
  ruStart := 1
  ruLoadBase := 6

/-- A code stands for one command of its engine: the codes of an engine, NOP's 0 among them, are distinct. -/
def CmdCodes.wf (k : CmdCodes) : Bool :=
  decide [0, k.cuStart, k.cuDumpStatistics, k.cuLoadBase].Nodup && decide [0, k.ruStart, k.ruLoadBase].Nodup

/-- The implementation parameters of R11 that are plain data. -/
structure Config where
  /-- `N_RX`, `N_TX`: descriptors of each ring. -/
  nRx : Nat
  nTx : Nat
  /-- `BUF_SIZE`: bytes of every descriptor buffer. -/
  bufSize : Nat
  /-- `MIN_FRAME`, `MAX_TAGGED_FRAME`: the frame size bound (R144). -/
  minFrame : Nat
  maxTaggedFrame : Nat
  /-- `LEN_MASK`: applied to `received_length` (R112, R131). -/
  lenMask : Half
  /-- `THRESH_INIT`, `THRESH_MAX`, `THRESH_STEP` (R28, R143). -/
  threshInit : Byte
  threshMax  : Byte
  threshStep : Nat
  /-- The poll bounds (R161, R167): how many reads a poll makes at most. -/
  cuPollBound    : Nat
  ruPollBound    : Nat
  statsPollBound : Nat
  /-- `DUMP_MAGIC`, `STATS_WORDS` (R45, R166). -/
  dumpMagic  : Word
  statsWords : Nat
  /-- `SER_DELAY_US` (R200): the length of each `delay()`. -/
  serDelayUs : Nat
  /-- `PHY_ADDR`, `PHY_STATUS_REG` (R206, R208). -/
  phyAddr      : BitVec 5
  phyStatusReg : BitVec 5
  /-- Whether a PHY answers at `PHY_ADDR` (R206: "an absent PHY returns whatever DO reads"). -/
  phyPresent : Bool
  /-- `TICK_PERIOD` (R223): the host's duty, no rule of the block reads it. -/
  tickPeriod : Nat
  /-- `CFG_LEN`, `CFG_DEFAULT`, `CFG_BLOCK_LEN` (R33, R169). -/
  cfgLen      : Nat
  cfgDefault  : List Byte
  cfgBlockLen : Nat
  /-- `EE_DEV_WIDTH`, `ee_mem` (R205): the EEPROM part, constant during a run; a word beyond the list is 0. -/
  eeDevWidth : Nat
  eeMem      : List Half
  /-- `REG_SPAN`, `REG_OFFSET` (R68, R70). -/
  regSpan   : Nat
  regOffset : RegOffsets
  /-- `CMD_CODE` (R11, R104). -/
  cmdCodes : CmdCodes
  /-- `VENDOR_ID`, `DEVICE_ID` (R271, R272). -/
  vendorId : BitVec 16
  deviceId : BitVec 16
  /-- `REV_OK` (R11): the accepted revisions, listed (a revision is 8 bits, so a list is any predicate). -/
  revOk : List Byte
deriving DecidableEq, Repr

/-- `CFG_UPDATE` (R11, R224), one byte of its result: an uninterpreted total function of the table and the flags. -/
opaque Config.cfgUpdateByte : List Byte → ModeFlags → Nat → Byte

/-- `CFG_BLOCK` (R11, R169), one byte of the block: an uninterpreted total function of the table. -/
opaque Config.cfgBlockByte : List Byte → Nat → Byte

/-- The level of the serial data line when no slave drives it (R206: turnaround bits, an absent PHY): any
value, a fresh one at each read (the argument is the number of such reads made so far). -/
opaque Config.floatingLine : Nat → Bool

/-- What bits 7 and 3 of SCB_STATUS read as (93_implementation_defined.md behaviour 7: "any value; ignored"), a fresh
value at each read (the argument is the number of events so far). -/
opaque Config.statusReserved : Nat → BitVec 2

/-- What the device reads in a field that the place it has come to does not have: any value, a fresh one at each read (the
argument is the number of events so far). -/
opaque Config.absentField : Nat → Word

/-- The bytes it sends that no buffer holds: any bytes, fresh ones for each frame (the arguments are the number of events
so far and the position). -/
opaque Config.absentByte : Nat → Nat → Byte

/-- The length it reports for a frame that is longer than the buffer, in a descriptor that claims to hold more than the
buffer: any 14 bits (the argument is the number of events so far). -/
opaque Config.overlongLength : Nat → BitVec 14

/-- The offsets of R70, in the order of its table. -/
def RegOffsets.toList (o : RegOffsets) : List Nat :=
  [o.scbStatus, o.scbIsr, o.scbCmd, o.scbIcr, o.scbPtr, o.scbPort, o.serCtl]

/-- The constraints R11 puts on the parameters, with four that other rules imply: `capacity` is 14 bits and
holds `BUF_SIZE` (R22), the register offsets are distinct and inside the block (R70), the configuration block
has bytes (R169), a command code stands for one command and none for NOP (R40, R104). -/
def Config.wf (c : Config) : Bool :=
  2 ≤ c.nRx && 2 ≤ c.nTx && c.maxTaggedFrame ≤ c.bufSize && c.bufSize < 2 ^ 14 &&
  c.minFrame ≤ c.maxTaggedFrame && c.threshInit.toNat ≤ c.threshMax.toNat &&
  1 ≤ c.cuPollBound && 1 ≤ c.ruPollBound && 1 ≤ c.statsPollBound &&
  c.dumpMagic != 0 && 1 ≤ c.statsWords && 1 ≤ c.tickPeriod && c.cfgDefault.length == c.cfgLen && 1 ≤ c.cfgBlockLen &&
  1 ≤ c.regSpan && c.regOffset.toList.all (· < c.regSpan) &&
  decide c.regOffset.toList.Nodup && c.cmdCodes.wf

/-- The parameter values of the spec's test vectors (95_test_vectors.md section 0), with the defaults of R11
and R70; the values neither gives (poll bounds, configuration lengths, PCI identity, delay, period) are the
model's choice and no statement rests on them. -/
def Config.bench : Config where
  nRx := 4
  nTx := 4
  bufSize := 2036
  minFrame := 60
  maxTaggedFrame := 1518
  lenMask := 0x3FFF
  threshInit := 1
  threshMax := 3
  threshStep := 1
  cuPollBound := 100
  ruPollBound := 100
  statsPollBound := 100000
  dumpMagic := 0x0000A005
  statsWords := 4
  serDelayUs := 1
  phyAddr := 1
  phyStatusReg := 1
  phyPresent := true
  tickPeriod := 1
  cfgLen := 22
  cfgDefault := List.replicate 22 0
  cfgBlockLen := 32
  eeDevWidth := 6
  eeMem := [0x1200, 0x5634, 0x9A78]
  regSpan := 0x20
  regOffset := { scbStatus := 0x00, scbIsr := 0x01, scbCmd := 0x02, scbIcr := 0x03,
                 scbPtr := 0x04, scbPort := 0x08, serCtl := 0x0E }
  cmdCodes := CmdCodes.table
  vendorId := 0x8086
  deviceId := 0x1229
  revOk := [8]

end Sys2Proof
end

