-- ==== Sys2Proof/Syntax.lean ====
section
/-! DEFINITION. The instructions: one constructor per row of spec/opcode_table.json. The 24 operations of the
operation port carry the operands of their SEL field and of their payload (R90, R91); the 7 device command
codes (R104) are the commands a device engine accepts from SCB_CMD (R262 move 1); the 2 TX descriptor codes
(R114) are the commands the CU executes from a descriptor (R262 move 2). -/

namespace Sys2Proof

/-- The operands that travel beside an operation word (R90). Which of them an operation has is fixed by its
`OP` field (R91); the others are not looked at. -/
structure Payload where
  addr   : BusAddr
  client : Client
  frame  : Frame
deriving DecidableEq, Repr

/-- The payload whose operands are all zero: what a word alone carries. -/
def Payload.zero : Payload := { addr := 0, client := 0, frame := [] }

/-- The two hardware engines of the device (R16). -/
inductive Engine where
  | cu
  | ru
deriving DecidableEq, Repr

inductive Instr where
  -- descriptor rings (40_ring.md)
  | rxPoll
  | rxRecycle (index : Nat)
  | txAppend (frame : Frame)
  | txDrain
  -- command issuer (41_command.md); `ri` is require_idle
  | issueCuLoadBase (ri : Bool) (addr : BusAddr)
  | issueRuLoadBase (ri : Bool) (addr : BusAddr)
  | issueCuStart (ri : Bool) (addr : BusAddr)
  | issueRuStart (ri : Bool) (addr : BusAddr)
  | issueCuDumpStatistics (ri : Bool) (addr : BusAddr)
  | restartRu
  -- interrupts and flow control (42_interrupt.md)
  | onInterrupt
  | checkInterrupts
  | armTx (client : Client) (frame : Frame)
  | armRx (client : Client)
  | replayTx
  | replayRx
  -- watchdog, serial engine, client operations, start-up (43, 44, 70)
  | watchdogTick
  | readEeprom (reg : Nat)
  | readPhy (reg : Nat)
  | configure (flags : ModeFlags)
  | transmit (client : Client) (frame : Frame)
  | receive (client : Client)
  | getStatistics (client : Client)
  | reset
  -- device command codes of SCB_CMD (30_encoding.md R104)
  | scbCuNop
  | scbCuStart
  | scbCuDumpStatistics
  | scbCuLoadBase
  | scbRuNop
  | scbRuStart
  | scbRuLoadBase
  -- TX descriptor command words (30_encoding.md R114); `el` is the end-of-list bit
  | txdOpNop (el : Bool)
  | txdOpTx (el : Bool)
deriving DecidableEq, Repr

end Sys2Proof
end

