-- ==== Sys2Proof/WellFormed.lean ====
section
/-! DEFINITION. The operand ranges that the encodings admit (R91, R93): SEL is 8 bits, a PHY register number 5. -/

namespace Sys2Proof

/-- Whether an instruction's operands fit the fields its operation word gives them. -/
def Instr.wf : Instr → Bool
  | .rxRecycle index => index < 256
  | .readEeprom reg => reg < 256
  | .readPhy reg => reg < 32
  | .rxPoll => true
  | .txAppend _ => true
  | .txDrain => true
  | .issueCuLoadBase _ _ => true
  | .issueRuLoadBase _ _ => true
  | .issueCuStart _ _ => true
  | .issueRuStart _ _ => true
  | .issueCuDumpStatistics _ _ => true
  | .restartRu => true
  | .onInterrupt => true
  | .checkInterrupts => true
  | .armTx _ _ => true
  | .armRx _ => true
  | .replayTx => true
  | .replayRx => true
  | .watchdogTick => true
  | .configure _ => true
  | .transmit _ _ => true
  | .receive _ => true
  | .getStatistics _ => true
  | .reset => true
  | .scbCuNop => true
  | .scbCuStart => true
  | .scbCuDumpStatistics => true
  | .scbCuLoadBase => true
  | .scbRuNop => true
  | .scbRuStart => true
  | .scbRuLoadBase => true
  | .txdOpNop _ => true
  | .txdOpTx _ => true

end Sys2Proof
end

