-- ==== Sys2Proof/Decode.lean ====
section
/-! DEFINITION. Decoding and encoding. Three decoders, one per place a command is read from: the operation
word of the operation port (R90-R95), one engine's field of the SCB_CMD byte (R104), the command word of a TX
descriptor (R114). Each is total and refuses by name what the spec reserves. The encoder is written from the
same tables. -/

namespace Sys2Proof

/-- Why a word is no instruction. The operation port answers each of the first four with Fatal(IllegalOp)
(R94); the last two are commands no engine of the device has (R104, R114). -/
inductive DecodeError where
  | zeroFieldSet
  | unknownOp
  | selNotZero
  | selReserved
  | reservedCommandCode
  | reservedTxOp
deriving DecidableEq, Repr

/-! ### Fields of the operation word (R90, R95) -/

/-- `OP = OPW[7:0]`. -/
def opField (w : Word) : Byte := w.extractLsb' 0 8

/-- `SEL = OPW[15:8]`. -/
def selField (w : Word) : Byte := w.extractLsb' 8 8

/-- `ZERO = OPW[31:16]`. -/
def zeroField (w : Word) : Half := w.extractLsb' 16 16

/-- An operation for which R91 says SEL is 0. -/
def plainOp (sel : Byte) (i : Instr) : Except DecodeError Instr :=
  if sel = 0 then .ok i else .error .selNotZero

/-- `UNIT = OPW[8]`, that is SEL bit 0: 0 = CU, 1 = RU (R92). -/
def selUnit (sel : Byte) : Engine := if sel.getLsbD 0 then .ru else .cu

/-- SEL of `issue` (R92): UNIT in bit 0, RI in bit 1, bits 3:2 zero, CMD in bits 7:4. -/
def decodeIssue (sel : Byte) (a : BusAddr) : Except DecodeError Instr :=
  let ri := sel.getLsbD 1
  if sel.extractLsb' 2 2 ≠ 0 then .error .selReserved
  else match selUnit sel, (sel.extractLsb' 4 4).toNat with
    | .cu, 0 => .ok (.issueCuLoadBase ri a)
    | .ru, 0 => .ok (.issueRuLoadBase ri a)
    | .cu, 1 => .ok (.issueCuStart ri a)
    | .ru, 1 => .ok (.issueRuStart ri a)
    | .cu, 2 => .ok (.issueCuDumpStatistics ri a)
    | _, _ => .error .selReserved

/-- SEL of `read_phy` (R93): the register number in bits 4:0, bits 7:5 zero. -/
def decodePhySel (sel : Byte) : Except DecodeError Instr :=
  if sel.extractLsb' 5 3 ≠ 0 then .error .selReserved
  else .ok (.readPhy (sel.extractLsb' 0 5).toNat)

/-- SEL of `configure` (R93): three mode flags, bits 7:3 zero. -/
def decodeConfigureSel (sel : Byte) : Except DecodeError Instr :=
  if sel.extractLsb' 3 5 ≠ 0 then .error .selReserved
  else .ok (.configure { promiscuous := sel.getLsbD 0, multicast := sel.getLsbD 1, broadcast := sel.getLsbD 2 })

/-- The table of operation codes (R91), with the payload operands each code has. -/
def decodeOp (op : Byte) (sel : Byte) (p : Payload) : Except DecodeError Instr :=
  match op.toNat with
  | 0x01 => plainOp sel .rxPoll
  | 0x02 => .ok (.rxRecycle sel.toNat)
  | 0x04 => plainOp sel (.txAppend p.frame)
  | 0x05 => plainOp sel .txDrain
  | 0x10 => decodeIssue sel p.addr
  | 0x11 => plainOp sel .restartRu
  | 0x20 => plainOp sel .onInterrupt
  | 0x21 => plainOp sel .checkInterrupts
  | 0x30 => plainOp sel (.armTx p.client p.frame)
  | 0x31 => plainOp sel (.armRx p.client)
  | 0x32 => plainOp sel .replayTx
  | 0x33 => plainOp sel .replayRx
  | 0x40 => plainOp sel .watchdogTick
  | 0x50 => .ok (.readEeprom sel.toNat)
  | 0x51 => decodePhySel sel
  | 0x60 => decodeConfigureSel sel
  | 0x61 => plainOp sel (.transmit p.client p.frame)
  | 0x62 => plainOp sel (.receive p.client)
  | 0x63 => plainOp sel (.getStatistics p.client)
  | 0x70 => plainOp sel .reset
  | _ => .error .unknownOp

/-- Decode an operation request (R90, R94, R95). -/
def decodeOpw (w : Word) (p : Payload) : Except DecodeError Instr :=
  if zeroField w ≠ 0 then .error .zeroFieldSet else decodeOp (opField w) (selField w) p

/-- The `mask` and `match` of each row of the operation port (R95, `opcode_table.json`), in the table's order. -/
def opwRows : List (Word × Word) :=
  [(0xFFFFFFFF, 0x00000001), (0xFFFF00FF, 0x00000002), (0xFFFFFFFF, 0x00000004), (0xFFFFFFFF, 0x00000005)] ++
  [(0xFFFFFDFF, 0x00000010), (0xFFFFFDFF, 0x00000110), (0xFFFFFDFF, 0x00001010), (0xFFFFFDFF, 0x00001110)] ++
  [(0xFFFFFDFF, 0x00002010), (0xFFFFFFFF, 0x00000011), (0xFFFFFFFF, 0x00000020), (0xFFFFFFFF, 0x00000021)] ++
  [(0xFFFFFFFF, 0x00000030), (0xFFFFFFFF, 0x00000031), (0xFFFFFFFF, 0x00000032), (0xFFFFFFFF, 0x00000033)] ++
  [(0xFFFFFFFF, 0x00000040), (0xFFFF00FF, 0x00000050), (0xFFFFE0FF, 0x00000051), (0xFFFFF8FF, 0x00000060)] ++
  [(0xFFFFFFFF, 0x00000061), (0xFFFFFFFF, 0x00000062), (0xFFFFFFFF, 0x00000063), (0xFFFFFFFF, 0x00000070)]

/-! ### The device's commands -/

/-- `SCB_CMD` bits 7:4, the CU field (R104). -/
def scbCuField (b : Byte) : BitVec 4 := b.extractLsb' 4 4

/-- `SCB_CMD` bits 2:0, the RU field (R104). -/
def scbRuField (b : Byte) : BitVec 3 := b.extractLsb' 0 3

/-- The command a code of the CU field stands for (R104), `k` being the codes of the machine (R11). -/
def decodeCuCode (k : CmdCodes) (c : BitVec 4) : Except DecodeError Instr :=
  if c = 0 then .ok .scbCuNop
  else if c = k.cuStart then .ok .scbCuStart
  else if c = k.cuDumpStatistics then .ok .scbCuDumpStatistics
  else if c = k.cuLoadBase then .ok .scbCuLoadBase
  else .error .reservedCommandCode

/-- The command a code of the RU field stands for (R104), `k` being the codes of the machine (R11). -/
def decodeRuCode (k : CmdCodes) (c : BitVec 3) : Except DecodeError Instr :=
  if c = 0 then .ok .scbRuNop
  else if c = k.ruStart then .ok .scbRuStart
  else if c = k.ruLoadBase then .ok .scbRuLoadBase
  else .error .reservedCommandCode

/-- The command an engine reads from the SCB_CMD byte: its own field (R71, R104). -/
def decodeScbByte (k : CmdCodes) (e : Engine) (b : Byte) : Except DecodeError Instr :=
  match e with
  | .cu => decodeCuCode k (scbCuField b)
  | .ru => decodeRuCode k (scbRuField b)

/-- The engine an SCB_CMD byte is addressed to: the block always writes the other engine's field as 0 (R71),
so a byte whose CU field is 0 and whose RU field is not is a command to the RU. The byte 0 is two table rows,
the NOP of each engine; it is read as the CU's. -/
def scbByteEngine (b : Byte) : Engine :=
  if scbCuField b = 0 ∧ scbRuField b ≠ 0 then .ru else .cu

/-- The command the CU executes from a TX descriptor's command word (R114): OP in bits 2:0, EL in bit 15. -/
def decodeTxCommand (c : Half) : Except DecodeError Instr :=
  match (c.extractLsb' 0 3).toNat with
  | 0 => .ok (.txdOpNop (c.getLsbD 15))
  | 4 => .ok (.txdOpTx (c.getLsbD 15))
  | _ => .error .reservedTxOp

/-! ### Encoding -/

/-- The words of an instruction: an operation word with its payload, an engine's field of an SCB_CMD byte, or
a TX descriptor's command word. -/
inductive Encoded where
  | opw (w : Word) (p : Payload)
  | scb (e : Engine) (b : Byte)
  | txd (c : Half)
deriving DecidableEq, Repr

/-- Decode words of any of the three kinds; only SCB_CMD bytes depend on the machine's command codes. -/
def decode (k : CmdCodes) : Encoded → Except DecodeError Instr
  | .opw w p => decodeOpw w p
  | .scb e b => decodeScbByte k e b
  | .txd c => decodeTxCommand c

/-- An operation word from its SEL and OP fields, ZERO being 0 (R90). -/
def mkOpw (sel : Byte) (op : Byte) : Word := (0 : Half) ++ sel ++ op

/-- SEL of `issue` (R92). -/
def issueSel (e : Engine) (ri : Bool) (cmd : BitVec 4) : Byte :=
  cmd ++ (0 : BitVec 2) ++ BitVec.ofBool ri ++ BitVec.ofBool (e == .ru)

/-- SEL of `configure` (R93). -/
def configureSel (f : ModeFlags) : Byte :=
  (0 : BitVec 5) ++ BitVec.ofBool f.broadcast ++ BitVec.ofBool f.multicast ++ BitVec.ofBool f.promiscuous

/-- An operation without a SEL and without a payload. -/
def bareOp (op : Byte) : Encoded := .opw (mkOpw 0 op) Payload.zero

/-- An `issue` operation (R92). -/
def encodeIssue (e : Engine) (cmd : BitVec 4) (ri : Bool) (a : BusAddr) : Encoded :=
  .opw (mkOpw (issueSel e ri cmd) 0x10) { Payload.zero with addr := a }

/-- A TX descriptor command word (R114): EL in bit 15, bits 14:3 written 0, OP in bits 2:0. -/
def txCommandWord (el : Bool) (op : BitVec 3) : Half := BitVec.ofBool el ++ (0 : BitVec 12) ++ op

/-- An SCB_CMD byte with a code for the CU; the RU field and bit 3 are written 0 (R71, R104). -/
def scbCuByte (code : BitVec 4) : Byte := code ++ (0 : BitVec 4)

/-- An SCB_CMD byte with a code for the RU; the CU field and bit 3 are written 0 (R71, R104). -/
def scbRuByte (code : BitVec 3) : Byte := (0 : BitVec 5) ++ code

/-- The words of an instruction (R91-R93, R104, R114), `k` being the command codes of the machine (R11). -/
def encode (k : CmdCodes) : Instr → Encoded
  | .rxPoll => bareOp 0x01
  | .rxRecycle index => .opw (mkOpw (BitVec.ofNat 8 index) 0x02) Payload.zero
  | .txAppend frame => .opw (mkOpw 0 0x04) { Payload.zero with frame := frame }
  | .txDrain => bareOp 0x05
  | .issueCuLoadBase ri a => encodeIssue .cu 0 ri a
  | .issueRuLoadBase ri a => encodeIssue .ru 0 ri a
  | .issueCuStart ri a => encodeIssue .cu 1 ri a
  | .issueRuStart ri a => encodeIssue .ru 1 ri a
  | .issueCuDumpStatistics ri a => encodeIssue .cu 2 ri a
  | .restartRu => bareOp 0x11
  | .onInterrupt => bareOp 0x20
  | .checkInterrupts => bareOp 0x21
  | .armTx client frame => .opw (mkOpw 0 0x30) { Payload.zero with client := client, frame := frame }
  | .armRx client => .opw (mkOpw 0 0x31) { Payload.zero with client := client }
  | .replayTx => bareOp 0x32
  | .replayRx => bareOp 0x33
  | .watchdogTick => bareOp 0x40
  | .readEeprom reg => .opw (mkOpw (BitVec.ofNat 8 reg) 0x50) Payload.zero
  | .readPhy reg => .opw (mkOpw (BitVec.ofNat 8 reg) 0x51) Payload.zero
  | .configure flags => .opw (mkOpw (configureSel flags) 0x60) Payload.zero
  | .transmit client frame => .opw (mkOpw 0 0x61) { Payload.zero with client := client, frame := frame }
  | .receive client => .opw (mkOpw 0 0x62) { Payload.zero with client := client }
  | .getStatistics client => .opw (mkOpw 0 0x63) { Payload.zero with client := client }
  | .reset => bareOp 0x70
  | .scbCuNop => .scb .cu (scbCuByte 0)
  | .scbCuStart => .scb .cu (scbCuByte k.cuStart)
  | .scbCuDumpStatistics => .scb .cu (scbCuByte k.cuDumpStatistics)
  | .scbCuLoadBase => .scb .cu (scbCuByte k.cuLoadBase)
  | .scbRuNop => .scb .ru (scbRuByte 0)
  | .scbRuStart => .scb .ru (scbRuByte k.ruStart)
  | .scbRuLoadBase => .scb .ru (scbRuByte k.ruLoadBase)
  | .txdOpNop el => .txd (txCommandWord el 0)
  | .txdOpTx el => .txd (txCommandWord el 4)

/-! ### The host's view of the table -/

/-- Lay a table word out as the hardware stores it: 32 bits are an operation word with a zero payload, 8 bits
an SCB_CMD byte, 16 bits a TX descriptor's command word (the `format` of spec/opcode_table.json's rows). -/
def tableWord (nbits w : Nat) : Option Encoded :=
  match nbits with
  | 32 => some (.opw (BitVec.ofNat 32 w) Payload.zero)
  | 16 => some (.txd (BitVec.ofNat 16 w))
  | 8 => some (.scb (scbByteEngine (BitVec.ofNat 8 w)) (BitVec.ofNat 8 w))
  | _ => none

/-- The instruction the decoder reads from a table word, with the command codes of the table (R104). -/
def decodeTableWord (nbits w : Nat) : Option Instr :=
  match tableWord nbits w with
  | some x => (decode CmdCodes.table x).toOption
  | none => none

end Sys2Proof
end

