-- ==== Sys2Proof/Machine/State.lean ====
section
/-! DEFINITION. The state of the machine: the parameters, the external collaborators' answers, the context
record of the block (R20), the DMA memory, the outputs, and the device the block observes (R9, R39-R44). -/

namespace Sys2Proof.Machine

/-! ### Faults of the block: the sticky fault state -/

/-- `FatalReason` (R241): the closed list, in the order of its codes 1 to 18. Taking one is a NEXT state. -/
inductive FatalReason where
  | illegalOp
  | notStarted
  | precondition
  | rxError
  | rxLength
  | frameSize
  | ringInvariant
  | notIdle
  | cmdBusy
  | cmdTimeout
  | statsTimeout
  | doubleArm
  | serialBusy
  | serialRange
  | eepromWidth
  | mapFailed
  | misaligned
  | badBar
deriving DecidableEq, Repr

/-- The sequencer's control state (R21). It is a view of `fault` (R47), see `State.seq`. -/
inductive Seq where
  | ready
  | faulted
deriving DecidableEq, Repr

/-! ### Stops of the machine -/

/-- Why the machine stops with a fault of the host's interface. None is a `Fatal` of the block. -/
inductive Fault where
  /-- Raised by a CU or RU step whose fetch or fill address is in no region of DMA memory: R61, "an access outside those
  regions has no meaning". Safe: the machine stops. -/
  | outsideRegions
  /-- Raised by an access of the block to a descriptor whose index is not in `0 .. N-1`: R12, "Ring indices are integers in
  `0 .. N-1`", so no state the spec admits has one. Safe: the machine stops. -/
  | ringIndex
  /-- Raised by `tx_drain` when N_TX slots have been walked without meeting `tx_head`, which only an index
  outside `0 .. N-1` (R12) allows: R141, "the loop visits at most N_TX slots". Safe: the machine stops. -/
  | drainRunaway
  /-- Raised by a device engine that is given a code R104 or R114 reserves: no effect is stated for it and the
  block never writes one. Safe: the machine stops. -/
  | reservedDeviceCommand
deriving DecidableEq, Repr

/-- Why an instruction has no meaning. -/
inductive Refusal where
  /-- Raised by `exec` for an instruction that has no meaning yet (none is left). Safe. -/
  | notModelled (mnemonic : String)
deriving DecidableEq, Repr

/-! ### Block context -/

/-- `Pending<T> = Empty | Armed(T)` (R14, R29). -/
inductive Pending (α : Type) where
  | empty
  | armed (request : α)
deriving DecidableEq, Repr

/-- A `TxRequest` (R29): the client identity and the frame bytes. -/
structure TxRequest where
  client : Client
  frame  : Frame
deriving DecidableEq, Repr

/-- `ee_width : {Unknown, 6, 8}` (R38). -/
inductive EeWidth where
  | unknown
  | six
  | eight
deriving DecidableEq, Repr

/-- What an operation returns on the operation port (R14: `return X`), one constructor per result that the
operation rules name. -/
inductive OpResult where
  | ok
  | notReady
  | ready (index : Nat) (frame : Frame)
  | appended (index : Nat)
  | ringFull
  | retired (count : Nat)
  | spurious
  | handled (causes : Byte)
  | nothing
  | serialWord (value : Half)
  | hardwareAddress (a : Vector Byte 6)
  | sent
  | deferred
  | delivered
  | snapshot (counters : List Word)
  | absent
  /-- A request to a faulted block: no effect (R243; 93_implementation_defined.md behaviour 3). -/
  | refused
deriving DecidableEq, Repr

/-- The value of a `reply(client, value)` (R225): what R53 says each client operation answers. -/
inductive Reply where
  | ack
  | frame (bytes : Frame)
  | snapshot (counters : List Word)
  | address (a : Vector Byte 6)
deriving DecidableEq, Repr

/-! ### The event order -/

/-- The two agents that access shared memory (R9). -/
inductive Agent where
  | block
  | device
deriving DecidableEq, Repr

/-- One event of the total order of R74: a field or buffer access of the block or of the device, a port access
of the block (R71: the port is `BASE + REG_OFFSET`), or a `delay()` of the serial engine (R200). -/
inductive BusEvent where
  | memRead (who : Agent) (addr : BusAddr) (n : Nat)
  | memWrite (who : Agent) (addr : BusAddr) (bytes : List Byte)
  | portRead (port : Word) (value : Word)
  | portWrite (port : Word) (value : Word)
  | delay (us : Nat)
deriving DecidableEq, Repr

/-! ### The device -/

/-- `UnitState` (R39) with the reading of the reserved codes (R102). -/
inductive UnitState where
  | idle
  | suspended
  | noResources
  | ready
  | active
  | reserved
deriving DecidableEq, Repr

/-- `LogEvent` (R52); the state of a `CmdRace` is the decoded one (R102, R159); the link report is the fourth kind of
entry (92_eei_decisions.md D26). -/
inductive LogEvent where
  | unknownCause (bits : Byte)
  | cmdRace (e : Engine) (state : UnitState)
  | linkChange (old new : Half)
  | linkReport (snapshot : Half)
deriving DecidableEq, Repr

/-- What the serial EEPROM has received since it was selected (R205). -/
inductive EeSlave where
  /-- Not selected. -/
  | idle
  /-- Receiving the start bit and the opcode: the bits so far, newest first. -/
  | command (bits : List Bool)
  /-- Receiving the address: how many bits so far, and their value. -/
  | address (count : Nat) (value : Nat)
  /-- Presenting a word: how many clocks since the last address bit (0: the dummy zero). -/
  | data (word : Half) (clocks : Nat)
  /-- A command other than READ: the spec gives it no behaviour and the EEPROM drives nothing. -/
  | other
deriving DecidableEq, Repr

/-- What the PHY has received on the management lines (R207). -/
inductive PhySlave where
  /-- The lines are not routed to the PHY. -/
  | idle
  /-- The block drives the data line: the last 46 bits, oldest in the high bits. -/
  | listen (shift : BitVec 46)
  /-- The block released the line after a read frame addressed to the PHY: how many clocks since. -/
  | drive (word : Half) (clocks : Nat)
  /-- The block released the line and no frame was addressed to the PHY. -/
  | silent
deriving DecidableEq, Repr

/-- The device: its register block (R70), its engines (R262), the parts behind SER_CTL (R205, R207). -/
structure Device where
  /-- The 3-bit codes the device reports for its engines (R39, R102). -/
  cuCode : BitVec 3
  ruCode : BitVec 3
  /-- `SCB_CMD`, per engine the code written and not yet accepted (R40). -/
  cmdCu : BitVec 4
  cmdRu : BitVec 3
  /-- `SCB_PTR` (R41). -/
  scbPtr : Word
  /-- `SCB_ISR` (R42). -/
  scbIsr : Byte
  /-- `SER_CTL`, the outputs last written (R43); bit 3 (`DO`) is computed at a read. -/
  serCtl : Byte
  /-- The engines' base addresses (R262 move 1, `LOAD_BASE`). -/
  cuBase : BusAddr
  ruBase : BusAddr
  /-- The CU's fetch address and the RU's fill address (R262). -/
  cuFetch : BusAddr
  ruFill  : BusAddr
  /-- A dump is scheduled (R262 move 1, `DUMP_STATISTICS`). -/
  dumpPending : Bool
  /-- The internal statistics counters, STATS_WORDS of them (R44). -/
  counters : List Word
  /-- The configuration block the device has applied last (R262 move 2). -/
  appliedCfg : List Byte
  /-- The frames the CU has sent, oldest first (R262 move 2). -/
  wire : List Frame
  /-- The EEPROM and the PHY as slaves of the serial lines. -/
  ee  : EeSlave
  phy : PhySlave
  /-- `phy_reg[0..31]` (R207). -/
  phyReg : Vector Half 32
  /-- MODEL'S OWN: how many times an undriven serial line has been read; selects the next free level. -/
  lineReads : Nat
  /-- MODEL'S OWN: the draw for the status word of the CU step being taken (R262 move 2). -/
  cuDraw : Half
deriving DecidableEq, Repr

/-- The moves of the device (R262), each with the values that the spec leaves to a draw. -/
inductive DeviceMove where
  /-- Move 1: an engine accepts its pending command. -/
  | accept (e : Engine)
  /-- Move 2: a CU step, with the draw for the status word of a TX descriptor and the bytes it leaves in the
  configuration block if it executes that. -/
  | cuStep (status : Half) (doneBlock : List Byte)
  /-- Move 3: a frame arrives at the RU, with the draw for the status word. -/
  | ruStep (frame : Frame) (status : Half)
  /-- Move 4: the link state changes. -/
  | linkChange (value : Half)
  /-- Move 5: causes outside the four known ones. -/
  | spurious (bits : Byte)
  /-- Move 6: a scheduled dump, with the counters. -/
  | dump (counters : List Word)
  /-- Move 7: an engine's reported state becomes any code. -/
  | drift (e : Engine) (code : BitVec 3)
deriving DecidableEq, Repr

/-! ### Inputs -/

/-- What arrives at the machine between two steps: a request on the operation port (R90) or a device move. -/
inductive Input where
  | request (opw : Word) (payload : Payload)
  | device (move : DeviceMove)
deriving DecidableEq, Repr

/-- What happens during a bounded poll (R161): device moves, the block's reads, and the end of the time bound. -/
inductive PollEvent where
  | move (m : DeviceMove)
  | read
  | timeout
deriving DecidableEq, Repr

/-- A PCI function that `pci_locate` may find (R53, R271); the list of them is one for the whole run (log entry 36). -/
structure PciFunction where
  vendor   : BitVec 16
  device   : BitVec 16
  revision : Byte
  base     : Word
  irq      : Byte
deriving DecidableEq, Repr

/-- The answers of `map_to_bus_address` (R53, R72): `none`, or an index beyond a list, is a failure.
DESIGN CHOICE: answers of overlapping or equal regions are admitted (log entry 43). -/
structure BusMap where
  rx    : List (Option BusAddr)
  tx    : List (Option BusAddr)
  stats : Option BusAddr
  cfg   : Option BusAddr
deriving DecidableEq, Repr

/-! ### The state -/

/-- DMA memory (R60, R61): (address, byte) pairs in canonical form; an address not listed reads as 0. -/
abbrev Memory := List Host.Cell

/-- The canonical form: addresses strictly rising and below 2^32, no entry equal to the unlisted byte. -/
def Memory.wf (m : Memory) : Bool :=
  decide (m.Pairwise (fun c d => c.1 < d.1)) && m.all (fun c => c.1 < 2 ^ 32 && c.2 != 0)

structure State where
  /-- The parameters of R11. -/
  config : Config
  /-- Collaborators (R53): what `pci_locate` can find and what `map_to_bus_address` answers. -/
  pciBus : List PciFunction
  busMap : BusMap
  /-- The inputs to come, in order, and what happens during the bounded polls to come (free inputs, R14). -/
  agenda     : List Input
  pollScript : List PollEvent
  /-- The sticky fault state (R47) and the start-up mark (R48). -/
  fault   : Option FatalReason
  started : Bool
  /-- What `pci_locate` returned (R72). -/
  base : Word
  irq  : Byte
  /-- The cached bus addresses (R49). -/
  rxAddr    : List BusAddr
  txAddr    : List BusAddr
  statsAddr : BusAddr
  cfgAddr   : BusAddr
  /-- Ring indices, the idle flag and the retry threshold (R23, R24, R28). -/
  rxHead : Nat
  txHead : Nat
  txTail : Nat
  txIdle : Bool
  txThreshold : Byte
  /-- The pending-request slots (R29). -/
  pendTx : Pending TxRequest
  pendRx : Pending Client
  /-- Interrupt flags (R30), arm state (R31), restart mark (R32). -/
  fFr  : Bool
  fCna : Bool
  fRnr : Bool
  fSwi : Bool
  irqArmed : Bool
  rxNeedRestart : Bool
  /-- The configuration table and its pending mark (R33). -/
  cfg : List Byte
  cfgPending : Bool
  /-- Watchdog state (R34-R36). -/
  linkSnapshot : Half
  linkReportPending : Bool
  txAlive   : Bool
  needReset : Bool
  /-- Serial engine state (R37, R38, R200). -/
  serBusy : Bool
  eeWidth : EeWidth
  lines   : Byte
  /-- The hardware address (R46), in the byte order of R271. -/
  hwAddr : Vector Byte 6
  /-- DMA memory: both rings, the statistics region, the configuration block (R60). -/
  mem : Memory
  /-- Outputs: the diagnostic log (R52), the operation port's results (R14), the replies (R225), each with the client
  its request names, if it names one, the link reports (R221); each oldest first. -/
  log     : List LogEvent
  results : List OpResult
  replies : List (Option Client × Reply)
  reports : List Half
  /-- MODEL'S OWN record of the total order of R74, newest first; no rule reads it, its length selects the next
  free value of SCB_STATUS and of what the device does not find (log entries 14, 15, 38, 41). -/
  events : List BusEvent
  /-- The device the block observes. -/
  dev : Device
deriving DecidableEq, Repr

/-- R21, R47: the sequencer is `Faulted` exactly while `fault` is not `None`. -/
def State.seq (s : State) : Seq := if s.fault.isSome then .faulted else .ready

/-- R29: `send_available` and `reading` are views of the pending slots. -/
def State.sendAvailable (s : State) : Bool := s.pendTx != .empty

@[inherit_doc State.sendAvailable]
def State.reading (s : State) : Bool := s.pendRx != .empty

/-- R181: the interrupt line is asserted while SCB_ISR is not 0. -/
def State.irqLine (s : State) : Bool := s.dev.scbIsr != 0

/-- The device at power-on. SCB_CMD, SCB_PTR, SCB_ISR and SER_CTL are 0 (R40-R43); every other field is
unspecified (R270) and holds the value the assumption log names (log entry 5). -/
def Device.reset : Device where
  cuCode := 0
  ruCode := 0
  cmdCu := 0
  cmdRu := 0
  scbPtr := 0
  scbIsr := 0
  serCtl := 0
  cuBase := 0
  ruBase := 0
  cuFetch := 0
  ruFill := 0
  dumpPending := false
  counters := List.replicate 4 0
  appliedCfg := []
  wire := []
  ee := .idle
  phy := .idle
  phyReg := (Vector.replicate 32 0).set 1 0x786D
  lineReads := 0
  cuDraw := 0

/-- The collaborator `map_to_bus_address` of the test vectors (95_test_vectors.md section 0). -/
def BusMap.bench : BusMap where
  rx := [some 0x00020000, some 0x00020800, some 0x00021000, some 0x00021800]
  tx := [some 0x00010000, some 0x00010800, some 0x00011000, some 0x00011800]
  stats := some 0x00030000
  cfg := some 0x00030800

/-- The PCI function of the test vectors: `BASE = 0xE000`. -/
def PciFunction.bench : PciFunction where
  vendor := 0x8086
  device := 0x1229
  revision := 8
  base := 0x0000E000
  irq := 0

/-- The power-on state of a new block instance (R270): `fault = None`, `started = false`, `ser_busy = false`,
`ee_width = Unknown`, `irq_armed = false`, `log` empty, both pending slots Empty; nothing requested yet. Every
other field is unspecified there and holds the value the assumption log names; the zeros of the address caches count as
descriptor addresses for a device that moves before the start-up sequence (log entry 40). -/
def State.reset : State where
  config := Config.bench
  pciBus := [PciFunction.bench]
  busMap := BusMap.bench
  agenda := []
  pollScript := []
  fault := none
  started := false
  base := 0
  irq := 0
  rxAddr := List.replicate 4 0
  txAddr := List.replicate 4 0
  statsAddr := 0
  cfgAddr := 0
  rxHead := 0
  txHead := 0
  txTail := 0
  txIdle := true
  txThreshold := 0
  pendTx := .empty
  pendRx := .empty
  fFr := false
  fCna := false
  fRnr := false
  fSwi := false
  irqArmed := false
  rxNeedRestart := false
  cfg := List.replicate 22 0
  cfgPending := false
  linkSnapshot := 0
  linkReportPending := false
  txAlive := true
  needReset := false
  serBusy := false
  eeWidth := .unknown
  lines := 0
  hwAddr := Vector.replicate 6 0
  mem := []
  log := []
  results := []
  replies := []
  reports := []
  events := []
  dev := Device.reset

end Sys2Proof.Machine
end

