-- ==== Sys2Proof/Machine/Ops.lean ====
section
/-! DEFINITION. The operations every rule is written with (R14): the operation monad, raising and taking a
Fatal (R240), the access primitives of DMA memory (R62-R64), the outputs, the frame of an operation on the
operation port and of a device move. -/

namespace Sys2Proof.Machine

/-! ### Operations -/

/-- Why an operation ends before its end: a `Fatal` of the block, or a stop of the machine. -/
inductive Stop where
  | fatal (r : FatalReason)
  | fault (f : Fault)
deriving DecidableEq, Repr

/-- A piece of an operation: it reads and writes the state and may end early; what it has written stays. -/
abbrev Op := EStateM Stop State

/-- `raise Fatal(r)` (R14, R240): end the operation; nothing after it runs, nothing before it is undone. -/
def raise {α : Type} (r : FatalReason) : Op α := throw (.fatal r)

/-- Stop the machine. -/
def stop {α : Type} (f : Fault) : Op α := throw (.fault f)

/-- Raise `Fatal(r)` unless a condition holds. -/
def require (b : Bool) (r : FatalReason) : Op Unit := if b then pure () else raise r

/-- Stop the machine unless a condition holds. -/
def assume (b : Bool) (f : Fault) : Op Unit := if b then pure () else stop f

/-- TAKING A FATAL (R240): `fault <- Some(r)` if `fault = None`; the first reason is kept. -/
def takeFatal (r : FatalReason) (s : State) : State :=
  { s with fault := match s.fault with | none => some r | some r0 => some r0 }

/-- An operation on the operation port: a faulted block accepts none (R243); a completed one returns its
result on the port; a raised Fatal is taken. -/
def runOperation (op : Op OpResult) (s : State) : Host.Outcome State Fault Refusal :=
  match s.fault with
  | some _ => .next { s with results := s.results ++ [.refused] }
  | none =>
    match op s with
    | .ok x t => .next { t with results := t.results ++ [x] }
    | .error (.fatal r) t => .next (takeFatal r t)
    | .error (.fault f) _ => .fault f

/-- A device move: it runs whether or not the block is faulted (R240). -/
def runDevice (op : Op Unit) (s : State) : Host.Outcome State Fault Refusal :=
  match op s with
  | .ok _ t => .next t
  | .error (.fatal r) t => .next (takeFatal r t)
  | .error (.fault f) _ => .fault f

/-- The precondition `started` (R15, R48). -/
def requireStarted : Op Unit := do
  let s ← get
  require s.started .notStarted

/-! ### Bytes (R62: little-endian) -/

/-- The value of a byte sequence whose first byte is the least significant. -/
def leNat : List Byte → Nat
  | [] => 0
  | b :: bs => b.toNat + 256 * leNat bs

/-- The `n` low bytes of a value, least significant first. -/
def leBytes : Nat → Nat → List Byte
  | 0, _ => []
  | n + 1, v => BitVec.ofNat 8 v :: leBytes n (v / 256)

/-! ### DMA memory -/

/-- The byte at an address; an address not listed reads as 0. -/
def Memory.read : Memory → Nat → Byte
  | [], _ => 0
  | c :: m, a => if c.1 = a then c.2 else Memory.read m a

/-- Put a cell in its place among rising addresses. -/
def Memory.insert : Memory → Nat → Byte → Memory
  | [], a, v => [(a, v)]
  | c :: m, a, v => if a < c.1 then (a, v) :: c :: m else c :: Memory.insert m a v

/-- Remove an address. -/
def Memory.erase (m : Memory) (a : Nat) : Memory := m.filter (fun c => c.1 != a)

/-- Write one byte, keeping the canonical form: writing the unlisted byte removes the entry. -/
def Memory.write (m : Memory) (a : Nat) (v : Byte) : Memory :=
  if v = 0 then m.erase a else (m.erase a).insert a v

/-- `n` bytes from a bus address on; bus addresses are 32 bits and wrap. -/
def Memory.readBytes (m : Memory) (a : BusAddr) : Nat → List Byte
  | 0 => []
  | n + 1 => m.read a.toNat :: m.readBytes (a + 1) n

/-- Store a byte sequence from a bus address on, in address order. -/
def Memory.writeBytes (m : Memory) (a : BusAddr) : List Byte → Memory
  | [] => m
  | b :: bs => (m.write a.toNat b).writeBytes (a + 1) bs

/-- Whether a bus address is one of the `n` from `a` on. -/
def inSpan (a : BusAddr) (n : Nat) (x : BusAddr) : Bool := (x - a).toNat < n

/-- One byte of DMA memory: how statements look at memory. -/
def State.byteAt (s : State) (x : BusAddr) : Byte := s.mem.read x.toNat

/-- A 16-bit field of DMA memory (R63). -/
def State.half (s : State) (a : BusAddr) : Half := BitVec.ofNat 16 (leNat (s.mem.readBytes a 2))

/-- A 32-bit field of DMA memory (R63). -/
def State.word (s : State) (a : BusAddr) : Word := BitVec.ofNat 32 (leNat (s.mem.readBytes a 4))

/-- Record an event of the order of R74. -/
def State.event (s : State) (e : BusEvent) : State := { s with events := e :: s.events }

/-- Store bytes as one event of an agent. -/
def State.store (s : State) (who : Agent) (a : BusAddr) (bytes : List Byte) : State :=
  { s with mem := s.mem.writeBytes a bytes, events := .memWrite who a bytes :: s.events }

/-- `MemRead(a, 2)` (R63). -/
def readHalf (who : Agent) (a : BusAddr) : Op Half := fun s => .ok (s.half a) (s.event (.memRead who a 2))

/-- `MemRead(a, 4)` (R63). -/
def readWord (who : Agent) (a : BusAddr) : Op Word := fun s => .ok (s.word a) (s.event (.memRead who a 4))

/-- A buffer read: `n` bytes in address order (R63). -/
def readBuffer (who : Agent) (a : BusAddr) (n : Nat) : Op (List Byte) :=
  fun s => .ok (s.mem.readBytes a n) (s.event (.memRead who a n))

/-- A buffer write: a byte sequence in address order (R63). -/
def writeBuffer (who : Agent) (a : BusAddr) (bytes : List Byte) : Op Unit :=
  fun s => .ok () (s.store who a bytes)

/-- `MemWrite(a, 1, v)` (R63). -/
def writeByte (who : Agent) (a : BusAddr) (v : Byte) : Op Unit := writeBuffer who a [v]

/-- `MemWrite(a, 2, v)` (R63). -/
def writeHalf (who : Agent) (a : BusAddr) (v : Half) : Op Unit := writeBuffer who a (leBytes 2 v.toNat)

/-- `MemWrite(a, 4, v)` (R63). -/
def writeWord (who : Agent) (a : BusAddr) (v : Word) : Op Unit := writeBuffer who a (leBytes 4 v.toNat)

/-! ### Outputs -/

/-- `log(event)` (R14, R52). -/
def logEvent (e : LogEvent) : Op Unit := modify fun s => { s with log := s.log ++ [e] }

/-- `reply(req, v)` (R14, R225). -/
def reply (c : Client) (v : Reply) : Op Unit := modify fun s => { s with replies := s.replies ++ [(some c, v)] }

/-- The reply to a request that names no client: `configure` has no payload (R91, R225). -/
def replyUnnamed (v : Reply) : Op Unit := modify fun s => { s with replies := s.replies ++ [(none, v)] }

/-! ### Ring indices (R12) -/

/-- `next(i) = (i + 1) mod N`. -/
def nextIdx (n i : Nat) : Nat := (i + 1) % n

/-- `prev(i) = (i + N - 1) mod N`. -/
def prevIdx (n i : Nat) : Nat := (i + n - 1) % n

end Sys2Proof.Machine
end

