-- ==== Sys2Proof/Machine/Operands.lean ====
section
/-! DEFINITION. The fields of the words the block and the device exchange: descriptor layouts (R65, R66) and
words (R110-R117), the SCB_STATUS codes (R102), the command codes (R104), the SER_CTL lines (R103). -/

namespace Sys2Proof.Machine

/-! ### Descriptor layouts: byte offsets from the descriptor's bus address (R65, R66) -/

/-- `status` of either ring. -/
def offStatus : BusAddr := 0

/-- `command` of either ring. -/
def offCommand : BusAddr := 2

/-- `link` of either ring. -/
def offLink : BusAddr := 4

/-- `received_length` (RX). -/
def offReceivedLength : BusAddr := 8

/-- `capacity` (RX). -/
def offCapacity : BusAddr := 10

/-- `byte_count` (TX). -/
def offByteCount : BusAddr := 8

/-- `thresh` (TX). -/
def offThresh : BusAddr := 10

/-- The reserved byte of a TX descriptor, "written 0". -/
def offReserved : BusAddr := 11

/-- `buffer` of either ring. -/
def offBuffer : BusAddr := 12

/-- The bytes before the buffer. -/
def headerSize : Nat := 12

/-- `RXD_SIZE` and `TXD_SIZE` (R65, R66): header and buffer, rounded up to a multiple of 4. -/
def descriptorSize (c : Config) : Nat := (headerSize + c.bufSize + 3) / 4 * 4

/-! ### Status words (R110, R113) -/

/-- `C`: bit 15 of either ring's status. -/
def statusC (w : Half) : Bool := w.getLsbD 15

/-- `OK`: bit 13 of either ring's status. -/
def statusOk (w : Half) : Bool := w.getLsbD 13

/-- `ERR`: bits 11:0 of an RX status. -/
def statusErr (w : Half) : BitVec 12 := w.extractLsb' 0 12

/-- `U`: bit 12 of a TX status (underrun-occurred). -/
def statusU (w : Half) : Bool := w.getLsbD 12

/-- A status word with `C = 1`, the other bits as drawn. -/
def completed (w : Half) : Half := w ||| 0x8000

/-! ### Command words (R111, R114) -/

/-- `EL`: bit 15 of either ring's command (end-of-list). -/
def commandEl (w : Half) : Bool := w.getLsbD 15

/-- `OP`: bits 2:0 of a TX command. -/
def commandOp (w : Half) : BitVec 3 := w.extractLsb' 0 3

/-- An RX command word `(EL = el, S = 0)`. -/
def rxCommandWord (el : Bool) : Half := BitVec.ofBool el ++ (0 : BitVec 15)

/-- `OP = NOP` (R114). -/
def opNop : BitVec 3 := 0

/-- `OP = TX` (R114). -/
def opTx : BitVec 3 := 4

/-! ### Lengths (R112, R115) -/

/-- `EOF` of `received_length`. -/
def lengthEof (w : Half) : Bool := w.getLsbD 15

/-- `F` of `received_length` (length-field-final). -/
def lengthFinal (w : Half) : Bool := w.getLsbD 14

/-- `COUNT` of `received_length`, selected by LEN_MASK. -/
def lengthCount (c : Config) (w : Half) : Nat := (w &&& c.lenMask).toNat

/-- `received_length` as the device writes it: `EOF = F = 1` and the length in 14 bits. -/
def lengthWord (n : Nat) : Half := 0xC000 ||| (BitVec.ofNat 14 n).setWidth 16

/-- `capacity`: 14 bits (R22). -/
def capacityOf (w : Half) : Nat := (w.extractLsb' 0 14).toNat

/-- `byte_count` as the block writes it: `EOF = 1`, `COUNT = n`, bit 14 zero. -/
def byteCountWord (n : Nat) : Half := 0x8000 ||| (BitVec.ofNat 14 n).setWidth 16

/-- `COUNT` of `byte_count`: bits 13:0. -/
def byteCount (w : Half) : Nat := (w.extractLsb' 0 14).toNat

/-! ### Unit states (R39, R102) -/

/-- The state a 3-bit code reports. -/
def unitStateOf (c : BitVec 3) : UnitState :=
  match c.toNat with
  | 0 => .idle
  | 1 => .suspended
  | 2 => .noResources
  | 4 => .ready
  | 5 => .active
  | _ => .reserved

/-- The codes the device moves to (R102). -/
def codeIdle : BitVec 3 := 0

@[inherit_doc codeIdle]
def codeNoResources : BitVec 3 := 2

@[inherit_doc codeIdle]
def codeReady : BitVec 3 := 4

@[inherit_doc codeIdle]
def codeActive : BitVec 3 := 5

/-- The SCB_STATUS byte: CUS in bits 6:4, RUS in bits 2:0; bits 7 and 3 have any value (R102,
93_implementation_defined.md behaviour 7). -/
def scbStatusByte (reserved : BitVec 2) (d : Device) : Byte :=
  reserved.extractLsb' 1 1 ++ d.cuCode ++ reserved.extractLsb' 0 1 ++ d.ruCode

/-- One engine's code in the SCB_STATUS byte. -/
def statusCode (e : Engine) (b : Byte) : BitVec 3 :=
  match e with
  | .cu => b.extractLsb' 4 3
  | .ru => b.extractLsb' 0 3

/-- The code an engine reports (R39). -/
def Device.unitCode (d : Device) : Engine → BitVec 3
  | .cu => d.cuCode
  | .ru => d.ruCode

/-! ### Commands (R104) -/

/-- The commands `issue` can write: DUMP_STATISTICS exists for the CU only (R92). -/
inductive EngineCommand where
  | cuLoadBase
  | cuStart
  | cuDumpStatistics
  | ruLoadBase
  | ruStart
deriving DecidableEq, Repr

/-- The engine of a command. -/
def EngineCommand.engine : EngineCommand → Engine
  | .cuLoadBase => .cu
  | .cuStart => .cu
  | .cuDumpStatistics => .cu
  | .ruLoadBase => .ru
  | .ruStart => .ru

/-- The byte written to SCB_CMD (R104, R160): the engine's code, the other engine's field 0. -/
def EngineCommand.byte (k : CmdCodes) : EngineCommand → Byte
  | .cuStart => scbCuByte k.cuStart
  | .cuDumpStatistics => scbCuByte k.cuDumpStatistics
  | .cuLoadBase => scbCuByte k.cuLoadBase
  | .ruStart => scbRuByte k.ruStart
  | .ruLoadBase => scbRuByte k.ruLoadBase

/-- The SCB_CMD byte as it reads back: CU field in bits 7:4, RU field in bits 2:0. -/
def scbCmdByte (d : Device) : Byte := d.cmdCu ++ (0 : BitVec 1) ++ d.cmdRu

/-- Whether one engine's field of an SCB_CMD byte is NOP (R40). -/
def fieldIsNop (e : Engine) (b : Byte) : Bool :=
  match e with
  | .cu => scbCuField b == 0
  | .ru => scbRuField b == 0

/-! ### Serial lines (R103) -/

/-- `SK`, the serial clock. -/
def lineSk : Byte := 0x01

/-- `CS`, the EEPROM chip select. -/
def lineCs : Byte := 0x02

/-- `DI`, the data from the block. -/
def lineDi : Byte := 0x04

/-- `OE`: the block drives the PHY data line. -/
def lineOe : Byte := 0x10

/-- `PSEL`: the lines go to the PHY. -/
def linePsel : Byte := 0x20

/-- The output bits of SER_CTL: `DO` is an input, bits 7:6 are written 0. -/
def lineOutputs : Byte := 0x37

/-- Drive one output line. -/
def setLine (lines : Byte) (line : Byte) (b : Bool) : Byte :=
  if b then lines ||| line else lines &&& ~~~line

/-- Whether a line is high. -/
def lineHigh (lines : Byte) (line : Byte) : Bool := lines &&& line != 0

/-- The number of address bits of a detected EEPROM width (R38); an undetected one has none. -/
def EeWidth.bits : EeWidth → Nat
  | .unknown => 0
  | .six => 6
  | .eight => 8

end Sys2Proof.Machine
end

