-- ==== Sys2Proof/Machine/Place.lean ====
section
/-! DEFINITION. What the device finds at an address it has been led to (R60, R61, R262), where it may write (R50, R262),
and its accesses to the fields of a descriptor: a field that is not there reads as a free value (log entry 41), and
nothing is written where the device may not write. -/

namespace Sys2Proof.Machine

/-! ### The regions -/

/-- The regions of R60: every descriptor, the statistics region with its completion word, the configuration
block; each with its size in bytes. -/
def regionsOf (c : Config) (rx tx : List BusAddr) (stats cfg : BusAddr) : List (BusAddr × Nat) :=
  rx.map (·, descriptorSize c) ++ tx.map (·, descriptorSize c) ++
    [(stats, 4 * c.statsWords + 4), (cfg, c.cfgBlockLen)]

/-- Whether an address is in one of the regions. -/
def State.inRegions (s : State) (a : BusAddr) : Bool :=
  (regionsOf s.config s.rxAddr s.txAddr s.statsAddr s.cfgAddr).any fun r => inSpan r.1 r.2 a

/-- Where the device may write (R50, R262): `status`, `received_length` and `buffer` of an RX descriptor, `status`
of a TX descriptor, the statistics region, the configuration block. -/
def State.deviceSpans (s : State) : List (BusAddr × Nat) :=
  s.rxAddr.flatMap (fun a => [(a + offStatus, 2), (a + offReceivedLength, 2), (a + offBuffer, s.config.bufSize)]) ++
    s.txAddr.map (fun a => (a + offStatus, 2)) ++
    [(s.statsAddr, 4 * s.config.statsWords + 4), (s.cfgAddr, s.config.cfgBlockLen)]

/-- Whether the device may write `n` bytes from an address on. -/
def State.deviceMayWrite (s : State) (a : BusAddr) (n : Nat) : Bool :=
  s.deviceSpans.any fun r => (a - r.1).toNat + n ≤ r.2

/-! ### What an engine finds at an address -/

/-- What an address is to one of the engines. -/
inductive Place where
  /-- A descriptor of the engine's ring: TX for the CU, RX for the RU. -/
  | own
  /-- A descriptor of the other ring. -/
  | other
  /-- The configuration block. -/
  | block
  /-- Another address of the regions of R60. -/
  | elsewhere
  /-- No address of the regions: an access has no meaning (R61). -/
  | outside
deriving DecidableEq, Repr

/-- The descriptors an engine works on (R163). -/
def State.ring (s : State) : Engine → List BusAddr
  | .cu => s.txAddr
  | .ru => s.rxAddr

/-- The descriptors of the other engine. -/
def State.otherRing (s : State) : Engine → List BusAddr
  | .cu => s.rxAddr
  | .ru => s.txAddr

/-- What an address is to an engine. DESIGN CHOICE: where the answers of `map_to_bus_address` coincide, which R72 does not
exclude, a descriptor of the engine's ring comes before one of the other ring, that before the configuration block, and that
before another place of the regions (log entry 43). -/
def State.placeOf (s : State) (e : Engine) (a : BusAddr) : Place :=
  if (s.ring e).contains a then .own
  else if (s.otherRing e).contains a then .other
  else if a = s.cfgAddr then .block
  else if s.inRegions a then .elsewhere
  else .outside

/-- Where `status`, `command` and `link` are: at a descriptor of either ring (R65, R66). -/
def Place.isDescriptor : Place → Bool
  | .own => true
  | .other => true
  | .block => false
  | .elsewhere => false
  | .outside => false

/-! ### The device's accesses -/

/-- A 16-bit field: where it is not there, its value is free. -/
def readField (there : Bool) (a : BusAddr) : Op Half := do
  let s ← get
  let value ← readHalf .device a
  pure (if there then value else (Config.absentField s.events.length).setWidth 16)

/-- A `link`: where it is not there, its value is free. -/
def readLink (there : Bool) (a : BusAddr) : Op Word := do
  let s ← get
  let value ← readWord .device a
  pure (if there then value else Config.absentField s.events.length)

/-- `n` bytes of a `buffer`: it has BUF_SIZE bytes where it is there, else none, and the bytes beyond are free. -/
def readFrame (there : Bool) (a : BusAddr) (n : Nat) : Op Frame := do
  let s ← get
  let held := if there then min n s.config.bufSize else 0
  let bytes ← readBuffer .device a held
  pure (bytes ++ (List.range (n - held)).map (Config.absentByte s.events.length))

/-- The state after a write that takes place only where the device may write (R50, R262). -/
def State.storeOwned (s : State) (a : BusAddr) (bytes : List Byte) : State :=
  if s.deviceMayWrite a bytes.length then s.store .device a bytes else s

@[inherit_doc State.storeOwned]
def writeOwned (a : BusAddr) (bytes : List Byte) : Op Unit := modify fun s => s.storeOwned a bytes

end Sys2Proof.Machine
end

