-- ==== Sys2Proof/Machine/Flags.lean ====
section
/-! DEFINITION. The flag computations: the causes of SCB_ISR (R101) and the interrupt flags the hard phase
sets (R180), the TX retry threshold (R143), the ring-full predicate (R27). -/

namespace Sys2Proof.Machine

/-- `FR`, frame-received. -/
def causeFr : Byte := 0x40

/-- `CNA`, CU-not-active. -/
def causeCna : Byte := 0x20

/-- `RNR`, RU-not-ready. -/
def causeRnr : Byte := 0x10

/-- `SWI`, software interrupt. -/
def causeSwi : Byte := 0x04

/-- The causes the block recognises. -/
def knownCauses : Byte := causeFr ||| causeCna ||| causeRnr ||| causeSwi

/-- The unrecognised bits of an SCB_ISR value: bits 7, 3, 1, 0. -/
def unknownCauses (v : Byte) : Byte := v &&& ~~~knownCauses

/-- Whether a cause is asserted. -/
def hasCause (v cause : Byte) : Bool := v &&& cause != 0

/-- Assert causes in SCB_ISR. -/
def Device.assertCause (d : Device) (cause : Byte) : Device := { d with scbIsr := d.scbIsr ||| cause }

/-- The flags the hard phase sets from the causes it read; a flag already 1 stays 1 (R180). -/
def setCauseFlags (v : Byte) (s : State) : State :=
  { s with
    fFr := s.fFr || hasCause v causeFr
    fCna := s.fCna || hasCause v causeCna
    fRnr := s.fRnr || hasCause v causeRnr
    fSwi := s.fSwi || hasCause v causeSwi }

/-- One underrun (R141, R143): add THRESH_STEP on unbounded integers, then clamp at THRESH_MAX. -/
def raiseThreshold (c : Config) (t : Byte) : Byte :=
  BitVec.ofNat 8 (min (t.toNat + c.threshStep) c.threshMax.toNat)

/-- `tx_full` (R27). -/
def State.txFull (s : State) : Bool := !s.txIdle && nextIdx s.config.nTx s.txHead == s.txTail

end Sys2Proof.Machine
end

