-- ==== Sys2Proof/Machine/Port.lean ====
section
/-! DEFINITION. The device's register space (R69-R71): what a port read returns and what a port write does,
with the deterministic reactions of the device (R262): the software interrupt, the selective reset, the two
slaves behind SER_CTL (R205, R207). -/

namespace Sys2Proof.Machine

/-- The registers the block reads (R70). -/
inductive ReadReg where
  | scbStatus
  | scbIsr
  | scbCmd
  | scbPtr
  | serCtl
deriving DecidableEq, Repr

/-- The registers the block writes (R70). -/
inductive WriteReg where
  | scbIsr
  | scbCmd
  | scbIcr
  | scbPtr
  | scbPort
  | serCtl
deriving DecidableEq, Repr

/-- `REG_OFFSET(r)`. -/
def ReadReg.offset (o : RegOffsets) : ReadReg → Nat
  | .scbStatus => o.scbStatus
  | .scbIsr => o.scbIsr
  | .scbCmd => o.scbCmd
  | .scbPtr => o.scbPtr
  | .serCtl => o.serCtl

@[inherit_doc ReadReg.offset]
def WriteReg.offset (o : RegOffsets) : WriteReg → Nat
  | .scbIsr => o.scbIsr
  | .scbCmd => o.scbCmd
  | .scbIcr => o.scbIcr
  | .scbPtr => o.scbPtr
  | .scbPort => o.scbPort
  | .serCtl => o.serCtl

/-- The port of a register: `BASE + REG_OFFSET(r)` (R71). -/
def State.readPort (s : State) (r : ReadReg) : Word := s.base + BitVec.ofNat 32 (r.offset s.config.regOffset)

@[inherit_doc State.readPort]
def State.writePort (s : State) (r : WriteReg) : Word := s.base + BitVec.ofNat 32 (r.offset s.config.regOffset)

/-! ### The EEPROM (R205) -/

/-- A rising clock edge at the selected EEPROM, `b` being the level of DI. The start bit and the READ opcode
are 1 1 0; then the address bits, the first the most significant; then one bit of the word at each clock. -/
def EeSlave.clock (c : Config) (b : Bool) : EeSlave → EeSlave
  | .idle => .idle
  | .command bits =>
    match bits with
    | [opHigh, start] => if start && opHigh && !b then .address 0 0 else .other
    | _ => .command (b :: bits)
  | .address count value =>
    let value' := 2 * value + b.toNat
    if count + 1 = c.eeDevWidth then .data (c.eeMem.getD value' 0) 0 else .address (count + 1) value'
  | .data word clocks => .data word (clocks + 1)
  | .other => .other

/-- The EEPROM sees new line levels: it is selected while `PSEL = 0` and `CS = 1`. -/
def EeSlave.onLines (c : Config) (old new : Byte) (e : EeSlave) : EeSlave :=
  if lineHigh new linePsel || !lineHigh new lineCs then .idle
  else
    let e' := match e with | .idle => .command [] | e => e
    if !lineHigh old lineSk && lineHigh new lineSk then e'.clock c (lineHigh new lineDi) else e'

/-- The level the EEPROM drives on DO: 1 while it receives its address, 0 after the last address bit, then the
word's bits, most significant first; otherwise it drives nothing. -/
def EeSlave.level : EeSlave → Option Bool
  | .address _ _ => some true
  | .data word clocks =>
    if clocks = 0 then some false else if clocks ≤ 16 then some (word.getLsbD (16 - clocks)) else none
  | .idle => none
  | .command _ => none
  | .other => none

/-! ### The PHY (R207) -/

/-- A read frame addressed to the PHY: 32 ones, start 01, opcode 10, the PHY's address, a register number. -/
def isReadFrame (c : Config) (f : BitVec 46) : Bool :=
  f.extractLsb' 14 32 == BitVec.allOnes 32 && f.extractLsb' 10 4 == 0b0110#4 && f.extractLsb' 5 5 == c.phyAddr

/-- The register number of a read frame. -/
def frameReg (f : BitVec 46) : BitVec 5 := f.extractLsb' 0 5

/-- `phy_reg[r]`. -/
def Device.phyRegister (d : Device) (r : BitVec 5) : Half := d.phyReg[r.toNat]

/-- The bits the PHY has taken in; it starts afresh when the block begins to drive the line. -/
def PhySlave.shift : PhySlave → BitVec 46
  | .listen f => f
  | .idle => 0
  | .drive _ _ => 0
  | .silent => 0

/-- The block does not drive the data line: after a read frame addressed to the PHY it starts to answer. -/
def PhySlave.release (c : Config) (reg : BitVec 5 → Half) : PhySlave → PhySlave
  | .listen f => if c.phyPresent && isReadFrame c f then .drive (reg (frameReg f)) 0 else .silent
  | .drive w k => .drive w k
  | .idle => .silent
  | .silent => .silent

/-- A rising clock edge while the block does not drive the data line. -/
def PhySlave.tick : PhySlave → PhySlave
  | .drive w k => .drive w (k + 1)
  | .idle => .idle
  | .listen f => .listen f
  | .silent => .silent

/-- Take in one bit. -/
def shiftBit (f : BitVec 46) (b : Bool) : BitVec 46 := f <<< 1 ||| (BitVec.ofBool b).setWidth 46

/-- The PHY sees new line levels. While the block drives the data line the PHY takes in DI at each rising
clock edge; when the block has released the line after a read frame, the PHY counts clocks. -/
def PhySlave.onLines (c : Config) (reg : BitVec 5 → Half) (old new : Byte) (p : PhySlave) : PhySlave :=
  let rise := !lineHigh old lineSk && lineHigh new lineSk
  if !lineHigh new linePsel then .idle
  else if lineHigh new lineOe then
    if rise then .listen (shiftBit p.shift (lineHigh new lineDi)) else .listen p.shift
  else if rise then (p.release c reg).tick else p.release c reg

/-- The level the PHY drives on DO: nothing for the two turnaround clocks, then the register's 16 bits, most
significant first. -/
def PhySlave.level : PhySlave → Option Bool
  | .drive w k => if 3 ≤ k && k ≤ 18 then some (w.getLsbD (18 - k)) else none
  | .idle => none
  | .listen _ => none
  | .silent => none

/-! ### SER_CTL -/

/-- A write of SER_CTL (R103): the outputs change (DO and bits 7:6 are not stored) and both slaves see it. -/
def Device.writeSerCtl (c : Config) (v : Byte) (d : Device) : Device :=
  let new := v &&& lineOutputs
  { d with serCtl := new, ee := d.ee.onLines c d.serCtl new, phy := d.phy.onLines c d.phyRegister d.serCtl new }

/-- The level driven on DO by the slave the lines are routed to. -/
def Device.doLevel (d : Device) : Option Bool :=
  if lineHigh d.serCtl linePsel then d.phy.level else d.ee.level

/-- The level DO reads: the driven level, or a free value. -/
def Device.doBit (d : Device) : Bool :=
  match d.doLevel with
  | some b => b
  | none => Config.floatingLine d.lineReads

/-- The SER_CTL byte as it reads: the outputs, and DO in bit 3. -/
def Device.serCtlByte (d : Device) : Byte := d.serCtl ||| ((BitVec.ofBool d.doBit).setWidth 8 <<< 3)

/-- A read of SER_CTL uses up a free level if no slave drives the line. -/
def Device.readSerCtl (d : Device) : Device :=
  match d.doLevel with
  | some _ => d
  | none => { d with lineReads := d.lineReads + 1 }

/-! ### Reads and writes -/

/-- What a read of a register returns (R70), 8-bit registers zero-extended; `reserved` are the bits of SCB_STATUS that
have any value. -/
def Device.registerValue (d : Device) (reserved : BitVec 2) : ReadReg → Word
  | .scbStatus => (scbStatusByte reserved d).setWidth 32
  | .scbIsr => d.scbIsr.setWidth 32
  | .scbCmd => (scbCmdByte d).setWidth 32
  | .scbPtr => d.scbPtr
  | .serCtl => d.serCtlByte.setWidth 32

/-- The device after a read of a register: only the free line levels move on. -/
def Device.afterRead (d : Device) : ReadReg → Device
  | .scbStatus => d
  | .scbIsr => d
  | .scbCmd => d
  | .scbPtr => d
  | .serCtl => d.readSerCtl

/-- A write to SCB_CMD (R71): each field written 0 leaves that engine's pending code unchanged. -/
def Device.writeScbCmd (b : Byte) (d : Device) : Device :=
  { d with
    cmdCu := if scbCuField b = 0 then d.cmdCu else scbCuField b
    cmdRu := if scbRuField b = 0 then d.cmdRu else scbRuField b }

/-- A write to SCB_PORT (R70): 2 is the selective reset, which idles both engines and empties SCB_CMD. -/
def Device.writeScbPort (v : Word) (d : Device) : Device :=
  if v = 2 then { d with cuCode := codeIdle, ruCode := codeIdle, cmdCu := 0, cmdRu := 0 } else d

/-- The device after a write of a register (R70, R71); an 8-bit register takes the low byte. -/
def Device.writeRegister (c : Config) (v : Word) (d : Device) : WriteReg → Device
  | .scbIsr => { d with scbIsr := d.scbIsr &&& ~~~(v.setWidth 8) }
  | .scbCmd => d.writeScbCmd (v.setWidth 8)
  | .scbIcr => if v.getLsbD 1 then d.assertCause causeSwi else d
  | .scbPtr => { d with scbPtr := v }
  | .scbPort => d.writeScbPort v
  | .serCtl => d.writeSerCtl c (v.setWidth 8)

/-- The free bits of the next read of SCB_STATUS. -/
def State.statusReserved (s : State) : BitVec 2 := Config.statusReserved s.events.length

/-- `PortRead(r)` (R14, R71). -/
def portRead (r : ReadReg) : Op Word := fun s =>
  let v := s.dev.registerValue s.statusReserved r
  .ok v { s with dev := s.dev.afterRead r, events := .portRead (s.readPort r) v :: s.events }

/-- `PortWrite(r, v)` (R14, R71). -/
def portWrite (r : WriteReg) (v : Word) : Op Unit := fun s =>
  .ok () { s with
    dev := s.dev.writeRegister s.config v r
    events := .portWrite (s.writePort r) v :: s.events }

/-- The read of `unit_state(u)` (R159): the engine's code in the SCB_STATUS byte that is read. That byte has free bits,
so the code is taken from the device, where the byte has it: `statusCode e (scbStatusByte r d) = d.unitCode e` for
every `r` (lemma statusCode_scbStatusByte). -/
def readUnitCode (e : Engine) : Op (BitVec 3) := do
  let s ← get
  let _ ← portRead .scbStatus
  pure (s.dev.unitCode e)

/-- Whether an engine's SCB_CMD field reads NOP. -/
def readFieldIsNop (e : Engine) : Op Bool := do
  let v ← portRead .scbCmd
  pure (fieldIsNop e (v.setWidth 8))

/-- `raise_swi()` (R186). -/
def raiseSwi : Op Unit := portWrite .scbIcr 0x02

end Sys2Proof.Machine
end

