-- ==== Sys2Proof/Machine/Device.lean ====
section
/-! DEFINITION. The device agent (R262): what each command of its engines does, and its seven moves. A move
that is not admitted in a state has no effect there. -/

namespace Sys2Proof.Machine

/-- Change the device. -/
def modifyDevice (f : Device → Device) : Op Unit := modify fun s => { s with dev := f s.dev }

/-! ### Move 1: accepting a command -/

/-- Accept CU START: the CU runs from SCB_PTR. -/
def acceptCuStart (d : Device) : Device := { d with cmdCu := 0, cuCode := codeActive, cuFetch := d.scbPtr }

/-- Accept CU DUMP_STATISTICS: a dump is scheduled. -/
def acceptCuDumpStatistics (d : Device) : Device := { d with cmdCu := 0, dumpPending := true }

/-- Accept CU LOAD_BASE: the base is SCB_PTR. -/
def acceptCuLoadBase (d : Device) : Device := { d with cmdCu := 0, cuBase := d.scbPtr }

/-- Accept RU START: the RU fills from SCB_PTR. -/
def acceptRuStart (d : Device) : Device := { d with cmdRu := 0, ruCode := codeReady, ruFill := d.scbPtr }

/-- Accept RU LOAD_BASE: the base is SCB_PTR. -/
def acceptRuLoadBase (d : Device) : Device := { d with cmdRu := 0, ruBase := d.scbPtr }

/-- The command an engine finds in its SCB_CMD field. -/
def State.pendingCommand (s : State) (e : Engine) : Except DecodeError Instr :=
  decodeScbByte s.config.cmdCodes e (scbCmdByte s.dev)

/-- Move 1: the engine accepts what its field holds. NOP is "no operation pending" (R40): nothing happens. -/
def acceptMove (e : Engine) : Op Unit := do
  let s ← get
  match s.pendingCommand e with
  | .ok .scbCuStart => modifyDevice acceptCuStart
  | .ok .scbCuDumpStatistics => modifyDevice acceptCuDumpStatistics
  | .ok .scbCuLoadBase => modifyDevice acceptCuLoadBase
  | .ok .scbRuStart => modifyDevice acceptRuStart
  | .ok .scbRuLoadBase => modifyDevice acceptRuLoadBase
  | .ok _ => pure ()
  | .error _ => stop .reservedDeviceCommand

/-! ### Move 2: a CU step -/

/-- The end of a command the CU executed: at an end-of-list mark it goes idle and asserts CNA, else it goes on to the
descriptor's link. -/
def cuFinish (there : Bool) (a : BusAddr) (el : Bool) : Op Unit :=
  if el then modifyDevice fun d => { d with cuCode := codeIdle, scbIsr := d.scbIsr ||| causeCna }
  else do
    let link ← readLink there (a + offLink)
    modifyDevice fun d => { d with cuFetch := link }

/-- `OP = NOP`: the status gets `C = 1`. -/
def cuNop (el : Bool) (p : Place) (a : BusAddr) : Op Unit := do
  let st ← readField p.isDescriptor (a + offStatus)
  writeOwned (a + offStatus) (leBytes 2 (completed st).toNat)
  cuFinish p.isDescriptor a el

/-- `OP = TX`: COUNT bytes of the buffer are sent, then the status is written, with `C = 1`, last. Bytes that the buffer
does not have, and a COUNT where there is no byte_count, are free (log entries 14, 41). -/
def cuTransmit (el : Bool) (p : Place) (a : BusAddr) : Op Unit := do
  let s ← get
  let bc ← readField (p == .own) (a + offByteCount)
  let frame ← readFrame p.isDescriptor (a + offBuffer) (byteCount bc)
  modifyDevice fun d => { d with wire := d.wire ++ [frame] }
  writeOwned (a + offStatus) (leBytes 2 (completed s.dev.cuDraw).toNat)
  cuFinish p.isDescriptor a el

/-- A command executed at the fetch address; only an active CU executes one. Outside the regions it stops (R61, log
entry 8); inside them, at no TX descriptor, what is not there is free (log entry 41); which addresses count before the
start-up sequence is log entry 40. -/
def cuExecute (body : Place → BusAddr → Op Unit) : Op Unit := do
  let s ← get
  if unitStateOf s.dev.cuCode = .active then do
    let p := s.placeOf .cu s.dev.cuFetch
    assume (p != .outside) .outsideRegions
    body p s.dev.cuFetch
  else pure ()

/-- The configuration block (R169): the device applies it and completes it, and the block ends the chain. Its
format is not in the source, so the bytes the device leaves in it are a draw. -/
def cuConfigure (doneBlock : List Byte) : Op Unit := do
  let s ← get
  let block ← readBuffer .device s.cfgAddr s.config.cfgBlockLen
  modifyDevice fun d => { d with appliedCfg := block }
  writeBuffer .device s.cfgAddr (doneBlock.take s.config.cfgBlockLen)
  cuFinish false s.cfgAddr true

/-- The command a free value stands for, where there is no descriptor: NOP or TX, with the mark or without. -/
def absentCommand (v : Word) : Half := txCommandWord (v.getLsbD 15) (if v.getLsbD 0 then opTx else opNop)

/-- The command the CU reads at its fetch address: the one of the descriptor there, as it stands; where there is none, a
free one. -/
def State.cuCommand (s : State) : Half :=
  if (s.placeOf .cu s.dev.cuFetch).isDescriptor then s.half (s.dev.cuFetch + offCommand)
  else absentCommand (Config.absentField s.events.length)

/-- The CU fetches the command (one event of R74), then executes it. -/
def cuFetchAndExecute : Op Unit := do
  let s ← get
  let _ ← readHalf .device (s.dev.cuFetch + offCommand)
  match decodeTxCommand s.cuCommand with
  | .ok (.txdOpNop el) => cuExecute (cuNop el)
  | .ok (.txdOpTx el) => cuExecute (cuTransmit el)
  | _ => stop .reservedDeviceCommand

/-- Move 2: the configuration block is applied; at any other address of the regions a command is fetched and executed.
DESIGN CHOICE: so it is at an RX descriptor and where there is no descriptor (log entry 41); before the start-up sequence
the cached addresses are the power-on zeros, and a step at address 0 is one at a descriptor (log entry 40). -/
def cuStepMove (status : Half) (doneBlock : List Byte) : Op Unit := do
  modifyDevice fun d => { d with cuDraw := status }
  let s ← get
  if unitStateOf s.dev.cuCode = .active then
    match s.placeOf .cu s.dev.cuFetch with
    | .own => cuFetchAndExecute
    | .other => cuFetchAndExecute
    | .block => cuConfigure doneBlock
    | .elsewhere => cuFetchAndExecute
    | .outside => stop .outsideRegions
  else pure ()

/-! ### Move 3: an RU step -/

/-- The length that is reported for a frame of which `stored` bytes went to the buffer (log entry 15): that number, but
free where the descriptor claims to hold more than its buffer and the frame is longer than the buffer. -/
def reportedLength (s : State) (capacity length stored : Nat) : Nat :=
  if s.config.bufSize < capacity ∧ s.config.bufSize < length then (Config.overlongLength s.events.length).toNat
  else stored

/-- The end of an RU step: FR is asserted; at an end-of-list mark the RU has no resources and RNR is asserted, else it goes
on to the descriptor's link. -/
def ruFinish (there : Bool) (a : BusAddr) : Op Unit := do
  modifyDevice (·.assertCause causeFr)
  let command ← readField there (a + offCommand)
  if commandEl command then
    modifyDevice fun d => { d with ruCode := codeNoResources, scbIsr := d.scbIsr ||| causeRnr }
  else do
    let link ← readLink there (a + offLink)
    modifyDevice fun d => { d with ruFill := link }

/-- Fill the descriptor at `a` with a frame: buffer, then received_length, then status, last. The buffer has BUF_SIZE
bytes, whatever the capacity says. -/
def ruFillDescriptor (p : Place) (a : BusAddr) (frame : Frame) (status : Half) : Op Unit := do
  let s ← get
  let cap ← readField (p == .own) (a + offCapacity)
  let bytes := frame.take (min (capacityOf cap) s.config.bufSize)
  let length := reportedLength s (capacityOf cap) frame.length bytes.length
  writeOwned (a + offBuffer) bytes
  writeOwned (a + offReceivedLength) (leBytes 2 (lengthWord length).toNat)
  writeOwned (a + offStatus) (leBytes 2 (completed status).toNat)
  ruFinish p.isDescriptor a

/-- Move 3: only while the RU is ready. Outside the regions it stops (R61, log entry 8). DESIGN CHOICE: inside them, at no
RX descriptor, what is not there is free (log entry 41); before the start-up sequence a step at address 0 is one at a
descriptor (log entry 40). -/
def ruStepMove (frame : Frame) (status : Half) : Op Unit := do
  let s ← get
  if unitStateOf s.dev.ruCode = .ready then do
    let p := s.placeOf .ru s.dev.ruFill
    assume (p != .outside) .outsideRegions
    ruFillDescriptor p s.dev.ruFill frame status
  else pure ()

/-! ### Move 6: a dump -/

/-- The counters of a dump: STATS_WORDS of them. -/
def dumpCounters (c : Config) (counters : List Word) : List Word :=
  (List.range c.statsWords).map fun k => counters.getD k 0

/-- `stats_done` follows the counters (R45). -/
def State.statsDoneAddr (s : State) : BusAddr := s.statsAddr + BitVec.ofNat 32 (4 * s.config.statsWords)

/-- Write 32-bit words one after another. -/
def writeWords (who : Agent) (a : BusAddr) : List Word → Op Unit
  | [] => pure ()
  | w :: ws => do
    writeWord who a w
    writeWords who (a + 4) ws

/-- Move 6: a scheduled dump writes the counters, then the magic. -/
def dumpMove (counters : List Word) : Op Unit := do
  let s ← get
  if s.dev.dumpPending then do
    let values := dumpCounters s.config counters
    modifyDevice fun d => { d with counters := values, dumpPending := false }
    writeWords .device s.statsAddr values
    writeWord .device s.statsDoneAddr s.config.dumpMagic
  else pure ()

/-! ### The moves -/

/-- Move 4: `phy_reg[PHY_STATUS_REG]` changes. -/
def linkMove (value : Half) : Op Unit := do
  let s ← get
  modifyDevice fun d => { d with phyReg := d.phyReg.set s.config.phyStatusReg.toNat value }

/-- Move 5: causes outside the known ones. -/
def spuriousMove (bits : Byte) : Op Unit := modifyDevice (·.assertCause (unknownCauses bits))

/-- Move 7: an engine reports any code. -/
def driftMove (e : Engine) (code : BitVec 3) : Op Unit :=
  match e with
  | .cu => modifyDevice fun d => { d with cuCode := code }
  | .ru => modifyDevice fun d => { d with ruCode := code }

/-- One move of the device. -/
def deviceMove : DeviceMove → Op Unit
  | .accept e => acceptMove e
  | .cuStep status doneBlock => cuStepMove status doneBlock
  | .ruStep frame status => ruStepMove frame status
  | .linkChange value => linkMove value
  | .spurious bits => spuriousMove bits
  | .dump counters => dumpMove counters
  | .drift e code => driftMove e code

end Sys2Proof.Machine
end

