-- ==== Sys2Proof/Machine/Descriptor.lean ====
section
/-! DEFINITION. The block's access to descriptors: the cached bus addresses (R49), ring initialisation (R145,
R146), the descriptor fill (R137). -/

namespace Sys2Proof.Machine

/-- `rx_addr[i]` (R49). -/
def rxAddrOf (i : Nat) : Op BusAddr := do
  let s ← get
  match s.rxAddr[i]? with
  | some a => pure a
  | none => stop .ringIndex

/-- `tx_addr[i]` (R49). -/
def txAddrOf (i : Nat) : Op BusAddr := do
  let s ← get
  match s.txAddr[i]? with
  | some a => pure a
  | none => stop .ringIndex

/-! ### rx_init (R145) -/

/-- One descriptor of `rx_init`. -/
def rxInitSlot (i : Nat) : Op Unit := do
  let s ← get
  let a ← rxAddrOf i
  writeHalf .block (a + offStatus) 0
  writeHalf .block (a + offReceivedLength) 0
  writeHalf .block (a + offCapacity) (BitVec.ofNat 16 s.config.bufSize)
  let link ← rxAddrOf (nextIdx s.config.nRx i)
  writeWord .block (a + offLink) link
  writeHalf .block (a + offCommand) (rxCommandWord (i + 1 == s.config.nRx))

/-- The loop over the slots `i, i + 1, …` (`count` of them). -/
def rxInitLoop (i : Nat) : Nat → Op Unit
  | 0 => pure ()
  | count + 1 => do
    rxInitSlot i
    rxInitLoop (i + 1) count

/-- `rx_init()`. -/
def rxInit : Op Unit := do
  let s ← get
  rxInitLoop 0 s.config.nRx
  modify fun s => { s with rxHead := 0 }

/-! ### tx_init (R146) -/

/-- One descriptor of `tx_init`; the reserved byte is "written 0" (R66) with `thresh`. -/
def txInitSlot (i : Nat) : Op Unit := do
  let s ← get
  let a ← txAddrOf i
  writeHalf .block (a + offStatus) 0
  writeHalf .block (a + offByteCount) 0
  writeByte .block (a + offThresh) 0
  writeByte .block (a + offReserved) 0
  let link ← txAddrOf (nextIdx s.config.nTx i)
  writeWord .block (a + offLink) link
  writeHalf .block (a + offCommand) (txCommandWord (i == 0) opNop)

/-- The loop over the slots `i, i + 1, …` (`count` of them). -/
def txInitLoop (i : Nat) : Nat → Op Unit
  | 0 => pure ()
  | count + 1 => do
    txInitSlot i
    txInitLoop (i + 1) count

/-- `tx_init()`. -/
def txInit : Op Unit := do
  let s ← get
  txInitLoop 0 s.config.nTx
  modify fun s => { s with txHead := 0, txTail := 0, txIdle := true }

/-! ### write_slot (R137) -/

/-- `write_slot(k, frame)`: status, byte_count, thresh, buffer, command, in this order. -/
def writeSlot (k : Nat) (frame : Frame) : Op Unit := do
  let s ← get
  let a ← txAddrOf k
  writeHalf .block (a + offStatus) 0
  writeHalf .block (a + offByteCount) (byteCountWord frame.length)
  writeByte .block (a + offThresh) s.txThreshold
  writeBuffer .block (a + offBuffer) frame
  writeHalf .block (a + offCommand) (txCommandWord true opTx)

end Sys2Proof.Machine
end

