-- ==== Sys2Proof/Machine/Command.lean ====
section
/-! DEFINITION. The CU/RU command issuer (41_command.md): the bounded poll, `issue`, the configuration command,
the RU restart; and the meanings of the `issue` rows and of `restart_ru`. -/

namespace Sys2Proof.Machine

/-- What is left of the poll script. -/
def setPollScript (rest : List PollEvent) : Op Unit := modify fun s => { s with pollScript := rest }

/-- The bounded poll (R161): device moves happen, the block reads; the first read for which the condition holds
ends it; when the bound is reached, the time is over or nothing more happens, it raises the caller's fault. The
number is how many reads are left. -/
def awaitLoop (test : Op Bool) (r : FatalReason) : List PollEvent → Nat → Op Unit
  | rest, 0 => do
    setPollScript rest
    raise r
  | [], _ + 1 => do
    setPollScript []
    let b ← test
    require b r
  | .timeout :: rest, _ + 1 => do
    setPollScript rest
    raise r
  | .move m :: rest, n + 1 => do
    deviceMove m
    awaitLoop test r rest (n + 1)
  | .read :: rest, n + 1 => do
    let b ← test
    if b then setPollScript rest else awaitLoop test r rest n

/-- `await_device(cond, bound)` (R161). -/
def awaitDevice (test : Op Bool) (bound : Nat) (r : FatalReason) : Op Unit := do
  let s ← get
  awaitLoop test r s.pollScript bound

/-- The poll bound of an engine's command acceptance (R167). -/
def State.pollBound (s : State) : Engine → Nat
  | .cu => s.config.cuPollBound
  | .ru => s.config.ruPollBound

/-- Whether `stats_done` holds the magic. -/
def readStatsDone : Op Bool := do
  let s ← get
  let v ← readWord .block s.statsDoneAddr
  pure (v == s.config.dumpMagic)

/-- `require_idle` (R160): an engine that is not idle is a fault; without it the state is not read. -/
def checkIdle (e : Engine) (ri : Bool) : Op Unit :=
  if ri then do
    let code ← readUnitCode e
    require (unitStateOf code == .idle) .notIdle
  else pure ()

/-- Before a dump (R160, R166): the address must be `stats_addr`, and `stats_done` is cleared. -/
def prepareDump (cmd : EngineCommand) (a : BusAddr) : Op Unit := do
  let s ← get
  if cmd = .cuDumpStatistics then do
    require (a == s.statsAddr) .precondition
    writeWord .block s.statsDoneAddr 0
  else pure ()

/-- After a dump was accepted: wait for the magic. -/
def awaitDump (cmd : EngineCommand) : Op Unit := do
  let s ← get
  if cmd = .cuDumpStatistics then awaitDevice readStatsDone s.config.statsPollBound .statsTimeout else pure ()

/-- `issue(unit, cmd, bus_address, require_idle)` (R160). -/
def issue (cmd : EngineCommand) (a : BusAddr) (ri : Bool) : Op Unit := do
  checkIdle cmd.engine ri
  let nop ← readFieldIsNop cmd.engine
  require nop .cmdBusy
  prepareDump cmd a
  let s ← get
  portWrite .scbPtr a
  portWrite .scbCmd ((cmd.byte s.config.cmdCodes).setWidth 32)
  awaitDevice (readFieldIsNop cmd.engine) (s.pollBound cmd.engine) .cmdTimeout
  awaitDump cmd

/-- `issue` on the operation port. -/
def issueOp (cmd : EngineCommand) (a : BusAddr) (ri : Bool) : Op OpResult := do
  requireStarted
  issue cmd a ri
  pure .ok

/-- `CFG_BLOCK(cfg)` (R169): CFG_BLOCK_LEN bytes. -/
def cfgBlock (c : Config) (table : List Byte) : List Byte :=
  (List.range c.cfgBlockLen).map (Config.cfgBlockByte table)

/-- `CFG_UPDATE(cfg, flags)` (R224): CFG_LEN bytes. -/
def cfgUpdate (c : Config) (table : List Byte) (flags : ModeFlags) : List Byte :=
  (List.range c.cfgLen).map (Config.cfgUpdateByte table flags)

/-- Whether the CU reports idle. -/
def readCuIdle : Op Bool := do
  let code ← readUnitCode .cu
  pure (unitStateOf code == .idle)

/-- `apply_config()` (R169). -/
def applyConfig : Op Unit := do
  let s ← get
  writeBuffer .block s.cfgAddr (cfgBlock s.config s.cfg)
  issue .cuStart s.cfgAddr true
  awaitDevice readCuIdle s.config.cuPollBound .cmdTimeout
  modify fun s => { s with cfgPending := false }

/-- `restart_ru()` (R168). -/
def restartRu : Op Unit := do
  let code ← readUnitCode .ru
  require (unitStateOf code == .noResources) .precondition
  rxInit
  let a ← rxAddrOf 0
  issue .ruStart a false
  modify fun s => { s with rxNeedRestart := false }

/-- `restart_ru` on the operation port. -/
def restartRuOp : Op OpResult := do
  requireStarted
  restartRu
  pure .ok

/-! ### Meanings -/

/-- `issue cu, load_base` (R160, R162). -/
def execIssueCuLoadBase (ri : Bool) (a : BusAddr) (s : State) : Host.Outcome State Fault Refusal :=
  runOperation (issueOp .cuLoadBase a ri) s

/-- `issue ru, load_base` (R160, R162). -/
def execIssueRuLoadBase (ri : Bool) (a : BusAddr) (s : State) : Host.Outcome State Fault Refusal :=
  runOperation (issueOp .ruLoadBase a ri) s

/-- `issue cu, start` (R160, R163). -/
def execIssueCuStart (ri : Bool) (a : BusAddr) (s : State) : Host.Outcome State Fault Refusal :=
  runOperation (issueOp .cuStart a ri) s

/-- `issue ru, start` (R160, R163). -/
def execIssueRuStart (ri : Bool) (a : BusAddr) (s : State) : Host.Outcome State Fault Refusal :=
  runOperation (issueOp .ruStart a ri) s

/-- `issue cu, dump_statistics` (R160, R166). -/
def execIssueCuDumpStatistics (ri : Bool) (a : BusAddr) (s : State) : Host.Outcome State Fault Refusal :=
  runOperation (issueOp .cuDumpStatistics a ri) s

/-- `restart_ru` (R168). -/
def execRestartRu (s : State) : Host.Outcome State Fault Refusal := runOperation restartRuOp s

end Sys2Proof.Machine
end

