-- ==== Sys2Proof/Machine/Ring.lean ====
section
/-! DEFINITION. The descriptor rings (40_ring.md): fetch and retire, and the meanings of the ring operations. -/

namespace Sys2Proof.Machine

/-! ### RX -/

/-- The result of `rx_poll`. -/
inductive PollResult where
  | notReady
  | ready (index : Nat) (frame : Frame)
deriving DecidableEq, Repr

/-- A complete descriptor's frame (R131): it must be good and of final length, at most the capacity. -/
def rxFrame (c : Config) (a : BusAddr) (st : Half) : Op Frame := do
  require (statusOk st && statusErr st == 0) .rxError
  let rl ← readHalf .block (a + offReceivedLength)
  require (lengthEof rl && lengthFinal rl) .rxLength
  let cap ← readHalf .block (a + offCapacity)
  require (lengthCount c rl ≤ capacityOf cap) .rxLength
  readBuffer .block (a + offBuffer) (lengthCount c rl)

/-- `rx_poll` (R131): status is read first (R76). -/
def rxPoll : Op PollResult := do
  let s ← get
  let a ← rxAddrOf s.rxHead
  let st ← readHalf .block (a + offStatus)
  if statusC st then do
    let frame ← rxFrame s.config a st
    pure (.ready s.rxHead frame)
  else pure .notReady

/-- `rx_recycle(index)` (R133): the writes in the rule's order. -/
def rxRecycle (index : Nat) : Op Unit := do
  let s ← get
  require (index == s.rxHead) .precondition
  let a ← rxAddrOf s.rxHead
  let st ← readHalf .block (a + offStatus)
  require (statusC st) .precondition
  writeHalf .block (a + offStatus) 0
  writeHalf .block (a + offReceivedLength) 0
  writeHalf .block (a + offCommand) (rxCommandWord true)
  let p ← rxAddrOf (prevIdx s.config.nRx s.rxHead)
  let pc ← readHalf .block (p + offCommand)
  require (commandEl pc) .ringInvariant
  writeHalf .block (p + offCommand) (rxCommandWord false)
  modify fun t => { t with rxHead := nextIdx s.config.nRx s.rxHead }

/-! ### TX -/

/-- The result of `tx_append`. -/
inductive AppendResult where
  | appended (index : Nat)
  | ringFull
deriving DecidableEq, Repr

/-- The end-of-list mark leaves the slot where the previous chain stopped (R140), which keeps its OP. -/
def clearOldEl (old : Nat) : Op Unit :=
  if old = 0 then pure ()
  else do
    let a ← txAddrOf old
    let c ← readHalf .block (a + offCommand)
    writeHalf .block (a + offCommand) (txCommandWord false (commandOp c))

/-- The idle path of `tx_append`: a fresh chain at slot 0. -/
def appendIdle (frame : Frame) : Op AppendResult := do
  let s ← get
  writeSlot 0 frame
  clearOldEl s.txHead
  modify fun t => { t with txHead := 0, txTail := 0, txIdle := false }
  let a ← txAddrOf 0
  issue .cuStart a true
  pure (.appended 0)

/-- The other path: the next slot is filled before the mark leaves the head (R138). -/
def appendActive (frame : Frame) : Op AppendResult := do
  let s ← get
  let nxt := nextIdx s.config.nTx s.txHead
  if nxt = s.txTail then pure .ringFull
  else do
    writeSlot nxt frame
    let a ← txAddrOf s.txHead
    writeHalf .block (a + offCommand) (txCommandWord false opTx)
    modify fun t => { t with txHead := nxt }
    pure (.appended nxt)

/-- The frame size bound (R144). -/
def frameSizeOk (c : Config) (n : Nat) : Bool := c.minFrame ≤ n && n ≤ c.maxTaggedFrame

/-- `tx_append(frame_bytes)` (R136). -/
def txAppend (frame : Frame) : Op AppendResult := do
  let s ← get
  require (frameSizeOk s.config frame.length) .frameSize
  if s.txIdle then appendIdle frame else appendActive frame

/-- Retire the completed slot `i` (R141): an underrun raises the threshold. -/
def noteUnderrun (st : Half) : Op Unit :=
  if statusU st then modify fun s => { s with txThreshold := raiseThreshold s.config s.txThreshold } else pure ()

/-- The loop of `tx_drain` from slot `i`; `count` descriptors are retired so far; `fuel` slots may be visited.
The result is the stopping point and the count. -/
def drainLoop (i count : Nat) : Nat → Op (Nat × Nat)
  | 0 => stop .drainRunaway
  | fuel + 1 => do
    let s ← get
    let a ← txAddrOf i
    let st ← readHalf .block (a + offStatus)
    if statusC st then do
      noteUnderrun st
      let c ← readHalf .block (a + offCommand)
      if commandEl c then do
        require (i == s.txHead) .ringInvariant
        modify fun t => { t with txIdle := true }
        pure (i, count + 1)
      else do
        require (i != s.txHead) .ringInvariant
        drainLoop (nextIdx s.config.nTx i) (count + 1) fuel
    else pure (i, count)

/-- `tx_drain()` (R141). -/
def txDrain : Op Nat := do
  let s ← get
  if s.txIdle then pure 0
  else do
    let r ← drainLoop s.txTail 0 s.config.nTx
    modify fun t => { t with txTail := r.1, txAlive := if 0 < r.2 then true else t.txAlive }
    pure r.2

/-! ### On the operation port -/

/-- The result of a poll on the port. -/
def PollResult.toResult : PollResult → OpResult
  | .notReady => .notReady
  | .ready i frame => .ready i frame

/-- The result of an append on the port. -/
def AppendResult.toResult : AppendResult → OpResult
  | .appended i => .appended i
  | .ringFull => .ringFull

@[inherit_doc rxPoll]
def rxPollOp : Op OpResult := do
  requireStarted
  let r ← rxPoll
  pure r.toResult

@[inherit_doc rxRecycle]
def rxRecycleOp (index : Nat) : Op OpResult := do
  requireStarted
  rxRecycle index
  pure .ok

@[inherit_doc txAppend]
def txAppendOp (frame : Frame) : Op OpResult := do
  requireStarted
  let r ← txAppend frame
  pure r.toResult

@[inherit_doc txDrain]
def txDrainOp : Op OpResult := do
  requireStarted
  let n ← txDrain
  pure (.retired n)

/-! ### Meanings -/

/-- `rx_poll` (R131). -/
def execRxPoll (s : State) : Host.Outcome State Fault Refusal := runOperation rxPollOp s

/-- `rx_recycle` (R133). -/
def execRxRecycle (index : Nat) (s : State) : Host.Outcome State Fault Refusal := runOperation (rxRecycleOp index) s

/-- `tx_append` (R136). -/
def execTxAppend (frame : Frame) (s : State) : Host.Outcome State Fault Refusal := runOperation (txAppendOp frame) s

/-- `tx_drain` (R141). -/
def execTxDrain (s : State) : Host.Outcome State Fault Refusal := runOperation txDrainOp s

end Sys2Proof.Machine
end

