-- ==== Sys2Proof/Machine/Flow.lean ====
section
/-! DEFINITION. The flow-control queue (42_interrupt.md section 3) and the request services it shares with the
client operations (R226, R227), with the meanings of `arm_tx`, `arm_rx`, `replay_tx` and `replay_rx`. -/

namespace Sys2Proof.Machine

/-- `arm_tx(request)` (R184). -/
def armTx (r : TxRequest) : Op Unit := do
  let s ← get
  require (s.pendTx == .empty) .doubleArm
  modify fun t => { t with pendTx := .armed r }

/-- `arm_rx(request)` (R185). -/
def armRx (r : Client) : Op Unit := do
  let s ← get
  require (s.pendRx == .empty) .doubleArm
  modify fun t => { t with pendRx := .armed r }

/-- `tx_service` (R226). -/
def txService (r : TxRequest) : Op OpResult := do
  let res ← txAppend r.frame
  match res with
  | .ringFull => do
    armTx r
    pure .deferred
  | .appended _ => do
    reply r.client .ack
    pure .sent

/-- The lazy restart (R227, R228): only with the mark set and the RU out of resources. -/
def lazyRestart : Op Unit := do
  let s ← get
  if s.rxNeedRestart then do
    let code ← readUnitCode .ru
    if unitStateOf code = .noResources then restartRu else pure ()
  else pure ()

/-- `rx_service` (R227). -/
def rxService (r : Client) : Op OpResult := do
  let res ← rxPoll
  match res with
  | .ready i frame => do
    rxRecycle i
    reply r (.frame frame)
    pure .delivered
  | .notReady => do
    lazyRestart
    armRx r
    pure .deferred

/-- `try_replay_tx()` (R187). -/
def replayTx : Op OpResult := do
  let s ← get
  match s.pendTx with
  | .empty => pure .nothing
  | .armed r => do
    modify fun t => { t with pendTx := .empty }
    txService r

/-- `try_replay_rx()` (R188). -/
def replayRx : Op OpResult := do
  let s ← get
  match s.pendRx with
  | .empty => pure .nothing
  | .armed r => do
    modify fun t => { t with pendRx := .empty }
    rxService r

@[inherit_doc armTx]
def armTxOp (client : Client) (frame : Frame) : Op OpResult := do
  requireStarted
  armTx { client := client, frame := frame }
  pure .ok

@[inherit_doc armRx]
def armRxOp (client : Client) : Op OpResult := do
  requireStarted
  armRx client
  pure .ok

@[inherit_doc replayTx]
def replayTxOp : Op OpResult := do
  requireStarted
  replayTx

@[inherit_doc replayRx]
def replayRxOp : Op OpResult := do
  requireStarted
  replayRx

/-- `arm_tx` (R184). -/
def execArmTx (client : Client) (frame : Frame) (s : State) : Host.Outcome State Fault Refusal :=
  runOperation (armTxOp client frame) s

/-- `arm_rx` (R185). -/
def execArmRx (client : Client) (s : State) : Host.Outcome State Fault Refusal := runOperation (armRxOp client) s

/-- `replay_tx` (R187). -/
def execReplayTx (s : State) : Host.Outcome State Fault Refusal := runOperation replayTxOp s

/-- `replay_rx` (R188). -/
def execReplayRx (s : State) : Host.Outcome State Fault Refusal := runOperation replayRxOp s

end Sys2Proof.Machine
end

