-- ==== Sys2Proof/Machine/Serial.lean ====
section
/-! DEFINITION. The serial EEPROM / MII bit-bang engine (43_serial.md), bit by bit over SER_CTL, and the
meanings of `read_eeprom` and `read_phy`. -/

namespace Sys2Proof.Machine

/-- `delay()` (R200): SER_DELAY_US pass; the model has no time, the event order records the wait. -/
def delay : Op Unit := modify fun s => s.event (.delay s.config.serDelayUs)

/-- `PortWrite(SER_CTL, lines) ; delay()`, with new levels in `lines`. -/
def driveLines (v : Byte) : Op Unit := do
  modify fun s => { s with lines := v }
  portWrite .serCtl (v.setWidth 32)
  delay

/-- Change one line and drive. -/
def driveLine (line : Byte) (b : Bool) : Op Unit := do
  let s ← get
  driveLines (setLine s.lines line b)

/-- `PortRead(SER_CTL).DO`. -/
def readDo : Op Bool := do
  let v ← portRead .serCtl
  pure (v.getLsbD 3)

/-- `shift_out(b)` (R200). -/
def shiftOut (b : Bool) : Op Unit := do
  driveLine lineDi b
  driveLine lineSk true
  driveLine lineSk false

/-- `shift_in()` (R200). -/
def shiftIn : Op Bool := do
  driveLine lineSk true
  let b ← readDo
  driveLine lineSk false
  pure b

/-- Shift a sequence of bits out, the first one first. -/
def shiftOutAll : List Bool → Op Unit
  | [] => pure ()
  | b :: bs => do
    shiftOut b
    shiftOutAll bs

/-- Shift `n` bits in, most significant first, into a word that has some bits already. -/
def shiftInWord : Nat → Half → Op Half
  | 0, d => pure d
  | n + 1, d => do
    let b ← shiftIn
    shiftInWord n (d <<< 1 ||| (BitVec.ofBool b).setWidth 16)

/-- The `n` low bits of a number, most significant first. -/
def bitsMsbFirst : Nat → Nat → List Bool
  | 0, _ => []
  | n + 1, v => v.testBit n :: bitsMsbFirst n v

/-- The re-entrancy guard (R201): a busy engine is a fault. -/
def enterSerial : Op Unit := do
  let s ← get
  require (!s.serBusy) .serialBusy
  modify fun t => { t with serBusy := true }

/-- The end of a serial read. -/
def leaveSerial : Op Unit := modify fun s => { s with serBusy := false }

/-! ### EEPROM (R203, R204) -/

/-- The start bit and the READ opcode. -/
def eeReadCommand : List Bool := [true, true, false]

/-- Select the EEPROM and send the READ command. -/
def eeSelect : Op Unit := do
  driveLines lineCs
  shiftOutAll eeReadCommand

/-- The scan of R204: shift address zeros out until DO is 0 or 8 have gone out; `w` have gone out so far. The
result is the count and the last DO. -/
def eeScan (w : Nat) : Nat → Op (Nat × Bool)
  | 0 => pure (w, true)
  | fuel + 1 => do
    shiftOut false
    let z ← readDo
    if z then eeScan (w + 1) fuel else pure (w + 1, false)

/-- The width a scan found, if it is one of the two that are supported. -/
def scannedWidth (r : Nat × Bool) : Option EeWidth :=
  if r.2 then none else if r.1 = 6 then some .six else if r.1 = 8 then some .eight else none

/-- `ee_detect_width()` (R204). -/
def eeDetectWidth : Op EeWidth := do
  eeSelect
  let r ← eeScan 0 8
  match scannedWidth r with
  | none => do
    leaveSerial
    raise .eepromWidth
  | some w => do
    let _ ← shiftInWord 16 0
    driveLines 0
    pure w

/-- The width is detected on first use and cached (R38, R203). -/
def ensureEeWidth : Op Unit := do
  let s ← get
  if s.eeWidth = .unknown then do
    let w ← eeDetectWidth
    modify fun t => { t with eeWidth := w }
  else pure ()

/-- The frame of a read of word `reg` with the cached width. -/
def eeReadFrame (reg : Nat) : Op Half := do
  let s ← get
  eeSelect
  shiftOutAll (bitsMsbFirst s.eeWidth.bits reg)
  let d ← shiftInWord 16 0
  driveLines 0
  pure d

/-- A word number must be below `2^ee_width` (R203). -/
def checkEeRange (reg : Nat) : Op Unit := do
  let s ← get
  if reg < 2 ^ s.eeWidth.bits then pure ()
  else do
    leaveSerial
    raise .serialRange

/-- `read_eeprom(register)` (R203). -/
def readEeprom (reg : Nat) : Op Half := do
  enterSerial
  ensureEeWidth
  checkEeRange reg
  let d ← eeReadFrame reg
  leaveSerial
  pure d

/-! ### PHY (R206, R208) -/

/-- The bits of a PHY read frame: 32 ones, start 01, opcode 10, PHY_ADDR, the register number. -/
def phyFrameBits (c : Config) (reg : Nat) : List Bool :=
  List.replicate 32 true ++ [false, true, true, false] ++ bitsMsbFirst 5 c.phyAddr.toNat ++ bitsMsbFirst 5 reg

/-- `read_phy(register)` (R206). -/
def readPhy (reg : Nat) : Op Half := do
  let s ← get
  enterSerial
  driveLines (linePsel ||| lineOe)
  shiftOutAll (phyFrameBits s.config reg)
  driveLine lineOe false
  let _ ← shiftIn
  let _ ← shiftIn
  let d ← shiftInWord 16 0
  driveLines 0
  leaveSerial
  pure d

/-- `read_phy_status()` (R208). -/
def readPhyStatus : Op Half := do
  let s ← get
  readPhy s.config.phyStatusReg.toNat

/-! ### On the operation port -/

@[inherit_doc readEeprom]
def readEepromOp (reg : Nat) : Op OpResult := do
  requireStarted
  let d ← readEeprom reg
  pure (.serialWord d)

@[inherit_doc readPhy]
def readPhyOp (reg : Nat) : Op OpResult := do
  requireStarted
  let d ← readPhy reg
  pure (.serialWord d)

/-- `read_eeprom` (R203). -/
def execReadEeprom (reg : Nat) (s : State) : Host.Outcome State Fault Refusal := runOperation (readEepromOp reg) s

/-- `read_phy` (R206). -/
def execReadPhy (reg : Nat) (s : State) : Host.Outcome State Fault Refusal := runOperation (readPhyOp reg) s

end Sys2Proof.Machine
end

