-- ==== Sys2Proof/Machine/Boot.lean ====
section
/-! DEFINITION. The start-up sequence and the watchdog's device reset (70_reset_and_hazards.md), with the
meaning of `reset`. -/

namespace Sys2Proof.Machine

/-- The commands both sequences give the device (R271, R275): zero both ring bases, send the configuration. -/
def loadBasesAndConfigure : Op Unit := do
  issue .cuLoadBase 0 true
  issue .ruLoadBase 0 true
  applyConfig

/-- Both sequences start the RU at the first descriptor after dropping stale causes. -/
def startReceive : Op Unit := do
  portWrite .scbIsr 0xFF
  let a ← rxAddrOf 0
  issue .ruStart a true

/-- `device_reset()` (R275). -/
def deviceReset : Op Unit := do
  portWrite .scbPort 2
  txInit
  rxInit
  loadBasesAndConfigure
  modify fun s => { s with fCna := false, fRnr := false, rxNeedRestart := false }
  startReceive
  modify fun s => { s with txAlive := true }

/-- `pci_locate(VENDOR_ID, DEVICE_ID)` with the revision check (R271, R272). DESIGN CHOICE (log entry 36): the answer is
the same at every reset of a run; R53 does not say whether a second `reset` after Absent may find the device. -/
def State.located (s : State) : Option PciFunction :=
  match s.pciBus.find? (fun f => f.vendor == s.config.vendorId && f.device == s.config.deviceId) with
  | some f => if s.config.revOk.contains f.revision then some f else none
  | none => none

/-- What `map_to_bus_address` answers must exist and be 4-byte aligned (R68, R72). -/
def checkMapped (answer : Option BusAddr) : Op BusAddr :=
  match answer with
  | none => raise .mapFailed
  | some a => do
    require (a.toNat % 4 == 0) .misaligned
    pure a

/-- Put an address in its place of a cache that is being filled in rising order. -/
def cacheAt (cache : List BusAddr) (i : Nat) (a : BusAddr) : List BusAddr :=
  cache.take i ++ a :: cache.drop (i + 1)

/-- Map the RX descriptors `i, i + 1, …` (`count` of them). -/
def mapRx (i : Nat) : Nat → Op Unit
  | 0 => pure ()
  | count + 1 => do
    let s ← get
    let a ← checkMapped (s.busMap.rx.getD i none)
    modify fun t => { t with rxAddr := cacheAt t.rxAddr i a }
    mapRx (i + 1) count

/-- Map the TX descriptors `i, i + 1, …` (`count` of them). -/
def mapTx (i : Nat) : Nat → Op Unit
  | 0 => pure ()
  | count + 1 => do
    let s ← get
    let a ← checkMapped (s.busMap.tx.getD i none)
    modify fun t => { t with txAddr := cacheAt t.txAddr i a }
    mapTx (i + 1) count

/-- Map every region (R271): RX descriptors, TX descriptors, statistics, configuration block. -/
def mapRegions : Op Unit := do
  let s ← get
  mapRx 0 s.config.nRx
  mapTx 0 s.config.nTx
  let a ← checkMapped s.busMap.stats
  modify fun t => { t with statsAddr := a }
  let b ← checkMapped s.busMap.cfg
  modify fun t => { t with cfgAddr := b }

/-- The low and the high byte of an EEPROM word. -/
def lowByte (w : Half) : Byte := w.extractLsb' 0 8

@[inherit_doc lowByte]
def highByte (w : Half) : Byte := w.extractLsb' 8 8

/-- The hardware address from EEPROM words 0, 1, 2, each word's low byte first (R271). -/
def hardwareAddress (w0 w1 w2 : Half) : Vector Byte 6 :=
  #v[lowByte w0, highByte w0, lowByte w1, highByte w1, lowByte w2, highByte w2]

/-- Read the hardware address (R46). -/
def readHardwareAddress : Op Unit := do
  let w0 ← readEeprom 0
  let w1 ← readEeprom 1
  let w2 ← readEeprom 2
  modify fun s => { s with hwAddr := hardwareAddress w0 w1 w2 }

/-- The context values the start-up sequence sets (R271). -/
def initContext (s : State) : State :=
  { s with
    txThreshold := s.config.threshInit
    cfg := s.config.cfgDefault
    fFr := false
    fCna := false
    fRnr := false
    fSwi := false
    rxNeedRestart := false
    cfgPending := false
    needReset := false
    linkReportPending := false
    txAlive := true }

/-- SCB_PTR is 0 "after the sequence's final poll" (R55, which R271 names as its resulting state). No step of R271
writes it, so the model lets the device clear it. DEDUCED (log entry 25). -/
def clearPointer : Op Unit := modifyDevice fun d => { d with scbPtr := 0 }

/-- The start-up sequence from the located function on (R271). -/
def bootSequence (f : PciFunction) : Op Unit := do
  modify fun s => { s with base := f.base, irq := f.irq }
  let s ← get
  require (f.base.toNat % s.config.regSpan == 0) .badBar
  mapRegions
  portWrite .scbPort 2
  readHardwareAddress
  modify initContext
  txInit
  rxInit
  loadBasesAndConfigure
  startReceive
  clearPointer
  let link ← readPhyStatus
  modify fun s => { s with linkSnapshot := link, irqArmed := true, started := true }

/-- `reset` (R271): only before the start-up sequence has completed; an absent device writes nothing (R272). -/
def resetOp : Op OpResult := do
  let s ← get
  require (!s.started) .precondition
  match s.located with
  | none => pure .absent
  | some f => do
    bootSequence f
    pure .ok

/-- `reset` (R271). -/
def execReset (s : State) : Host.Outcome State Fault Refusal := runOperation resetOp s

end Sys2Proof.Machine
end

