-- ==== Sys2Proof/Machine/Interrupt.lean ====
section
/-! DEFINITION. The interrupt-status arbiter and the deferred dispatcher (42_interrupt.md), with the meanings
of `on_interrupt` and `check_interrupts`. -/

namespace Sys2Proof.Machine

/-- One `UnknownCause` entry if there is an unrecognised bit (R180). -/
def logUnknown (v : Byte) : Op Unit :=
  if unknownCauses v = 0 then pure () else logEvent (.unknownCause (unknownCauses v))

/-- The hard phase (R180): read and acknowledge the causes into flags; disarmed while it runs (R247). -/
def hardPhase : Op OpResult := do
  let s ← get
  if s.irqArmed then do
    modify fun t => { t with irqArmed := false }
    let w ← portRead .scbIsr
    let v := w.setWidth 8
    portWrite .scbIsr (v.setWidth 32)
    modify (setCauseFlags v)
    logUnknown v
    modify fun t => { t with irqArmed := true }
    pure (.handled v)
  else pure .spurious

/-- Send the pending configuration once the TX ring is idle (R183). -/
def applyPendingConfig : Op Unit := do
  let s ← get
  if s.cfgPending && s.txIdle then applyConfig else pure ()

/-- Restart the CU on the next chain segment if retirement occurred (R183); a CU that is not idle is logged and
the restart evaluated again in the next deferred phase (R172). -/
def restartCu (count : Nat) : Op Unit := do
  let s ← get
  if 0 < count && !s.txIdle then do
    let code ← readUnitCode .cu
    if unitStateOf code = .idle then do
      let a ← txAddrOf s.txTail
      issue .cuStart a false
    else do
      logEvent (.cmdRace .cu (unitStateOf code))
      modify fun t => { t with fCna := true }
  else pure ()

/-- `tx_deferred()` (R183). -/
def txDeferred : Op Unit := do
  modify fun s => { s with fCna := false }
  let count ← txDrain
  applyPendingConfig
  restartCu count
  let _ ← replayTx

/-- Step 2 of the deferred phase: the reset the watchdog asked for. -/
def deferredReset : Op Unit := do
  let s ← get
  if s.needReset then do
    deviceReset
    modify fun t => { t with needReset := false }
    let _ ← replayTx
  else pure ()

/-- Step 3: replay the RX request if the head descriptor is complete; else only its status was read. -/
def deferredRx : Op Unit := do
  let s ← get
  if s.reading then do
    let a ← rxAddrOf s.rxHead
    let st ← readHalf .block (a + offStatus)
    if statusC st then do
      let _ ← replayRx
    else pure ()
  else pure ()

/-- Step 4. -/
def deferredTx : Op Unit := do
  let s ← get
  if s.fCna then txDeferred else pure ()

/-- Step 5: an RU that is not ready is marked for restart. -/
def deferredRnr : Op Unit :=
  modify fun s => if s.fRnr then { s with fRnr := false, rxNeedRestart := true } else s

/-- Step 6: the link report is emitted to the host (R221) and is a log event (92_eei_decisions.md D26). -/
def deferredReport : Op Unit :=
  modify fun s =>
    if s.linkReportPending then
      { s with
        reports := s.reports ++ [s.linkSnapshot]
        log := s.log ++ [.linkReport s.linkSnapshot]
        linkReportPending := false }
    else s

/-- The deferred phase (R182): its six steps in order. -/
def deferredPhase : Op OpResult := do
  modify fun s => { s with fFr := false, fSwi := false }
  deferredReset
  deferredRx
  deferredTx
  deferredRnr
  deferredReport
  pure .ok

@[inherit_doc hardPhase]
def onInterruptOp : Op OpResult := do
  requireStarted
  hardPhase

@[inherit_doc deferredPhase]
def checkInterruptsOp : Op OpResult := do
  requireStarted
  deferredPhase

/-- `on_interrupt` (R180). -/
def execOnInterrupt (s : State) : Host.Outcome State Fault Refusal := runOperation onInterruptOp s

/-- `check_interrupts` (R182). -/
def execCheckInterrupts (s : State) : Host.Outcome State Fault Refusal := runOperation checkInterruptsOp s

end Sys2Proof.Machine
end

