-- ==== Sys2Proof/Machine/Client.lean ====
section
/-! DEFINITION. The watchdog and the client operations (44_watchdog_client.md), with the meanings of
`watchdog_tick`, `configure`, `transmit`, `receive` and `get_statistics`. -/

namespace Sys2Proof.Machine

/-! ### Watchdog (R220) -/

/-- The link state has changed: log it, keep it, schedule a report, raise a software interrupt. -/
def noteLinkChange (new : Half) : Op Unit := do
  let s ← get
  logEvent (.linkChange s.linkSnapshot new)
  modify fun t => { t with linkSnapshot := new, linkReportPending := true }
  raiseSwi

/-- Link-change detection, while the serial engine is idle (R209). -/
def detectLinkChange : Op Unit := do
  let s ← get
  if s.serBusy then pure ()
  else do
    let v ← readPhyStatus
    if v = s.linkSnapshot then pure () else noteLinkChange v

/-- TX stall detection. -/
def detectStall : Op Unit := do
  let s ← get
  if s.pendTx = .empty then modify fun t => { t with txAlive := true }
  else if s.txAlive then modify fun t => { t with txAlive := false }
  else do
    modify fun t => { t with needReset := true }
    raiseSwi

/-- `watchdog_tick` (R220). -/
def watchdogTickOp : Op OpResult := do
  requireStarted
  detectLinkChange
  detectStall
  pure .ok

/-! ### Client operations -/

/-- `configure(mode_flags)` (R224): its one reply is the hardware address (R53, R225). -/
def configureOp (flags : ModeFlags) : Op OpResult := do
  requireStarted
  modify fun s => { s with cfg := cfgUpdate s.config s.cfg flags }
  let s ← get
  if s.txIdle then applyConfig else modify fun t => { t with cfgPending := true }
  let t ← get
  replyUnnamed (.address t.hwAddr)
  pure (.hardwareAddress t.hwAddr)

/-- `transmit(frame_bytes)` (R226). -/
def transmitOp (client : Client) (frame : Frame) : Op OpResult := do
  requireStarted
  let s ← get
  require (s.pendTx == .empty) .doubleArm
  txService { client := client, frame := frame }

/-- `receive()` (R227). -/
def receiveOp (client : Client) : Op OpResult := do
  requireStarted
  let s ← get
  require (s.pendRx == .empty) .doubleArm
  rxService client

/-- Read 32-bit words one after another. -/
def readWords (who : Agent) (a : BusAddr) : Nat → Op (List Word)
  | 0 => pure []
  | n + 1 => do
    let w ← readWord who a
    let ws ← readWords who (a + 4) n
    pure (w :: ws)

/-- `get_statistics()` (R229). -/
def getStatisticsOp (client : Client) : Op OpResult := do
  requireStarted
  let s ← get
  issue .cuDumpStatistics s.statsAddr false
  let snap ← readWords .block s.statsAddr s.config.statsWords
  reply client (.snapshot snap)
  pure (.snapshot snap)

/-! ### Meanings -/

/-- `watchdog_tick` (R220). -/
def execWatchdogTick (s : State) : Host.Outcome State Fault Refusal := runOperation watchdogTickOp s

/-- `configure` (R224). -/
def execConfigure (flags : ModeFlags) (s : State) : Host.Outcome State Fault Refusal :=
  runOperation (configureOp flags) s

/-- `transmit` (R226). -/
def execTransmit (client : Client) (frame : Frame) (s : State) : Host.Outcome State Fault Refusal :=
  runOperation (transmitOp client frame) s

/-- `receive` (R227). -/
def execReceive (client : Client) (s : State) : Host.Outcome State Fault Refusal := runOperation (receiveOp client) s

/-- `get_statistics` (R229). -/
def execGetStatistics (client : Client) (s : State) : Host.Outcome State Fault Refusal :=
  runOperation (getStatisticsOp client) s

end Sys2Proof.Machine
end

