-- ==== Sys2Proof/Machine/DeviceCommands.lean ====
section
/-! DEFINITION. The meanings of the device's command codes (R104, R262 move 1) and of the TX descriptor codes
(R114, R262 move 2), as instructions of the device's engines. Accepting a command sets its field to NOP. -/

namespace Sys2Proof.Machine

/-- SCB CU NOP: "no operation pending" (R40); nothing is accepted. -/
def execScbCuNop (s : State) : Host.Outcome State Fault Refusal := runDevice (pure ()) s

/-- SCB CU START (R163). -/
def execScbCuStart (s : State) : Host.Outcome State Fault Refusal := runDevice (modifyDevice acceptCuStart) s

/-- SCB CU DUMP_STATISTICS (R166). -/
def execScbCuDumpStatistics (s : State) : Host.Outcome State Fault Refusal :=
  runDevice (modifyDevice acceptCuDumpStatistics) s

/-- SCB CU LOAD_BASE (R162). -/
def execScbCuLoadBase (s : State) : Host.Outcome State Fault Refusal := runDevice (modifyDevice acceptCuLoadBase) s

/-- SCB RU NOP: "no operation pending" (R40); nothing is accepted. -/
def execScbRuNop (s : State) : Host.Outcome State Fault Refusal := runDevice (pure ()) s

/-- SCB RU START (R163). -/
def execScbRuStart (s : State) : Host.Outcome State Fault Refusal := runDevice (modifyDevice acceptRuStart) s

/-- SCB RU LOAD_BASE (R162). -/
def execScbRuLoadBase (s : State) : Host.Outcome State Fault Refusal := runDevice (modifyDevice acceptRuLoadBase) s

/-- TX descriptor OP = NOP, executed by the CU at its fetch address (R262 move 2). -/
def execTxdOpNop (el : Bool) (s : State) : Host.Outcome State Fault Refusal := runDevice (cuExecute (cuNop el)) s

/-- TX descriptor OP = TX, executed by the CU at its fetch address (R262 move 2). -/
def execTxdOpTx (el : Bool) (s : State) : Host.Outcome State Fault Refusal := runDevice (cuExecute (cuTransmit el)) s

end Sys2Proof.Machine
end

