-- ==== Sys2Proof/Machine/Dispatch.lean ====
section
/-! DEFINITION. One arm per instruction, each a direct call of its meaning. -/

namespace Sys2Proof.Machine

def exec (i : Instr) (s : State) : Host.Outcome State Fault Refusal :=
  match i with
  | .rxPoll => Sys2Proof.Machine.execRxPoll s
  | .rxRecycle index => Sys2Proof.Machine.execRxRecycle index s
  | .txAppend frame => Sys2Proof.Machine.execTxAppend frame s
  | .txDrain => Sys2Proof.Machine.execTxDrain s
  | .issueCuLoadBase ri addr => Sys2Proof.Machine.execIssueCuLoadBase ri addr s
  | .issueRuLoadBase ri addr => Sys2Proof.Machine.execIssueRuLoadBase ri addr s
  | .issueCuStart ri addr => Sys2Proof.Machine.execIssueCuStart ri addr s
  | .issueRuStart ri addr => Sys2Proof.Machine.execIssueRuStart ri addr s
  | .issueCuDumpStatistics ri addr => Sys2Proof.Machine.execIssueCuDumpStatistics ri addr s
  | .restartRu => Sys2Proof.Machine.execRestartRu s
  | .onInterrupt => Sys2Proof.Machine.execOnInterrupt s
  | .checkInterrupts => Sys2Proof.Machine.execCheckInterrupts s
  | .armTx client frame => Sys2Proof.Machine.execArmTx client frame s
  | .armRx client => Sys2Proof.Machine.execArmRx client s
  | .replayTx => Sys2Proof.Machine.execReplayTx s
  | .replayRx => Sys2Proof.Machine.execReplayRx s
  | .watchdogTick => Sys2Proof.Machine.execWatchdogTick s
  | .readEeprom reg => Sys2Proof.Machine.execReadEeprom reg s
  | .readPhy reg => Sys2Proof.Machine.execReadPhy reg s
  | .configure flags => Sys2Proof.Machine.execConfigure flags s
  | .transmit client frame => Sys2Proof.Machine.execTransmit client frame s
  | .receive client => Sys2Proof.Machine.execReceive client s
  | .getStatistics client => Sys2Proof.Machine.execGetStatistics client s
  | .reset => Sys2Proof.Machine.execReset s
  | .scbCuNop => Sys2Proof.Machine.execScbCuNop s
  | .scbCuStart => Sys2Proof.Machine.execScbCuStart s
  | .scbCuDumpStatistics => Sys2Proof.Machine.execScbCuDumpStatistics s
  | .scbCuLoadBase => Sys2Proof.Machine.execScbCuLoadBase s
  | .scbRuNop => Sys2Proof.Machine.execScbRuNop s
  | .scbRuStart => Sys2Proof.Machine.execScbRuStart s
  | .scbRuLoadBase => Sys2Proof.Machine.execScbRuLoadBase s
  | .txdOpNop el => Sys2Proof.Machine.execTxdOpNop el s
  | .txdOpTx el => Sys2Proof.Machine.execTxdOpTx el s

end Sys2Proof.Machine
end

