-- ==== Sys2Proof/Machine/Fetch.lean ====
section
/-! DEFINITION. Where a command is fetched from: an input of the agenda is an operation request, an engine's
acceptance of its SCB_CMD field, a CU step that fetches a command, or another move of the device; and how a word of
the opcode table is put there. -/

namespace Sys2Proof.Machine

/-- An operation word that is no instruction raises Fatal(IllegalOp) and changes nothing else (R94). -/
def illegalOperation (s : State) : Host.Outcome State Fault Refusal := runOperation (raise .illegalOp) s

/-- Where a CU step fetches a command: everywhere in the regions but at the configuration block. -/
def Place.hasCommand : Place → Bool
  | .own => true
  | .other => true
  | .block => false
  | .elsewhere => true
  | .outside => false

/-- Whether a CU step would fetch and execute a command: the CU is active and there is one at its fetch address. -/
def State.cuAtCommand (s : State) : Bool :=
  unitStateOf s.dev.cuCode == .active && (s.placeOf .cu s.dev.cuFetch).hasCommand

/-- The words an input leads to, where it leads to an instruction: the request's own, the SCB_CMD byte as the
accepting engine sees it, the command word the CU reads where it is. -/
def fetch (s : State) : Input → Option Encoded
  | .request opw payload => some (.opw opw payload)
  | .device (.accept e) => some (.scb e (scbCmdByte s.dev))
  | .device (.cuStep _ _) => if s.cuAtCommand then some (.txd s.cuCommand) else none
  | .device (.ruStep _ _) => none
  | .device (.linkChange _) => none
  | .device (.spurious _) => none
  | .device (.dump _) => none
  | .device (.drift _ _) => none

/-- What fetching a command changes. A CU step reads the command word, one event of R74, and brings the draw that its
command uses (R262 move 2). -/
def afterFetch (input : Input) (s : State) : State :=
  match input with
  | .device (.cuStep status _) =>
    { s.event (.memRead .device (s.dev.cuFetch + offCommand) 2) with dev := { s.dev with cuDraw := status } }
  | _ => s

/-- What an input does that leads to no instruction. -/
def runPlainInput (input : Input) (s : State) : Host.Outcome State Fault Refusal :=
  match input with
  | .request _ _ => illegalOperation s
  | .device m => runDevice (deviceMove m) s

/-- What an input does whose words are no instruction: the operation port raises IllegalOp (R94), the device
has no such command (R104, R114). -/
def runIllegal (input : Input) (s : State) : Host.Outcome State Fault Refusal :=
  match input with
  | .request _ _ => illegalOperation s
  | .device _ => .fault .reservedDeviceCommand

/-- Put a TX descriptor command word where the CU fetches its next command: the CU is active at the first TX
descriptor. -/
def placeTxCommand (s : State) (c : Half) : State :=
  let a := s.txAddr.headD 0
  { s with
    txAddr := if s.txAddr = [] then [a] else s.txAddr
    mem := s.mem.writeBytes (a + offCommand) (leBytes 2 c.toNat)
    dev := { s.dev with cuCode := codeActive, cuFetch := a } }

/-- Put words where the next step fetches them, as the next input. -/
def placeWords (s : State) : Encoded → State
  | .opw w p => { s with agenda := .request w p :: s.agenda }
  | .scb e b =>
    { s with
      dev := { s.dev with cmdCu := scbCuField b, cmdRu := scbRuField b }
      agenda := .device (.accept e) :: s.agenda }
  | .txd c =>
    let t := placeTxCommand s c
    { t with agenda := .device (.cuStep s.dev.cuDraw []) :: s.agenda }

end Sys2Proof.Machine
end

