-- ==== Sys2Proof/Machine/Step.lean ====
section
/-! DEFINITION. One step of the machine: the next input of the agenda happens (R18: a request is one whole
operation). With no input the block waits for a request and the device takes no move. -/

namespace Sys2Proof.Machine

/-- One input happens. -/
def runInput (input : Input) (s : State) : Host.Outcome State Fault Refusal :=
  match fetch s input with
  | none => runPlainInput input s
  | some x =>
    match decode s.config.cmdCodes x with
    | .ok i => exec i (afterFetch input s)
    | .error _ => runIllegal input s

def step (s : State) : Host.Outcome State Fault Refusal :=
  match s.agenda with
  | [] => .next s
  | input :: rest => runInput input { s with agenda := rest }

/-- The state in which the very next step runs the instruction of a table word: an operation word is requested
on the operation port with a zero payload, an SCB_CMD byte is accepted by its engine, a TX descriptor's command
word is executed by the CU. (A table word has the codes of R104; a machine with other codes reads it its own way.) -/
def State.withFetchWord (s : State) (nbits w : Nat) : State :=
  match tableWord nbits w with
  | some x => placeWords s x
  | none => s

end Sys2Proof.Machine
end

