-- ==== Sys2Proof/Safety.lean ====
section
/-! DEFINITION. The terms that statements about the machine are written in: which instructions are requests,
where the fields of a descriptor are, when the regions of DMA memory lie apart, the ring invariants (R25, R26,
R134), the idle serial engine, the device that answers a poll, and what a sound state is. -/

namespace Sys2Proof

/-- The operations of the operation port (R91); the others are commands of the device's engines (R104, R114). -/
def Instr.isRequest : Instr → Bool
  | .rxPoll => true
  | .rxRecycle _ => true
  | .txAppend _ => true
  | .txDrain => true
  | .issueCuLoadBase _ _ => true
  | .issueRuLoadBase _ _ => true
  | .issueCuStart _ _ => true
  | .issueRuStart _ _ => true
  | .issueCuDumpStatistics _ _ => true
  | .restartRu => true
  | .onInterrupt => true
  | .checkInterrupts => true
  | .armTx _ _ => true
  | .armRx _ => true
  | .replayTx => true
  | .replayRx => true
  | .watchdogTick => true
  | .readEeprom _ => true
  | .readPhy _ => true
  | .configure _ => true
  | .transmit _ _ => true
  | .receive _ => true
  | .getStatistics _ => true
  | .reset => true
  | .scbCuNop => false
  | .scbCuStart => false
  | .scbCuDumpStatistics => false
  | .scbCuLoadBase => false
  | .scbRuNop => false
  | .scbRuStart => false
  | .scbRuLoadBase => false
  | .txdOpNop _ => false
  | .txdOpTx _ => false

/-- How many undriven levels a `read_phy` meets: the turnaround, or everything. -/
def Config.phyFreeReads (c : Config) : Nat := if c.phyPresent then 2 else 18

/-- The numbers of reads are within the poll bounds (R167). -/
def Config.bootInTime (c : Config) (k1 k2 k3 j k4 : Nat) : Prop :=
  k1 < c.cuPollBound ∧ k2 < c.ruPollBound ∧ k3 < c.cuPollBound ∧ j < c.cuPollBound ∧ k4 < c.ruPollBound

namespace Machine

/-- The block accepts every operation but `reset` (R47, R48). -/
structure State.Running (s : State) : Prop where
  noFault : s.fault = none
  started : s.started = true

/-! ### Where things are in DMA memory -/

/-- `rx_addr[i]`. -/
def State.rxSlot (s : State) (i : Nat) : BusAddr := s.rxAddr.getD i 0

/-- `tx_addr[i]`. -/
def State.txSlot (s : State) (i : Nat) : BusAddr := s.txAddr.getD i 0

/-- `rx[i].status`. -/
def State.rxStatus (s : State) (i : Nat) : Half := s.half (s.rxSlot i + offStatus)

/-- `rx[i].command`. -/
def State.rxCommand (s : State) (i : Nat) : Half := s.half (s.rxSlot i + offCommand)

/-- `rx[i].link`. -/
def State.rxLink (s : State) (i : Nat) : Word := s.word (s.rxSlot i + offLink)

/-- `rx[i].received_length`. -/
def State.rxLength (s : State) (i : Nat) : Half := s.half (s.rxSlot i + offReceivedLength)

/-- `rx[i].capacity`. -/
def State.rxCapacity (s : State) (i : Nat) : Half := s.half (s.rxSlot i + offCapacity)

/-- `tx[i].status`. -/
def State.txStatus (s : State) (i : Nat) : Half := s.half (s.txSlot i + offStatus)

/-- `tx[i].command`. -/
def State.txCommand (s : State) (i : Nat) : Half := s.half (s.txSlot i + offCommand)

/-- `tx[i].link`. -/
def State.txLink (s : State) (i : Nat) : Word := s.word (s.txSlot i + offLink)

/-- `tx[i].byte_count`. -/
def State.txByteCount (s : State) (i : Nat) : Half := s.half (s.txSlot i + offByteCount)

/-- `tx[i].thresh`. -/
def State.txThresh (s : State) (i : Nat) : Byte := s.byteAt (s.txSlot i + offThresh)

/-- The first `n` bytes of `rx[i].buffer`. -/
def State.rxBuffer (s : State) (i n : Nat) : List Byte := s.mem.readBytes (s.rxSlot i + offBuffer) n

/-- The first `n` bytes of `tx[i].buffer`. -/
def State.txBuffer (s : State) (i n : Nat) : List Byte := s.mem.readBytes (s.txSlot i + offBuffer) n

/-- Between two states memory changed at most inside some spans: how a statement says which bytes an
instruction leaves alone. -/
def State.ChangesOnly (s t : State) (spans : List (BusAddr × Nat)) : Prop :=
  ∀ x, (∀ r ∈ spans, inSpan r.1 r.2 x = false) → t.byteAt x = s.byteAt x

/-- The headers (the bytes before the buffer) of a ring's descriptors. -/
def headers (ring : List BusAddr) : List (BusAddr × Nat) := ring.map (·, 12)

/-- Two regions have no byte in common. -/
def regionsApart (r q : BusAddr × Nat) : Bool :=
  r.1.toNat + r.2 ≤ q.1.toNat || q.1.toNat + q.2 ≤ r.1.toNat

/-- Every region fits in the address space and no two overlap. -/
def regionsOk (l : List (BusAddr × Nat)) : Bool :=
  l.all (fun r => r.1.toNat + r.2 ≤ 2 ^ 32) && decide (l.Pairwise fun r q => regionsApart r q = true)

/-- The cached bus addresses are those of regions (R49, R60) that lie apart: a premise, since no rule says that they do (log
entry 43, DESIGN CHOICE). -/
structure State.Laid (s : State) : Prop where
  rxLen : s.rxAddr.length = s.config.nRx
  txLen : s.txAddr.length = s.config.nTx
  apart : regionsOk (regionsOf s.config s.rxAddr s.txAddr s.statsAddr s.cfgAddr) = true

/-- Every cached bus address is a multiple of 4 (R68). -/
def State.aligned (s : State) : Bool :=
  (s.rxAddr ++ s.txAddr ++ [s.statsAddr, s.cfgAddr]).all fun a => a.toNat % 4 == 0

/-- The addresses `map_to_bus_address` answers with, if it translates every region (R72). -/
def BusMap.answers (c : Config) (m : BusMap) : Option (List BusAddr × List BusAddr × BusAddr × BusAddr) := do
  let rx ← (List.range c.nRx).mapM fun i => m.rx.getD i none
  let tx ← (List.range c.nTx).mapM fun i => m.tx.getD i none
  let stats ← m.stats
  let cfg ← m.cfg
  pure (rx, tx, stats, cfg)

/-- The collaborator gives regions that lie apart, if it translates every one (R72 does not say so, log entry 43). -/
def BusMap.apart (c : Config) (m : BusMap) : Bool :=
  match m.answers c with
  | none => true
  | some (rx, tx, stats, cfg) => regionsOk (regionsOf c rx tx stats cfg)

/-- The statistics region's counters, as the block reads them (R229). -/
def State.statsCounters (s : State) : List Word :=
  (List.range s.config.statsWords).map fun k => s.word (s.statsAddr + BitVec.ofNat 32 (4 * k))

/-! ### The ring invariants -/

/-- Indices in range (R12), the RX end-of-list mark on `prev(rx_head)` and nowhere else (R134), the TX mark on
`tx_head` and nowhere else (R26), and `tx_tail = tx_head` while idle (R26). -/
structure State.Marks (s : State) : Prop where
  rxHead : s.rxHead < s.config.nRx
  txHead : s.txHead < s.config.nTx
  txTail : s.txTail < s.config.nTx
  rxEl : ∀ i, i < s.config.nRx → commandEl (s.rxCommand i) = (i == prevIdx s.config.nRx s.rxHead)
  txEl : ∀ i, i < s.config.nTx → commandEl (s.txCommand i) = (i == s.txHead)
  idle : s.txIdle = true → s.txTail = s.txHead

/-- `rx[i]` as `rx_init` leaves it (R145). -/
structure State.RxFresh (s : State) (i : Nat) : Prop where
  status : s.rxStatus i = 0
  length : s.rxLength i = 0
  capacity : s.rxCapacity i = BitVec.ofNat 16 s.config.bufSize
  link : s.rxLink i = s.rxSlot (nextIdx s.config.nRx i)
  command : s.rxCommand i = rxCommandWord (i + 1 == s.config.nRx)

/-- `tx[i]` as `tx_init` leaves it (R146). -/
structure State.TxFresh (s : State) (i : Nat) : Prop where
  status : s.txStatus i = 0
  byteCount : s.txByteCount i = 0
  thresh : s.txThresh i = 0
  link : s.txLink i = s.txSlot (nextIdx s.config.nTx i)
  command : s.txCommand i = txCommandWord (i == 0) opNop

/-- `tx[k]` as `write_slot` fills it with a frame (R137). -/
structure State.TxFilled (s : State) (k : Nat) (threshold : Byte) (frame : Frame) : Prop where
  status : s.txStatus k = 0
  byteCount : s.txByteCount k = byteCountWord frame.length
  thresh : s.txThresh k = threshold
  buffer : s.txBuffer k frame.length = frame
  command : s.txCommand k = txCommandWord true opTx

/-- The bytes `write_slot` writes: status and command, byte_count and thresh, the frame's part of the buffer. -/
def State.filledSpans (s : State) (k : Nat) (frame : Frame) : List (BusAddr × Nat) :=
  [(s.txSlot k, 4), (s.txSlot k + offByteCount, 3), (s.txSlot k + offBuffer, frame.length)]

/-- The command word of one TX descriptor, as a span. -/
def State.txCommandSpan (s : State) (k : Nat) : BusAddr × Nat := (s.txSlot k + offCommand, 2)

/-- The command word of one RX descriptor, as a span. -/
def State.rxCommandSpan (s : State) (k : Nat) : BusAddr × Nat := (s.rxSlot k + offCommand, 2)

/-- The bytes `rx_recycle` writes in the descriptor it gives back: status and command, received_length. -/
def State.recycledSpans (s : State) (i : Nat) : List (BusAddr × Nat) :=
  [(s.rxSlot i, 4), (s.rxSlot i + offReceivedLength, 2)]

/-- The head RX descriptor holds a good frame (R131): complete, without error, of final length, at most the
capacity. -/
structure State.HeadGood (s : State) : Prop where
  complete : statusC (s.rxStatus s.rxHead) = true
  ok : statusOk (s.rxStatus s.rxHead) = true
  err : statusErr (s.rxStatus s.rxHead) = 0
  eof : lengthEof (s.rxLength s.rxHead) = true
  final : lengthFinal (s.rxLength s.rxHead) = true
  fits : lengthCount s.config (s.rxLength s.rxHead) ≤ capacityOf (s.rxCapacity s.rxHead)

/-- The frame in the head RX descriptor. -/
def State.headFrame (s : State) : Frame := s.rxBuffer s.rxHead (lengthCount s.config (s.rxLength s.rxHead))

/-- The `j`-th TX slot from the tail on (R12). -/
def State.txWalk (s : State) (j : Nat) : Nat := (s.txTail + j) % s.config.nTx

/-- The first `k` slots from the tail on are complete, carry no end-of-list mark and are not the head (R141). -/
def State.TxRun (s : State) (k : Nat) : Prop :=
  ∀ j, j < k → statusC (s.txStatus (s.txWalk j)) = true ∧ commandEl (s.txCommand (s.txWalk j)) = false ∧
    s.txWalk j ≠ s.txHead

/-- How many of the first `k` slots from the tail on report an underrun. -/
def State.underruns (s : State) (k : Nat) : Nat :=
  ((List.range k).filter fun j => statusU (s.txStatus (s.txWalk j))).length

/-- The threshold after `u` underruns (R141, R143): exact addition, then the clamp. -/
def thresholdAfter (c : Config) (t : Byte) (u : Nat) : Byte :=
  if u = 0 then t else BitVec.ofNat 8 (min (t.toNat + u * c.threshStep) c.threshMax.toNat)

/-- What the drain finds when the active chain is done (R141): from the tail on, `k` complete slots without the mark,
then `tx_head`, complete and with the mark. -/
structure State.ChainDone (s : State) (k : Nat) : Prop where
  run : s.TxRun k
  complete : statusC (s.txStatus (s.txWalk k)) = true
  mark : commandEl (s.txCommand (s.txWalk k)) = true
  head : s.txWalk k = s.txHead

/-- The writes that fill `tx[k]` and then take the mark from the slot `prev`, newest first (R137, R138). -/
def State.appendEvents (s : State) (k prev : Nat) (threshold : Byte) (frame : Frame) : List BusEvent :=
  [.memWrite .block (s.txSlot prev + offCommand) (leBytes 2 (txCommandWord false opTx).toNat),
   .memWrite .block (s.txSlot k + offCommand) (leBytes 2 (txCommandWord true opTx).toNat),
   .memWrite .block (s.txSlot k + offBuffer) frame,
   .memWrite .block (s.txSlot k + offThresh) [threshold],
   .memWrite .block (s.txSlot k + offByteCount) (leBytes 2 (byteCountWord frame.length).toNat),
   .memWrite .block (s.txSlot k + offStatus) (leBytes 2 0)]

/-- The link report of the deferred phase as an output to the host (R221). -/
def State.reportsAfter (s : State) : List Half := if s.linkReportPending then s.reports ++ [s.linkSnapshot] else s.reports

/-- The link report of the deferred phase as a log event (92_eei_decisions.md D26). -/
def State.logAfter (s : State) : List LogEvent :=
  if s.linkReportPending then s.log ++ [.linkReport s.linkSnapshot] else s.log

/-! ### The serial engine -/

/-- The serial engine between operations: not busy, every line low, both slaves deselected (R203, R206). -/
structure State.SerialIdle (s : State) : Prop where
  busy : s.serBusy = false
  lines : s.lines = 0
  serCtl : s.dev.serCtl = 0
  ee : s.dev.ee = .idle
  phy : s.dev.phy = .idle

/-- The address width the block accepts for the EEPROM part: 6 or 8 (R204, R205). -/
def supportedWidth (c : Config) : Option EeWidth :=
  if c.eeDevWidth = 6 then some .six else if c.eeDevWidth = 8 then some .eight else none

/-- The word that `m` levels of an undriven line make, from level number `n` on, after a word that has some
bits already (R206: an absent PHY). -/
def floatingBits : Nat → Nat → Half → Half
  | 0, _, d => d
  | m + 1, n, d => floatingBits m (n + 1) (d <<< 1 ||| (BitVec.ofBool (Config.floatingLine n)).setWidth 16)

/-- What `read_phy` returns: the register of a PHY that is there, else 16 free levels after the turnaround. -/
def State.phyValue (s : State) (reg : Nat) : Half :=
  if s.config.phyPresent then s.dev.phyRegister (BitVec.ofNat 5 reg) else floatingBits 16 (s.dev.lineReads + 2) 0

/-! ### A sound state -/

/-- What every state of a run with regions that lie apart satisfies: the parameters are admitted (R11), the collaborator's
regions (R60) lie apart, which is the model's presumption (log entry 43, DESIGN CHOICE), memory is canonical; the caches
have one entry per descriptor and, once started, are laid out and aligned (R49, R68); while no fault is taken, the ring
marks are where the rules put them (R25, R26, R134), the serial engine is idle between operations, and the threshold is at
most THRESH_MAX (R28); the device has STATS_WORDS counters (R44). -/
structure State.Sound (s : State) : Prop where
  params : s.config.wf = true
  map : s.busMap.apart s.config = true
  memory : s.mem.wf = true
  rxLen : s.rxAddr.length = s.config.nRx
  txLen : s.txAddr.length = s.config.nTx
  laid : s.started = true → s.Laid
  aligned : s.started = true → s.aligned = true
  marks : s.Running → s.Marks
  serial : s.fault = none → s.SerialIdle
  threshold : s.Running → s.txThreshold.toNat ≤ s.config.threshMax.toNat
  counters : s.dev.counters.length = s.config.statsWords

/-! ### A device that answers -/

/-- The device accepts an engine's command after `k` reads that still find it pending, and the next read sees
the acceptance (R161). -/
def acceptedAfter (e : Engine) (k : Nat) (rest : List PollEvent) : List PollEvent :=
  List.replicate k .read ++ .move (.accept e) :: .read :: rest

/-- A poll of at most `bound` reads that the device does not answer (R161, log entry 3): the time is over after some
reads, the reads are used up, or nothing more happens. `rest` is left for the next poll. -/
def PollFails (script : List PollEvent) (bound : Nat) (rest : List PollEvent) : Prop :=
  (∃ k, k < bound ∧ script = List.replicate k .read ++ .timeout :: rest) ∨
  script = List.replicate bound .read ++ rest ∨
  (rest = [] ∧ ∃ k, k < bound ∧ script = List.replicate k .read)

/-- The device accepts the configuration command, and executes it after `j` reads that still find the CU busy;
`status` and `block` are the draws of that CU step (R169, R262 move 2). -/
def configuredAfter (k j : Nat) (status : Half) (block : List Byte) (rest : List PollEvent) : List PollEvent :=
  acceptedAfter .cu k (List.replicate j .read ++ .move (.cuStep status block) :: .read :: rest)

/-- The device accepts a dump, and completes it after `j` reads that do not find the magic (R166). -/
def dumpedAfter (k j : Nat) (counters : List Word) (rest : List PollEvent) : List PollEvent :=
  acceptedAfter .cu k (List.replicate j .read ++ .move (.dump counters) :: .read :: rest)

/-- The device answers every poll of the start-up sequence and of the device reset (R271, R275): both LOAD_BASE,
the configuration, RU START. -/
def bootAnswers (k1 k2 k3 j k4 : Nat) (status : Half) (block : List Byte) (rest : List PollEvent) : List PollEvent :=
  acceptedAfter .cu k1 (acceptedAfter .ru k2 (configuredAfter k3 j status block (acceptedAfter .ru k4 rest)))

/-- The device after it has executed the configuration command (R169). -/
def Device.configured (d : Device) (a : BusAddr) (block : List Byte) (status : Half) : Device :=
  { d with
    scbPtr := a, cuFetch := a, cuCode := codeIdle, scbIsr := d.scbIsr ||| causeCna, appliedCfg := block, cuDraw := status }

/-- The device after it has written a dump (R166, R262 move 6). -/
def Device.dumped (d : Device) (a : BusAddr) (counters : List Word) : Device :=
  { d with scbPtr := a, dumpPending := false, counters := counters }

/-- What an accepted command does to the device (R162, R163, R166, R262 move 1): SCB_PTR has the address, and
the engine takes it. -/
def EngineCommand.effect (cmd : EngineCommand) (a : BusAddr) (d : Device) : Device :=
  match cmd with
  | .cuLoadBase => { d with scbPtr := a, cuBase := a }
  | .ruLoadBase => { d with scbPtr := a, ruBase := a }
  | .cuStart => { d with scbPtr := a, cuCode := codeActive, cuFetch := a }
  | .ruStart => { d with scbPtr := a, ruCode := codeReady, ruFill := a }
  | .cuDumpStatistics => { d with scbPtr := a, dumpPending := true }

/-- A command that was written and not accepted (R160): SCB_PTR has the address, the field the code (R104). -/
def Device.withCommand (d : Device) (k : CmdCodes) (cmd : EngineCommand) (a : BusAddr) : Device :=
  Device.writeScbCmd (cmd.byte k) { d with scbPtr := a }

/-- The device after a selective reset (R70, R262): both engines idle, no command pending. -/
def Device.selectivelyReset (d : Device) : Device :=
  { d with cuCode := codeIdle, ruCode := codeIdle, cmdCu := 0, cmdRu := 0 }

/-- What the start-up sequence has made of a state when it gives the device its first command (R271), but for memory and
the events: the regions mapped, the device reset, the EEPROM read, the context set, both rings initialised. -/
def State.bootContext (s : State) (f : PciFunction) (rx tx : List BusAddr) (stats cfg : BusAddr) (w : EeWidth) :
    State :=
  { s with
    base := f.base, irq := f.irq, rxAddr := rx, txAddr := tx, statsAddr := stats, cfgAddr := cfg
    eeWidth := w
    hwAddr := hardwareAddress (s.config.eeMem.getD 0 0) (s.config.eeMem.getD 1 0) (s.config.eeMem.getD 2 0)
    txThreshold := s.config.threshInit, cfg := s.config.cfgDefault, fFr := false, fCna := false, fRnr := false
    fSwi := false, rxNeedRestart := false, cfgPending := false, needReset := false, linkReportPending := false
    txAlive := true, rxHead := 0, txHead := 0, txTail := 0, txIdle := true
    dev := s.dev.selectivelyReset }

/-- Whether an engine has no command pending (R40). -/
def Device.noCommand (d : Device) : Engine → Bool
  | .cu => d.cmdCu == 0
  | .ru => d.cmdRu == 0

/-- The state an engine reports (R39, R102). -/
def Device.unitState (d : Device) (e : Engine) : UnitState := unitStateOf (d.unitCode e)

/-- The block may issue a command to an engine: nothing pending there and, if the caller requires it, idle
(R160). -/
structure State.CanIssue (s : State) (e : Engine) (ri : Bool) : Prop where
  noCommand : s.dev.noCommand e = true
  idle : ri = true → s.dev.unitState e = .idle

/-- The operation that issues a command (R92, R160). -/
def EngineCommand.instr (cmd : EngineCommand) (ri : Bool) (a : BusAddr) : Instr :=
  match cmd with
  | .cuLoadBase => .issueCuLoadBase ri a
  | .ruLoadBase => .issueRuLoadBase ri a
  | .cuStart => .issueCuStart ri a
  | .ruStart => .issueRuStart ri a
  | .cuDumpStatistics => .issueCuDumpStatistics ri a

/-- The answers of `map_to_bus_address` in the order the start-up sequence asks for them (R271). -/
def BusMap.inOrder (c : Config) (m : BusMap) : List (Option BusAddr) :=
  (List.range c.nRx).map (fun i => m.rx.getD i none) ++ (List.range c.nTx).map (fun i => m.tx.getD i none) ++
    [m.stats, m.cfg]

/-- Whether an answer is an address the block accepts (R68, R72). -/
def answerOk (a : Option BusAddr) : Bool :=
  match a with
  | some a => a.toNat % 4 == 0
  | none => false

end Machine

end Sys2Proof
end

