-- ==== Sys2Proof/Certificates/Slice0/Obligations.lean ====
section
/-! DEFINITION. The statements for the provers, in the order of OBLIGATIONS.json. Each says what the machine does
as a rule of the specification gives it; `{ s with … }` names every field that changes, so it is the frame too. -/

open Sys2Proof Sys2Proof.Machine

/-! ### Encodings -/

/-- Every well-formed instruction decodes from its own words (R90-R93, R104, R114), whatever the command codes of the
machine are (R11). -/
def Obligations.DecodeOfEncode : Prop :=
  ∀ (k : CmdCodes) (i : Instr), k.wf = true → i.wf = true → decode k (encode k i) = .ok i

/-- An operation word the decoder accepts is the encoding of the instruction it stands for: no bit of it is
dropped (R95). -/
def Obligations.EncodeOfDecode : Prop :=
  ∀ (w : Word) (p : Payload) (i : Instr), decodeOpw w p = .ok i →
    i.wf = true ∧ i.isRequest = true ∧ ∃ p', ∀ k, encode k i = .opw w p'

/-- An operation word is an instruction exactly if it matches a row of the opcode table (R94, R95). -/
def Obligations.WordDecodesIffTableRow : Prop :=
  ∀ (w : Word) (p : Payload), (∃ i, decodeOpw w p = .ok i) ↔ ∃ r ∈ opwRows, w &&& r.1 = r.2

/-- The worked operation words (R118), with any payload; the last two are reserved. -/
def Obligations.WorkedOperationWords : Prop :=
  ∀ p : Payload,
    decodeOpw 0x00000001 p = .ok .rxPoll ∧
    decodeOpw 0x00000005 p = .ok .txDrain ∧
    decodeOpw 0x00001210 p = .ok (.issueCuStart true p.addr) ∧
    decodeOpw 0x00000210 p = .ok (.issueCuLoadBase true p.addr) ∧
    decodeOpw 0x00000310 p = .ok (.issueRuLoadBase true p.addr) ∧
    decodeOpw 0x00001110 p = .ok (.issueRuStart false p.addr) ∧
    decodeOpw 0x00002010 p = .ok (.issueCuDumpStatistics false p.addr) ∧
    decodeOpw 0x00000350 p = .ok (.readEeprom 3) ∧
    decodeOpw 0x00000151 p = .ok (.readPhy 1) ∧
    decodeOpw 0x00000202 p = .ok (.rxRecycle 2) ∧
    ∀ w : Word, w = 0x00000003 ∨ w = 0x00002310 → ∀ (s : State) (rest : List Input),
      s.agenda = .request w p :: rest → s.fault = none →
      step s = .next { s with agenda := rest, fault := some .illegalOp }

/-- The command codes of the device: each field of SCB_CMD with the codes of the machine (R11, R40), which are by
default those of R104, and the command word of a TX descriptor (R114). The model's own choices in it: every other
SCB_CMD code is refused (log entry 9), bit 3 of the byte is ignored (log entry 18), and so are bits 14:3 of the command
word (log entry 19); all three are DESIGN CHOICE. -/
def Obligations.DeviceCommandCodes : Prop :=
  CmdCodes.table = { cuStart := 1, cuDumpStatistics := 5, cuLoadBase := 6, ruStart := 1, ruLoadBase := 6 } ∧
  (∀ (k : CmdCodes) (b : Byte), decodeScbByte k .cu b =
    if scbCuField b = 0 then .ok .scbCuNop else if scbCuField b = k.cuStart then .ok .scbCuStart
    else if scbCuField b = k.cuDumpStatistics then .ok .scbCuDumpStatistics
    else if scbCuField b = k.cuLoadBase then .ok .scbCuLoadBase else .error .reservedCommandCode) ∧
  (∀ (k : CmdCodes) (b : Byte), decodeScbByte k .ru b =
    if scbRuField b = 0 then .ok .scbRuNop else if scbRuField b = k.ruStart then .ok .scbRuStart
    else if scbRuField b = k.ruLoadBase then .ok .scbRuLoadBase else .error .reservedCommandCode) ∧
  (∀ c : Half, decodeTxCommand c =
    if commandOp c = opNop then .ok (.txdOpNop (commandEl c))
    else if commandOp c = opTx then .ok (.txdOpTx (commandEl c)) else .error .reservedTxOp)

/-! ### The step -/

/-- A request at the head of the agenda is the instruction its word stands for (R18, R90); with no input the
machine waits. The agenda is the model's own (log entry 2). -/
def Obligations.StepRunsTheRequestedOperation : Prop :=
  (∀ s : State, s.agenda = [] → step s = .next s) ∧
  ∀ (s : State) (w : Word) (p : Payload) (rest : List Input) (i : Instr), s.agenda = .request w p :: rest →
    decodeOpw w p = .ok i → step s = exec i { s with agenda := rest }

/-- A word that matches no row of the opcode table raises IllegalOp and changes no other state, whatever the block
has done so far (R94). -/
def Obligations.IllegalWordRaisesIllegalOp : Prop :=
  ∀ (s : State) (w : Word) (p : Payload) (rest : List Input), s.agenda = .request w p :: rest → s.fault = none →
    (∀ r ∈ opwRows, w &&& r.1 ≠ r.2) → step s = .next { s with agenda := rest, fault := some .illegalOp }

/-- The device's commands run as instructions: what an accepting engine finds in its SCB_CMD field, and what the
CU finds at its fetch address, whose read is one event (R262 moves 1 and 2, R74); a reserved code stops the machine (log
entry 9). At a descriptor of either ring the CU takes the command as it stands; at another place of the regions, but for
the configuration block, it takes a free one, NOP or TX, with or without the mark (log entry 41); outside the regions it
stops (R61, log entry 8). Where a descriptor and the configuration block are at one address, as with the zero caches of
State.reset, the CU takes it for the descriptor: the model's precedence (log entry 43, DESIGN CHOICE). The inputs are the
agenda's (log entry 2), and the draw is held in the device (log entry 14). -/
def Obligations.StepRunsTheDeviceCommand : Prop :=
  (∀ (s : State) (e : Engine) (rest : List Input) (i : Instr), s.agenda = .device (.accept e) :: rest →
    decodeScbByte s.config.cmdCodes e (scbCmdByte s.dev) = .ok i → step s = exec i { s with agenda := rest }) ∧
  (∀ (s : State) (e : Engine) (rest : List Input) (r : DecodeError), s.agenda = .device (.accept e) :: rest →
    decodeScbByte s.config.cmdCodes e (scbCmdByte s.dev) = .error r → step s = .fault .reservedDeviceCommand) ∧
  ∀ (s : State) (status : Half) (block : List Byte) (rest : List Input),
    s.agenda = .device (.cuStep status block) :: rest → s.dev.unitState .cu = .active →
    let fetched : State := { s with
      agenda := rest, dev := { s.dev with cuDraw := status }
      events := .memRead .device (s.dev.cuFetch + offCommand) 2 :: s.events }
    (∀ i : Instr, s.dev.cuFetch ∈ s.txAddr ++ s.rxAddr →
      decodeTxCommand (s.half (s.dev.cuFetch + offCommand)) = .ok i → step s = exec i fetched) ∧
    (∀ r : DecodeError, s.dev.cuFetch ∈ s.txAddr ++ s.rxAddr →
      decodeTxCommand (s.half (s.dev.cuFetch + offCommand)) = .error r → step s = .fault .reservedDeviceCommand) ∧
    (s.inRegions s.dev.cuFetch = true → s.dev.cuFetch ∉ s.txAddr ++ s.rxAddr → s.dev.cuFetch ≠ s.cfgAddr →
      ∃ el, step s = exec (.txdOpNop el) fetched ∨ step s = exec (.txdOpTx el) fetched) ∧
    (s.config.wf = true → s.inRegions s.dev.cuFetch = false → step s = .fault .outsideRegions)

/-- A device move as an input and the same move during a bounded poll are one thing: the step is the move. -/
def Obligations.DeviceInputIsItsMove : Prop :=
  ∀ (s : State) (m : DeviceMove) (rest : List Input), s.agenda = .device m :: rest →
    step s = runDevice (deviceMove m) { s with agenda := rest }

/-- A table word that the host places runs next, in the state it was placed in but for what the fetch needs: the
input, the command field, or the command word of a descriptor that the CU is at. The whole statement is about the model's
way to place a word (log entry 28, DESIGN CHOICE). A table word of SCB_CMD has the codes of R104, so there the machine's
codes are those (log entry 39, DESIGN CHOICE). The descriptor may be at the address of the configuration block, as in
State.reset, where both are 0: that the CU takes it for the descriptor is the model's precedence (log entry 43, DESIGN
CHOICE). -/
def Obligations.PlacedWordRunsNext : Prop :=
  (∀ (s : State) (w : Nat) (i : Instr), decodeTableWord 32 w = some i → step (s.withFetchWord 32 w) = exec i s) ∧
  (∀ (s : State) (w : Nat) (i : Instr), s.config.cmdCodes = CmdCodes.table → decodeTableWord 8 w = some i →
    step (s.withFetchWord 8 w) = exec i { s with dev := { s.dev with
      cmdCu := scbCuField (BitVec.ofNat 8 w), cmdRu := scbRuField (BitVec.ofNat 8 w) } }) ∧
  (∀ (s : State) (w : Nat) (i : Instr), decodeTableWord 16 w = some i →
    step (s.withFetchWord 16 w) = exec i { placeTxCommand s (BitVec.ofNat 16 w) with
      events := .memRead .device (s.txAddr.headD 0 + offCommand) 2 :: s.events })

/-! ### Faults and the start-up mark -/

/-- A faulted block accepts no operation, reset included, and stays faulted with the reason it has (R243). The
`refused` result is the model's (log entry 23). -/
def Obligations.NoReturnFromFault : Prop :=
  ∀ (s : State) (r : FatalReason), s.fault = some r →
    (∀ i : Instr, i.isRequest = true → exec i s = .next { s with results := s.results ++ [.refused] }) ∧
    ∀ t, step s = .next t → t.fault = some r

/-- Before the start-up sequence has completed, every operation but reset raises NotStarted (R48). -/
def Obligations.OnlyResetBeforeStart : Prop :=
  ∀ (s : State) (i : Instr), s.fault = none → s.started = false → i.isRequest = true → i ≠ .reset →
    exec i s = .next { s with fault := some .notStarted }

/-- The start-up mark is set by a reset that returns Ok and by nothing else, and never cleared (R48, R271). -/
def Obligations.OnlyResetStarts : Prop :=
  ∀ s t : State, step s = .next t →
    (s.started = true → t.started = true) ∧
    (s.started = false → t.started = true → ∃ w p rest, s.agenda = .request w p :: rest ∧
      decodeOpw w p = .ok .reset ∧ t.fault = none ∧ t.results = s.results ++ [.ok])

/-! ### The whole machine -/

/-- What a run never changes: the parameters (R11); after the start-up sequence what was found at reset (R46, R49, R72);
a detected EEPROM width (R38). That the collaborators' answers never change either is the model's choice (log entry 36,
DESIGN CHOICE). -/
def Obligations.ConstantsOfARun : Prop :=
  ∀ s t : State, step s = .next t →
    t.config = s.config ∧ t.pciBus = s.pciBus ∧ t.busMap = s.busMap ∧
    (s.started = true → t.rxAddr = s.rxAddr ∧ t.txAddr = s.txAddr ∧ t.statsAddr = s.statsAddr ∧
      t.cfgAddr = s.cfgAddr ∧ t.base = s.base ∧ t.irq = s.irq ∧ t.hwAddr = s.hwAddr) ∧
    (s.eeWidth ≠ .unknown → t.eeWidth = s.eeWidth)

/-- The outputs are append-only: the log (R52), results, replies (R225), link reports (R221), the frames on the
wire; and so is the event order, newest first (R74). -/
def Obligations.OutputsOnlyGrow : Prop :=
  ∀ s t : State, step s = .next t →
    s.log <+: t.log ∧ s.results <+: t.results ∧ s.replies <+: t.replies ∧ s.reports <+: t.reports ∧
    s.dev.wire <+: t.dev.wire ∧ s.events <:+ t.events

/-- `f_fr`, `f_rnr` and `f_swi` are set only by the hard phase (R30). The fourth flag, `f_cna`, is also set by the
deferred phase when the CU restart finds a race (R183). -/
def Obligations.OnlyTheHardPhaseSetsFlags : Prop :=
  ∀ s t : State, step s = .next t →
    (s.fFr = false ∧ t.fFr = true) ∨ (s.fRnr = false ∧ t.fRnr = true) ∨ (s.fSwi = false ∧ t.fSwi = true) →
    ∃ w p rest, s.agenda = .request w p :: rest ∧ decodeOpw w p = .ok .onInterrupt

/-- Request and reply accounting (R230): a request that raises no fault either replies in its own operation or is
the single armed request; a replay replies or arms the same request again. -/
def Obligations.RequestsReplyOnceOrStayArmed : Prop :=
  ∀ (s t : State) (c : Client) (frame : Frame), s.Running → t.fault = none →
    (exec (.transmit c frame) s = .next t →
      (t.replies = s.replies ++ [(some c, .ack)] ∧ t.pendTx = .empty) ∨
      (t.replies = s.replies ∧ t.pendTx = .armed { client := c, frame := frame })) ∧
    (s.pendTx = .armed { client := c, frame := frame } → exec .replayTx s = .next t →
      (t.replies = s.replies ++ [(some c, .ack)] ∧ t.pendTx = .empty) ∨
      (t.replies = s.replies ∧ t.pendTx = s.pendTx)) ∧
    (exec (.receive c) s = .next t →
      (∃ bytes, t.replies = s.replies ++ [(some c, .frame bytes)] ∧ t.pendRx = .empty) ∨
      (t.replies = s.replies ∧ t.pendRx = .armed c)) ∧
    (s.pendRx = .armed c → exec .replayRx s = .next t →
      (∃ bytes, t.replies = s.replies ++ [(some c, .frame bytes)] ∧ t.pendRx = .empty) ∨
      (t.replies = s.replies ∧ t.pendRx = s.pendRx))

/-- A device move changes the device, memory and the event order, and of memory only what the device may write:
status, received_length and buffer, the statistics region, the configuration block (R50, R262). -/
def Obligations.DeviceWritesOnlyItsFields : Prop :=
  ∀ (s t : State) (m : DeviceMove) (rest : List Input), s.agenda = .device m :: rest → step s = .next t →
    t = { s with agenda := rest, mem := t.mem, events := t.events, dev := t.dev } ∧ s.ChangesOnly t s.deviceSpans

/-- Soundness is an invariant: every step from a sound state leads to a sound state. That the regions of a sound state lie
apart is the model's presumption (log entry 43, DESIGN CHOICE). -/
def Obligations.SoundnessIsKept : Prop := ∀ s t : State, s.Sound → step s = .next t → t.Sound

/-- The values of the power-on state that the specification gives (R270). -/
def Obligations.PowerOnValues : Prop :=
  State.reset.fault = none ∧ State.reset.seq = .ready ∧ State.reset.started = false ∧ State.reset.serBusy = false ∧
  State.reset.eeWidth = .unknown ∧ State.reset.irqArmed = false ∧ State.reset.log = [] ∧
  State.reset.pendTx = .empty ∧ State.reset.pendRx = .empty

/-- The power-on state is sound. -/
def Obligations.PowerOnIsSound : Prop := State.reset.Sound

/-- Between operations of a running block exactly one descriptor of each ring carries the end-of-list mark: the one
before `rx_head` (R134), and `tx_head` (R26); an idle TX ring has `tx_tail = tx_head` (R26). The premise of a sound state
presumes regions that lie apart (log entry 43, DESIGN CHOICE). -/
def Obligations.OneEndOfListMark : Prop :=
  ∀ s t : State, s.Sound → step s = .next t → t.Running →
    (List.range t.config.nRx).filter (fun i => commandEl (t.rxCommand i)) = [prevIdx t.config.nRx t.rxHead] ∧
    (List.range t.config.nTx).filter (fun i => commandEl (t.txCommand i)) = [t.txHead] ∧
    (t.txIdle = true → t.txTail = t.txHead)

/-! ### The RX ring -/

/-- `rx_poll` (R131): it reads the head descriptor and writes no state; the outcomes of the rule. Its reads are in the
rule's order, newest first in the events: the status first, and no other field before it was found complete. -/
def Obligations.RxPollInspectsTheHead : Prop :=
  (∀ p : Payload, decodeOpw 0x00000001 p = .ok .rxPoll) ∧
  ∀ s : State, s.fault = none → s.rxHead < s.rxAddr.length →
    let st := s.rxStatus s.rxHead
    let rl := s.rxLength s.rxHead
    let final := lengthEof rl = true ∧ lengthFinal rl = true
    let a := s.rxSlot s.rxHead
    let statusRead : List BusEvent := .memRead .block (a + offStatus) 2 :: s.events
    let lengthRead : List BusEvent := .memRead .block (a + offReceivedLength) 2 :: statusRead
    let capacityRead : List BusEvent := .memRead .block (a + offCapacity) 2 :: lengthRead
    (s.started = false → exec .rxPoll s = .next { s with fault := some .notStarted }) ∧
    (s.started = true → statusC st = false →
      exec .rxPoll s = .next { s with results := s.results ++ [.notReady], events := statusRead }) ∧
    (s.started = true → statusC st = true → ¬ (statusOk st = true ∧ statusErr st = 0) →
      exec .rxPoll s = .next { s with fault := some .rxError, events := statusRead }) ∧
    (s.started = true → statusC st = true → statusOk st = true → statusErr st = 0 → ¬ final →
      exec .rxPoll s = .next { s with fault := some .rxLength, events := lengthRead }) ∧
    (s.started = true → statusC st = true → statusOk st = true → statusErr st = 0 → final →
      capacityOf (s.rxCapacity s.rxHead) < lengthCount s.config rl →
      exec .rxPoll s = .next { s with fault := some .rxLength, events := capacityRead }) ∧
    (s.started = true → s.HeadGood → exec .rxPoll s = .next { s with
      results := s.results ++ [.ready s.rxHead s.headFrame]
      events := .memRead .block (a + offBuffer) (lengthCount s.config rl) :: capacityRead })

/-- `rx_recycle` (R133): the preconditions; the writes in the rule's order, so that for a moment two descriptors
carry the end-of-list mark and never none; `link`, `capacity` and the buffer are left alone. -/
def Obligations.RxRecycleMovesTheMark : Prop :=
  (∀ (sel : Byte) (p : Payload), decodeOpw (mkOpw sel 0x02) p = .ok (.rxRecycle sel.toNat)) ∧
  ∀ (s : State) (index : Nat), s.config.wf = true → s.Laid → s.rxHead < s.config.nRx → s.fault = none →
    let p := prevIdx s.config.nRx s.rxHead
    let a := s.rxSlot s.rxHead
    (s.started = false → exec (.rxRecycle index) s = .next { s with fault := some .notStarted }) ∧
    (s.started = true → index ≠ s.rxHead → exec (.rxRecycle index) s = .next { s with fault := some .precondition }) ∧
    (s.started = true → index = s.rxHead → statusC (s.rxStatus s.rxHead) = false →
      ∃ ev, exec (.rxRecycle index) s = .next { s with fault := some .precondition, events := ev }) ∧
    (s.started = true → index = s.rxHead → statusC (s.rxStatus s.rxHead) = true → commandEl (s.rxCommand p) = false →
      ∃ t : State, exec (.rxRecycle index) s = .next t ∧
        t = { s with fault := some .ringInvariant, mem := t.mem, events := t.events } ∧
        t.rxStatus s.rxHead = 0 ∧ t.rxLength s.rxHead = 0 ∧ t.rxCommand s.rxHead = rxCommandWord true ∧
        s.ChangesOnly t (s.recycledSpans s.rxHead)) ∧
    (s.started = true → index = s.rxHead → statusC (s.rxStatus s.rxHead) = true → commandEl (s.rxCommand p) = true →
      ∃ t : State, exec (.rxRecycle index) s = .next t ∧
        t = { s with
          rxHead := nextIdx s.config.nRx s.rxHead, mem := t.mem, events := t.events, results := s.results ++ [.ok] } ∧
        t.rxStatus s.rxHead = 0 ∧ t.rxLength s.rxHead = 0 ∧ t.rxCommand s.rxHead = rxCommandWord true ∧
        t.rxCommand p = rxCommandWord false ∧
        s.ChangesOnly t (s.recycledSpans s.rxHead ++ [s.rxCommandSpan p]) ∧
        t.events = .memWrite .block (s.rxSlot p + offCommand) (leBytes 2 (rxCommandWord false).toNat) ::
          .memRead .block (s.rxSlot p + offCommand) 2 ::
          .memWrite .block (a + offCommand) (leBytes 2 (rxCommandWord true).toNat) ::
          .memWrite .block (a + offReceivedLength) (leBytes 2 0) :: .memWrite .block (a + offStatus) (leBytes 2 0) ::
          .memRead .block (a + offStatus) 2 :: s.events)

/-! ### The TX ring -/

/-- The frame size bound is fatal (R144): nothing is written but the consumed request of a replay. -/
def Obligations.FrameOutOfBoundsIsFatal : Prop :=
  ∀ (s : State) (frame : Frame) (c : Client), s.Running →
    (frame.length < s.config.minFrame ∨ s.config.maxTaggedFrame < frame.length) →
    exec (.txAppend frame) s = .next { s with fault := some .frameSize } ∧
    (s.pendTx = .empty → exec (.transmit c frame) s = .next { s with fault := some .frameSize }) ∧
    (s.pendTx = .armed { client := c, frame := frame } →
      exec .replayTx s = .next { s with pendTx := .empty, fault := some .frameSize })

/-- Appending to an active chain (R136-R138): the next slot is filled, every one of its writes before the write
that takes the mark from the head; `transmit` and `replay_tx` acknowledge the frame at once (R226, R187). -/
def Obligations.AppendToActiveChain : Prop :=
  ∀ (s : State) (frame : Frame) (c : Client), s.config.wf = true → s.Laid → s.Running → s.txHead < s.config.nTx →
    s.txIdle = false → s.config.minFrame ≤ frame.length → frame.length ≤ s.config.maxTaggedFrame →
    nextIdx s.config.nTx s.txHead ≠ s.txTail →
    let n := nextIdx s.config.nTx s.txHead
    ∃ t : State, t = { s with txHead := n, mem := t.mem, events := t.events } ∧
      t.TxFilled n s.txThreshold frame ∧ t.txCommand s.txHead = txCommandWord false opTx ∧
      s.ChangesOnly t (s.filledSpans n frame ++ [s.txCommandSpan s.txHead]) ∧
      t.events = s.appendEvents n s.txHead s.txThreshold frame ++ s.events ∧
      exec (.txAppend frame) s = .next { t with results := s.results ++ [.appended n] } ∧
      (s.pendTx = .empty → exec (.transmit c frame) s =
        .next { t with results := s.results ++ [.sent], replies := s.replies ++ [(some c, .ack)] }) ∧
      (s.pendTx = .armed { client := c, frame := frame } → exec .replayTx s = .next { t with
        pendTx := .empty, results := s.results ++ [.sent], replies := s.replies ++ [(some c, .ack)] })

/-- A full ring (R27) takes no frame and leaves every field unchanged (R136); `transmit` arms the request (R226), and a
replay arms the same request again (R187). -/
def Obligations.FullRingDefers : Prop :=
  ∀ (s : State) (frame : Frame) (c : Client), s.Running → s.txFull = true → s.config.minFrame ≤ frame.length →
    frame.length ≤ s.config.maxTaggedFrame →
    exec (.txAppend frame) s = .next { s with results := s.results ++ [.ringFull] } ∧
    (s.pendTx = .empty → exec (.transmit c frame) s =
      .next { s with pendTx := .armed { client := c, frame := frame }, results := s.results ++ [.deferred] }) ∧
    (s.pendTx = .armed { client := c, frame := frame } →
      exec .replayTx s = .next { s with results := s.results ++ [.deferred] })

/-- Appending to an idle ring (R136, R140): slot 0 is filled and becomes the only carrier of the mark, and the CU is
started there. -/
def Obligations.AppendToIdleRing : Prop :=
  ∀ (s : State) (frame : Frame) (c : Client) (k : Nat) (rest : List PollEvent), s.config.wf = true → s.Laid →
    s.Running → s.txHead < s.config.nTx → s.txIdle = true → s.config.minFrame ≤ frame.length →
    frame.length ≤ s.config.maxTaggedFrame → s.CanIssue .cu true → s.pollScript = acceptedAfter .cu k rest →
    k < s.config.cuPollBound →
    ∃ t : State, t = { s with
        txHead := 0, txTail := 0, txIdle := false, mem := t.mem, events := t.events, pollScript := rest
        dev := EngineCommand.effect .cuStart (s.txSlot 0) s.dev } ∧
      t.TxFilled 0 s.txThreshold frame ∧
      (s.txHead ≠ 0 → t.txCommand s.txHead = txCommandWord false (commandOp (s.txCommand s.txHead))) ∧
      s.ChangesOnly t (s.filledSpans 0 frame ++ [s.txCommandSpan s.txHead]) ∧
      exec (.txAppend frame) s = .next { t with results := s.results ++ [.appended 0] } ∧
      (s.pendTx = .empty → exec (.transmit c frame) s =
        .next { t with results := s.results ++ [.sent], replies := s.replies ++ [(some c, .ack)] }) ∧
      (s.pendTx = .armed { client := c, frame := frame } → exec .replayTx s = .next { t with
        pendTx := .empty, results := s.results ++ [.sent], replies := s.replies ++ [(some c, .ack)] })

/-- Appending to an idle ring where the CU's START is a fault (R136): a CU that is not idle is NotIdle, a pending command
CmdBusy (R160), a command that is not accepted in time CmdTimeout (R161; log entry 3 has the three ways). What the
operation wrote before stays (R240): slot 0 is filled, the old mark cleared and the ring active. `transmit` and
`replay_tx` fault in the same way, unacknowledged, the replay with its slot emptied (R226, R187). -/
def Obligations.AppendKeepsItsWritesOnFault : Prop :=
  ∀ (s : State) (frame : Frame) (c : Client) (rest : List PollEvent), s.config.wf = true → s.Laid → s.Running →
    s.txHead < s.config.nTx → s.txIdle = true → s.config.minFrame ≤ frame.length →
    frame.length ≤ s.config.maxTaggedFrame →
    let endsIn (r : FatalReason) (d : Device) (script : List PollEvent) : Prop := ∃ t : State,
      t = { s with
        txHead := 0, txTail := 0, txIdle := false, fault := some r, mem := t.mem, events := t.events
        dev := d, pollScript := script } ∧
      t.TxFilled 0 s.txThreshold frame ∧
      (s.txHead ≠ 0 → t.txCommand s.txHead = txCommandWord false (commandOp (s.txCommand s.txHead))) ∧
      s.ChangesOnly t (s.filledSpans 0 frame ++ [s.txCommandSpan s.txHead]) ∧
      exec (.txAppend frame) s = .next t ∧
      (s.pendTx = .empty → exec (.transmit c frame) s = .next t) ∧
      (s.pendTx = .armed { client := c, frame := frame } → exec .replayTx s = .next { t with pendTx := .empty })
    (s.dev.unitState .cu ≠ .idle → endsIn .notIdle s.dev s.pollScript) ∧
    (s.dev.unitState .cu = .idle → s.dev.noCommand .cu = false → endsIn .cmdBusy s.dev s.pollScript) ∧
    (s.CanIssue .cu true → PollFails s.pollScript s.config.cuPollBound rest →
      endsIn .cmdTimeout (s.dev.withCommand s.config.cmdCodes .cuStart (s.txSlot 0)) rest)

/-- `tx_drain` on an idle ring, and up to the first incomplete descriptor (R141): the retired ones are counted, each
underrun raises the threshold, the tail is the stopping point. -/
def Obligations.DrainStopsAtTheFirstIncomplete : Prop :=
  ∀ (s : State) (k : Nat), s.Running →
    (s.txIdle = true → exec .txDrain s = .next { s with results := s.results ++ [.retired 0] }) ∧
    (s.txIdle = false → s.txAddr.length = s.config.nTx → s.txHead < s.config.nTx → s.txTail < s.config.nTx →
      s.TxRun k → statusC (s.txStatus (s.txWalk k)) = false →
      ∃ ev, exec .txDrain s = .next { s with
        txTail := s.txWalk k, txThreshold := thresholdAfter s.config s.txThreshold (s.underruns k)
        txAlive := s.txAlive || decide (0 < k), results := s.results ++ [.retired k], events := ev })

/-- `tx_drain` at the end-of-list mark (R141): on `tx_head` the descriptor is retired and the ring idle; a mark
elsewhere, or a head without it, is RingInvariant. -/
def Obligations.DrainStopsAtTheMark : Prop :=
  ∀ (s : State) (k : Nat), s.Running → s.txIdle = false → s.txAddr.length = s.config.nTx →
    s.txHead < s.config.nTx → s.txTail < s.config.nTx → s.TxRun k → statusC (s.txStatus (s.txWalk k)) = true →
    (commandEl (s.txCommand (s.txWalk k)) = true → s.txWalk k = s.txHead →
      ∃ ev, exec .txDrain s = .next { s with
        txIdle := true, txTail := s.txHead, txAlive := true
        txThreshold := thresholdAfter s.config s.txThreshold (s.underruns (k + 1))
        results := s.results ++ [.retired (k + 1)], events := ev }) ∧
    (commandEl (s.txCommand (s.txWalk k)) = decide (s.txWalk k ≠ s.txHead) →
      ∃ ev, exec .txDrain s = .next { s with
        fault := some .ringInvariant
        txThreshold := thresholdAfter s.config s.txThreshold (s.underruns (k + 1)), events := ev })

/-! ### Commands -/

/-- `issue` of LOAD_BASE and START (R160, R162, R163, R282): the checks, then the pointer, then the code, then the
poll until the field reads NOP; the engine has the address and only its own part of the device changes. -/
def Obligations.IssueRunsToAcceptance : Prop :=
  ∀ (cmd : EngineCommand) (ri : Bool) (a : BusAddr) (s : State) (k : Nat) (rest : List PollEvent),
    s.config.cmdCodes.wf = true → cmd ≠ .cuDumpStatistics → s.Running → s.CanIssue cmd.engine ri →
    s.pollScript = acceptedAfter cmd.engine k rest → k < s.pollBound cmd.engine →
    ∃ polls : List BusEvent, polls.length = k + 1 ∧ (∀ e ∈ polls, ∃ v, e = .portRead (s.readPort .scbCmd) v) ∧
      exec (cmd.instr ri a) s = .next { s with
        dev := cmd.effect a s.dev, pollScript := rest, results := s.results ++ [.ok]
        events := polls ++ .portWrite (s.writePort .scbCmd) ((cmd.byte s.config.cmdCodes).setWidth 32) ::
          .portWrite (s.writePort .scbPtr) a ::
          .portRead (s.readPort .scbCmd) ((scbCmdByte s.dev).setWidth 32) ::
          (if ri then [.portRead (s.readPort .scbStatus) ((scbStatusByte s.statusReserved s.dev).setWidth 32)]
            else []) ++ s.events }

/-- Where `issue` faults (R160, R161, R171): an engine that must be idle and is not, a field that is not NOP, and a
command that is not accepted in time (log entry 3 has the three ways). A dump has cleared `stats_done` by then (R166),
and `get_statistics` faults in the same way (R229). -/
def Obligations.IssueFaults : Prop :=
  ∀ (cmd : EngineCommand) (ri : Bool) (a : BusAddr) (c : Client) (s : State) (rest : List PollEvent), s.Running →
    (ri = true → s.dev.unitState cmd.engine ≠ .idle →
      ∃ ev, exec (cmd.instr ri a) s = .next { s with fault := some .notIdle, events := ev }) ∧
    ((ri = true → s.dev.unitState cmd.engine = .idle) → s.dev.noCommand cmd.engine = false →
      ∃ ev, exec (cmd.instr ri a) s = .next { s with fault := some .cmdBusy, events := ev }) ∧
    (s.dev.noCommand .cu = false → ∃ ev, exec (.getStatistics c) s = .next { s with
      fault := some .cmdBusy, events := ev }) ∧
    (s.config.cmdCodes.wf = true → s.CanIssue cmd.engine ri → PollFails s.pollScript (s.pollBound cmd.engine) rest →
      (cmd ≠ .cuDumpStatistics → ∃ ev, exec (cmd.instr ri a) s = .next { s with
        fault := some .cmdTimeout, pollScript := rest, events := ev
        dev := s.dev.withCommand s.config.cmdCodes cmd a }) ∧
      (cmd = .cuDumpStatistics → a = s.statsAddr → ∃ t : State, exec (cmd.instr ri a) s = .next t ∧
        t = { s with
          fault := some .cmdTimeout, pollScript := rest, mem := t.mem, events := t.events
          dev := s.dev.withCommand s.config.cmdCodes cmd a } ∧
        t.word s.statsDoneAddr = 0 ∧ s.ChangesOnly t [(s.statsDoneAddr, 4)] ∧
        (ri = false → exec (.getStatistics c) s = .next t)))

/-- A dump the device completes (R160, R166, R45): the counters, then the magic, are in the statistics region and
nothing else changes; `get_statistics` replies with them (R229). -/
def Obligations.DumpIsReadBack : Prop :=
  ∀ (s : State) (ri : Bool) (c : Client) (k j : Nat) (counters : List Word) (rest : List PollEvent),
    s.config.wf = true → s.Laid → s.Running → s.CanIssue .cu ri → s.pollScript = dumpedAfter k j counters rest →
    k < s.config.cuPollBound → j < s.config.statsPollBound →
    let values := dumpCounters s.config counters
    ∃ t : State, t = { s with
        dev := s.dev.dumped s.statsAddr values, pollScript := rest, mem := t.mem, events := t.events } ∧
      t.statsCounters = values ∧ t.word s.statsDoneAddr = s.config.dumpMagic ∧
      s.ChangesOnly t [(s.statsAddr, 4 * s.config.statsWords + 4)] ∧
      exec (.issueCuDumpStatistics ri s.statsAddr) s = .next { t with results := s.results ++ [.ok] } ∧
      (ri = false → ∃ ev, exec (.getStatistics c) s = .next { t with
        results := s.results ++ [.snapshot values], replies := s.replies ++ [(some c, .snapshot values)], events := ev })

/-- Where a dump faults (R160, R166): another address, and a magic that is not stamped in time (log entry 3 has the
three ways); `stats_done` was cleared, so an old magic does not end the poll. `get_statistics` faults in the same way
(R229). -/
def Obligations.DumpFaults : Prop :=
  ∀ (s : State) (ri : Bool) (a : BusAddr) (c : Client) (k : Nat) (script rest : List PollEvent), s.config.wf = true →
    s.Running → s.CanIssue .cu ri →
    (a ≠ s.statsAddr → ∃ ev, exec (.issueCuDumpStatistics ri a) s =
      .next { s with fault := some .precondition, events := ev }) ∧
    (s.pollScript = acceptedAfter .cu k script → k < s.config.cuPollBound →
      PollFails script s.config.statsPollBound rest →
      ∃ t : State, exec (.issueCuDumpStatistics ri s.statsAddr) s = .next t ∧
        t = { s with
          fault := some .statsTimeout, pollScript := rest, mem := t.mem, events := t.events
          dev := EngineCommand.effect .cuDumpStatistics s.statsAddr s.dev } ∧
        t.word s.statsDoneAddr = 0 ∧ s.ChangesOnly t [(s.statsDoneAddr, 4)] ∧
        (ri = false → exec (.getStatistics c) s = .next t))

/-- `restart_ru` (R168): only for an RU without resources; the whole ring is as `rx_init` leaves it (R145) and the RU
is started at its first descriptor. A command that is pending or not accepted is a fault, which the ring's
initialisation outlives (R160, R240). -/
def Obligations.RestartRuReinitialisesTheRing : Prop :=
  ∀ (s : State) (k : Nat) (rest : List PollEvent), s.config.wf = true → s.Laid → s.Running →
    (s.dev.unitState .ru ≠ .noResources →
      ∃ ev, exec .restartRu s = .next { s with fault := some .precondition, events := ev }) ∧
    (s.dev.unitState .ru = .noResources → s.dev.noCommand .ru = false →
      ∃ t : State, exec .restartRu s = .next t ∧
        t = { s with rxHead := 0, fault := some .cmdBusy, mem := t.mem, events := t.events } ∧
        (∀ i, i < s.config.nRx → t.RxFresh i) ∧ s.ChangesOnly t (headers s.rxAddr)) ∧
    (s.dev.unitState .ru = .noResources → s.dev.noCommand .ru = true →
      PollFails s.pollScript s.config.ruPollBound rest →
      ∃ t : State, exec .restartRu s = .next t ∧
        t = { s with
          rxHead := 0, fault := some .cmdTimeout, pollScript := rest, mem := t.mem, events := t.events
          dev := s.dev.withCommand s.config.cmdCodes .ruStart (s.rxSlot 0) } ∧
        (∀ i, i < s.config.nRx → t.RxFresh i) ∧ s.ChangesOnly t (headers s.rxAddr)) ∧
    (s.dev.unitState .ru = .noResources → s.dev.noCommand .ru = true → s.pollScript = acceptedAfter .ru k rest →
      k < s.config.ruPollBound →
      ∃ t : State, exec .restartRu s = .next t ∧
        t = { s with
          rxHead := 0, rxNeedRestart := false, pollScript := rest, mem := t.mem, events := t.events
          dev := EngineCommand.effect .ruStart (s.rxSlot 0) s.dev, results := s.results ++ [.ok] } ∧
        (∀ i, i < s.config.nRx → t.RxFresh i) ∧ s.ChangesOnly t (headers s.rxAddr))

/-! ### Interrupts -/

/-- `on_interrupt` (R180): exactly the causes read are acknowledged and become flags, unknown ones are logged, the
line is armed again; delivery while disarmed has no effect. -/
def Obligations.HardPhaseAcknowledgesCauses : Prop :=
  (∀ p : Payload, decodeOpw 0x00000020 p = .ok .onInterrupt) ∧
  ∀ s : State, s.fault = none →
    let v := s.dev.scbIsr
    (s.started = false → exec .onInterrupt s = .next { s with fault := some .notStarted }) ∧
    (s.started = true → s.irqArmed = false → exec .onInterrupt s = .next { s with results := s.results ++ [.spurious] }) ∧
    (s.started = true → s.irqArmed = true → exec .onInterrupt s = .next { s with
      fFr := s.fFr || v.getLsbD 6, fCna := s.fCna || v.getLsbD 5, fRnr := s.fRnr || v.getLsbD 4
      fSwi := s.fSwi || v.getLsbD 2
      log := if v &&& 0x8B = 0 then s.log else s.log ++ [.unknownCause (v &&& 0x8B)]
      dev := { s.dev with scbIsr := 0 }
      results := s.results ++ [.handled v]
      events := .portWrite (s.writePort .scbIsr) (v.setWidth 32) ::
        .portRead (s.readPort .scbIsr) (v.setWidth 32) :: s.events })

/-- A deferred phase with nothing to replay or retire (R182): it clears the flags, marks the RU for restart if that
was flagged, and reports a link change (R221), which is also a log event (92_eei_decisions.md D26; log entry 24,
DEDUCED). -/
def Obligations.DeferredPhaseWithoutRingWork : Prop :=
  ∀ s : State, s.Running → s.rxHead < s.rxAddr.length → s.needReset = false → s.fCna = false →
    (s.pendRx = .empty ∨ statusC (s.rxStatus s.rxHead) = false) →
    ∃ ev, exec .checkInterrupts s = .next { s with
      fFr := false, fSwi := false, fRnr := false, rxNeedRestart := s.rxNeedRestart || s.fRnr
      reports := s.reportsAfter, log := s.logAfter, linkReportPending := false, results := s.results ++ [.ok]
      events := ev }

/-- The deferred phase replays the armed RX request when the head descriptor is complete (R182, R188): the frame is
replied, the descriptor recycled, the slot empty. -/
def Obligations.DeferredPhaseDeliversTheFrame : Prop :=
  ∀ (s : State) (c : Client), s.config.wf = true → s.Laid → s.Running → s.rxHead < s.config.nRx →
    s.needReset = false → s.fCna = false → s.fRnr = false → s.linkReportPending = false → s.pendRx = .armed c →
    s.HeadGood → commandEl (s.rxCommand (prevIdx s.config.nRx s.rxHead)) = true →
    ∃ t : State, exec .checkInterrupts s = .next t ∧
      t = { s with
        fFr := false, fSwi := false, pendRx := .empty, rxHead := nextIdx s.config.nRx s.rxHead, mem := t.mem
        events := t.events, replies := s.replies ++ [(some c, .frame s.headFrame)], results := s.results ++ [.ok] } ∧
      t.rxStatus s.rxHead = 0 ∧ t.rxLength s.rxHead = 0 ∧ t.rxCommand s.rxHead = rxCommandWord true ∧
      t.rxCommand (prevIdx s.config.nRx s.rxHead) = rxCommandWord false ∧
      s.ChangesOnly t (s.recycledSpans s.rxHead ++ [s.rxCommandSpan (prevIdx s.config.nRx s.rxHead)])

/-- The deferred TX work in its order (R183, R190): first the completed descriptors are retired. If the chain goes on,
the idle CU is started at the first incomplete descriptor, if any was retired, and then an armed request is appended to
the room that the retirement made; the event order shows retirement, restart and append one after another. If the chain
is done, the ring is idle and an armed request starts a fresh chain at slot 0. -/
def Obligations.RetirementPrecedesReplay : Prop :=
  ∀ (s : State) (k j : Nat) (rest : List PollEvent) (c : Client) (frame : Frame), s.config.wf = true → s.Laid →
    s.Running → s.txHead < s.config.nTx → s.txTail < s.config.nTx → s.rxHead < s.config.nRx → s.needReset = false →
    s.fCna = true → s.fRnr = false → s.linkReportPending = false → s.pendRx = .empty → s.txIdle = false →
    let n := nextIdx s.config.nTx s.txHead
    let r := s.txSlot (s.txWalk k)
    (s.TxRun k → statusC (s.txStatus (s.txWalk k)) = false →
      let u := thresholdAfter s.config s.txThreshold (s.underruns k)
      (k = 0 → s.pendTx = .empty → ∃ ev, exec .checkInterrupts s = .next { s with
        fFr := false, fSwi := false, fCna := false, results := s.results ++ [.ok], events := ev }) ∧
      (0 < k → s.CanIssue .cu true → s.pollScript = acceptedAfter .cu j rest → j < s.config.cuPollBound →
        (s.pendTx = .empty → ∃ ev, exec .checkInterrupts s = .next { s with
          fFr := false, fSwi := false, fCna := false, txTail := s.txWalk k, txThreshold := u, txAlive := true
          pollScript := rest, dev := EngineCommand.effect .cuStart r s.dev
          results := s.results ++ [.ok], events := ev }) ∧
        (s.pendTx = .armed { client := c, frame := frame } → n ≠ s.txWalk k → s.config.minFrame ≤ frame.length →
          frame.length ≤ s.config.maxTaggedFrame →
          ∃ t : State, exec .checkInterrupts s = .next t ∧
            t = { s with
              fFr := false, fSwi := false, fCna := false, txTail := s.txWalk k, txThreshold := u, txAlive := true
              txHead := n, pendTx := .empty, replies := s.replies ++ [(some c, .ack)], mem := t.mem, events := t.events
              pollScript := rest, dev := EngineCommand.effect .cuStart r s.dev
              results := s.results ++ [.ok] } ∧
            t.TxFilled n u frame ∧ t.txCommand s.txHead = txCommandWord false opTx ∧
            s.ChangesOnly t (s.filledSpans n frame ++ [s.txCommandSpan s.txHead]) ∧
            ∃ (polls drain : List BusEvent) (v w : Word),
              (∀ e ∈ polls, ∃ x, e = .portRead (s.readPort .scbCmd) x) ∧
              (∀ e ∈ drain, ∃ i off, e = .memRead .block (s.txSlot i + off) 2) ∧
              t.events = s.appendEvents n s.txHead u frame ++ polls ++
                .portWrite (s.writePort .scbCmd) ((EngineCommand.byte s.config.cmdCodes .cuStart).setWidth 32) ::
                .portWrite (s.writePort .scbPtr) r :: .portRead (s.readPort .scbCmd) v ::
                .portRead (s.readPort .scbStatus) w :: drain ++ s.events))) ∧
    (s.ChainDone k → s.cfgPending = false →
      let u := thresholdAfter s.config s.txThreshold (s.underruns (k + 1))
      (s.pendTx = .empty → ∃ ev, exec .checkInterrupts s = .next { s with
        fFr := false, fSwi := false, fCna := false, txIdle := true, txTail := s.txHead, txThreshold := u
        txAlive := true, results := s.results ++ [.ok], events := ev }) ∧
      (s.pendTx = .armed { client := c, frame := frame } → s.config.minFrame ≤ frame.length →
        frame.length ≤ s.config.maxTaggedFrame → s.CanIssue .cu true → s.pollScript = acceptedAfter .cu j rest →
        j < s.config.cuPollBound →
        ∃ t : State, exec .checkInterrupts s = .next t ∧
          t = { s with
            fFr := false, fSwi := false, fCna := false, txHead := 0, txTail := 0, txThreshold := u, txAlive := true
            pendTx := .empty, replies := s.replies ++ [(some c, .ack)], mem := t.mem, events := t.events
            pollScript := rest, dev := EngineCommand.effect .cuStart (s.txSlot 0) s.dev
            results := s.results ++ [.ok] } ∧
          t.TxFilled 0 u frame ∧
          (s.txHead ≠ 0 → t.txCommand s.txHead = txCommandWord false (commandOp (s.txCommand s.txHead))) ∧
          s.ChangesOnly t (s.filledSpans 0 frame ++ [s.txCommandSpan s.txHead])))

/-- A CU that is not idle at its restart is logged, and the restart is evaluated again in the next deferred phase
(R172, R183): the entry has the decoded state (R102), the CU's flag stays set and no command is written. -/
def Obligations.CommandRaceIsLogged : Prop :=
  ∀ (s : State) (k : Nat), s.Running → s.txAddr.length = s.config.nTx → s.txHead < s.config.nTx →
    s.txTail < s.config.nTx → s.needReset = false → s.fCna = true → s.fRnr = false → s.linkReportPending = false →
    s.pendRx = .empty → s.pendTx = .empty → s.txIdle = false → 0 < k → s.TxRun k →
    statusC (s.txStatus (s.txWalk k)) = false → s.dev.unitState .cu ≠ .idle →
    ∃ ev, exec .checkInterrupts s = .next { s with
      fFr := false, fSwi := false, fCna := true, txTail := s.txWalk k, txAlive := true
      txThreshold := thresholdAfter s.config s.txThreshold (s.underruns k)
      log := s.log ++ [.cmdRace .cu (s.dev.unitState .cu)], results := s.results ++ [.ok], events := ev }

/-- A pending configuration is sent when the deferred phase finds the TX ring idle, or when its drain has made it idle
(R183, R169); then an armed request starts a fresh chain. What the device leaves in the block is a draw (log entry
13). -/
def Obligations.DeferredConfigurationIsSent : Prop :=
  ∀ (s : State) (k j m l : Nat) (status : Half) (block : List Byte) (rest : List PollEvent) (c : Client)
    (frame : Frame), s.config.wf = true →
    s.Laid → s.Running → s.needReset = false → s.fCna = true → s.fRnr = false → s.linkReportPending = false →
    s.pendRx = .empty → s.cfgPending = true → s.CanIssue .cu true → k < s.config.cuPollBound →
    j < s.config.cuPollBound → m < s.config.cuPollBound →
    let u := thresholdAfter s.config s.txThreshold (s.underruns (l + 1))
    let configured := s.dev.configured s.cfgAddr (cfgBlock s.config s.cfg) status
    (s.txIdle = true → s.pendTx = .empty → s.pollScript = configuredAfter k j status block rest →
      ∃ t : State, exec .checkInterrupts s = .next t ∧
        t = { s with
          fFr := false, fSwi := false, fCna := false, cfgPending := false, mem := t.mem, events := t.events
          pollScript := rest, dev := configured, results := s.results ++ [.ok] } ∧
        s.ChangesOnly t [(s.cfgAddr, s.config.cfgBlockLen)]) ∧
    (s.txIdle = false → s.txHead < s.config.nTx → s.txTail < s.config.nTx → s.ChainDone l →
      (s.pendTx = .empty → s.pollScript = configuredAfter k j status block rest →
        ∃ t : State, exec .checkInterrupts s = .next t ∧
          t = { s with
            fFr := false, fSwi := false, fCna := false, cfgPending := false, mem := t.mem, events := t.events
            txIdle := true, txTail := s.txHead, txThreshold := u, txAlive := true
            pollScript := rest, dev := configured, results := s.results ++ [.ok] } ∧
          s.ChangesOnly t [(s.cfgAddr, s.config.cfgBlockLen)]) ∧
      (s.pendTx = .armed { client := c, frame := frame } → s.config.minFrame ≤ frame.length →
        frame.length ≤ s.config.maxTaggedFrame →
        s.pollScript = configuredAfter k j status block (acceptedAfter .cu m rest) →
        ∃ t : State, exec .checkInterrupts s = .next t ∧
          t = { s with
            fFr := false, fSwi := false, fCna := false, cfgPending := false, mem := t.mem, events := t.events
            txHead := 0, txTail := 0, txThreshold := u, txAlive := true, pendTx := .empty
            replies := s.replies ++ [(some c, .ack)], pollScript := rest
            dev := EngineCommand.effect .cuStart (s.txSlot 0) configured, results := s.results ++ [.ok] } ∧
          t.TxFilled 0 u frame ∧
          (s.txHead ≠ 0 → t.txCommand s.txHead = txCommandWord false (commandOp (s.txCommand s.txHead))) ∧
          s.ChangesOnly t
            (s.filledSpans 0 frame ++ [s.txCommandSpan s.txHead, (s.cfgAddr, s.config.cfgBlockLen)])))

/-- The reset that the watchdog asked for (R275, R182 step 2): both rings as their initialisation leaves them, both
bases zero, the configuration sent, stale causes dropped, the RU started; what R275 lists as kept is kept, and an armed
RX request stays armed. The armed TX request, for which the watchdog asks (R220), is replayed into slot 0 of the fresh
ring and acknowledged. That a dump scheduled before stays scheduled is the model's choice (log entry 17, DESIGN
CHOICE), as is what the device leaves in the configuration block (log entry 13). A link report that is pending goes to the
host (R221) and into the log too (92_eei_decisions.md D26), which is the model's inference (log entry 24, DEDUCED). -/
def Obligations.DeferredDeviceReset : Prop :=
  ∀ (s : State) (k1 k2 k3 j k4 k5 : Nat) (status : Half) (block : List Byte) (rest : List PollEvent) (c : Client)
    (frame : Frame),
    s.config.wf = true → s.Laid → s.Running → s.needReset = true → s.config.bootInTime k1 k2 k3 j k4 →
    k5 < s.config.cuPollBound →
    let fresh : Device := { s.dev with
      cuCode := codeIdle, ruCode := codeReady, cmdCu := 0, cmdRu := 0, scbPtr := s.rxSlot 0, scbIsr := 0
      cuBase := 0, ruBase := 0, cuFetch := s.cfgAddr, ruFill := s.rxSlot 0
      appliedCfg := cfgBlock s.config s.cfg, cuDraw := status }
    (s.pendTx = .empty → s.pollScript = bootAnswers k1 k2 k3 j k4 status block rest →
      ∃ t : State, exec .checkInterrupts s = .next t ∧
        t = { s with
          fFr := false, fSwi := false, fCna := false, fRnr := false, rxNeedRestart := false, needReset := false
          rxHead := 0, txHead := 0, txTail := 0, txIdle := true, txAlive := true, cfgPending := false
          reports := s.reportsAfter, log := s.logAfter, linkReportPending := false
          mem := t.mem, events := t.events, pollScript := rest, results := s.results ++ [.ok], dev := fresh } ∧
        (∀ i, i < s.config.nRx → t.RxFresh i) ∧ (∀ i, i < s.config.nTx → t.TxFresh i) ∧
        s.ChangesOnly t (headers s.rxAddr ++ headers s.txAddr ++ [(s.cfgAddr, s.config.cfgBlockLen)])) ∧
    (s.pendTx = .armed { client := c, frame := frame } → s.config.minFrame ≤ frame.length →
      frame.length ≤ s.config.maxTaggedFrame →
      s.pollScript = bootAnswers k1 k2 k3 j k4 status block (acceptedAfter .cu k5 rest) →
      ∃ t : State, exec .checkInterrupts s = .next t ∧
        t = { s with
          fFr := false, fSwi := false, fCna := false, fRnr := false, rxNeedRestart := false, needReset := false
          rxHead := 0, txHead := 0, txTail := 0, txIdle := false, txAlive := true, cfgPending := false
          pendTx := .empty, replies := s.replies ++ [(some c, .ack)]
          reports := s.reportsAfter, log := s.logAfter, linkReportPending := false
          mem := t.mem, events := t.events, pollScript := rest, results := s.results ++ [.ok]
          dev := EngineCommand.effect .cuStart (s.txSlot 0) fresh } ∧
        (∀ i, i < s.config.nRx → t.RxFresh i) ∧ t.TxFilled 0 s.txThreshold frame ∧ t.txLink 0 = s.txSlot 1 ∧
        (∀ i, 0 < i → i < s.config.nTx → t.TxFresh i) ∧
        s.ChangesOnly t (headers s.rxAddr ++ headers s.txAddr ++ s.filledSpans 0 frame ++
          [(s.cfgAddr, s.config.cfgBlockLen)]))

/-! ### Flow control and clients -/

/-- `arm_tx` and `arm_rx` (R184, R185): one request is stored whole; arming twice is DoubleArm. -/
def Obligations.ArmStoresOneRequest : Prop :=
  (∀ p : Payload, decodeOpw 0x00000030 p = .ok (.armTx p.client p.frame) ∧
    decodeOpw 0x00000031 p = .ok (.armRx p.client)) ∧
  ∀ (s : State) (c : Client) (frame : Frame), s.fault = none →
    (s.started = false → exec (.armTx c frame) s = .next { s with fault := some .notStarted } ∧
      exec (.armRx c) s = .next { s with fault := some .notStarted }) ∧
    (s.started = true → s.pendTx = .empty → exec (.armTx c frame) s = .next { s with
      pendTx := .armed { client := c, frame := frame }, results := s.results ++ [.ok] }) ∧
    (s.started = true → s.pendTx ≠ .empty → exec (.armTx c frame) s = .next { s with fault := some .doubleArm }) ∧
    (s.started = true → s.pendRx = .empty → exec (.armRx c) s =
      .next { s with pendRx := .armed c, results := s.results ++ [.ok] }) ∧
    (s.started = true → s.pendRx ≠ .empty → exec (.armRx c) s = .next { s with fault := some .doubleArm })

/-- A client request while one of its direction is armed is DoubleArm (R226, R227); a replay of an empty slot does
nothing (R187, R188). -/
def Obligations.OneRequestPerDirection : Prop :=
  ∀ (s : State) (c : Client) (frame : Frame), s.Running →
    (s.pendTx ≠ .empty → exec (.transmit c frame) s = .next { s with fault := some .doubleArm }) ∧
    (s.pendRx ≠ .empty → exec (.receive c) s = .next { s with fault := some .doubleArm }) ∧
    (s.pendTx = .empty → exec .replayTx s = .next { s with results := s.results ++ [.nothing] }) ∧
    (s.pendRx = .empty → exec .replayRx s = .next { s with results := s.results ++ [.nothing] })

/-- `receive` and `replay_rx` with a complete descriptor at the head (R135, R227, R188). A good frame's bytes are replied,
and the descriptor is recycled. A receive error is RxError, a bad length RxLength (R131), and an end-of-list mark that is
not where it belongs RingInvariant, after the head's fields are written (R133); nothing is replied then, and the replay
has emptied its slot (R240). -/
def Obligations.ReceiveDeliversTheFrame : Prop :=
  ∀ (s : State) (c : Client), s.config.wf = true → s.Laid → s.Running → s.rxHead < s.config.nRx →
    let st := s.rxStatus s.rxHead
    let rl := s.rxLength s.rxHead
    let p := prevIdx s.config.nRx s.rxHead
    let faults (r : FatalReason) : Prop := ∃ ev,
      (s.pendRx = .empty → exec (.receive c) s = .next { s with fault := some r, events := ev }) ∧
      (s.pendRx = .armed c → exec .replayRx s = .next { s with pendRx := .empty, fault := some r, events := ev })
    (s.HeadGood → commandEl (s.rxCommand p) = true → ∃ t : State,
      t = { s with
        rxHead := nextIdx s.config.nRx s.rxHead, mem := t.mem, events := t.events
        replies := s.replies ++ [(some c, .frame s.headFrame)], results := s.results ++ [.delivered] } ∧
      t.rxStatus s.rxHead = 0 ∧ t.rxLength s.rxHead = 0 ∧ t.rxCommand s.rxHead = rxCommandWord true ∧
      t.rxCommand p = rxCommandWord false ∧
      s.ChangesOnly t (s.recycledSpans s.rxHead ++ [s.rxCommandSpan p]) ∧
      (s.pendRx = .empty → exec (.receive c) s = .next t) ∧
      (s.pendRx = .armed c → exec .replayRx s = .next { t with pendRx := .empty })) ∧
    (statusC st = true → ¬ (statusOk st = true ∧ statusErr st = 0) → faults .rxError) ∧
    (statusC st = true → statusOk st = true → statusErr st = 0 →
      ¬ (lengthEof rl = true ∧ lengthFinal rl = true ∧
        lengthCount s.config rl ≤ capacityOf (s.rxCapacity s.rxHead)) → faults .rxLength) ∧
    (s.HeadGood → commandEl (s.rxCommand p) = false → ∃ t : State,
      t = { s with fault := some .ringInvariant, mem := t.mem, events := t.events } ∧
      t.rxStatus s.rxHead = 0 ∧ t.rxLength s.rxHead = 0 ∧ t.rxCommand s.rxHead = rxCommandWord true ∧
      s.ChangesOnly t (s.recycledSpans s.rxHead) ∧
      (s.pendRx = .empty → exec (.receive c) s = .next t) ∧
      (s.pendRx = .armed c → exec .replayRx s = .next { t with pendRx := .empty }))

/-- `receive` and `replay_rx` with no complete frame and nothing to restart (R227): the request is armed; an RU that
is marked but is not without resources keeps its mark (R228). -/
def Obligations.ReceiveArmsTheRequest : Prop :=
  ∀ (s : State) (c : Client), s.Running → s.rxHead < s.rxAddr.length → statusC (s.rxStatus s.rxHead) = false →
    (s.rxNeedRestart = false ∨ s.dev.unitState .ru ≠ .noResources) →
    (s.pendRx = .empty → ∃ ev, exec (.receive c) s =
      .next { s with pendRx := .armed c, results := s.results ++ [.deferred], events := ev }) ∧
    (s.pendRx = .armed c → ∃ ev, exec .replayRx s = .next { s with results := s.results ++ [.deferred], events := ev })

/-- The lazy restart (R227, R228, R168): the ring is empty, the mark set and the RU without resources; the RU is
restarted, then the request is armed. A command that is pending or not accepted is a fault (R160, R161) before the
request is armed: the ring is initialised then, the mark stays, and the replay has emptied its slot (R240). -/
def Obligations.ReceiveRestartsTheRu : Prop :=
  ∀ (s : State) (c : Client) (k : Nat) (rest : List PollEvent), s.config.wf = true → s.Laid → s.Running →
    s.rxHead < s.config.nRx → statusC (s.rxStatus s.rxHead) = false → s.rxNeedRestart = true →
    s.dev.unitState .ru = .noResources →
    let faults (r : FatalReason) (d : Device) (script : List PollEvent) : Prop := ∃ t : State,
      t = { s with rxHead := 0, fault := some r, mem := t.mem, events := t.events, dev := d, pollScript := script } ∧
      (∀ i, i < s.config.nRx → t.RxFresh i) ∧ s.ChangesOnly t (headers s.rxAddr) ∧
      (s.pendRx = .empty → exec (.receive c) s = .next t) ∧
      (s.pendRx = .armed c → exec .replayRx s = .next { t with pendRx := .empty })
    (s.dev.noCommand .ru = true → s.pollScript = acceptedAfter .ru k rest → k < s.config.ruPollBound → ∃ t : State,
      t = { s with
        rxHead := 0, rxNeedRestart := false, pollScript := rest, mem := t.mem, events := t.events, pendRx := .armed c
        dev := EngineCommand.effect .ruStart (s.rxSlot 0) s.dev, results := s.results ++ [.deferred] } ∧
      (∀ i, i < s.config.nRx → t.RxFresh i) ∧ s.ChangesOnly t (headers s.rxAddr) ∧
      (s.pendRx = .empty → exec (.receive c) s = .next t) ∧
      (s.pendRx = .armed c → exec .replayRx s = .next t)) ∧
    (s.dev.noCommand .ru = false → faults .cmdBusy s.dev s.pollScript) ∧
    (s.dev.noCommand .ru = true → PollFails s.pollScript s.config.ruPollBound rest →
      faults .cmdTimeout (s.dev.withCommand s.config.cmdCodes .ruStart (s.rxSlot 0)) rest)

/-- `configure` on an idle TX ring (R224, R169): the new table is sent at once and the hardware address returned; that
is its one reply (R225), which names no client (log entry 37). -/
def Obligations.ConfigureSendsTheTable : Prop :=
  ∀ (s : State) (flags : ModeFlags) (k j : Nat) (status : Half) (block : List Byte) (rest : List PollEvent),
    s.config.wf = true → s.Laid → s.Running → s.txIdle = true → s.CanIssue .cu true →
    s.pollScript = configuredAfter k j status block rest → k < s.config.cuPollBound → j < s.config.cuPollBound →
    let table := cfgUpdate s.config s.cfg flags
    ∃ t : State, exec (.configure flags) s = .next t ∧
      t = { s with
        cfg := table, cfgPending := false, mem := t.mem, events := t.events, pollScript := rest
        dev := s.dev.configured s.cfgAddr (cfgBlock s.config table) status
        results := s.results ++ [.hardwareAddress s.hwAddr]
        replies := s.replies ++ [(none, .address s.hwAddr)] } ∧
      s.ChangesOnly t [(s.cfgAddr, s.config.cfgBlockLen)]

/-- `configure` while the TX ring is active (R224): the table is kept and marked, nothing is sent, and the reply, which
names no client (log entry 37), is immediate. On an idle ring: a CU that is not idle is NotIdle, a pending command
CmdBusy (R160), a configuration command that is not accepted in time CmdTimeout (R161), and so is one that is accepted
while the CU does not return to idle in time (R169); the table is then kept and nothing is replied. -/
def Obligations.ConfigureWaitsForTheRing : Prop :=
  ∀ (s : State) (flags : ModeFlags) (k : Nat) (script rest : List PollEvent), s.Running →
    let table := cfgUpdate s.config s.cfg flags
    (s.txIdle = false → exec (.configure flags) s = .next { s with
      cfg := table, cfgPending := true, results := s.results ++ [.hardwareAddress s.hwAddr]
      replies := s.replies ++ [(none, .address s.hwAddr)] }) ∧
    (s.txIdle = true → s.dev.unitState .cu ≠ .idle → ∃ t : State, exec (.configure flags) s = .next t ∧
      t = { s with cfg := table, fault := some .notIdle, mem := t.mem, events := t.events } ∧
      s.ChangesOnly t [(s.cfgAddr, s.config.cfgBlockLen)]) ∧
    (s.txIdle = true → s.dev.unitState .cu = .idle → s.dev.noCommand .cu = false →
      ∃ t : State, exec (.configure flags) s = .next t ∧
        t = { s with cfg := table, fault := some .cmdBusy, mem := t.mem, events := t.events } ∧
        s.ChangesOnly t [(s.cfgAddr, s.config.cfgBlockLen)]) ∧
    (s.config.cmdCodes.wf = true → s.txIdle = true → s.CanIssue .cu true →
      PollFails s.pollScript s.config.cuPollBound rest →
      ∃ t : State, exec (.configure flags) s = .next t ∧
        t = { s with
          cfg := table, fault := some .cmdTimeout, pollScript := rest, mem := t.mem, events := t.events
          dev := s.dev.withCommand s.config.cmdCodes .cuStart s.cfgAddr } ∧
        s.ChangesOnly t [(s.cfgAddr, s.config.cfgBlockLen)]) ∧
    (s.config.cmdCodes.wf = true → s.txIdle = true → s.CanIssue .cu true →
      s.pollScript = acceptedAfter .cu k script → k < s.config.cuPollBound →
      PollFails script s.config.cuPollBound rest →
      ∃ t : State, exec (.configure flags) s = .next t ∧
        t = { s with
          cfg := table, fault := some .cmdTimeout, pollScript := rest, mem := t.mem, events := t.events
          dev := EngineCommand.effect .cuStart s.cfgAddr s.dev } ∧
        s.ChangesOnly t [(s.cfgAddr, s.config.cfgBlockLen)])

/-- `watchdog_tick` (R220): a changed link value is logged, kept and scheduled for a report; an armed request without
progress for a whole period asks for a reset; either raises the software interrupt. Link detection waits while the
serial engine is busy (R209). -/
def Obligations.WatchdogTick : Prop :=
  ∀ s : State, s.Running →
    let v := s.phyValue s.config.phyStatusReg.toNat
    let stalled := s.pendTx != .empty && !s.txAlive
    (s.SerialIdle → ∃ ev, exec .watchdogTick s = .next { s with
      linkSnapshot := v
      log := if v = s.linkSnapshot then s.log else s.log ++ [.linkChange s.linkSnapshot v]
      linkReportPending := s.linkReportPending || v != s.linkSnapshot
      txAlive := s.pendTx == .empty
      needReset := s.needReset || stalled
      dev := { s.dev with
        lineReads := s.dev.lineReads + s.config.phyFreeReads
        scbIsr := if v != s.linkSnapshot || stalled then s.dev.scbIsr ||| causeSwi else s.dev.scbIsr }
      results := s.results ++ [.ok], events := ev }) ∧
    (s.serBusy = true → ∃ ev, exec .watchdogTick s = .next { s with
      txAlive := s.pendTx == .empty
      needReset := s.needReset || stalled
      dev := { s.dev with scbIsr := if stalled then s.dev.scbIsr ||| causeSwi else s.dev.scbIsr }
      results := s.results ++ [.ok], events := ev })

/-! ### The serial engine -/

/-- `read_eeprom` (R203-R205): bit by bit over the serial lines the word of the EEPROM is read; the first read
detects the address width and keeps it; the lines are low again. -/
def Obligations.ReadEepromReturnsTheWord : Prop :=
  ∀ (s : State) (reg : Nat) (w : EeWidth), s.Running → s.SerialIdle → supportedWidth s.config = some w →
    (s.eeWidth = .unknown ∨ s.eeWidth = w) → reg < 2 ^ s.config.eeDevWidth →
    ∃ ev, exec (.readEeprom reg) s = .next { s with
      eeWidth := w, results := s.results ++ [.serialWord (s.config.eeMem.getD reg 0)], events := ev }

/-- Where serial reads fault (R201, R203, R204): a busy engine, a word number beyond the width, a width that is
neither 6 nor 8; the last leaves the engine not busy. -/
def Obligations.SerialReadFaults : Prop :=
  ∀ (s : State) (reg : Nat) (w : EeWidth), s.Running →
    (s.serBusy = true → exec (.readEeprom reg) s = .next { s with fault := some .serialBusy } ∧
      exec (.readPhy reg) s = .next { s with fault := some .serialBusy }) ∧
    (s.SerialIdle → supportedWidth s.config = some w → (s.eeWidth = .unknown ∨ s.eeWidth = w) →
      2 ^ s.config.eeDevWidth ≤ reg →
      ∃ ev, exec (.readEeprom reg) s = .next { s with eeWidth := w, fault := some .serialRange, events := ev }) ∧
    (s.SerialIdle → supportedWidth s.config = none → s.eeWidth = .unknown →
      ∃ t : State, exec (.readEeprom reg) s = .next t ∧
        t = { s with fault := some .eepromWidth, lines := t.lines, dev := t.dev, events := t.events } ∧
        t.dev = { s.dev with serCtl := t.dev.serCtl, ee := t.dev.ee, lineReads := t.dev.lineReads })

/-- `read_phy` (R206, R207): the register of the PHY at PHY_ADDR, read bit by bit over the management lines; with no
PHY there every bit is a free level (log entry 20). -/
def Obligations.ReadPhyReturnsTheRegister : Prop :=
  ∀ (s : State) (reg : Nat), s.Running → s.SerialIdle →
    ∃ ev, exec (.readPhy reg) s = .next { s with
      dev := { s.dev with lineReads := s.dev.lineReads + s.config.phyFreeReads }
      results := s.results ++ [.serialWord (s.phyValue reg)], events := ev }

/-! ### Start-up -/

/-- Where `reset` ends early (R271, R272, R68, R72): a second reset, an absent device, a BASE that is not aligned,
and the first region in the rule's order that has no address or one that is not a multiple of 4. R271 writes BASE
there; that the interrupt line of `pci_locate` is kept too, and the addresses cached before the region that ends the
sequence, is the model's inference (log entry 27, DEDUCED). With every region mapped: an EEPROM whose width is neither 6
nor 8 is EepromWidth at the first read (R204, R205); a LOAD_BASE, the configuration or RU START that is not accepted in
time, and a CU that does not return to idle in time, are CmdTimeout (R161, R169; log entry 3 has the three ways); an
engine that drifts during the poll of the command before its own is NotIdle (R160). What was written stays (R240), and
the block is not started. What the device keeps across the selective reset and leaves in the configuration block are the
model's choices (log entries 17 and 13). -/
def Obligations.ResetEndsEarly : Prop :=
  ∀ (s : State) (f : PciFunction) (i : Nat) (rx tx : List BusAddr) (stats cfg : BusAddr) (w : EeWidth)
    (k1 k2 k3 j : Nat) (code : BitVec 3) (status : Half) (block : List Byte) (script rest : List PollEvent),
    s.fault = none →
    (s.started = true → exec .reset s = .next { s with fault := some .precondition }) ∧
    (s.started = false → s.located = none → exec .reset s = .next { s with results := s.results ++ [.absent] }) ∧
    (s.started = false → s.located = some f → f.base.toNat % s.config.regSpan ≠ 0 →
      exec .reset s = .next { s with base := f.base, irq := f.irq, fault := some .badBar }) ∧
    (s.started = false → s.located = some f → f.base.toNat % s.config.regSpan = 0 →
      (∀ j, j < i → answerOk ((s.busMap.inOrder s.config).getD j none) = true) →
      i < s.config.nRx + s.config.nTx + 2 → answerOk ((s.busMap.inOrder s.config).getD i none) = false →
      ∃ t : State, exec .reset s = .next t ∧
        t = { s with
          base := f.base, irq := f.irq, rxAddr := t.rxAddr, txAddr := t.txAddr, statsAddr := t.statsAddr
          fault := if (s.busMap.inOrder s.config).getD i none = none then some .mapFailed else some .misaligned }) ∧
    (s.config.wf = true → s.started = false → s.located = some f → f.base.toNat % s.config.regSpan = 0 →
      s.busMap.answers s.config = some (rx, tx, stats, cfg) →
      regionsOk (regionsOf s.config rx tx stats cfg) = true → (∀ a ∈ rx ++ tx ++ [stats, cfg], a.toNat % 4 = 0) →
      s.rxAddr.length = s.config.nRx → s.txAddr.length = s.config.nTx → s.SerialIdle →
      (supportedWidth s.config = none → s.eeWidth = .unknown → ∃ t : State, exec .reset s = .next t ∧
        t = { s with
          base := f.base, irq := f.irq, rxAddr := rx, txAddr := tx, statsAddr := stats, cfgAddr := cfg
          fault := some .eepromWidth, lines := t.lines, dev := t.dev, events := t.events } ∧
        t.dev = { s.dev.selectivelyReset with
          serCtl := t.dev.serCtl, ee := t.dev.ee, lineReads := t.dev.lineReads }) ∧
      (supportedWidth s.config = some w → (s.eeWidth = .unknown ∨ s.eeWidth = w) →
        k1 < s.config.cuPollBound → k2 < s.config.ruPollBound → k3 < s.config.cuPollBound →
        j < s.config.cuPollBound →
        let v := s.bootContext f rx tx stats cfg w
        let codes := s.config.cmdCodes
        let rings := headers rx ++ headers tx
        let endsIn (r : FatalReason) (d : Device) (spans : List (BusAddr × Nat)) : Prop :=
          ∃ t : State, exec .reset s = .next t ∧
            t = { v with fault := some r, pollScript := rest, dev := d, mem := t.mem, events := t.events } ∧
            (∀ i, i < s.config.nRx → t.RxFresh i) ∧ (∀ i, i < s.config.nTx → t.TxFresh i) ∧ s.ChangesOnly t spans
        let d1 := EngineCommand.effect .cuLoadBase 0 v.dev
        let d2 := EngineCommand.effect .ruLoadBase 0 d1
        let d3 : Device := { d2.configured cfg (cfgBlock s.config s.config.cfgDefault) status with scbIsr := 0 }
        let sent := rings ++ [(cfg, s.config.cfgBlockLen)]
        (PollFails s.pollScript s.config.cuPollBound rest →
          endsIn .cmdTimeout (v.dev.withCommand codes .cuLoadBase 0) rings) ∧
        (s.pollScript = acceptedAfter .cu k1 script → PollFails script s.config.ruPollBound rest →
          endsIn .cmdTimeout (d1.withCommand codes .ruLoadBase 0) rings) ∧
        (s.pollScript = acceptedAfter .cu k1 (acceptedAfter .ru k2 script) →
          PollFails script s.config.cuPollBound rest → endsIn .cmdTimeout (d2.withCommand codes .cuStart cfg) sent) ∧
        (s.pollScript = acceptedAfter .cu k1 (acceptedAfter .ru k2 (acceptedAfter .cu k3 script)) →
          PollFails script s.config.cuPollBound rest →
          endsIn .cmdTimeout (EngineCommand.effect .cuStart cfg d2) sent) ∧
        (s.pollScript = acceptedAfter .cu k1 (acceptedAfter .ru k2 (configuredAfter k3 j status block script)) →
          PollFails script s.config.ruPollBound rest →
          endsIn .cmdTimeout (d3.withCommand codes .ruStart (rx.headD 0)) sent) ∧
        (unitStateOf code ≠ .idle → s.pollScript = .move (.drift .ru code) :: acceptedAfter .cu k1 rest →
          endsIn .notIdle { d1 with ruCode := code } rings) ∧
        (unitStateOf code ≠ .idle →
          s.pollScript = acceptedAfter .cu k1 (.move (.drift .cu code) :: acceptedAfter .ru k2 rest) →
          endsIn .notIdle { d2 with cuCode := code } sent) ∧
        (unitStateOf code ≠ .idle → s.pollScript = acceptedAfter .cu k1 (acceptedAfter .ru k2
            (.move (.drift .ru code) :: configuredAfter k3 j status block rest)) →
          endsIn .notIdle { d3 with ruCode := code } sent)))

/-- The start-up sequence (R271) on a device that answers leaves what the table of R55 says, both rings as their
initialisation leaves them, the configuration sent, the RU started and the interrupt line armed. That the device itself
clears SCB_PTR, as the table wants, is the model's inference (log entry 25, DEDUCED); that a dump scheduled before stays
scheduled (log entry 17) and what the device leaves in the configuration block (log entry 13) are its choices. -/
def Obligations.ResetStartsTheBlock : Prop :=
  ∀ (s : State) (f : PciFunction) (rx tx : List BusAddr) (stats cfg : BusAddr) (w : EeWidth)
    (k1 k2 k3 j k4 : Nat) (status : Half) (block : List Byte) (rest : List PollEvent),
    s.config.wf = true → s.fault = none → s.started = false → s.located = some f →
    f.base.toNat % s.config.regSpan = 0 → s.busMap.answers s.config = some (rx, tx, stats, cfg) →
    regionsOk (regionsOf s.config rx tx stats cfg) = true →
    (∀ a ∈ rx ++ tx ++ [stats, cfg], a.toNat % 4 = 0) →
    s.rxAddr.length = s.config.nRx → s.txAddr.length = s.config.nTx → s.SerialIdle →
    supportedWidth s.config = some w → (s.eeWidth = .unknown ∨ s.eeWidth = w) →
    s.pollScript = bootAnswers k1 k2 k3 j k4 status block rest → s.config.bootInTime k1 k2 k3 j k4 →
    ∃ t : State, exec .reset s = .next t ∧
      t = { s with
        base := f.base, irq := f.irq, rxAddr := rx, txAddr := tx, statsAddr := stats, cfgAddr := cfg
        eeWidth := w
        hwAddr := hardwareAddress (s.config.eeMem.getD 0 0) (s.config.eeMem.getD 1 0) (s.config.eeMem.getD 2 0)
        txThreshold := s.config.threshInit, cfg := s.config.cfgDefault, fFr := false, fCna := false, fRnr := false
        fSwi := false, rxNeedRestart := false, cfgPending := false, needReset := false, linkReportPending := false
        txAlive := true, rxHead := 0, txHead := 0, txTail := 0, txIdle := true
        linkSnapshot := s.phyValue s.config.phyStatusReg.toNat, irqArmed := true, started := true
        mem := t.mem, events := t.events, pollScript := rest, results := s.results ++ [.ok]
        dev := { s.dev with
          cuCode := codeIdle, ruCode := codeReady, cmdCu := 0, cmdRu := 0, scbPtr := 0, scbIsr := 0
          cuBase := 0, ruBase := 0, cuFetch := cfg, ruFill := rx.headD 0
          appliedCfg := cfgBlock s.config s.config.cfgDefault, cuDraw := status
          lineReads := s.dev.lineReads + s.config.phyFreeReads } } ∧
      (∀ i, i < s.config.nRx → t.RxFresh i) ∧ (∀ i, i < s.config.nTx → t.TxFresh i) ∧
      s.ChangesOnly t (headers rx ++ headers tx ++ [(cfg, s.config.cfgBlockLen)])

/-! ### The device -/

/-- The commands an engine accepts (R104, R262 move 1): the field is NOP again, and the engine takes the pointer;
NOP is no command. -/
def Obligations.EngineCommandsTakeThePointer : Prop :=
  ∀ s : State,
    exec .scbCuNop s = .next s ∧ exec .scbRuNop s = .next s ∧
    exec .scbCuStart s = .next { s with dev := { s.dev with cmdCu := 0, cuCode := 5, cuFetch := s.dev.scbPtr } } ∧
    exec .scbRuStart s = .next { s with dev := { s.dev with cmdRu := 0, ruCode := 4, ruFill := s.dev.scbPtr } } ∧
    exec .scbCuLoadBase s = .next { s with dev := { s.dev with cmdCu := 0, cuBase := s.dev.scbPtr } } ∧
    exec .scbRuLoadBase s = .next { s with dev := { s.dev with cmdRu := 0, ruBase := s.dev.scbPtr } } ∧
    exec .scbCuDumpStatistics s = .next { s with dev := { s.dev with cmdCu := 0, dumpPending := true } }

/-- A TX descriptor's command (R262 move 2, R75): TX puts COUNT bytes of the buffer on the wire and writes the drawn
status, complete, after all its other reads of the descriptor but that of the link; NOP only completes the status; then
the CU stops at the mark, or goes on to the link. A CU that is not active executes nothing; one outside the regions stops
the machine (R61, log entry 8). The model's choices: of a COUNT above BUF_SIZE the bytes beyond the buffer are any bytes
(log entry 14); at an RX descriptor the same happens with any COUNT, and at another place of the regions any frame is sent,
the link is any address and the status is written where the device may write (log entry 41). A descriptor at the address of
the configuration block is taken for the descriptor (log entry 43); an instruction executed at that block alone, which no
step does, counts as one at another place. -/
def Obligations.CuExecutesTheDescriptor : Prop :=
  ∀ (s : State) (k : Nat) (el : Bool),
    let ends (link : Word) (d : Device) : Device :=
      if el then { d with cuCode := codeIdle, scbIsr := s.dev.scbIsr ||| causeCna } else { d with cuFetch := link }
    let linkRead (a : BusAddr) : List BusEvent := if el then [] else [.memRead .device (a + offLink) 4]
    let sends (a : BusAddr) (n : Nat) : Prop := ∃ (t : State) (beyond : List Byte),
      exec (.txdOpTx el) s = .next t ∧ beyond.length = n - s.config.bufSize ∧
      t = { s with
        mem := t.mem, events := t.events
        dev := ends (s.word (a + offLink)) { s.dev with
          wire := s.dev.wire ++ [s.mem.readBytes (a + offBuffer) (min n s.config.bufSize) ++ beyond] } } ∧
      t.half (a + offStatus) = s.dev.cuDraw ||| 0x8000 ∧ s.ChangesOnly t [(a, 2)] ∧
      t.events = linkRead a ++ .memWrite .device (a + offStatus) (leBytes 2 (s.dev.cuDraw ||| 0x8000).toNat) ::
        .memRead .device (a + offBuffer) (min n s.config.bufSize) :: .memRead .device (a + offByteCount) 2 :: s.events
    let completes (a : BusAddr) : Prop := ∃ t : State, exec (.txdOpNop el) s = .next t ∧
      t = { s with mem := t.mem, events := t.events, dev := ends (s.word (a + offLink)) s.dev } ∧
      t.half (a + offStatus) = s.half (a + offStatus) ||| 0x8000 ∧ s.ChangesOnly t [(a, 2)] ∧
      t.events = linkRead a ++
        .memWrite .device (a + offStatus) (leBytes 2 (s.half (a + offStatus) ||| 0x8000).toNat) ::
        .memRead .device (a + offStatus) 2 :: s.events
    (s.dev.unitState .cu ≠ .active → exec (.txdOpTx el) s = .next s ∧ exec (.txdOpNop el) s = .next s) ∧
    (s.config.wf = true → s.dev.unitState .cu = .active → s.inRegions s.dev.cuFetch = false →
      exec (.txdOpTx el) s = .fault .outsideRegions ∧ exec (.txdOpNop el) s = .fault .outsideRegions) ∧
    (s.Laid → s.dev.unitState .cu = .active → k < s.config.nTx → s.dev.cuFetch = s.txSlot k →
      sends (s.txSlot k) (byteCount (s.txByteCount k)) ∧ completes (s.txSlot k)) ∧
    (s.Laid → s.dev.unitState .cu = .active → k < s.config.nRx → s.dev.cuFetch = s.rxSlot k →
      (∃ n, n < 2 ^ 14 ∧ sends (s.rxSlot k) n) ∧ completes (s.rxSlot k)) ∧
    (s.dev.unitState .cu = .active → s.inRegions s.dev.cuFetch = true → s.dev.cuFetch ∉ s.txAddr ++ s.rxAddr →
      (∃ (t : State) (link : Word) (frame : Frame), exec (.txdOpTx el) s = .next t ∧ frame.length < 2 ^ 14 ∧
        t = { s with
          mem := t.mem, events := t.events, dev := ends link { s.dev with wire := s.dev.wire ++ [frame] } } ∧
        if s.deviceMayWrite s.dev.cuFetch 2
          then t.half s.dev.cuFetch = s.dev.cuDraw ||| 0x8000 ∧ s.ChangesOnly t [(s.dev.cuFetch, 2)]
          else t.mem = s.mem) ∧
      ∃ (t : State) (link : Word), exec (.txdOpNop el) s = .next t ∧
        t = { s with mem := t.mem, events := t.events, dev := ends link s.dev } ∧
        if s.deviceMayWrite s.dev.cuFetch 2
          then statusC (t.half s.dev.cuFetch) = true ∧ s.ChangesOnly t [(s.dev.cuFetch, 2)]
          else t.mem = s.mem)

/-- A frame arrives at a ready RU (R262 move 3, R75): at most the capacity is written to the buffer, then the length
with EOF and F, then the drawn status, complete, last; FR is asserted; at the mark the RU has no resources. Outside the
regions it stops (R61, log entry 8). The model's choices: the length is the number of bytes stored, but any length where a
capacity above BUF_SIZE meets a frame above it (log entry 15); at a TX descriptor only the status is written, and at
another place of the regions any link, with the mark or without, is found, and what the step writes is written where the
device may write (log entry 41). -/
def Obligations.RuFillsTheDescriptor : Prop :=
  ∀ (s : State) (frame : Frame) (status : Half) (rest : List Input),
    s.agenda = .device (.ruStep frame status) :: rest → s.dev.unitState .ru = .ready →
    let ends (el : Bool) (link : Word) : Device :=
      if el then { s.dev with ruCode := codeNoResources, scbIsr := s.dev.scbIsr ||| causeFr ||| causeRnr }
      else { s.dev with ruFill := link, scbIsr := s.dev.scbIsr ||| causeFr }
    (s.config.wf = true → s.inRegions s.dev.ruFill = false → step s = .fault .outsideRegions) ∧
    (∀ k, s.Laid → k < s.config.nRx → s.dev.ruFill = s.rxSlot k →
      let capacity := capacityOf (s.rxCapacity k)
      let bytes := frame.take (min capacity s.config.bufSize)
      let el := commandEl (s.rxCommand k)
      let a := s.rxSlot k
      ∃ (t : State) (length : Nat), step s = .next t ∧
        (capacity ≤ s.config.bufSize ∨ frame.length ≤ s.config.bufSize → length = bytes.length) ∧
        t = { s with agenda := rest, mem := t.mem, events := t.events, dev := ends el (s.rxLink k) } ∧
        t.rxBuffer k bytes.length = bytes ∧ t.rxLength k = lengthWord length ∧
        t.rxStatus k = status ||| 0x8000 ∧
        s.ChangesOnly t [(a, 2), (a + offReceivedLength, 2), (a + offBuffer, bytes.length)] ∧
        t.events = (if el then [] else [.memRead .device (a + offLink) 4]) ++
          .memRead .device (a + offCommand) 2 ::
          .memWrite .device (a + offStatus) (leBytes 2 (status ||| 0x8000).toNat) ::
          .memWrite .device (a + offReceivedLength) (leBytes 2 (lengthWord length).toNat) ::
          .memWrite .device (a + offBuffer) bytes :: .memRead .device (a + offCapacity) 2 :: s.events) ∧
    (∀ k, s.Laid → k < s.config.nTx → s.dev.ruFill = s.txSlot k →
      ∃ t : State, step s = .next t ∧
        t = { s with
          agenda := rest, mem := t.mem, events := t.events, dev := ends (commandEl (s.txCommand k)) (s.txLink k) } ∧
        t.txStatus k = status ||| 0x8000 ∧ s.ChangesOnly t [(s.txSlot k, 2)]) ∧
    (s.inRegions s.dev.ruFill = true → s.dev.ruFill ∉ s.rxAddr ++ s.txAddr →
      ∃ (t : State) (el : Bool) (link : Word), step s = .next t ∧
        t = { s with agenda := rest, mem := t.mem, events := t.events, dev := ends el link } ∧
        (s.deviceMayWrite s.dev.ruFill 2 = true → t.half s.dev.ruFill = status ||| 0x8000) ∧
        s.ChangesOnly t s.deviceSpans ∧
        s.ChangesOnly t [(s.dev.ruFill, 2), (s.dev.ruFill + offReceivedLength, 2),
          (s.dev.ruFill + offBuffer, frame.length)])

/-- The moves that touch no memory (R262 moves 4, 5 and 7), and the moves that are not admitted: a dump that was not
asked for, an RU step without a ready RU, a CU step without an active CU (log entry 4). -/
def Obligations.DeviceMovesOutsideMemory : Prop :=
  ∀ (s : State) (m : DeviceMove) (rest : List Input), s.agenda = .device m :: rest →
    (∀ v, m = .linkChange v → step s = .next { s with
      agenda := rest, dev := { s.dev with phyReg := s.dev.phyReg.set s.config.phyStatusReg.toNat v } }) ∧
    (∀ b, m = .spurious b → step s = .next { s with
      agenda := rest, dev := { s.dev with scbIsr := s.dev.scbIsr ||| (b &&& 0x8B) } }) ∧
    (∀ c, m = .drift .cu c → step s = .next { s with agenda := rest, dev := { s.dev with cuCode := c } }) ∧
    (∀ c, m = .drift .ru c → step s = .next { s with agenda := rest, dev := { s.dev with ruCode := c } }) ∧
    (∀ l, m = .dump l → s.dev.dumpPending = false → step s = .next { s with agenda := rest }) ∧
    (∀ f v, m = .ruStep f v → s.dev.unitState .ru ≠ .ready → step s = .next { s with agenda := rest }) ∧
    (∀ v l, m = .cuStep v l → s.dev.unitState .cu ≠ .active → step s = .next { s with
      agenda := rest, dev := { s.dev with cuDraw := v } })
end

