-- ==== Sys2Proof/Laws/Decode.lean ====
section
/-! SUPPORT. The decoders and the encoder: fields of a word put together again, each decoder inverted by the
encoder and the encoder by the decoders, and the opcode table's rows. -/

namespace Sys2Proof

/-! ### Fields of an operation word -/

theorem opField_mkOpw (sel op : Byte) : opField (mkOpw sel op) = op := by
  apply BitVec.eq_of_getLsbD_eq
  intro i hi
  simp only [opField, mkOpw, BitVec.getLsbD_extractLsb', BitVec.getLsbD_append]
  simp [hi]

theorem selField_mkOpw (sel op : Byte) : selField (mkOpw sel op) = sel := by
  apply BitVec.eq_of_getLsbD_eq
  intro i hi
  simp only [selField, mkOpw, BitVec.getLsbD_extractLsb', BitVec.getLsbD_append]
  simp [hi]

theorem zeroField_mkOpw (sel op : Byte) : zeroField (mkOpw sel op) = 0 := by
  apply BitVec.eq_of_getLsbD_eq
  intro i hi
  simp only [zeroField, mkOpw, BitVec.getLsbD_extractLsb', BitVec.getLsbD_append]
  simp [show ¬ 16 + i < 8 by omega, show ¬ 16 + i - 8 < 8 by omega]

theorem mkOpw_fields {w : Word} (h : zeroField w = 0) : mkOpw (selField w) (opField w) = w := by
  apply BitVec.eq_of_getLsbD_eq
  intro i hi
  simp only [mkOpw, selField, opField, BitVec.getLsbD_append, BitVec.getLsbD_extractLsb']
  by_cases h8 : i < 8
  · simp [h8]
  · by_cases h16 : i < 16
    · simp [h8, show i - 8 < 8 by omega, show 8 + (i - 8) = i by omega]
    · have hz : (zeroField w).getLsbD (i - 16) = w.getLsbD i := by
        simp only [zeroField, BitVec.getLsbD_extractLsb', show i - 16 < 16 by omega, show 16 + (i - 16) = i by omega,
          decide_true, Bool.true_and]
      rw [h] at hz
      simp [h8, show ¬ i - 8 < 8 by omega, ← hz]

theorem decodeOpw_mkOpw (sel op : Byte) (p : Payload) : decodeOpw (mkOpw sel op) p = decodeOp op sel p := by
  simp [decodeOpw, zeroField_mkOpw, opField_mkOpw, selField_mkOpw]

theorem issueSel_fields (sel : Byte) (h : sel.extractLsb' 2 2 = 0) :
    issueSel (selUnit sel) (sel.getLsbD 1) (sel.extractLsb' 4 4) = sel := by
  revert sel; decide +kernel

theorem configureSel_fields (sel : Byte) (h : sel.extractLsb' 3 5 = 0) :
    configureSel { promiscuous := sel.getLsbD 0, multicast := sel.getLsbD 1, broadcast := sel.getLsbD 2 } = sel := by
  revert sel; decide +kernel

theorem phySel_fields (sel : Byte) (h : sel.extractLsb' 5 3 = 0) :
    BitVec.ofNat 8 (sel.extractLsb' 0 5).toNat = sel := by
  revert sel; decide +kernel

/-- The configure flags come back. -/
theorem decodeConfigureSel_configureSel (f : ModeFlags) : decodeConfigureSel (configureSel f) = .ok (.configure f) := by
  obtain ⟨a, b, c⟩ := f
  revert a b c; decide

theorem decodePhySel_ofNat {r : Nat} (h : r < 32) : decodePhySel (BitVec.ofNat 8 r) = .ok (.readPhy r) := by
  revert r; decide

/-! ### Command codes (R104) -/

@[simp] theorem scbCuField_cuByte (c : BitVec 4) : scbCuField (scbCuByte c) = c := by revert c; decide

@[simp] theorem scbRuField_cuByte (c : BitVec 4) : scbRuField (scbCuByte c) = 0 := by revert c; decide

@[simp] theorem scbRuField_ruByte (c : BitVec 3) : scbRuField (scbRuByte c) = c := by revert c; decide

@[simp] theorem scbCuField_ruByte (c : BitVec 3) : scbCuField (scbRuByte c) = 0 := by revert c; decide

/-- What the distinctness of the codes says, one inequality at a time. -/
structure CmdCodes.Distinct (k : CmdCodes) : Prop where
  cuStart : k.cuStart ≠ 0#4
  cuDump : k.cuDumpStatistics ≠ 0#4
  cuLoad : k.cuLoadBase ≠ 0#4
  dumpStart : k.cuDumpStatistics ≠ k.cuStart
  loadStart : k.cuLoadBase ≠ k.cuStart
  loadDump : k.cuLoadBase ≠ k.cuDumpStatistics
  ruStart : k.ruStart ≠ 0#3
  ruLoad : k.ruLoadBase ≠ 0#3
  ruLoadStart : k.ruLoadBase ≠ k.ruStart

theorem CmdCodes.distinct {k : CmdCodes} (h : k.wf = true) : k.Distinct := by
  obtain ⟨a, b, c, d, e⟩ := k
  simp only [CmdCodes.wf, Bool.and_eq_true, decide_eq_true_eq, List.nodup_cons, List.mem_cons, List.not_mem_nil,
    or_false, not_or] at h
  obtain ⟨⟨⟨h1, h2, h3⟩, ⟨h4, h5⟩, h6, -⟩, ⟨h7, h8⟩, h9, -⟩ := h
  exact ⟨Ne.symm h1, Ne.symm h2, Ne.symm h3, Ne.symm h4, Ne.symm h5, Ne.symm h6, Ne.symm h7, Ne.symm h8, Ne.symm h9⟩

section Codes
variable {k : CmdCodes} (h : k.wf = true)
include h

theorem decodeCuCode_start : decodeCuCode k k.cuStart = .ok .scbCuStart := by
  simp [decodeCuCode, (CmdCodes.distinct h).cuStart]

theorem decodeCuCode_dump : decodeCuCode k k.cuDumpStatistics = .ok .scbCuDumpStatistics := by
  simp [decodeCuCode, (CmdCodes.distinct h).cuDump, (CmdCodes.distinct h).dumpStart]

theorem decodeCuCode_load : decodeCuCode k k.cuLoadBase = .ok .scbCuLoadBase := by
  simp [decodeCuCode, (CmdCodes.distinct h).cuLoad, (CmdCodes.distinct h).loadStart, (CmdCodes.distinct h).loadDump]

theorem decodeRuCode_start : decodeRuCode k k.ruStart = .ok .scbRuStart := by
  simp [decodeRuCode, (CmdCodes.distinct h).ruStart]

theorem decodeRuCode_load : decodeRuCode k k.ruLoadBase = .ok .scbRuLoadBase := by
  simp [decodeRuCode, (CmdCodes.distinct h).ruLoad, (CmdCodes.distinct h).ruLoadStart]

end Codes

/-! ### decode after encode -/

theorem decode_encodeIssue (k : CmdCodes) (e : Engine) (c : BitVec 4) (ri : Bool) (a : BusAddr) :
    decode k (encodeIssue e c ri a) = decodeIssue (issueSel e ri c) a := by
  rw [encodeIssue, decode, decodeOpw_mkOpw]; rfl

/-! ### encode after decode -/

/-- What the decoder makes of a word of the operation port. -/
structure IsRequestOf (op sel : Byte) (i : Instr) : Prop where
  wf : i.wf = true
  request : i.isRequest = true
  word : ∃ p, ∀ k, encode k i = .opw (mkOpw sel op) p

theorem plainOp_cases {op sel : Byte} {i j : Instr} (h : plainOp sel i = .ok j) (hi : IsRequestOf op 0 i) :
    IsRequestOf op sel j := by
  unfold plainOp at h
  split at h
  · cases h; subst sel; exact hi
  · cases h

theorem decodeIssue_cases {sel : Byte} {a : BusAddr} {i : Instr} (h : decodeIssue sel a = .ok i) :
    IsRequestOf 0x10 sel i := by
  unfold decodeIssue at h
  simp only at h
  split at h
  · cases h
  · rename_i hz
    have hz : sel.extractLsb' 2 2 = 0 := by simpa using hz
    have hf := issueSel_fields sel hz
    have hc : ∀ n : Nat, (sel.extractLsb' 4 4).toNat = n → sel.extractLsb' 4 4 = BitVec.ofNat 4 n := by
      intro n hn; rw [← hn]; exact ((BitVec.ofNat_toNat _ _).trans (BitVec.setWidth_eq _)).symm
    generalize sel.getLsbD 1 = ri at h hf
    split at h
    case h_6 => cases h
    all_goals
      rename_i hu hn
      cases h
      rw [hu, hc _ hn] at hf
      exact ⟨rfl, rfl, _, fun k => by rw [encode, encodeIssue, ← hf]; rfl⟩

theorem decodeOp_cases {op sel : Byte} {p : Payload} {i : Instr} (h : decodeOp op sel p = .ok i) :
    IsRequestOf op sel i := by
  have hop : ∀ n : Nat, op.toNat = n → op = BitVec.ofNat 8 n := by intro n hn; rw [← hn]; simp
  unfold decodeOp at h
  split at h
  case h_2 hn =>
    cases h; rw [hop _ hn]
    exact ⟨by simp [Instr.wf, sel.isLt], rfl, _, fun k => by rw [encode]; simp; rfl⟩
  case h_5 hn => rw [hop _ hn]; exact decodeIssue_cases h
  case h_14 hn =>
    cases h; rw [hop _ hn]
    exact ⟨by simp [Instr.wf, sel.isLt], rfl, _, fun k => by rw [encode]; simp; rfl⟩
  case h_15 hn =>
    rw [hop _ hn]
    unfold decodePhySel at h
    split at h
    · cases h
    · rename_i hz
      cases h
      have hl := (sel.extractLsb' 0 5).isLt
      exact ⟨by simp only [Instr.wf]; exact decide_eq_true hl, rfl, _, fun k => by rw [encode, phySel_fields sel (by simpa using hz)]; rfl⟩
  case h_16 hn =>
    rw [hop _ hn]
    unfold decodeConfigureSel at h
    split at h
    · cases h
    · rename_i hz
      cases h
      exact ⟨rfl, rfl, _, fun k => by rw [encode, configureSel_fields sel (by simpa using hz)]; rfl⟩
  case h_21 => cases h
  all_goals
    rename_i hn
    rw [hop _ hn]
    exact plainOp_cases h ⟨rfl, rfl, _, fun _ => rfl⟩

theorem decodeOpw_cases {w : Word} {p : Payload} {i : Instr} (h : decodeOpw w p = .ok i) :
    i.wf = true ∧ i.isRequest = true ∧ ∃ p', ∀ k, encode k i = .opw w p' := by
  unfold decodeOpw at h
  split at h
  · cases h
  · rename_i hz
    have hz : zeroField w = 0 := by simpa using hz
    obtain ⟨h1, h2, p', h3⟩ := decodeOp_cases h
    exact ⟨h1, h2, p', fun k => by rw [h3, mkOpw_fields hz]⟩

/-! ### The rows of the opcode table -/

theorem opField_and (v w : Word) : opField (v &&& w) = opField v &&& opField w := by
  apply BitVec.eq_of_getLsbD_eq
  intro i hi
  simp [opField, hi]

theorem selField_and (v w : Word) : selField (v &&& w) = selField v &&& selField w := by
  apply BitVec.eq_of_getLsbD_eq
  intro i hi
  simp [selField, hi]

theorem zeroField_and (v w : Word) : zeroField (v &&& w) = zeroField v &&& zeroField w := by
  apply BitVec.eq_of_getLsbD_eq
  intro i hi
  simp [zeroField, hi]

/-- A word that matches a row has the row's OP, a zero ZERO field, and a SEL that matches the row's. -/
theorem row_fields {w m v : Word} (h : w &&& m = v) (hz : zeroField m = 0xFFFF) (ho : opField m = 0xFF) :
    zeroField w = zeroField v ∧ opField w = opField v ∧ selField w &&& selField m = selField v := by
  subst h
  refine ⟨?_, ?_, (selField_and w m).symm⟩
  · rw [zeroField_and, hz]; exact (BitVec.and_allOnes (x := zeroField w)).symm
  · rw [opField_and, ho]; exact (BitVec.and_allOnes (x := opField w)).symm

theorem decodeOpw_fields {w : Word} {p : Payload} {op : Byte} (hz : zeroField w = 0) (ho : opField w = op) :
    decodeOpw w p = decodeOp op (selField w) p := by
  rw [decodeOpw, if_neg (by simp [hz]), ho]

/-- Whether a SEL that matches a row's mask makes the row's operation an instruction. -/
def rowAccepts (r : Word × Word) : Prop :=
  ∀ (sel : Byte) (p : Payload), sel &&& selField r.1 = selField r.2 → ∃ i, decodeOp (opField r.2) sel p = .ok i

theorem rowAccepts_plain {op : Byte} {i : Payload → Instr} (h : ∀ sel p, decodeOp op sel p = plainOp sel (i p)) :
    rowAccepts (0xFFFFFFFF, mkOpw 0 op) := by
  intro sel p hs
  have h0 : sel = 0 := by
    rw [selField_mkOpw, show selField 0xFFFFFFFF = BitVec.allOnes 8 from rfl, BitVec.and_allOnes] at hs
    exact hs
  exact ⟨i p, by rw [opField_mkOpw, h, h0]; rfl⟩

theorem rowAccepts_issue {v : Byte} {f : Bool → BusAddr → Instr}
    (hv : ∀ sel : Byte, sel &&& 0xFD = v → sel = v ∨ sel = v ||| 2)
    (h : ∀ a, decodeIssue v a = .ok (f false a) ∧ decodeIssue (v ||| 2) a = .ok (f true a)) :
    rowAccepts (0xFFFFFDFF, mkOpw v 0x10) := by
  intro sel p hs
  rw [opField_mkOpw]
  rw [selField_mkOpw, show selField 0xFFFFFDFF = 0xFD from rfl] at hs
  rcases hv sel hs with rfl | rfl
  · exact ⟨_, (h p.addr).1⟩
  · exact ⟨_, (h p.addr).2⟩

theorem opwRows_accept : ∀ r ∈ opwRows, zeroField r.1 = 0xFFFF ∧ opField r.1 = 0xFF ∧ zeroField r.2 = 0 ∧ rowAccepts r := by
  have hp : ∀ {op : Byte} {v : Word} (i : Payload → Instr), v = mkOpw 0 op →
      (∀ sel p, decodeOp op sel p = plainOp sel (i p)) → rowAccepts (0xFFFFFFFF, v) := by
    intro op v i hv h; subst hv; exact rowAccepts_plain h
  have hi : ∀ {v : Byte} {w : Word} (f : Bool → BusAddr → Instr), w = mkOpw v 0x10 →
      (∀ sel : Byte, sel &&& 0xFD = v → sel = v ∨ sel = v ||| 2) →
      (∀ a, decodeIssue v a = .ok (f false a) ∧ decodeIssue (v ||| 2) a = .ok (f true a)) →
      rowAccepts (0xFFFFFDFF, w) := by
    intro v w f hw hv h; subst hw; exact rowAccepts_issue hv h
  intro r hr
  simp only [opwRows, List.cons_append, List.nil_append, List.mem_cons, List.not_mem_nil, or_false] at hr
  rcases hr with rfl | rfl | rfl | rfl | rfl | rfl | rfl | rfl | rfl | rfl | rfl | rfl | rfl | rfl | rfl | rfl | rfl |
    rfl | rfl | rfl | rfl | rfl | rfl | rfl <;> refine ⟨rfl, rfl, rfl, ?_⟩
  · exact hp (op := 0x01) (fun _ => .rxPoll) rfl fun _ _ => rfl
  · exact fun sel p _ => ⟨_, rfl⟩
  · exact hp (op := 0x04) (fun p => .txAppend p.frame) rfl fun _ _ => rfl
  · exact hp (op := 0x05) (fun _ => .txDrain) rfl fun _ _ => rfl
  · exact hi (v := 0x00) .issueCuLoadBase rfl (by decide +kernel) fun _ => ⟨rfl, rfl⟩
  · exact hi (v := 0x01) .issueRuLoadBase rfl (by decide +kernel) fun _ => ⟨rfl, rfl⟩
  · exact hi (v := 0x10) .issueCuStart rfl (by decide +kernel) fun _ => ⟨rfl, rfl⟩
  · exact hi (v := 0x11) .issueRuStart rfl (by decide +kernel) fun _ => ⟨rfl, rfl⟩
  · exact hi (v := 0x20) .issueCuDumpStatistics rfl (by decide +kernel) fun _ => ⟨rfl, rfl⟩
  · exact hp (op := 0x11) (fun _ => .restartRu) rfl fun _ _ => rfl
  · exact hp (op := 0x20) (fun _ => .onInterrupt) rfl fun _ _ => rfl
  · exact hp (op := 0x21) (fun _ => .checkInterrupts) rfl fun _ _ => rfl
  · exact hp (op := 0x30) (fun p => .armTx p.client p.frame) rfl fun _ _ => rfl
  · exact hp (op := 0x31) (fun p => .armRx p.client) rfl fun _ _ => rfl
  · exact hp (op := 0x32) (fun _ => .replayTx) rfl fun _ _ => rfl
  · exact hp (op := 0x33) (fun _ => .replayRx) rfl fun _ _ => rfl
  · exact hp (op := 0x40) (fun _ => .watchdogTick) rfl fun _ _ => rfl
  · exact fun sel p _ => ⟨_, rfl⟩
  · intro sel p hs
    have h5 : sel.extractLsb' 5 3 = 0 := by
      have hs : sel &&& 0xE0 = 0 := hs
      revert sel; decide +kernel
    exact ⟨_, by show decodePhySel sel = _; rw [decodePhySel, if_neg (by simp [h5])]⟩
  · intro sel p hs
    have h5 : sel.extractLsb' 3 5 = 0 := by
      have hs : sel &&& 0xF8 = 0 := hs
      revert sel; decide +kernel
    exact ⟨_, by show decodeConfigureSel sel = _; rw [decodeConfigureSel, if_neg (by simp [h5])]⟩
  · exact hp (op := 0x61) (fun p => .transmit p.client p.frame) rfl fun _ _ => rfl
  · exact hp (op := 0x62) (fun p => .receive p.client) rfl fun _ _ => rfl
  · exact hp (op := 0x63) (fun p => .getStatistics p.client) rfl fun _ _ => rfl
  · exact hp (op := 0x70) (fun _ => .reset) rfl fun _ _ => rfl

theorem mkOpw_and (sel op a b c : Byte) (h : op &&& b = c) :
    mkOpw sel op &&& ((0xFFFF : Half) ++ a ++ b) = mkOpw (sel &&& a) c := by
  subst h
  apply BitVec.eq_of_getLsbD_eq
  intro i hi
  simp only [mkOpw, BitVec.getLsbD_and, BitVec.getLsbD_append]
  split
  · rfl
  · split
    · rfl
    · simp

/-- A word that decodes matches a row. -/
theorem decodeOpw_row {w : Word} {p : Payload} {i : Instr} (h : decodeOpw w p = .ok i) :
    ∃ r ∈ opwRows, w &&& r.1 = r.2 := by
  obtain ⟨hw, hr, p', he⟩ := decodeOpw_cases h
  replace he := he CmdCodes.table
  cases i <;> first | cases hr | skip
  all_goals
    simp only [encode, bareOp, encodeIssue, Encoded.opw.injEq] at he
    obtain ⟨he, -⟩ := he
    subst he
  case rxPoll => exact ⟨(0xFFFFFFFF, 0x00000001), by decide, by decide⟩
  case rxRecycle n => exact ⟨(0xFFFF00FF, 0x00000002), by decide, (mkOpw_and _ 0x02 0 0xFF 0x02 rfl).trans (by simp; rfl)⟩
  case txAppend => exact ⟨(0xFFFFFFFF, 0x00000004), by decide, by decide⟩
  case txDrain => exact ⟨(0xFFFFFFFF, 0x00000005), by decide, by decide⟩
  case issueCuLoadBase ri _ => exact ⟨(0xFFFFFDFF, 0x00000010), by decide, by clear * -; revert ri; decide⟩
  case issueRuLoadBase ri _ => exact ⟨(0xFFFFFDFF, 0x00000110), by decide, by clear * -; revert ri; decide⟩
  case issueCuStart ri _ => exact ⟨(0xFFFFFDFF, 0x00001010), by decide, by clear * -; revert ri; decide⟩
  case issueRuStart ri _ => exact ⟨(0xFFFFFDFF, 0x00001110), by decide, by clear * -; revert ri; decide⟩
  case issueCuDumpStatistics ri _ => exact ⟨(0xFFFFFDFF, 0x00002010), by decide, by clear * -; revert ri; decide⟩
  case restartRu => exact ⟨(0xFFFFFFFF, 0x00000011), by decide, by decide⟩
  case onInterrupt => exact ⟨(0xFFFFFFFF, 0x00000020), by decide, by decide⟩
  case checkInterrupts => exact ⟨(0xFFFFFFFF, 0x00000021), by decide, by decide⟩
  case armTx => exact ⟨(0xFFFFFFFF, 0x00000030), by decide, by decide⟩
  case armRx => exact ⟨(0xFFFFFFFF, 0x00000031), by decide, by decide⟩
  case replayTx => exact ⟨(0xFFFFFFFF, 0x00000032), by decide, by decide⟩
  case replayRx => exact ⟨(0xFFFFFFFF, 0x00000033), by decide, by decide⟩
  case watchdogTick => exact ⟨(0xFFFFFFFF, 0x00000040), by decide, by decide⟩
  case readEeprom n => exact ⟨(0xFFFF00FF, 0x00000050), by decide, (mkOpw_and _ 0x50 0 0xFF 0x50 rfl).trans (by simp; rfl)⟩
  case readPhy n =>
    refine ⟨(0xFFFFE0FF, 0x00000051), by decide, (mkOpw_and _ 0x51 0xE0 0xFF 0x51 rfl).trans ?_⟩
    have hn : n < 32 := by simpa [Instr.wf] using hw
    have : BitVec.ofNat 8 n &&& 0xE0 = 0 := by clear * - hn; revert n; decide
    rw [this]; rfl
  case configure f =>
    refine ⟨(0xFFFFF8FF, 0x00000060), by decide, ?_⟩
    obtain ⟨a, b, c⟩ := f
    clear * -; revert a b c; decide
  case transmit => exact ⟨(0xFFFFFFFF, 0x00000061), by decide, by decide⟩
  case receive => exact ⟨(0xFFFFFFFF, 0x00000062), by decide, by decide⟩
  case getStatistics => exact ⟨(0xFFFFFFFF, 0x00000063), by decide, by decide⟩
  case reset => exact ⟨(0xFFFFFFFF, 0x00000070), by decide, by decide⟩

/-- A word that matches a row of the table is an instruction (R95). -/
theorem decodeOpw_of_row {w : Word} {r : Word × Word} (p : Payload) (hr : r ∈ opwRows) (h : w &&& r.1 = r.2) :
    ∃ i, decodeOpw w p = .ok i := by
  obtain ⟨hz, ho, hv, ha⟩ := opwRows_accept r hr
  obtain ⟨h1, h2, h3⟩ := row_fields h hz ho
  obtain ⟨i, hi⟩ := ha (selField w) p h3
  exact ⟨i, by rw [decodeOpw_fields (h1.trans hv) h2, hi]⟩

end Sys2Proof
end

