-- ==== Sys2Proof/Laws/Ops.lean ====
section
/-! SUPPORT. The small laws of the operation monad (how a piece of an operation runs) and of DMA memory: a
read after a write, what a write leaves alone, that the canonical form is kept. -/

namespace Sys2Proof.Machine

/-! ### Running an operation -/

section Run
variable {α β : Type} (s : State)

@[simp] theorem bind_apply (x : Op α) (f : α → Op β) :
    (x >>= f) s = match x s with
      | .ok a t => f a t
      | .error e t => .error e t := by
  cases h : x s <;> simp [bind, EStateM.bind, h]

@[simp] theorem pure_apply (a : α) : (pure a : Op α) s = .ok a s := rfl

@[simp] theorem get_apply : (get : Op State) s = .ok s s := rfl

@[simp] theorem modify_apply (f : State → State) : (modify f : Op Unit) s = .ok () (f s) := rfl

@[simp] theorem raise_apply (r : FatalReason) : (raise r : Op α) s = .error (.fatal r) s := rfl

@[simp] theorem stop_apply (f : Fault) : (stop f : Op α) s = .error (.fault f) s := rfl

@[simp] theorem require_apply (b : Bool) (r : FatalReason) :
    require b r s = if b then .ok () s else .error (.fatal r) s := by
  cases b <;> rfl

@[simp] theorem assume_apply (b : Bool) (f : Fault) :
    assume b f s = if b then .ok () s else .error (.fault f) s := by
  cases b <;> rfl

@[simp] theorem requireStarted_apply :
    requireStarted s = if s.started then .ok () s else .error (.fatal .notStarted) s := by
  simp [requireStarted]

@[simp] theorem readHalf_apply (w : Agent) (a : BusAddr) :
    readHalf w a s = .ok (s.half a) (s.event (.memRead w a 2)) := rfl

@[simp] theorem readWord_apply (w : Agent) (a : BusAddr) :
    readWord w a s = .ok (s.word a) (s.event (.memRead w a 4)) := rfl

@[simp] theorem readBuffer_apply (w : Agent) (a : BusAddr) (n : Nat) :
    readBuffer w a n s = .ok (s.mem.readBytes a n) (s.event (.memRead w a n)) := rfl

@[simp] theorem writeBuffer_apply (w : Agent) (a : BusAddr) (bs : List Byte) :
    writeBuffer w a bs s = .ok () (s.store w a bs) := rfl

@[simp] theorem writeByte_apply (w : Agent) (a : BusAddr) (v : Byte) :
    writeByte w a v s = .ok () (s.store w a [v]) := rfl

@[simp] theorem writeHalf_apply (w : Agent) (a : BusAddr) (v : Half) :
    writeHalf w a v s = .ok () (s.store w a (leBytes 2 v.toNat)) := rfl

@[simp] theorem writeWord_apply (w : Agent) (a : BusAddr) (v : Word) :
    writeWord w a v s = .ok () (s.store w a (leBytes 4 v.toNat)) := rfl

@[simp] theorem logEvent_apply (e : LogEvent) :
    logEvent e s = .ok () { s with log := s.log ++ [e] } := rfl

@[simp] theorem reply_apply (c : Client) (v : Reply) :
    reply c v s = .ok () { s with replies := s.replies ++ [(some c, v)] } := rfl

@[simp] theorem replyUnnamed_apply (v : Reply) :
    replyUnnamed v s = .ok () { s with replies := s.replies ++ [(none, v)] } := rfl

theorem ite_apply' (c : Prop) [Decidable c] (x y : Op α) :
    (if c then x else y) s = if c then x s else y s := by
  split <;> rfl

end Run

/-! ### Taking a Fatal, completing an operation -/

theorem runOperation_faulted {op : Op OpResult} {s : State} {r : FatalReason} (h : s.fault = some r) :
    runOperation op s = .next { s with results := s.results ++ [.refused] } := by
  simp [runOperation, h]

theorem runOperation_ok {op : Op OpResult} {s t : State} {x : OpResult} (h : s.fault = none)
    (ho : op s = .ok x t) : runOperation op s = .next { t with results := t.results ++ [x] } := by
  simp [runOperation, h, ho]

theorem runOperation_fatal {op : Op OpResult} {s t : State} {r : FatalReason} (h : s.fault = none)
    (ho : op s = .error (.fatal r) t) : runOperation op s = .next (takeFatal r t) := by
  simp [runOperation, h, ho]

theorem runDevice_ok {op : Op Unit} {s t : State} (ho : op s = .ok () t) : runDevice op s = .next t := by
  simp [runDevice, ho]

theorem takeFatal_fault_none {r : FatalReason} {s : State} (h : s.fault = none) :
    takeFatal r s = { s with fault := some r } := by
  simp [takeFatal, h]

theorem takeFatal_fault_some {r r0 : FatalReason} {s : State} (h : s.fault = some r0) : takeFatal r s = s := by
  cases s; simp_all [takeFatal]

/-! ### Bytes -/

@[simp] theorem length_leBytes (n v : Nat) : (leBytes n v).length = n := by
  induction n generalizing v with
  | zero => rfl
  | succ n ih => simp [leBytes, ih]

theorem leNat_leBytes (n v : Nat) : leNat (leBytes n v) = v % 256 ^ n := by
  induction n generalizing v with
  | zero => simp [leBytes, leNat, Nat.mod_one]
  | succ n ih =>
    rw [leBytes, leNat, ih, BitVec.toNat_ofNat]
    norm_num only [show (2 : Nat) ^ 8 = 256 from rfl]
    rw [Nat.pow_succ', Nat.mod_mul]

/-! ### Memory: single bytes -/

namespace Memory

@[simp] theorem read_insert_same (m : Memory) (a : Nat) (v : Byte) (h : ∀ c ∈ m, c.1 ≠ a) :
    (m.insert a v).read a = v := by
  induction m with
  | nil => simp [Memory.insert, Memory.read]
  | cons c m ih =>
    simp only [Memory.insert]
    split
    · simp [Memory.read]
    · have hc : c.1 ≠ a := h c (by simp)
      simp only [Memory.read, hc, if_false]
      exact ih fun d hd => h d (by simp [hd])

theorem read_insert_other (m : Memory) {a x : Nat} (v : Byte) (h : x ≠ a) :
    (m.insert a v).read x = m.read x := by
  induction m with
  | nil => simp [Memory.insert, Memory.read, h.symm]
  | cons c m ih =>
    simp only [Memory.insert]
    split
    · simp [Memory.read, h.symm]
    · simp only [Memory.read]; split
      · rfl
      · exact ih

theorem read_erase_same (m : Memory) (a : Nat) : (m.erase a).read a = 0 := by
  induction m with
  | nil => rfl
  | cons c m ih =>
    by_cases hc : c.1 = a
    · simpa [Memory.erase, hc] using ih
    · simpa [Memory.erase, hc, Memory.read] using ih

theorem read_erase_other (m : Memory) {a x : Nat} (h : x ≠ a) : (m.erase a).read x = m.read x := by
  induction m with
  | nil => rfl
  | cons c m ih =>
    by_cases hc : c.1 = a
    · have : c.1 ≠ x := by rw [hc]; exact h.symm
      simpa [Memory.erase, hc, Memory.read, this, h.symm] using ih
    · by_cases hx : c.1 = x
      · simp [Memory.erase, Memory.read, hx, h]
      · simpa [Memory.erase, hc, Memory.read, hx] using ih

theorem read_write_same (m : Memory) (a : Nat) (v : Byte) : (m.write a v).read a = v := by
  unfold Memory.write
  split
  · rw [read_erase_same]; exact (by assumption : v = 0).symm
  · apply read_insert_same
    intro c hc; simpa using (List.mem_filter.mp hc).2

theorem read_write_other (m : Memory) {a x : Nat} (v : Byte) (h : x ≠ a) : (m.write a v).read x = m.read x := by
  unfold Memory.write
  split
  · exact read_erase_other m h
  · rw [read_insert_other _ v h, read_erase_other m h]

/-! ### Memory: spans -/

theorem read_writeBytes_other (bs : List Byte) (m : Memory) (a x : BusAddr)
    (h : inSpan a bs.length x = false) : (m.writeBytes a bs).read x.toNat = m.read x.toNat := by
  induction bs generalizing m a with
  | nil => rfl
  | cons b bs ih =>
    simp only [inSpan, List.length_cons, decide_eq_false_iff_not, not_lt] at h
    have hne : x ≠ a := by rintro rfl; simp at h
    have hx : x.toNat ≠ a.toNat := fun e => hne (BitVec.eq_of_toNat_eq e)
    simp only [Memory.writeBytes]
    rw [ih, read_write_other _ _ hx]
    simp only [inSpan, decide_eq_false_iff_not, not_lt]
    have : (x - (a + 1)).toNat = (x - a).toNat - 1 := by
      have h1 : 1 ≤ (x - a).toNat := by omega
      bv_omega
    omega

theorem read_writeBytes_same (bs : List Byte) (m : Memory) (a : BusAddr) (k : Nat) (hk : k < bs.length)
    (hn : bs.length ≤ 2 ^ 32) : (m.writeBytes a bs).read (a + BitVec.ofNat 32 k).toNat = bs[k] := by
  induction bs generalizing m a k with
  | nil => simp at hk
  | cons b bs ih =>
    simp only [Memory.writeBytes]
    cases k with
    | zero =>
      simp only [BitVec.add_zero, List.getElem_cons_zero]
      rw [read_writeBytes_other, read_write_same]
      simp only [List.length_cons] at hn
      simp only [inSpan, decide_eq_false_iff_not, not_lt]
      have : (a - (a + 1)).toNat = 2 ^ 32 - 1 := by bv_omega
      omega
    | succ k =>
      have := ih (m.write a.toNat b) (a + 1) k (by simpa using hk) (by simp at hn; omega)
      simp only [List.getElem_cons_succ]
      rw [← this]
      congr 2
      rw [BitVec.add_assoc]
      congr 1
      apply BitVec.eq_of_toNat_eq
      simp [Nat.add_comm]

theorem length_readBytes (m : Memory) (a : BusAddr) (n : Nat) : (m.readBytes a n).length = n := by
  induction n generalizing a with
  | zero => rfl
  | succ n ih => simp [Memory.readBytes, ih]

theorem readBytes_congr {m m' : Memory} {a : BusAddr} {n : Nat} (hn : n ≤ 2 ^ 32)
    (h : ∀ x, inSpan a n x = true → m'.read x.toNat = m.read x.toNat) : m'.readBytes a n = m.readBytes a n := by
  induction n generalizing a with
  | zero => rfl
  | succ n ih =>
    simp only [Memory.readBytes]
    congr 1
    · exact h a (by simp [inSpan])
    · apply ih (by omega)
      intro x hx
      apply h x
      simp only [inSpan, decide_eq_true_eq] at hx ⊢
      by_cases hxa : x = a
      · subst hxa; simp
      · have : (x - a).toNat = (x - (a + 1)).toNat + 1 := by
          have : x.toNat ≠ a.toNat := fun e => hxa (BitVec.eq_of_toNat_eq e)
          bv_omega
        omega

theorem readBytes_writeBytes_same (bs : List Byte) (m : Memory) (a : BusAddr) (hn : bs.length ≤ 2 ^ 32) :
    (m.writeBytes a bs).readBytes a bs.length = bs := by
  have key : ∀ (n k : Nat) (b : BusAddr), b = a + BitVec.ofNat 32 k → n + k = bs.length →
      (m.writeBytes a bs).readBytes b n = bs.drop k := by
    intro n
    induction n with
    | zero => intro k b _ hk; simp [Memory.readBytes, ← hk]
    | succ n ih =>
      intro k b hb hk
      have hlt : k < bs.length := by omega
      simp only [Memory.readBytes]
      rw [List.drop_eq_getElem_cons hlt, ih (k + 1) (b + 1) _ (by omega), hb,
        read_writeBytes_same bs m a k hlt hn]
      subst hb
      rw [BitVec.add_assoc]; congr 1
      apply BitVec.eq_of_toNat_eq
      simp
  simpa using key bs.length 0 a (by simp) (by simp)

/-! ### The canonical form -/

theorem wf_nil : Memory.wf [] = true := by decide

theorem wf_iff (m : Memory) :
    m.wf = true ↔ m.Pairwise (fun c d => c.1 < d.1) ∧ ∀ c ∈ m, c.1 < 2 ^ 32 ∧ c.2 ≠ 0 := by
  simp [Memory.wf, List.all_eq_true]

theorem wf_erase {m : Memory} (a : Nat) (h : m.wf = true) : (m.erase a).wf = true := by
  rw [wf_iff] at h ⊢
  exact ⟨h.1.sublist List.filter_sublist, fun c hc => h.2 c (List.mem_filter.mp hc).1⟩

theorem mem_insert {m : Memory} {a : Nat} {v : Byte} {c : Host.Cell} (h : c ∈ m.insert a v) :
    c = (a, v) ∨ c ∈ m := by
  induction m with
  | nil => simp [Memory.insert] at h; exact .inl h
  | cons d m ih =>
    simp only [Memory.insert] at h
    split at h
    · simpa using h
    · rcases List.mem_cons.mp h with h | h
      · exact .inr (by simp [h])
      · rcases ih h with h | h
        · exact .inl h
        · exact .inr (by simp [h])

theorem wf_insert {m : Memory} {a : Nat} {v : Byte} (h : m.wf = true) (ha : a < 2 ^ 32) (hv : v ≠ 0)
    (hn : ∀ c ∈ m, c.1 ≠ a) : (m.insert a v).wf = true := by
  rw [wf_iff] at h ⊢
  obtain ⟨hp, hall⟩ := h
  refine ⟨?_, ?_⟩
  · clear hall
    revert hn
    induction m with
    | nil => simp [Memory.insert]
    | cons c m ih =>
      intro hn
      simp only [Memory.insert]
      rw [List.pairwise_cons] at hp
      split
      · rename_i hlt
        rw [List.pairwise_cons]
        refine ⟨fun d hd => ?_, List.pairwise_cons.mpr hp⟩
        rcases List.mem_cons.mp hd with rfl | hd
        · exact hlt
        · exact lt_trans hlt (hp.1 d hd)
      · rename_i hlt
        have hca : c.1 ≠ a := hn c (by simp)
        rw [List.pairwise_cons]
        refine ⟨fun d hd => ?_, ih hp.2 fun d hd => hn d (by simp [hd])⟩
        rcases mem_insert hd with rfl | hd
        · simp only; omega
        · exact hp.1 d hd
  · intro c hc
    rcases mem_insert hc with rfl | hc
    · exact ⟨ha, hv⟩
    · exact hall c hc

theorem wf_write {m : Memory} {a : Nat} (v : Byte) (h : m.wf = true) (ha : a < 2 ^ 32) :
    (m.write a v).wf = true := by
  unfold Memory.write
  split
  · exact wf_erase a h
  · apply wf_insert (wf_erase a h) ha (by assumption)
    intro c hc; simpa using (List.mem_filter.mp hc).2

theorem wf_writeBytes (bs : List Byte) {m : Memory} (a : BusAddr) (h : m.wf = true) :
    (m.writeBytes a bs).wf = true := by
  induction bs generalizing m a with
  | nil => exact h
  | cons b bs ih => exact ih (a + 1) (wf_write b h a.isLt)

end Memory

end Sys2Proof.Machine
end

