-- ==== Sys2Proof/Laws/State.lean ====
section
/-! SUPPORT. What the named state updates leave alone: one lemma per field per update, each true by rfl. -/

namespace Sys2Proof.Machine

/-! ### `State.event` -/

section
variable (s : State) (e : BusEvent)

@[simp] theorem event_config : (s.event e).config = s.config := rfl
@[simp] theorem event_pciBus : (s.event e).pciBus = s.pciBus := rfl
@[simp] theorem event_busMap : (s.event e).busMap = s.busMap := rfl
@[simp] theorem event_agenda : (s.event e).agenda = s.agenda := rfl
@[simp] theorem event_pollScript : (s.event e).pollScript = s.pollScript := rfl
@[simp] theorem event_fault : (s.event e).fault = s.fault := rfl
@[simp] theorem event_started : (s.event e).started = s.started := rfl
@[simp] theorem event_base : (s.event e).base = s.base := rfl
@[simp] theorem event_irq : (s.event e).irq = s.irq := rfl
@[simp] theorem event_rxAddr : (s.event e).rxAddr = s.rxAddr := rfl
@[simp] theorem event_txAddr : (s.event e).txAddr = s.txAddr := rfl
@[simp] theorem event_statsAddr : (s.event e).statsAddr = s.statsAddr := rfl
@[simp] theorem event_cfgAddr : (s.event e).cfgAddr = s.cfgAddr := rfl
@[simp] theorem event_rxHead : (s.event e).rxHead = s.rxHead := rfl
@[simp] theorem event_txHead : (s.event e).txHead = s.txHead := rfl
@[simp] theorem event_txTail : (s.event e).txTail = s.txTail := rfl
@[simp] theorem event_txIdle : (s.event e).txIdle = s.txIdle := rfl
@[simp] theorem event_txThreshold : (s.event e).txThreshold = s.txThreshold := rfl
@[simp] theorem event_pendTx : (s.event e).pendTx = s.pendTx := rfl
@[simp] theorem event_pendRx : (s.event e).pendRx = s.pendRx := rfl
@[simp] theorem event_fFr : (s.event e).fFr = s.fFr := rfl
@[simp] theorem event_fCna : (s.event e).fCna = s.fCna := rfl
@[simp] theorem event_fRnr : (s.event e).fRnr = s.fRnr := rfl
@[simp] theorem event_fSwi : (s.event e).fSwi = s.fSwi := rfl
@[simp] theorem event_irqArmed : (s.event e).irqArmed = s.irqArmed := rfl
@[simp] theorem event_rxNeedRestart : (s.event e).rxNeedRestart = s.rxNeedRestart := rfl
@[simp] theorem event_cfg : (s.event e).cfg = s.cfg := rfl
@[simp] theorem event_cfgPending : (s.event e).cfgPending = s.cfgPending := rfl
@[simp] theorem event_linkSnapshot : (s.event e).linkSnapshot = s.linkSnapshot := rfl
@[simp] theorem event_linkReportPending : (s.event e).linkReportPending = s.linkReportPending := rfl
@[simp] theorem event_txAlive : (s.event e).txAlive = s.txAlive := rfl
@[simp] theorem event_needReset : (s.event e).needReset = s.needReset := rfl
@[simp] theorem event_serBusy : (s.event e).serBusy = s.serBusy := rfl
@[simp] theorem event_eeWidth : (s.event e).eeWidth = s.eeWidth := rfl
@[simp] theorem event_lines : (s.event e).lines = s.lines := rfl
@[simp] theorem event_hwAddr : (s.event e).hwAddr = s.hwAddr := rfl
@[simp] theorem event_mem : (s.event e).mem = s.mem := rfl
@[simp] theorem event_log : (s.event e).log = s.log := rfl
@[simp] theorem event_results : (s.event e).results = s.results := rfl
@[simp] theorem event_replies : (s.event e).replies = s.replies := rfl
@[simp] theorem event_reports : (s.event e).reports = s.reports := rfl
@[simp] theorem event_events : (s.event e).events = e :: s.events := rfl
@[simp] theorem event_dev : (s.event e).dev = s.dev := rfl

end

/-! ### `State.store` -/

section
variable (s : State) (w : Agent) (a : BusAddr) (bs : List Byte)

@[simp] theorem store_config : (s.store w a bs).config = s.config := rfl
@[simp] theorem store_pciBus : (s.store w a bs).pciBus = s.pciBus := rfl
@[simp] theorem store_busMap : (s.store w a bs).busMap = s.busMap := rfl
@[simp] theorem store_agenda : (s.store w a bs).agenda = s.agenda := rfl
@[simp] theorem store_pollScript : (s.store w a bs).pollScript = s.pollScript := rfl
@[simp] theorem store_fault : (s.store w a bs).fault = s.fault := rfl
@[simp] theorem store_started : (s.store w a bs).started = s.started := rfl
@[simp] theorem store_base : (s.store w a bs).base = s.base := rfl
@[simp] theorem store_irq : (s.store w a bs).irq = s.irq := rfl
@[simp] theorem store_rxAddr : (s.store w a bs).rxAddr = s.rxAddr := rfl
@[simp] theorem store_txAddr : (s.store w a bs).txAddr = s.txAddr := rfl
@[simp] theorem store_statsAddr : (s.store w a bs).statsAddr = s.statsAddr := rfl
@[simp] theorem store_cfgAddr : (s.store w a bs).cfgAddr = s.cfgAddr := rfl
@[simp] theorem store_rxHead : (s.store w a bs).rxHead = s.rxHead := rfl
@[simp] theorem store_txHead : (s.store w a bs).txHead = s.txHead := rfl
@[simp] theorem store_txTail : (s.store w a bs).txTail = s.txTail := rfl
@[simp] theorem store_txIdle : (s.store w a bs).txIdle = s.txIdle := rfl
@[simp] theorem store_txThreshold : (s.store w a bs).txThreshold = s.txThreshold := rfl
@[simp] theorem store_pendTx : (s.store w a bs).pendTx = s.pendTx := rfl
@[simp] theorem store_pendRx : (s.store w a bs).pendRx = s.pendRx := rfl
@[simp] theorem store_fFr : (s.store w a bs).fFr = s.fFr := rfl
@[simp] theorem store_fCna : (s.store w a bs).fCna = s.fCna := rfl
@[simp] theorem store_fRnr : (s.store w a bs).fRnr = s.fRnr := rfl
@[simp] theorem store_fSwi : (s.store w a bs).fSwi = s.fSwi := rfl
@[simp] theorem store_irqArmed : (s.store w a bs).irqArmed = s.irqArmed := rfl
@[simp] theorem store_rxNeedRestart : (s.store w a bs).rxNeedRestart = s.rxNeedRestart := rfl
@[simp] theorem store_cfg : (s.store w a bs).cfg = s.cfg := rfl
@[simp] theorem store_cfgPending : (s.store w a bs).cfgPending = s.cfgPending := rfl
@[simp] theorem store_linkSnapshot : (s.store w a bs).linkSnapshot = s.linkSnapshot := rfl
@[simp] theorem store_linkReportPending : (s.store w a bs).linkReportPending = s.linkReportPending := rfl
@[simp] theorem store_txAlive : (s.store w a bs).txAlive = s.txAlive := rfl
@[simp] theorem store_needReset : (s.store w a bs).needReset = s.needReset := rfl
@[simp] theorem store_serBusy : (s.store w a bs).serBusy = s.serBusy := rfl
@[simp] theorem store_eeWidth : (s.store w a bs).eeWidth = s.eeWidth := rfl
@[simp] theorem store_lines : (s.store w a bs).lines = s.lines := rfl
@[simp] theorem store_hwAddr : (s.store w a bs).hwAddr = s.hwAddr := rfl
@[simp] theorem store_mem : (s.store w a bs).mem = s.mem.writeBytes a bs := rfl
@[simp] theorem store_log : (s.store w a bs).log = s.log := rfl
@[simp] theorem store_results : (s.store w a bs).results = s.results := rfl
@[simp] theorem store_replies : (s.store w a bs).replies = s.replies := rfl
@[simp] theorem store_reports : (s.store w a bs).reports = s.reports := rfl
@[simp] theorem store_events : (s.store w a bs).events = .memWrite w a bs :: s.events := rfl
@[simp] theorem store_dev : (s.store w a bs).dev = s.dev := rfl

end

/-! ### `takeFatal` -/

section
variable (s : State) (r : FatalReason)

@[simp] theorem takeFatal_config : (takeFatal r s).config = s.config := rfl
@[simp] theorem takeFatal_pciBus : (takeFatal r s).pciBus = s.pciBus := rfl
@[simp] theorem takeFatal_busMap : (takeFatal r s).busMap = s.busMap := rfl
@[simp] theorem takeFatal_agenda : (takeFatal r s).agenda = s.agenda := rfl
@[simp] theorem takeFatal_pollScript : (takeFatal r s).pollScript = s.pollScript := rfl
@[simp] theorem takeFatal_fault : (takeFatal r s).fault = (match s.fault with | none => some r | some r0 => some r0) := rfl
@[simp] theorem takeFatal_started : (takeFatal r s).started = s.started := rfl
@[simp] theorem takeFatal_base : (takeFatal r s).base = s.base := rfl
@[simp] theorem takeFatal_irq : (takeFatal r s).irq = s.irq := rfl
@[simp] theorem takeFatal_rxAddr : (takeFatal r s).rxAddr = s.rxAddr := rfl
@[simp] theorem takeFatal_txAddr : (takeFatal r s).txAddr = s.txAddr := rfl
@[simp] theorem takeFatal_statsAddr : (takeFatal r s).statsAddr = s.statsAddr := rfl
@[simp] theorem takeFatal_cfgAddr : (takeFatal r s).cfgAddr = s.cfgAddr := rfl
@[simp] theorem takeFatal_rxHead : (takeFatal r s).rxHead = s.rxHead := rfl
@[simp] theorem takeFatal_txHead : (takeFatal r s).txHead = s.txHead := rfl
@[simp] theorem takeFatal_txTail : (takeFatal r s).txTail = s.txTail := rfl
@[simp] theorem takeFatal_txIdle : (takeFatal r s).txIdle = s.txIdle := rfl
@[simp] theorem takeFatal_txThreshold : (takeFatal r s).txThreshold = s.txThreshold := rfl
@[simp] theorem takeFatal_pendTx : (takeFatal r s).pendTx = s.pendTx := rfl
@[simp] theorem takeFatal_pendRx : (takeFatal r s).pendRx = s.pendRx := rfl
@[simp] theorem takeFatal_fFr : (takeFatal r s).fFr = s.fFr := rfl
@[simp] theorem takeFatal_fCna : (takeFatal r s).fCna = s.fCna := rfl
@[simp] theorem takeFatal_fRnr : (takeFatal r s).fRnr = s.fRnr := rfl
@[simp] theorem takeFatal_fSwi : (takeFatal r s).fSwi = s.fSwi := rfl
@[simp] theorem takeFatal_irqArmed : (takeFatal r s).irqArmed = s.irqArmed := rfl
@[simp] theorem takeFatal_rxNeedRestart : (takeFatal r s).rxNeedRestart = s.rxNeedRestart := rfl
@[simp] theorem takeFatal_cfg : (takeFatal r s).cfg = s.cfg := rfl
@[simp] theorem takeFatal_cfgPending : (takeFatal r s).cfgPending = s.cfgPending := rfl
@[simp] theorem takeFatal_linkSnapshot : (takeFatal r s).linkSnapshot = s.linkSnapshot := rfl
@[simp] theorem takeFatal_linkReportPending : (takeFatal r s).linkReportPending = s.linkReportPending := rfl
@[simp] theorem takeFatal_txAlive : (takeFatal r s).txAlive = s.txAlive := rfl
@[simp] theorem takeFatal_needReset : (takeFatal r s).needReset = s.needReset := rfl
@[simp] theorem takeFatal_serBusy : (takeFatal r s).serBusy = s.serBusy := rfl
@[simp] theorem takeFatal_eeWidth : (takeFatal r s).eeWidth = s.eeWidth := rfl
@[simp] theorem takeFatal_lines : (takeFatal r s).lines = s.lines := rfl
@[simp] theorem takeFatal_hwAddr : (takeFatal r s).hwAddr = s.hwAddr := rfl
@[simp] theorem takeFatal_mem : (takeFatal r s).mem = s.mem := rfl
@[simp] theorem takeFatal_log : (takeFatal r s).log = s.log := rfl
@[simp] theorem takeFatal_results : (takeFatal r s).results = s.results := rfl
@[simp] theorem takeFatal_replies : (takeFatal r s).replies = s.replies := rfl
@[simp] theorem takeFatal_reports : (takeFatal r s).reports = s.reports := rfl
@[simp] theorem takeFatal_events : (takeFatal r s).events = s.events := rfl
@[simp] theorem takeFatal_dev : (takeFatal r s).dev = s.dev := rfl

end

/-! ### Views of memory -/

@[simp] theorem byteAt_event (s : State) (e : BusEvent) (x : BusAddr) : (s.event e).byteAt x = s.byteAt x := rfl
@[simp] theorem half_event (s : State) (e : BusEvent) (a : BusAddr) : (s.event e).half a = s.half a := rfl
@[simp] theorem word_event (s : State) (e : BusEvent) (a : BusAddr) : (s.event e).word a = s.word a := rfl

end Sys2Proof.Machine
end

