-- ==== Sys2Proof/Laws/Fields.lean ====
section
/-! SUPPORT. Fields of DMA memory after a store: a field that the store covers, a field apart from it. Where the
fields of the descriptors of a laid-out state are, and that they lie apart. -/

namespace Sys2Proof.Machine

/-! ### Spans -/

/-- No byte of the second span is in the first. -/
def Apart (a : BusAddr) (n : Nat) (b : BusAddr) (m : Nat) : Prop :=
  ∀ x, inSpan b m x = true → inSpan a n x = false

theorem inSpan_iff {a x : BusAddr} {n : Nat} (h : a.toNat + n ≤ 2 ^ 32) :
    inSpan a n x = true ↔ a.toNat ≤ x.toNat ∧ x.toNat < a.toNat + n := by
  simp only [inSpan, decide_eq_true_eq, BitVec.toNat_sub]
  have := a.isLt
  have := x.isLt
  constructor
  · intro hx; omega
  · intro hx; omega

theorem apart_of_nat {a b : BusAddr} {n m : Nat} (ha : a.toNat + n ≤ 2 ^ 32) (hb : b.toNat + m ≤ 2 ^ 32)
    (h : a.toNat + n ≤ b.toNat ∨ b.toNat + m ≤ a.toNat) : Apart a n b m := by
  intro x hx
  rw [inSpan_iff hb] at hx
  rw [Bool.eq_false_iff, ne_eq, inSpan_iff ha]
  omega

/-! ### Fields after a store -/

section
variable {s : State} {w : Agent} {a b x : BusAddr} {bs : List Byte} {n : Nat}

theorem byteAt_store_other (h : inSpan a bs.length x = false) : (s.store w a bs).byteAt x = s.byteAt x :=
  Memory.read_writeBytes_other bs s.mem a x h

theorem readBytes_store_other (hn : n ≤ 2 ^ 32) (h : Apart a bs.length b n) :
    (s.store w a bs).mem.readBytes b n = s.mem.readBytes b n :=
  Memory.readBytes_congr hn fun x hx => Memory.read_writeBytes_other bs s.mem a x (h x hx)

theorem half_store_other (h : Apart a bs.length b 2) : (s.store w a bs).half b = s.half b := by
  unfold State.half; rw [readBytes_store_other (by decide) h]

theorem word_store_other (h : Apart a bs.length b 4) : (s.store w a bs).word b = s.word b := by
  unfold State.word; rw [readBytes_store_other (by decide) h]

theorem readBytes_store_same (hn : bs.length ≤ 2 ^ 32) : (s.store w a bs).mem.readBytes a bs.length = bs :=
  Memory.readBytes_writeBytes_same bs s.mem a hn

theorem half_store_same (v : Half) : (s.store w a (leBytes 2 v.toNat)).half a = v := by
  unfold State.half
  have := readBytes_store_same (s := s) (w := w) (a := a) (bs := leBytes 2 v.toNat) (by simp)
  rw [length_leBytes] at this
  rw [this, leNat_leBytes]
  apply BitVec.eq_of_toNat_eq
  simp; omega

theorem word_store_same (v : Word) : (s.store w a (leBytes 4 v.toNat)).word a = v := by
  unfold State.word
  have := readBytes_store_same (s := s) (w := w) (a := a) (bs := leBytes 4 v.toNat) (by simp)
  rw [length_leBytes] at this
  rw [this, leNat_leBytes]
  apply BitVec.eq_of_toNat_eq
  simp; omega

theorem byteAt_store_same (v : Byte) : (s.store w a [v]).byteAt a = v := by
  simpa [State.byteAt, State.store] using Memory.read_writeBytes_same [v] s.mem a 0 (by simp) (by simp)

end

/-! ### Slots and field offsets -/

section
variable (s : State) (w : Agent) (a : BusAddr) (bs : List Byte) (e : BusEvent) (i : Nat)

@[simp] theorem store_rxSlot : (s.store w a bs).rxSlot i = s.rxSlot i := rfl
@[simp] theorem store_txSlot : (s.store w a bs).txSlot i = s.txSlot i := rfl
@[simp] theorem event_rxSlot : (s.event e).rxSlot i = s.rxSlot i := rfl
@[simp] theorem event_txSlot : (s.event e).txSlot i = s.txSlot i := rfl

end

@[simp] theorem toNat_offStatus : offStatus.toNat = 0 := rfl
@[simp] theorem toNat_offCommand : offCommand.toNat = 2 := rfl
@[simp] theorem toNat_offLink : offLink.toNat = 4 := rfl
@[simp] theorem toNat_offReceivedLength : offReceivedLength.toNat = 8 := rfl
@[simp] theorem toNat_offCapacity : offCapacity.toNat = 10 := rfl
@[simp] theorem toNat_offByteCount : offByteCount.toNat = 8 := rfl
@[simp] theorem toNat_offThresh : offThresh.toNat = 10 := rfl
@[simp] theorem toNat_offReserved : offReserved.toNat = 11 := rfl
@[simp] theorem toNat_offBuffer : offBuffer.toNat = 12 := rfl

/-! ### Where descriptors are -/

theorem descriptorSize_ge (c : Config) : 12 + c.bufSize ≤ descriptorSize c := by
  unfold descriptorSize headerSize; omega

theorem regionsOk_fits {l : List (BusAddr × Nat)} (h : regionsOk l = true) {r : BusAddr × Nat} (hr : r ∈ l) :
    r.1.toNat + r.2 ≤ 2 ^ 32 := by
  simp only [regionsOk, Bool.and_eq_true, List.all_eq_true, decide_eq_true_eq] at h
  exact h.1 r hr

theorem regionsOk_apart {l : List (BusAddr × Nat)} (h : regionsOk l = true) {i j : Nat} (hi : i < l.length)
    (hj : j < l.length) (hij : i ≠ j) :
    l[i].1.toNat + l[i].2 ≤ l[j].1.toNat ∨ l[j].1.toNat + l[j].2 ≤ l[i].1.toNat := by
  simp only [regionsOk, Bool.and_eq_true, decide_eq_true_eq] at h
  have hp := List.pairwise_iff_getElem.mp h.2
  rcases Nat.lt_or_gt_of_ne hij with hlt | hlt
  · have := hp i j hi hj hlt
    simpa [regionsApart] using this
  · have := hp j i hj hi hlt
    simp only [regionsApart, Bool.or_eq_true, decide_eq_true_eq] at this
    omega

namespace State.Laid

variable {s : State} (h : s.Laid)
include h

/-- The region list of a laid-out state, by index: RX descriptors, TX descriptors, statistics, configuration. -/
theorem region_rx {i : Nat} (hi : i < s.config.nRx) :
    ∃ hl, (regionsOf s.config s.rxAddr s.txAddr s.statsAddr s.cfgAddr)[i]'hl = (s.rxSlot i, descriptorSize s.config) := by
  have := h.rxLen; have := h.txLen
  refine ⟨by simp [regionsOf]; omega, ?_⟩
  simp only [regionsOf]
  rw [List.getElem_append_left (by simp; omega), List.getElem_append_left (by simp; omega), List.getElem_map]
  simp [State.rxSlot, List.getElem?_eq_getElem (show i < s.rxAddr.length by omega)]

theorem region_tx {i : Nat} (hi : i < s.config.nTx) :
    ∃ hl, (regionsOf s.config s.rxAddr s.txAddr s.statsAddr s.cfgAddr)[s.config.nRx + i]'hl =
      (s.txSlot i, descriptorSize s.config) := by
  have := h.rxLen; have := h.txLen
  refine ⟨by simp [regionsOf]; omega, ?_⟩
  simp only [regionsOf]
  rw [List.getElem_append_left (by simp; omega), List.getElem_append_right (by simp; omega), List.getElem_map]
  simp [State.txSlot, h.rxLen, List.getElem?_eq_getElem (show i < s.txAddr.length by omega)]

theorem region_stats :
    ∃ hl, (regionsOf s.config s.rxAddr s.txAddr s.statsAddr s.cfgAddr)[s.config.nRx + s.config.nTx]'hl =
      (s.statsAddr, 4 * s.config.statsWords + 4) := by
  have := h.rxLen; have := h.txLen
  refine ⟨by simp [regionsOf]; omega, ?_⟩
  simp only [regionsOf]
  rw [List.getElem_append_right (by simp; omega)]
  simp [h.rxLen, h.txLen]

theorem region_cfg :
    ∃ hl, (regionsOf s.config s.rxAddr s.txAddr s.statsAddr s.cfgAddr)[s.config.nRx + s.config.nTx + 1]'hl =
      (s.cfgAddr, s.config.cfgBlockLen) := by
  have := h.rxLen; have := h.txLen
  refine ⟨by simp [regionsOf]; omega, ?_⟩
  simp only [regionsOf]
  rw [List.getElem_append_right (by simp; omega)]
  simp [h.rxLen, h.txLen]

theorem rx_fits {i : Nat} (hi : i < s.config.nRx) : (s.rxSlot i).toNat + descriptorSize s.config ≤ 2 ^ 32 := by
  obtain ⟨hl, e⟩ := h.region_rx hi
  have := regionsOk_fits h.apart (List.getElem_mem hl); rwa [e] at this

theorem tx_fits {i : Nat} (hi : i < s.config.nTx) : (s.txSlot i).toNat + descriptorSize s.config ≤ 2 ^ 32 := by
  obtain ⟨hl, e⟩ := h.region_tx hi
  have := regionsOk_fits h.apart (List.getElem_mem hl); rwa [e] at this

theorem stats_fits : s.statsAddr.toNat + (4 * s.config.statsWords + 4) ≤ 2 ^ 32 := by
  obtain ⟨hl, e⟩ := h.region_stats
  have := regionsOk_fits h.apart (List.getElem_mem hl); rwa [e] at this

theorem cfg_fits : s.cfgAddr.toNat + s.config.cfgBlockLen ≤ 2 ^ 32 := by
  obtain ⟨hl, e⟩ := h.region_cfg
  have := regionsOk_fits h.apart (List.getElem_mem hl); rwa [e] at this

theorem rx_rx {i j : Nat} (hi : i < s.config.nRx) (hj : j < s.config.nRx) (hij : i ≠ j) :
    (s.rxSlot i).toNat + descriptorSize s.config ≤ (s.rxSlot j).toNat ∨
    (s.rxSlot j).toNat + descriptorSize s.config ≤ (s.rxSlot i).toNat := by
  obtain ⟨hl, e⟩ := h.region_rx hi; obtain ⟨hl', e'⟩ := h.region_rx hj
  have := regionsOk_apart h.apart hl hl' hij; rwa [e, e'] at this

theorem tx_tx {i j : Nat} (hi : i < s.config.nTx) (hj : j < s.config.nTx) (hij : i ≠ j) :
    (s.txSlot i).toNat + descriptorSize s.config ≤ (s.txSlot j).toNat ∨
    (s.txSlot j).toNat + descriptorSize s.config ≤ (s.txSlot i).toNat := by
  obtain ⟨hl, e⟩ := h.region_tx hi; obtain ⟨hl', e'⟩ := h.region_tx hj
  have := regionsOk_apart h.apart hl hl' (by omega); rwa [e, e'] at this

theorem rx_tx {i j : Nat} (hi : i < s.config.nRx) (hj : j < s.config.nTx) :
    (s.rxSlot i).toNat + descriptorSize s.config ≤ (s.txSlot j).toNat ∨
    (s.txSlot j).toNat + descriptorSize s.config ≤ (s.rxSlot i).toNat := by
  obtain ⟨hl, e⟩ := h.region_rx hi; obtain ⟨hl', e'⟩ := h.region_tx hj
  have := regionsOk_apart h.apart hl hl' (by omega); rwa [e, e'] at this

theorem rx_stats {i : Nat} (hi : i < s.config.nRx) :
    (s.rxSlot i).toNat + descriptorSize s.config ≤ s.statsAddr.toNat ∨
    s.statsAddr.toNat + (4 * s.config.statsWords + 4) ≤ (s.rxSlot i).toNat := by
  obtain ⟨hl, e⟩ := h.region_rx hi; obtain ⟨hl', e'⟩ := h.region_stats
  have := regionsOk_apart h.apart hl hl' (by omega); rwa [e, e'] at this

theorem tx_stats {i : Nat} (hi : i < s.config.nTx) :
    (s.txSlot i).toNat + descriptorSize s.config ≤ s.statsAddr.toNat ∨
    s.statsAddr.toNat + (4 * s.config.statsWords + 4) ≤ (s.txSlot i).toNat := by
  obtain ⟨hl, e⟩ := h.region_tx hi; obtain ⟨hl', e'⟩ := h.region_stats
  have := regionsOk_apart h.apart hl hl' (by omega); rwa [e, e'] at this

theorem rx_cfg {i : Nat} (hi : i < s.config.nRx) :
    (s.rxSlot i).toNat + descriptorSize s.config ≤ s.cfgAddr.toNat ∨
    s.cfgAddr.toNat + s.config.cfgBlockLen ≤ (s.rxSlot i).toNat := by
  obtain ⟨hl, e⟩ := h.region_rx hi; obtain ⟨hl', e'⟩ := h.region_cfg
  have := regionsOk_apart h.apart hl hl' (by omega); rwa [e, e'] at this

theorem tx_cfg {i : Nat} (hi : i < s.config.nTx) :
    (s.txSlot i).toNat + descriptorSize s.config ≤ s.cfgAddr.toNat ∨
    s.cfgAddr.toNat + s.config.cfgBlockLen ≤ (s.txSlot i).toNat := by
  obtain ⟨hl, e⟩ := h.region_tx hi; obtain ⟨hl', e'⟩ := h.region_cfg
  have := regionsOk_apart h.apart hl hl' (by omega); rwa [e, e'] at this

theorem stats_cfg :
    s.statsAddr.toNat + (4 * s.config.statsWords + 4) ≤ s.cfgAddr.toNat ∨
    s.cfgAddr.toNat + s.config.cfgBlockLen ≤ s.statsAddr.toNat := by
  obtain ⟨hl, e⟩ := h.region_stats; obtain ⟨hl', e'⟩ := h.region_cfg
  have := regionsOk_apart h.apart hl hl' (by omega); rwa [e, e'] at this

end State.Laid

/-- Two spans inside regions that lie apart. -/
theorem apart_in {A B k k' : BusAddr} {n m W W' : Nat} (hA : A.toNat + W ≤ 2 ^ 32) (hB : B.toNat + W' ≤ 2 ^ 32)
    (hd : A.toNat + W ≤ B.toNat ∨ B.toNat + W' ≤ A.toNat) (h1 : k.toNat + n ≤ W) (h2 : k'.toNat + m ≤ W') :
    Apart (A + k) n (B + k') m := by
  intro x hx
  rw [Bool.eq_false_iff, ne_eq]
  intro hx'
  simp only [inSpan, decide_eq_true_eq, BitVec.toNat_sub, BitVec.toNat_add] at hx hx'
  have := x.isLt
  omega

/-- Two spans at different places of one region. -/
theorem apart_same {A k k' : BusAddr} {n m W : Nat} (hA : A.toNat + W ≤ 2 ^ 32) (h1 : k.toNat + n ≤ W)
    (h2 : k'.toNat + m ≤ W) (h : k.toNat + n ≤ k'.toNat ∨ k'.toNat + m ≤ k.toNat) : Apart (A + k) n (A + k') m := by
  intro x hx
  rw [Bool.eq_false_iff, ne_eq]
  intro hx'
  simp only [inSpan, decide_eq_true_eq, BitVec.toNat_sub, BitVec.toNat_add] at hx hx'
  have := x.isLt
  omega

/-- A span inside a region has no byte outside it. -/
theorem outside_sub {A k x : BusAddr} {n W : Nat} (hA : A.toNat + W ≤ 2 ^ 32) (h1 : k.toNat + n ≤ W)
    (hx : inSpan A W x = false) : inSpan (A + k) n x = false := by
  rw [Bool.eq_false_iff, ne_eq] at hx ⊢
  intro hx'
  apply hx
  simp only [inSpan, decide_eq_true_eq, BitVec.toNat_sub, BitVec.toNat_add] at hx' ⊢
  have := x.isLt
  omega

/-! ### A field after a store elsewhere in the same region -/

section
variable {s : State} {w : Agent} {A k k' : BusAddr} {bs : List Byte} {n W : Nat}

theorem half_store_off (hA : A.toNat + W ≤ 2 ^ 32) (h1 : k.toNat + bs.length ≤ W) (h2 : k'.toNat + 2 ≤ W)
    (h : k.toNat + bs.length ≤ k'.toNat ∨ k'.toNat + 2 ≤ k.toNat) :
    (s.store w (A + k) bs).half (A + k') = s.half (A + k') := half_store_other (apart_same hA h1 h2 h)

theorem word_store_off (hA : A.toNat + W ≤ 2 ^ 32) (h1 : k.toNat + bs.length ≤ W) (h2 : k'.toNat + 4 ≤ W)
    (h : k.toNat + bs.length ≤ k'.toNat ∨ k'.toNat + 4 ≤ k.toNat) :
    (s.store w (A + k) bs).word (A + k') = s.word (A + k') := word_store_other (apart_same hA h1 h2 h)

theorem byte_store_off (hA : A.toNat + W ≤ 2 ^ 32) (h1 : k.toNat + bs.length ≤ W) (h2 : k'.toNat + 1 ≤ W)
    (h : k.toNat + bs.length ≤ k'.toNat ∨ k'.toNat + 1 ≤ k.toNat) :
    (s.store w (A + k) bs).byteAt (A + k') = s.byteAt (A + k') :=
  byteAt_store_other (apart_same (m := 1) hA h1 h2 h _ (by simp [inSpan]))

theorem readBytes_store_off (hA : A.toNat + W ≤ 2 ^ 32) (h1 : k.toNat + bs.length ≤ W) (h2 : k'.toNat + n ≤ W)
    (h : k.toNat + bs.length ≤ k'.toNat ∨ k'.toNat + n ≤ k.toNat) :
    (s.store w (A + k) bs).mem.readBytes (A + k') n = s.mem.readBytes (A + k') n :=
  readBytes_store_other (by omega) (apart_same hA h1 h2 h)

end

/-! ### Fields of a region whose bytes are the same -/

/-- Every byte of a region is the same in two states. -/
def SameBytes (s t : State) (A : BusAddr) (W : Nat) : Prop := ∀ x, inSpan A W x = true → t.byteAt x = s.byteAt x

theorem inSpan_sub {A k x : BusAddr} {n W : Nat} (hA : A.toNat + W ≤ 2 ^ 32) (h1 : k.toNat + n ≤ W)
    (hx : inSpan (A + k) n x = true) : inSpan A W x = true := by
  by_contra hc
  rw [outside_sub hA h1 (by simpa using hc)] at hx
  cases hx

namespace SameBytes

variable {s t : State} {A k : BusAddr} {n W : Nat}

theorem readBytes (h : SameBytes s t A W) (hA : A.toNat + W ≤ 2 ^ 32) (h1 : k.toNat + n ≤ W) :
    t.mem.readBytes (A + k) n = s.mem.readBytes (A + k) n :=
  Memory.readBytes_congr (by omega) fun x hx => h x (inSpan_sub hA h1 hx)

theorem half (h : SameBytes s t A W) (hA : A.toNat + W ≤ 2 ^ 32) (h1 : k.toNat + 2 ≤ W) :
    t.half (A + k) = s.half (A + k) := by
  unfold State.half; rw [h.readBytes hA h1]

theorem word (h : SameBytes s t A W) (hA : A.toNat + W ≤ 2 ^ 32) (h1 : k.toNat + 4 ≤ W) :
    t.word (A + k) = s.word (A + k) := by
  unfold State.word; rw [h.readBytes hA h1]

theorem byte (h : SameBytes s t A W) (hA : A.toNat + W ≤ 2 ^ 32) (h1 : k.toNat + 1 ≤ W) :
    t.byteAt (A + k) = s.byteAt (A + k) :=
  h _ (inSpan_sub hA h1 (by simp [inSpan]))

/-- What changed only inside a region that lies apart. -/
theorem of_apart {B : BusAddr} {m : Nat} (h : ∀ x, inSpan B m x = false → t.byteAt x = s.byteAt x)
    (ha : Apart B m A W) : SameBytes s t A W :=
  fun x hx => h x (ha x hx)

theorem trans {u : State} (h : SameBytes s t A W) (h' : SameBytes t u A W) : SameBytes s u A W :=
  fun x hx => (h' x hx).trans (h x hx)

theorem refl : SameBytes s s A W := fun _ _ => rfl

end SameBytes

/-- The address `k` bytes into a descriptor. -/
theorem toNat_add_of {a k : BusAddr} (h : a.toNat + k.toNat < 2 ^ 32) : (a + k).toNat = a.toNat + k.toNat := by
  rw [BitVec.toNat_add, Nat.mod_eq_of_lt h]

end Sys2Proof.Machine
end

