-- ==== Sys2Proof/Laws/Command.lean ====
section
/-! SUPPORT. What the command issuer's pieces do: reading an engine's state and field, a poll that the device
answers, an accepted `issue`. -/

namespace Sys2Proof.Machine

/-! ### Reads of the command and status registers -/

theorem scbCuField_cmdByte (d : Device) : scbCuField (scbCmdByte d) = d.cmdCu := by
  apply BitVec.eq_of_getLsbD_eq
  intro i hi
  simp only [scbCuField, scbCmdByte, BitVec.getLsbD_extractLsb', BitVec.getLsbD_append]
  simp [hi, show ¬ 4 + i < 3 by omega, show 4 + i - 3 - 1 = i by omega, show 4 + i - 3 ≠ 0 by omega]

theorem scbRuField_cmdByte (d : Device) : scbRuField (scbCmdByte d) = d.cmdRu := by
  apply BitVec.eq_of_getLsbD_eq
  intro i hi
  simp only [scbRuField, scbCmdByte, BitVec.getLsbD_extractLsb', BitVec.getLsbD_append]
  simp [hi]

theorem fieldIsNop_cmdByte (d : Device) (e : Engine) : fieldIsNop e (scbCmdByte d) = d.noCommand e := by
  cases e <;> simp [fieldIsNop, Device.noCommand, scbCuField_cmdByte, scbRuField_cmdByte]

/-- Whatever bits 7 and 3 are, SCB_STATUS has the engine's code (R102). -/
theorem statusCode_scbStatusByte (r : BitVec 2) (d : Device) (e : Engine) :
    statusCode e (scbStatusByte r d) = d.unitCode e := by
  cases e <;> apply BitVec.eq_of_getLsbD_eq <;> intro i hi <;>
    simp only [statusCode, scbStatusByte, Device.unitCode, BitVec.getLsbD_extractLsb', BitVec.getLsbD_append]
  · simp [hi, show ¬ 4 + i < 3 by omega, show 4 + i - 3 - 1 = i by omega, show 4 + i - 3 ≠ 0 by omega]
  · simp [hi]

/-- A read of SCB_CMD, as an event. -/
def cmdRead (base : Word) (c : Config) (d : Device) : BusEvent :=
  .portRead (base + BitVec.ofNat 32 c.regOffset.scbCmd) ((scbCmdByte d).setWidth 32)

/-- The next read of SCB_STATUS, as an event. -/
def State.statusRead (s : State) : BusEvent :=
  .portRead (s.readPort .scbStatus) ((scbStatusByte s.statusReserved s.dev).setWidth 32)

theorem setWidth_byte (b : Byte) : (b.setWidth 32).setWidth 8 = b := by
  rw [BitVec.setWidth_setWidth_of_le _ (by decide), BitVec.setWidth_eq]

@[simp] theorem readFieldIsNop_apply (s : State) (e : Engine) :
    readFieldIsNop e s = .ok (s.dev.noCommand e) (s.event (cmdRead s.base s.config s.dev)) := by
  simp only [readFieldIsNop, bind_apply, portRead, Device.registerValue, pure_apply, setWidth_byte,
    fieldIsNop_cmdByte]
  rfl

@[simp] theorem readUnitCode_apply (s : State) (e : Engine) :
    readUnitCode e s = .ok (s.dev.unitCode e) (s.event s.statusRead) := rfl

/-- `unit_state(u)` is decoded from the byte that was read (R159). -/
theorem readUnitCode_eq (e : Engine) :
    readUnitCode e = (do let v ← portRead .scbStatus; pure (statusCode e (v.setWidth 8))) := by
  funext s
  simp only [bind_apply, portRead, Device.registerValue, pure_apply, setWidth_byte, statusCode_scbStatusByte]
  rfl

@[simp] theorem portWrite_apply (s : State) (r : WriteReg) (v : Word) :
    portWrite r v s = .ok () { s with
      dev := s.dev.writeRegister s.config v r, events := .portWrite (s.writePort r) v :: s.events } := rfl

/-! ### Accepting a command -/

/-- The device after an engine has accepted a command of the block. -/
def EngineCommand.accept : EngineCommand → Device → Device
  | .cuLoadBase => acceptCuLoadBase
  | .cuStart => acceptCuStart
  | .cuDumpStatistics => acceptCuDumpStatistics
  | .ruLoadBase => acceptRuLoadBase
  | .ruStart => acceptRuStart

/-- What the engine finds in its field after a command was written; admitted codes are distinct (R11). -/
theorem pendingCommand_written {s : State} {cmd : EngineCommand} {a : BusAddr} {d : Device}
    (hk : s.config.cmdCodes.wf = true) (hd : s.dev = d.withCommand s.config.cmdCodes cmd a) :
    s.pendingCommand cmd.engine =
      match cmd with
      | .cuLoadBase => .ok .scbCuLoadBase
      | .cuStart => .ok .scbCuStart
      | .cuDumpStatistics => .ok .scbCuDumpStatistics
      | .ruLoadBase => .ok .scbRuLoadBase
      | .ruStart => .ok .scbRuStart := by
  have d := CmdCodes.distinct hk
  cases cmd <;>
    simp [State.pendingCommand, decodeScbByte, EngineCommand.engine, scbCuField_cmdByte, scbRuField_cmdByte, hd,
      Device.withCommand, Device.writeScbCmd, EngineCommand.byte, decodeCuCode_start hk, decodeCuCode_dump hk,
      decodeCuCode_load hk, decodeRuCode_start hk, decodeRuCode_load hk, d.cuStart, d.cuDump, d.cuLoad, d.ruStart,
      d.ruLoad]

theorem acceptMove_written {s : State} {cmd : EngineCommand} {a : BusAddr} {d : Device}
    (hk : s.config.cmdCodes.wf = true) (hd : s.dev = d.withCommand s.config.cmdCodes cmd a) :
    acceptMove cmd.engine s = .ok () { s with dev := cmd.accept s.dev } := by
  have h := pendingCommand_written hk hd
  cases cmd <;> simp only [acceptMove, bind_apply, get_apply, h] <;> rfl

theorem noCommand_written {k : CmdCodes} {cmd : EngineCommand} {a : BusAddr} {d : Device} (hk : k.wf = true) :
    (d.withCommand k cmd a).noCommand cmd.engine = false := by
  have d := CmdCodes.distinct hk
  cases cmd <;>
    simp [Device.noCommand, EngineCommand.engine, Device.withCommand, Device.writeScbCmd, EngineCommand.byte, d.cuStart,
      d.cuDump, d.cuLoad, d.ruStart, d.ruLoad]

/-- Written and accepted, from a field that had nothing pending. -/
theorem accept_written {k : CmdCodes} {cmd : EngineCommand} {a : BusAddr} {d : Device}
    (h : d.noCommand cmd.engine = true) : cmd.accept (d.withCommand k cmd a) = cmd.effect a d := by
  have h1 : ∀ c, scbRuField (scbCuByte c) = 0 := scbRuField_cuByte
  have h2 : ∀ c, scbCuField (scbRuByte c) = 0 := scbCuField_ruByte
  cases cmd <;> simp only [Device.noCommand, EngineCommand.engine, beq_iff_eq] at h <;>
    simp [EngineCommand.accept, EngineCommand.effect, Device.withCommand, Device.writeScbCmd, EngineCommand.byte, h1, h2,
      acceptCuLoadBase, acceptCuStart, acceptCuDumpStatistics, acceptRuLoadBase, acceptRuStart, ← h]

theorem noCommand_effect (cmd : EngineCommand) (a : BusAddr) (d : Device) (e : Engine) :
    (cmd.effect a d).noCommand e = d.noCommand e := by
  cases cmd <;> cases e <;> rfl

/-! ### The bounded poll -/

theorem awaitLoop_read {test : Op Bool} {r : FatalReason} {rest : List PollEvent} {n : Nat} {s t : State} {b : Bool}
    (h : test s = .ok b t) :
    awaitLoop test r (.read :: rest) (n + 1) s =
      if b then .ok () { t with pollScript := rest } else awaitLoop test r rest n t := by
  simp only [awaitLoop, bind_apply, h, setPollScript]
  cases b <;> rfl

theorem awaitLoop_move {test : Op Bool} {r : FatalReason} {m : DeviceMove} {rest : List PollEvent} {n : Nat}
    {s t : State} (h : deviceMove m s = .ok () t) :
    awaitLoop test r (.move m :: rest) (n + 1) s = awaitLoop test r rest (n + 1) t := by
  simp only [awaitLoop, bind_apply, h]

theorem awaitLoop_timeout {test : Op Bool} {r : FatalReason} {rest : List PollEvent} {n : Nat} {s : State} :
    awaitLoop test r (.timeout :: rest) (n + 1) s = .error (.fatal r) { s with pollScript := rest } := rfl

theorem awaitLoop_bound {test : Op Bool} {r : FatalReason} {rest : List PollEvent} {s : State} :
    awaitLoop test r rest 0 s = .error (.fatal r) { s with pollScript := rest } := by
  cases rest <;> rfl

theorem awaitLoop_end {test : Op Bool} {r : FatalReason} {n : Nat} {s t : State} {b : Bool}
    (h : test { s with pollScript := [] } = .ok b t) :
    awaitLoop test r [] (n + 1) s = if b then .ok () t else .error (.fatal r) t := by
  simp only [awaitLoop, bind_apply, setPollScript, modify_apply, h, require_apply]

/-- A test that says no in a state, whatever its events and its poll script, and adds events only. -/
def SaysNo (test : Op Bool) (s : State) : Prop :=
  ∀ (l : List PollEvent) (ev : List BusEvent), ∃ ev',
    test { s with pollScript := l, events := ev } = .ok false { s with pollScript := l, events := ev' }

theorem awaitLoop_reads {test : Op Bool} {r : FatalReason} {s : State} (ht : SaysNo test s) (k n : Nat)
    (l : List PollEvent) (ev : List BusEvent) : ∃ ev',
      awaitLoop test r (List.replicate k .read ++ l) (n + k) { s with events := ev } =
        awaitLoop test r l n { s with events := ev' } := by
  induction k generalizing ev with
  | zero => exact ⟨ev, rfl⟩
  | succ k ih =>
    obtain ⟨ev1, h1⟩ := ht s.pollScript ev
    obtain ⟨ev2, h2⟩ := ih ev1
    refine ⟨ev2, ?_⟩
    rw [List.replicate_succ, List.cons_append, ← Nat.add_assoc, awaitLoop_read h1, if_neg (by decide)]
    exact h2

/-- A poll that the device does not answer ends in the caller's fault, after reads only (R161, log entry 3). -/
theorem awaitLoop_fails {test : Op Bool} {r : FatalReason} {s : State} {script rest : List PollEvent} {bound : Nat}
    (ht : SaysNo test s) (h : PollFails script bound rest) : ∃ ev,
      awaitLoop test r script bound s = .error (.fatal r) { s with pollScript := rest, events := ev } := by
  rcases h with ⟨k, hk, rfl⟩ | rfl | ⟨rfl, k, hk, rfl⟩
  · obtain ⟨m, rfl⟩ : ∃ m, bound = (m + 1) + k := ⟨bound - k - 1, by omega⟩
    obtain ⟨ev, h⟩ := awaitLoop_reads (r := r) ht k (m + 1) (.timeout :: rest) s.events
    exact ⟨ev, h.trans awaitLoop_timeout⟩
  · obtain ⟨ev, h⟩ := awaitLoop_reads (r := r) ht bound 0 rest s.events
    rw [Nat.zero_add] at h
    exact ⟨ev, h.trans awaitLoop_bound⟩
  · obtain ⟨m, rfl⟩ : ∃ m, bound = (m + 1) + k := ⟨bound - k - 1, by omega⟩
    obtain ⟨ev, h⟩ := awaitLoop_reads (r := r) ht k (m + 1) [] s.events
    rw [List.append_nil] at h
    obtain ⟨ev', h'⟩ := ht [] ev
    exact ⟨ev', h.trans ((awaitLoop_end (b := false) h').trans (if_neg (by decide)))⟩

theorem saysNo_field {s : State} {e : Engine} (h : s.dev.noCommand e = false) : SaysNo (readFieldIsNop e) s :=
  fun l ev => ⟨_, (readFieldIsNop_apply { s with pollScript := l, events := ev } e).trans (by rw [h]; rfl)⟩

theorem saysNo_cuIdle {s : State} (h : s.dev.unitState .cu ≠ .idle) : SaysNo readCuIdle s := fun l ev => by
  refine ⟨State.statusRead { s with pollScript := l, events := ev } :: ev, ?_⟩
  rw [Device.unitState] at h
  simp only [readCuIdle, bind_apply, readUnitCode_apply, pure_apply, beq_eq_false_iff_ne.mpr h]
  rfl

theorem saysNo_statsDone {s : State} (h : s.word s.statsDoneAddr ≠ s.config.dumpMagic) : SaysNo readStatsDone s :=
  fun l ev => by
    refine ⟨.memRead .block s.statsDoneAddr 4 :: ev, ?_⟩
    have : (State.word { s with pollScript := l, events := ev } s.statsDoneAddr == s.config.dumpMagic) = false :=
      beq_eq_false_iff_ne.mpr h
    simp only [readStatsDone, bind_apply, get_apply, readWord, pure_apply]
    exact congrArg (EStateM.Result.ok · _) this

/-- Some reads of SCB_CMD that still find the command pending. -/
def State.pendingReads (s : State) (k : Nat) : State :=
  { s with events := List.replicate k (cmdRead s.base s.config s.dev) ++ s.events }

theorem pendingReads_succ (s : State) (k : Nat) : (s.event (cmdRead s.base s.config s.dev)).pendingReads k = s.pendingReads (k + 1) := by
  show ({ s with events := _ } : State) = { s with events := _ }
  rw [List.replicate_succ']
  simp

theorem awaitField_pending {s : State} {e : Engine} {r : FatalReason} (h : s.dev.noCommand e = false) (k n : Nat)
    (rest : List PollEvent) :
    awaitLoop (readFieldIsNop e) r (List.replicate k .read ++ rest) (n + k) s =
      awaitLoop (readFieldIsNop e) r rest n (s.pendingReads k) := by
  induction k generalizing s with
  | zero => rfl
  | succ k ih =>
    rw [List.replicate_succ, List.cons_append, ← Nat.add_assoc,
      awaitLoop_read (b := false) (t := s.event (cmdRead s.base s.config s.dev)) (by rw [readFieldIsNop_apply, h])]
    rw [if_neg (by decide), ih (s := s.event (cmdRead s.base s.config s.dev)) h, pendingReads_succ]

/-- The state in which the block waits for the acceptance of a command (R160): everything was checked, the
pointer and the code are written. -/
def State.issued (s : State) (cmd : EngineCommand) (a : BusAddr) (ri : Bool) : State :=
  { s with
    dev := s.dev.withCommand s.config.cmdCodes cmd a
    events := .portWrite (s.writePort .scbCmd) ((cmd.byte s.config.cmdCodes).setWidth 32) :: .portWrite (s.writePort .scbPtr) a ::
      cmdRead s.base s.config s.dev :: (if ri then [s.statusRead] else []) ++ s.events }

/-- The events of an accepted command, newest first: the read that sees the acceptance, `k` reads that find the
command pending, and what `State.issued` has. -/
def State.acceptedEvents (s : State) (cmd : EngineCommand) (a : BusAddr) (ri : Bool) (k : Nat) : List BusEvent :=
  cmdRead s.base s.config (cmd.effect a s.dev) ::
    (List.replicate k (cmdRead s.base s.config (s.dev.withCommand s.config.cmdCodes cmd a)) ++ (s.issued cmd a ri).events)

/-- The state after a command was accepted. -/
def State.accepted (s : State) (cmd : EngineCommand) (a : BusAddr) (ri : Bool) (k : Nat) (rest : List PollEvent) :
    State :=
  { s with dev := cmd.effect a s.dev, pollScript := rest, events := s.acceptedEvents cmd a ri k }

theorem checkIdle_ok {s : State} {e : Engine} {ri : Bool} (h : s.CanIssue e ri) :
    checkIdle e ri s = .ok () { s with events := (if ri then [s.statusRead] else []) ++ s.events } := by
  cases ri
  · rfl
  · have := h.idle rfl
    rw [Device.unitState] at this
    simp only [checkIdle, if_true, bind_apply, readUnitCode_apply, this, require_apply]
    rfl

theorem writeRegister_cmd (c : Config) (k : CmdCodes) (cmd : EngineCommand) (a : BusAddr) (d : Device) :
    Device.writeRegister c ((cmd.byte k).setWidth 32) { d with scbPtr := a } .scbCmd = d.withCommand k cmd a := by
  simp only [Device.writeRegister, setWidth_byte, Device.withCommand]

/-- `issue` of a command other than a dump, up to the poll. -/
theorem issue_start {s : State} {cmd : EngineCommand} {a : BusAddr} {ri : Bool} (hc : cmd ≠ .cuDumpStatistics)
    (h : s.CanIssue cmd.engine ri) :
    issue cmd a ri s =
      awaitLoop (readFieldIsNop cmd.engine) .cmdTimeout s.pollScript (s.pollBound cmd.engine) (s.issued cmd a ri) := by
  have hn := h.noCommand
  simp only [issue, bind_apply, checkIdle_ok h, readFieldIsNop_apply, hn, require_apply, if_true, prepareDump,
    get_apply, if_neg hc, pure_apply, portWrite_apply, awaitDevice, awaitDump]
  simp only [event_dev, event_config]
  rw [show Device.writeRegister s.config a s.dev .scbPtr = { s.dev with scbPtr := a } from rfl, writeRegister_cmd]
  generalize hx : awaitLoop (readFieldIsNop cmd.engine) _ _ _ _ = x
  generalize hy : awaitLoop (readFieldIsNop cmd.engine) _ _ _ _ = y
  have : x = y := by rw [← hx, ← hy]; rfl
  rw [this]
  cases y <;> rfl

theorem acceptMove_issued {s : State} {cmd : EngineCommand} {a : BusAddr} {ri : Bool} {k : Nat}
    (hc : s.config.cmdCodes.wf = true) (h : s.dev.noCommand cmd.engine = true) :
    deviceMove (.accept cmd.engine) ((s.issued cmd a ri).pendingReads k) =
      .ok () { (s.issued cmd a ri).pendingReads k with dev := cmd.effect a s.dev } := by
  rw [deviceMove, acceptMove_written (s := (s.issued cmd a ri).pendingReads k) (cmd := cmd) (a := a) (d := s.dev) hc rfl]
  rw [show ((s.issued cmd a ri).pendingReads k).dev = s.dev.withCommand s.config.cmdCodes cmd a from rfl,
    accept_written h]

theorem awaitField_accepted {s : State} {cmd : EngineCommand} {a : BusAddr} {ri : Bool} {k n : Nat}
    {rest : List PollEvent} (hc : s.config.cmdCodes.wf = true) (h : s.dev.noCommand cmd.engine = true) (hk : k < n) :
    awaitLoop (readFieldIsNop cmd.engine) .cmdTimeout (acceptedAfter cmd.engine k rest) n (s.issued cmd a ri) =
      .ok () (s.accepted cmd a ri k rest) := by
  obtain ⟨m, rfl⟩ : ∃ m, n = (m + 1) + k := ⟨n - k - 1, by omega⟩
  generalize hq : ({ (s.issued cmd a ri).pendingReads k with dev := cmd.effect a s.dev } : State) = q
  have hd : q.dev.noCommand cmd.engine = true := by rw [← hq]; exact (noCommand_effect cmd a s.dev _).trans h
  have hr : readFieldIsNop cmd.engine q = .ok true (q.event (cmdRead q.base q.config q.dev)) := by rw [readFieldIsNop_apply, hd]
  rw [acceptedAfter, awaitField_pending (noCommand_written hc), awaitLoop_move (acceptMove_issued hc h), hq,
    awaitLoop_read hr, if_pos rfl, ← hq]
  simp only [State.event, State.pendingReads, State.issued, State.accepted, State.acceptedEvents]

/-- An `issue` that the device accepts in time (R160). -/
theorem issue_accepted {s : State} {cmd : EngineCommand} {a : BusAddr} {ri : Bool} {k : Nat} {rest : List PollEvent}
    (hw : s.config.cmdCodes.wf = true) (hc : cmd ≠ .cuDumpStatistics) (h : s.CanIssue cmd.engine ri)
    (hp : s.pollScript = acceptedAfter cmd.engine k rest) (hk : k < s.pollBound cmd.engine) :
    issue cmd a ri s = .ok () (s.accepted cmd a ri k rest) := by
  rw [issue_start hc h, hp, awaitField_accepted hw h.noCommand hk]

/-- The same, without the events. -/
theorem issue_accepted' {s : State} {cmd : EngineCommand} {a : BusAddr} {ri : Bool} {k : Nat} {rest : List PollEvent}
    (hw : s.config.cmdCodes.wf = true) (hc : cmd ≠ .cuDumpStatistics) (h : s.CanIssue cmd.engine ri)
    (hp : s.pollScript = acceptedAfter cmd.engine k rest) (hk : k < s.pollBound cmd.engine) :
    ∃ ev, issue cmd a ri s = .ok () { s with dev := cmd.effect a s.dev, pollScript := rest, events := ev } :=
  ⟨(s.accepted cmd a ri k rest).events, issue_accepted hw hc h hp hk⟩

/-- An `issue` that the device does not accept (R160, R161). -/
theorem issue_timeout {s : State} {cmd : EngineCommand} {a : BusAddr} {ri : Bool} {rest : List PollEvent}
    (hw : s.config.cmdCodes.wf = true) (hc : cmd ≠ .cuDumpStatistics) (h : s.CanIssue cmd.engine ri)
    (hp : PollFails s.pollScript (s.pollBound cmd.engine) rest) :
    ∃ ev, issue cmd a ri s = .error (.fatal .cmdTimeout)
      { s with dev := s.dev.withCommand s.config.cmdCodes cmd a, pollScript := rest, events := ev } := by
  rw [issue_start hc h]
  exact awaitLoop_fails (s := s.issued cmd a ri) (saysNo_field (noCommand_written hw)) hp

/-- An engine that must be idle and is not (R160). -/
theorem issue_notIdle {s : State} {cmd : EngineCommand} {a : BusAddr} (h : s.dev.unitState cmd.engine ≠ .idle) :
    issue cmd a true s = .error (.fatal .notIdle) (s.event (s.statusRead)) := by
  rw [Device.unitState] at h
  simp only [issue, bind_apply, checkIdle, if_true, readUnitCode_apply, require_apply]
  rw [if_neg (by simpa using h)]

/-- A field that is not NOP (R160, R171). -/
theorem issue_cmdBusy {s : State} {cmd : EngineCommand} {a : BusAddr} {ri : Bool}
    (hi : ri = true → s.dev.unitState cmd.engine = .idle) (h : s.dev.noCommand cmd.engine = false) :
    ∃ ev, issue cmd a ri s = .error (.fatal .cmdBusy) { s with events := ev } := by
  refine ⟨cmdRead s.base s.config s.dev :: (if ri then [s.statusRead] else []) ++ s.events, ?_⟩
  have hci : checkIdle cmd.engine ri s = .ok () { s with events := (if ri then [s.statusRead] else []) ++ s.events } := by
    cases ri
    · rfl
    · have := hi rfl
      rw [Device.unitState] at this
      simp only [checkIdle, if_true, bind_apply, readUnitCode_apply, this, require_apply]
      rfl
  simp only [issue, bind_apply, hci, readFieldIsNop_apply, h, require_apply]
  rfl

end Sys2Proof.Machine
end

