-- ==== Sys2Proof/Laws/Descriptor.lean ====
section
/-! SUPPORT. What the pieces that write descriptors do: one descriptor of `rx_init` and of `tx_init`, both
initialisations, `write_slot`. -/

namespace Sys2Proof.Machine

theorem rxAddrOf_apply {s : State} {i : Nat} (h : i < s.rxAddr.length) : rxAddrOf i s = .ok (s.rxSlot i) s := by
  simp only [rxAddrOf, bind_apply, get_apply, List.getElem?_eq_getElem h, pure_apply, State.rxSlot,
    List.getD_eq_getElem _ _ h]

theorem txAddrOf_apply {s : State} {i : Nat} (h : i < s.txAddr.length) : txAddrOf i s = .ok (s.txSlot i) s := by
  simp only [txAddrOf, bind_apply, get_apply, List.getElem?_eq_getElem h, pure_apply, State.txSlot,
    List.getD_eq_getElem _ _ h]

theorem rxAddrOf_eq (s : State) (i : Nat) :
    rxAddrOf i s = if i < s.rxAddr.length then .ok (s.rxSlot i) s else .error (.fault .ringIndex) s := by
  split
  · exact rxAddrOf_apply (by assumption)
  · simp only [rxAddrOf, bind_apply, get_apply, List.getElem?_eq_none (Nat.le_of_not_lt (by assumption)), stop_apply]

theorem txAddrOf_eq (s : State) (i : Nat) :
    txAddrOf i s = if i < s.txAddr.length then .ok (s.txSlot i) s else .error (.fault .ringIndex) s := by
  split
  · exact txAddrOf_apply (by assumption)
  · simp only [txAddrOf, bind_apply, get_apply, List.getElem?_eq_none (Nat.le_of_not_lt (by assumption)), stop_apply]

/-- The header of a descriptor fits (R65, R66). -/
theorem State.Laid.rx_header {s : State} (h : s.Laid) {i : Nat} (hi : i < s.config.nRx) :
    (s.rxSlot i).toNat + 12 ≤ 2 ^ 32 := by
  have := h.rx_fits hi; have := descriptorSize_ge s.config; omega

theorem State.Laid.tx_header {s : State} (h : s.Laid) {i : Nat} (hi : i < s.config.nTx) :
    (s.txSlot i).toNat + 12 ≤ 2 ^ 32 := by
  have := h.tx_fits hi; have := descriptorSize_ge s.config; omega

theorem nextIdx_lt {n i : Nat} (h : 0 < n) : nextIdx n i < n := Nat.mod_lt _ h

/-- One descriptor of `rx_init`: its header is written, nothing else. -/
theorem rxInitSlot_ok {s : State} (h : s.Laid) {i : Nat} (hi : i < s.config.nRx) :
    ∃ m ev, rxInitSlot i s = .ok () { s with mem := m, events := ev } ∧
      State.RxFresh { s with mem := m, events := ev } i ∧
      ∀ x, inSpan (s.rxSlot i) 12 x = false → ({ s with mem := m, events := ev } : State).byteAt x = s.byteAt x := by
  have hi' : i < s.rxAddr.length := by rw [h.rxLen]; exact hi
  have hn : nextIdx s.config.nRx i < s.rxAddr.length := by rw [h.rxLen]; exact nextIdx_lt (by omega)
  have hA := h.rx_header hi
  generalize hA' : s.rxSlot i = A at hA
  generalize hL : s.rxSlot (nextIdx s.config.nRx i) = L
  generalize ht : ((((s.store .block (A + offStatus) (leBytes 2 (0 : Half).toNat)).store .block
    (A + offReceivedLength) (leBytes 2 (0 : Half).toNat)).store .block (A + offCapacity)
    (leBytes 2 (BitVec.ofNat 16 s.config.bufSize).toNat)).store .block (A + offLink) (leBytes 4 L.toNat)).store .block
    (A + offCommand) (leBytes 2 (rxCommandWord (i + 1 == s.config.nRx)).toNat) = t
  have hte : t = { s with mem := t.mem, events := t.events } := by rw [← ht]; simp only [State.store]
  refine ⟨t.mem, t.events, ?_, ?_⟩
  · rw [← hte, ← ht]
    simp only [rxInitSlot, bind_apply, get_apply, rxAddrOf_eq, if_pos hi', hA', writeHalf_apply, store_rxAddr,
      if_pos hn, store_rxSlot, hL, writeWord_apply]
  · rw [← hte]
    have hs : t.rxSlot i = A := by rw [← hA', hte]; rfl
    have hl : t.rxSlot (nextIdx t.config.nRx i) = L := by rw [← hL, hte]; rfl
    have hb : t.config = s.config := by rw [hte]
    refine ⟨⟨?_, ?_, ?_, ?_, ?_⟩, ?_⟩
    · unfold State.rxStatus; rw [hs, ← ht]
      rw [half_store_off hA, half_store_off hA, half_store_off hA, half_store_off hA, half_store_same] <;> simp <;> omega
    · unfold State.rxLength; rw [hs, ← ht]
      rw [half_store_off hA, half_store_off hA, half_store_off hA, half_store_same] <;> simp <;> omega
    · unfold State.rxCapacity; rw [hs, hb, ← ht]
      rw [half_store_off hA, half_store_off hA, half_store_same] <;> simp <;> omega
    · unfold State.rxLink; rw [hs, hl, ← ht]
      rw [word_store_off hA, word_store_same] <;> simp <;> omega
    · unfold State.rxCommand; rw [hs, hb, ← ht]
      rw [half_store_same]
    · intro x hx
      rw [← ht]
      rw [byteAt_store_other, byteAt_store_other, byteAt_store_other, byteAt_store_other, byteAt_store_other] <;>
        exact outside_sub hA (by simp only [length_leBytes]; decide) hx

/-- One descriptor of `tx_init`: its header is written, nothing else. -/
theorem txInitSlot_ok {s : State} (h : s.Laid) {i : Nat} (hi : i < s.config.nTx) :
    ∃ m ev, txInitSlot i s = .ok () { s with mem := m, events := ev } ∧
      State.TxFresh { s with mem := m, events := ev } i ∧
      ({ s with mem := m, events := ev } : State).byteAt (s.txSlot i + offReserved) = 0 ∧
      ∀ x, inSpan (s.txSlot i) 12 x = false → ({ s with mem := m, events := ev } : State).byteAt x = s.byteAt x := by
  have hi' : i < s.txAddr.length := by rw [h.txLen]; exact hi
  have hn : nextIdx s.config.nTx i < s.txAddr.length := by rw [h.txLen]; exact nextIdx_lt (by omega)
  have hA := h.tx_header hi
  generalize hA' : s.txSlot i = A at hA
  generalize hL : s.txSlot (nextIdx s.config.nTx i) = L
  generalize ht : (((((s.store .block (A + offStatus) (leBytes 2 (0 : Half).toNat)).store .block
    (A + offByteCount) (leBytes 2 (0 : Half).toNat)).store .block (A + offThresh) [0]).store .block
    (A + offReserved) [0]).store .block (A + offLink) (leBytes 4 L.toNat)).store .block
    (A + offCommand) (leBytes 2 (txCommandWord (i == 0) opNop).toNat) = t
  have hte : t = { s with mem := t.mem, events := t.events } := by rw [← ht]; simp only [State.store]
  refine ⟨t.mem, t.events, ?_, ?_⟩
  · rw [← hte, ← ht]
    simp only [txInitSlot, bind_apply, get_apply, txAddrOf_eq, if_pos hi', hA', writeHalf_apply, writeByte_apply,
      store_txAddr, if_pos hn, store_txSlot, hL, writeWord_apply]
  · rw [← hte]
    have hs : t.txSlot i = A := by rw [← hA', hte]; rfl
    have hl : t.txSlot (nextIdx t.config.nTx i) = L := by rw [← hL, hte]; rfl
    refine ⟨⟨?_, ?_, ?_, ?_, ?_⟩, ?_, ?_⟩
    · unfold State.txStatus; rw [hs, ← ht]
      rw [half_store_off hA, half_store_off hA, half_store_off hA, half_store_off hA, half_store_off hA, half_store_same] <;> simp <;> omega
    · unfold State.txByteCount; rw [hs, ← ht]
      rw [half_store_off hA, half_store_off hA, half_store_off hA, half_store_off hA, half_store_same] <;> simp <;> omega
    · unfold State.txThresh; rw [hs, ← ht]
      rw [byte_store_off hA, byte_store_off hA, byte_store_off hA, byteAt_store_same] <;> simp <;> omega
    · unfold State.txLink; rw [hs, hl, ← ht]
      rw [word_store_off hA, word_store_same] <;> simp <;> omega
    · unfold State.txCommand; rw [hs, ← ht]
      rw [half_store_same]
    · rw [← ht]
      rw [byte_store_off hA, byte_store_off hA, byteAt_store_same] <;> simp <;> omega
    · intro x hx
      rw [← ht]
      rw [byteAt_store_other, byteAt_store_other, byteAt_store_other, byteAt_store_other, byteAt_store_other,
        byteAt_store_other] <;>
      exact outside_sub hA (by first | decide | (simp only [length_leBytes]; decide)) hx

/-! ### Fresh descriptors stay fresh while their header does -/

theorem State.RxFresh.of_same {s t : State} {i : Nat} (h : s.RxFresh i) (ha : t.rxAddr = s.rxAddr)
    (hc : t.config = s.config) (hA : (s.rxSlot i).toNat + 12 ≤ 2 ^ 32) (hb : SameBytes s t (s.rxSlot i) 12) :
    t.RxFresh i := by
  have hs : ∀ j, t.rxSlot j = s.rxSlot j := fun j => by simp only [State.rxSlot, ha]
  refine ⟨?_, ?_, ?_, ?_, ?_⟩
  · rw [State.rxStatus, hs, hb.half hA (by decide)]; exact h.status
  · rw [State.rxLength, hs, hb.half hA (by decide)]; exact h.length
  · rw [State.rxCapacity, hs, hb.half hA (by decide), hc]; exact h.capacity
  · rw [State.rxLink, hs, hs, hb.word hA (by decide), hc]; exact h.link
  · rw [State.rxCommand, hs, hb.half hA (by decide), hc]; exact h.command

theorem State.TxFresh.of_same {s t : State} {i : Nat} (h : s.TxFresh i) (ha : t.txAddr = s.txAddr)
    (hc : t.config = s.config) (hA : (s.txSlot i).toNat + 12 ≤ 2 ^ 32) (hb : SameBytes s t (s.txSlot i) 12) :
    t.TxFresh i := by
  have hs : ∀ j, t.txSlot j = s.txSlot j := fun j => by simp only [State.txSlot, ha]
  refine ⟨?_, ?_, ?_, ?_, ?_⟩
  · rw [State.txStatus, hs, hb.half hA (by decide)]; exact h.status
  · rw [State.txByteCount, hs, hb.half hA (by decide)]; exact h.byteCount
  · rw [State.txThresh, hs, hb.byte hA (by decide)]; exact h.thresh
  · rw [State.txLink, hs, hs, hb.word hA (by decide), hc]; exact h.link
  · rw [State.txCommand, hs, hb.half hA (by decide)]; exact h.command

/-- Laid-out states that agree on parameters and caches. -/
theorem State.Laid.of_eq {s t : State} (h : s.Laid) (hc : t.config = s.config) (h1 : t.rxAddr = s.rxAddr)
    (h2 : t.txAddr = s.txAddr) (h3 : t.statsAddr = s.statsAddr) (h4 : t.cfgAddr = s.cfgAddr) : t.Laid := by
  obtain ⟨a, b, c⟩ := h
  exact ⟨by rw [h1, hc, a], by rw [h2, hc, b], by rw [hc, h1, h2, h3, h4, c]⟩

theorem State.Laid.apart_rx {s : State} (h : s.Laid) {i j : Nat} (hi : i < s.config.nRx) (hj : j < s.config.nRx)
    (hij : i ≠ j) : Apart (s.rxSlot i) 12 (s.rxSlot j) 12 := by
  have := h.rx_header hi; have := h.rx_header hj; have := h.rx_rx hi hj hij; have := descriptorSize_ge s.config
  exact apart_of_nat (by omega) (by omega) (by omega)

theorem State.Laid.apart_tx {s : State} (h : s.Laid) {i j : Nat} (hi : i < s.config.nTx) (hj : j < s.config.nTx)
    (hij : i ≠ j) : Apart (s.txSlot i) 12 (s.txSlot j) 12 := by
  have := h.tx_header hi; have := h.tx_header hj; have := h.tx_tx hi hj hij; have := descriptorSize_ge s.config
  exact apart_of_nat (by omega) (by omega) (by omega)

/-! ### The initialisations -/

theorem rxInitLoop_ok {s : State} (h : s.Laid) (count i : Nat) (hi : i + count ≤ s.config.nRx) :
    ∃ m ev, rxInitLoop i count s = .ok () { s with mem := m, events := ev } ∧
      (∀ j, i ≤ j → j < i + count → State.RxFresh { s with mem := m, events := ev } j) ∧
      ∀ x, (∀ j, i ≤ j → j < i + count → inSpan (s.rxSlot j) 12 x = false) →
        ({ s with mem := m, events := ev } : State).byteAt x = s.byteAt x := by
  induction count generalizing s i with
  | zero => exact ⟨s.mem, s.events, rfl, fun j _ _ => by omega, fun _ _ => rfl⟩
  | succ count ih =>
    obtain ⟨m1, e1, h1, f1, b1⟩ := rxInitSlot_ok h (i := i) (by omega)
    obtain ⟨m2, e2, h2, f2, b2⟩ := ih (s := { s with mem := m1, events := e1 })
      (h.of_eq rfl rfl rfl rfl rfl) (i + 1) (by show _ ≤ s.config.nRx; omega)
    refine ⟨m2, e2, ?_, ?_, ?_⟩
    · simp only [rxInitLoop, bind_apply, h1]; exact h2
    · intro j hij hj
      by_cases hji : j = i
      · subst hji
        refine f1.of_same rfl rfl (h.rx_header (i := j) (by omega)) ?_
        intro x hx
        apply b2
        intro l hl hl'
        exact h.apart_rx (i := l) (j := j) (by omega) (by omega) (by omega) x hx
      · exact f2 j (by omega) (by omega)
    · intro x hx
      refine (b2 x fun j hj hj' => hx j (by omega) (by omega)).trans (b1 x (hx i (by omega) (by omega)))

theorem txInitLoop_ok {s : State} (h : s.Laid) (count i : Nat) (hi : i + count ≤ s.config.nTx) :
    ∃ m ev, txInitLoop i count s = .ok () { s with mem := m, events := ev } ∧
      (∀ j, i ≤ j → j < i + count → State.TxFresh { s with mem := m, events := ev } j) ∧
      ∀ x, (∀ j, i ≤ j → j < i + count → inSpan (s.txSlot j) 12 x = false) →
        ({ s with mem := m, events := ev } : State).byteAt x = s.byteAt x := by
  induction count generalizing s i with
  | zero => exact ⟨s.mem, s.events, rfl, fun j _ _ => by omega, fun _ _ => rfl⟩
  | succ count ih =>
    obtain ⟨m1, e1, h1, f1, -, b1⟩ := txInitSlot_ok h (i := i) (by omega)
    obtain ⟨m2, e2, h2, f2, b2⟩ := ih (s := { s with mem := m1, events := e1 })
      (h.of_eq rfl rfl rfl rfl rfl) (i + 1) (by show _ ≤ s.config.nTx; omega)
    refine ⟨m2, e2, ?_, ?_, ?_⟩
    · simp only [txInitLoop, bind_apply, h1]; exact h2
    · intro j hij hj
      by_cases hji : j = i
      · subst hji
        refine f1.of_same rfl rfl (h.tx_header (i := j) (by omega)) ?_
        intro x hx
        apply b2
        intro l hl hl'
        exact h.apart_tx (i := l) (j := j) (by omega) (by omega) (by omega) x hx
      · exact f2 j (by omega) (by omega)
    · intro x hx
      refine (b2 x fun j hj hj' => hx j (by omega) (by omega)).trans (b1 x (hx i (by omega) (by omega)))

/-- `rx_init` (R145): every RX descriptor is fresh, `rx_head` is 0, and no byte outside the headers changes. -/
theorem rxInit_ok {s : State} (h : s.Laid) :
    ∃ m ev, rxInit s = .ok () { s with mem := m, rxHead := 0, events := ev } ∧
      (∀ j, j < s.config.nRx → State.RxFresh { s with mem := m, rxHead := 0, events := ev } j) ∧
      ∀ x, (∀ j, j < s.config.nRx → inSpan (s.rxSlot j) 12 x = false) →
        ({ s with mem := m, rxHead := 0, events := ev } : State).byteAt x = s.byteAt x := by
  obtain ⟨m, ev, h1, f, b⟩ := rxInitLoop_ok h s.config.nRx 0 (by omega)
  refine ⟨m, ev, ?_, fun j hj => ?_, fun x hx => b x fun j _ hj => hx j (by omega)⟩
  · simp only [rxInit, bind_apply, get_apply, h1, modify_apply]
  · obtain ⟨f1, f2, f3, f4, f5⟩ := f j (by omega) (by omega)
    exact ⟨f1, f2, f3, f4, f5⟩

/-- `tx_init` (R146): every TX descriptor is fresh, the ring is idle at slot 0, and no byte outside the headers
changes. -/
theorem txInit_ok {s : State} (h : s.Laid) :
    ∃ m ev, txInit s = .ok () { s with mem := m, txHead := 0, txTail := 0, txIdle := true, events := ev } ∧
      (∀ j, j < s.config.nTx →
        State.TxFresh { s with mem := m, txHead := 0, txTail := 0, txIdle := true, events := ev } j) ∧
      ∀ x, (∀ j, j < s.config.nTx → inSpan (s.txSlot j) 12 x = false) →
        ({ s with mem := m, txHead := 0, txTail := 0, txIdle := true, events := ev } : State).byteAt x = s.byteAt x := by
  obtain ⟨m, ev, h1, f, b⟩ := txInitLoop_ok h s.config.nTx 0 (by omega)
  refine ⟨m, ev, ?_, fun j hj => ?_, fun x hx => b x fun j _ hj => hx j (by omega)⟩
  · simp only [txInit, bind_apply, get_apply, h1, modify_apply]
  · obtain ⟨f1, f2, f3, f4, f5⟩ := f j (by omega) (by omega)
    exact ⟨f1, f2, f3, f4, f5⟩

/-! ### write_slot -/

/-- `write_slot` (R137): five fields of one descriptor; the link, the reserved byte and the bytes of the buffer
beyond the frame are left alone. -/
theorem writeSlot_ok {s : State} (h : s.Laid) {k : Nat} (hk : k < s.config.nTx) {frame : Frame}
    (hf : frame.length ≤ s.config.bufSize) :
    ∃ m ev, writeSlot k frame s = .ok () { s with mem := m, events := ev } ∧
      (let t : State := { s with mem := m, events := ev }
       t.txStatus k = 0 ∧ t.txByteCount k = byteCountWord frame.length ∧ t.txThresh k = s.txThreshold ∧
       t.txBuffer k frame.length = frame ∧ t.txCommand k = txCommandWord true opTx ∧
       ∀ x, inSpan (s.txSlot k) 4 x = false → inSpan (s.txSlot k + offByteCount) 3 x = false →
        inSpan (s.txSlot k + offBuffer) frame.length x = false → t.byteAt x = s.byteAt x) := by
  have hk' : k < s.txAddr.length := by rw [h.txLen]; exact hk
  have hW := h.tx_fits hk
  have hD := descriptorSize_ge s.config
  generalize hA' : s.txSlot k = A at hW
  generalize ht : ((((s.store .block (A + offStatus) (leBytes 2 (0 : Half).toNat)).store .block
    (A + offByteCount) (leBytes 2 (byteCountWord frame.length).toNat)).store .block (A + offThresh)
    [s.txThreshold]).store .block (A + offBuffer) frame).store .block
    (A + offCommand) (leBytes 2 (txCommandWord true opTx).toNat) = t
  have hte : t = { s with mem := t.mem, events := t.events } := by rw [← ht]; simp only [State.store]
  refine ⟨t.mem, t.events, ?_, ?_⟩
  · rw [← hte, ← ht]
    simp only [writeSlot, bind_apply, get_apply, txAddrOf_apply hk', hA', writeHalf_apply, writeByte_apply,
      writeBuffer_apply]
  · rw [← hte]
    have hs : t.txSlot k = A := by rw [← hA', hte]; rfl
    have hA : A.toNat + (12 + frame.length) ≤ 2 ^ 32 := by omega
    refine ⟨?_, ?_, ?_, ?_, ?_, ?_⟩
    · unfold State.txStatus; rw [hs, ← ht]
      rw [half_store_off hA, half_store_off hA, half_store_off hA, half_store_off hA, half_store_same] <;> simp <;> omega
    · unfold State.txByteCount; rw [hs, ← ht]
      rw [half_store_off hA, half_store_off hA, half_store_off hA, half_store_same] <;> simp <;> omega
    · unfold State.txThresh; rw [hs, ← ht]
      rw [byte_store_off hA, byte_store_off hA, byteAt_store_same] <;> simp <;> omega
    · unfold State.txBuffer; rw [hs, ← ht]
      rw [readBytes_store_off hA, readBytes_store_same (by omega)] <;> simp <;> omega
    · unfold State.txCommand; rw [hs, ← ht]
      rw [half_store_same]
    · intro x h1 h2 h3
      have g1 : inSpan (A + offStatus) 2 x = false := outside_sub (W := 4) (by omega) (by decide) h1
      have g2 : inSpan (A + offCommand) 2 x = false := outside_sub (W := 4) (by omega) (by decide) h1
      have e8' : (A + offByteCount).toNat = A.toNat + 8 := by rw [toNat_add_of (by rw [toNat_offByteCount]; omega), toNat_offByteCount]
      have g3 : inSpan (A + offByteCount) 2 x = false := by
        have := outside_sub (A := A + offByteCount) (k := 0) (W := 3) (n := 2) (by omega) (by decide) h2
        simpa using this
      have g4 : inSpan (A + offThresh) 1 x = false := by
        have := outside_sub (A := A + offByteCount) (k := 2) (W := 3) (n := 1) (by omega) (by decide) h2
        rwa [BitVec.add_assoc] at this
      rw [← ht]
      rw [byteAt_store_other, byteAt_store_other, byteAt_store_other, byteAt_store_other, byteAt_store_other] <;>
        first | exact g1 | exact g2 | exact g3 | exact g4 | exact h3

end Sys2Proof.Machine
end

