-- ==== Sys2Proof/Laws/Place.lean ====
section
/-! SUPPORT. What an address is to an engine, where the device may write, and the whole effect of each of its accesses. -/

namespace Sys2Proof.Machine

theorem inSpan_mono {a x : BusAddr} {n m : Nat} (h : inSpan a n x = true) (hm : n ≤ m) : inSpan a m x = true := by
  simp only [inSpan, decide_eq_true_eq] at h ⊢; omega

/-! ### Where the device may write -/

section
variable {s : State} {a : BusAddr}

theorem mem_deviceSpans_rx (h : a ∈ s.rxAddr) :
    (a + offStatus, 2) ∈ s.deviceSpans ∧ (a + offReceivedLength, 2) ∈ s.deviceSpans ∧
      (a + offBuffer, s.config.bufSize) ∈ s.deviceSpans := by
  simp only [State.deviceSpans, List.mem_append, List.mem_flatMap]
  exact ⟨.inl (.inl ⟨a, h, by simp⟩), .inl (.inl ⟨a, h, by simp⟩), .inl (.inl ⟨a, h, by simp⟩)⟩

theorem mem_deviceSpans_tx (h : a ∈ s.txAddr) : (a + offStatus, 2) ∈ s.deviceSpans := by
  simp only [State.deviceSpans, List.mem_append, List.mem_map]
  exact .inl (.inr ⟨a, h, rfl⟩)

theorem mem_deviceSpans_stats : (s.statsAddr, 4 * s.config.statsWords + 4) ∈ s.deviceSpans := by
  simp [State.deviceSpans]

theorem mem_deviceSpans_cfg : (s.cfgAddr, s.config.cfgBlockLen) ∈ s.deviceSpans := by
  simp [State.deviceSpans]

end

/-- What the device may write lies in one of its spans. -/
theorem deviceMayWrite_span {s : State} {a x : BusAddr} {n : Nat} (h : s.deviceMayWrite a n = true)
    (hx : inSpan a n x = true) : ∃ r ∈ s.deviceSpans, inSpan r.1 r.2 x = true := by
  simp only [State.deviceMayWrite, List.any_eq_true, decide_eq_true_eq] at h
  obtain ⟨r, hr, hn⟩ := h
  refine ⟨r, hr, ?_⟩
  simp only [inSpan, decide_eq_true_eq] at hx ⊢
  have := BitVec.toNat_sub x r.1
  have h2 := BitVec.toNat_sub x a
  have h3 := BitVec.toNat_sub a r.1
  have := x.isLt; have := a.isLt; have := r.1.isLt
  omega

/-- A span of the device, or a part at its start. -/
theorem deviceMayWrite_of_mem {s : State} {a : BusAddr} {n m : Nat} (h : (a, m) ∈ s.deviceSpans) (hn : n ≤ m) :
    s.deviceMayWrite a n = true := by
  simp only [State.deviceMayWrite, List.any_eq_true, decide_eq_true_eq]
  exact ⟨_, h, by simpa using hn⟩

section
variable {s : State} {a : BusAddr} {n : Nat}

theorem deviceMayWrite_rxStatus (h : a ∈ s.rxAddr) : s.deviceMayWrite (a + offStatus) 2 = true :=
  deviceMayWrite_of_mem (mem_deviceSpans_rx h).1 (Nat.le_refl _)

theorem deviceMayWrite_rxLength (h : a ∈ s.rxAddr) : s.deviceMayWrite (a + offReceivedLength) 2 = true :=
  deviceMayWrite_of_mem (mem_deviceSpans_rx h).2.1 (Nat.le_refl _)

theorem deviceMayWrite_rxBuffer (h : a ∈ s.rxAddr) (hn : n ≤ s.config.bufSize) :
    s.deviceMayWrite (a + offBuffer) n = true :=
  deviceMayWrite_of_mem (mem_deviceSpans_rx h).2.2 hn

theorem deviceMayWrite_txStatus (h : a ∈ s.txAddr) : s.deviceMayWrite (a + offStatus) 2 = true :=
  deviceMayWrite_of_mem (mem_deviceSpans_tx h) (Nat.le_refl _)

end

/-! ### What an address is to an engine -/

section
variable {s : State} {e : Engine} {a : BusAddr}

theorem inSpan_self {n : Nat} (h : 0 < n) : inSpan a n a = true := by simpa [inSpan] using h

theorem inRegions_rx (h : a ∈ s.rxAddr) : s.inRegions a = true := by
  simp only [State.inRegions, regionsOf, List.any_append, List.any_map, Bool.or_eq_true, List.any_eq_true]
  exact .inl (.inl ⟨a, h, inSpan_self (by simp only [descriptorSize, headerSize]; omega)⟩)

theorem inRegions_tx (h : a ∈ s.txAddr) : s.inRegions a = true := by
  simp only [State.inRegions, regionsOf, List.any_append, List.any_map, Bool.or_eq_true, List.any_eq_true]
  exact .inl (.inr ⟨a, h, inSpan_self (by simp only [descriptorSize, headerSize]; omega)⟩)

theorem inRegions_cfg (h : 0 < s.config.cfgBlockLen) : s.inRegions s.cfgAddr = true := by
  simp only [State.inRegions, regionsOf, List.any_append, Bool.or_eq_true, List.any_cons, inSpan_self h]
  simp

theorem inRegions_ring (h : a ∈ s.ring e ∨ a ∈ s.otherRing e) : s.inRegions a = true := by
  cases e <;> rcases h with h | h <;> first | exact inRegions_rx h | exact inRegions_tx h

theorem placeOf_own (h : a ∈ s.ring e) : s.placeOf e a = .own := by
  rw [State.placeOf, if_pos (List.contains_iff_mem.mpr h)]

theorem placeOf_other (h : a ∉ s.ring e) (h' : a ∈ s.otherRing e) : s.placeOf e a = .other := by
  rw [State.placeOf, if_neg (by simpa using h), if_pos (List.contains_iff_mem.mpr h')]

theorem placeOf_block (h : s.cfgAddr ∉ s.ring e) (h' : s.cfgAddr ∉ s.otherRing e) : s.placeOf e s.cfgAddr = .block := by
  rw [State.placeOf, if_neg (by simpa using h), if_neg (by simpa using h'), if_pos rfl]

theorem placeOf_elsewhere (h : a ∉ s.ring e) (h' : a ∉ s.otherRing e) (hc : a ≠ s.cfgAddr) (hr : s.inRegions a = true) :
    s.placeOf e a = .elsewhere := by
  rw [State.placeOf, if_neg (by simpa using h), if_neg (by simpa using h'), if_neg hc, if_pos hr]

/-- An address of no region is outside, unless the configuration block is empty. -/
theorem placeOf_outside (hl : 0 < s.config.cfgBlockLen) (hr : s.inRegions a = false) : s.placeOf e a = .outside := by
  have h : ¬ (a ∈ s.ring e ∨ a ∈ s.otherRing e) := fun h => by rw [inRegions_ring h] at hr; cases hr
  have hc : a ≠ s.cfgAddr := fun h => by rw [h, inRegions_cfg hl] at hr; cases hr
  rw [State.placeOf, if_neg (by simpa using fun h1 => h (.inl h1)), if_neg (by simpa using fun h1 => h (.inr h1)),
    if_neg hc, if_neg (by rw [hr]; exact Bool.false_ne_true)]

/-- An address of a region is not outside. -/
theorem placeOf_ne_outside (hr : s.inRegions a = true) : s.placeOf e a ≠ .outside := by
  unfold State.placeOf
  rw [if_pos hr]
  repeat' split
  all_goals decide

/-- Where there is no descriptor. -/
theorem placeOf_noDescriptor (h : a ∉ s.ring e) (h' : a ∉ s.otherRing e) :
    (s.placeOf e a).isDescriptor = false ∧ s.placeOf e a ≠ .own := by
  unfold State.placeOf
  rw [if_neg (by simpa using h), if_neg (by simpa using h')]
  repeat' split
  all_goals exact ⟨rfl, by decide⟩

end

/-! ### The accesses -/

section
variable (s : State) (a : BusAddr)

@[simp] theorem readField_apply (there : Bool) : readField there a s =
    .ok (if there then s.half a else (Config.absentField s.events.length).setWidth 16)
      (s.event (.memRead .device a 2)) := rfl

@[simp] theorem readLink_apply (there : Bool) : readLink there a s =
    .ok (if there then s.word a else Config.absentField s.events.length) (s.event (.memRead .device a 4)) := rfl

/-- A frame is read from the buffer as far as that has bytes; the rest are free. -/
@[simp] theorem readFrame_apply (there : Bool) (n : Nat) : readFrame there a n s =
    (let held := if there then min n s.config.bufSize else 0
    .ok (s.mem.readBytes a held ++ (List.range (n - held)).map (Config.absentByte s.events.length))
      (s.event (.memRead .device a held))) := rfl

@[simp] theorem writeOwned_apply (bs : List Byte) : writeOwned a bs s = .ok () (s.storeOwned a bs) := rfl

variable {s a}

theorem storeOwned_pos {bs : List Byte} (h : s.deviceMayWrite a bs.length = true) :
    s.storeOwned a bs = s.store .device a bs := if_pos h

theorem storeOwned_neg {bs : List Byte} (h : s.deviceMayWrite a bs.length = false) : s.storeOwned a bs = s :=
  if_neg (by rw [h]; exact Bool.false_ne_true)

/-- Of a state only memory and the event order can change. -/
theorem storeOwned_frame (bs : List Byte) :
    s.storeOwned a bs = { s with mem := (s.storeOwned a bs).mem, events := (s.storeOwned a bs).events } := by
  unfold State.storeOwned; split <;> rfl

end

end Sys2Proof.Machine
end

