-- ==== Sys2Proof/Laws/Operation.lean ====
section
/-! SUPPORT. What every operation keeps, whether it ends or raises a Fatal: the parameters, the agenda, the fault
state, the cached addresses, the append-only outputs, the canonical form of memory. The start-up sequence and the
hard phase keep less, and say what. -/

namespace Sys2Proof.Machine

/-! ### The precondition `started` -/

theorem requireStarted_run {α : Type} {s : State} (h : s.started = true) (f : Unit → Op α) :
    (requireStarted >>= f) s = f () s := by
  simp [h]

theorem requireStarted_stop {α : Type} {s : State} (h : s.started = false) (f : Unit → Op α) :
    (requireStarted >>= f) s = .error (.fatal .notStarted) s := by
  simp [h]

/-! ### An operation on the port, outcome by outcome -/

theorem runOperation_raised {op : Op OpResult} {s t : State} {r : FatalReason} (hf : s.fault = none)
    (ht : t.fault = none) (ho : op s = .error (.fatal r) t) : runOperation op s = .next { t with fault := some r } := by
  rw [runOperation_fatal hf ho, takeFatal_fault_none ht]

theorem run_notStarted {f : Unit → Op OpResult} {s : State} (hf : s.fault = none) (hs : s.started = false) :
    runOperation (requireStarted >>= f) s = .next { s with fault := some .notStarted } :=
  runOperation_raised hf hf (requireStarted_stop hs f)

theorem run_ok {f : Unit → Op OpResult} {s t : State} {x : OpResult} (h : s.Running) (ho : f () s = .ok x t) :
    runOperation (requireStarted >>= f) s = .next { t with results := t.results ++ [x] } :=
  runOperation_ok h.noFault ((requireStarted_run h.started f).trans ho)

theorem run_raised {f : Unit → Op OpResult} {s t : State} {r : FatalReason} (h : s.Running) (ht : t.fault = none)
    (ho : f () s = .error (.fatal r) t) :
    runOperation (requireStarted >>= f) s = .next { t with fault := some r } :=
  runOperation_raised h.noFault ht ((requireStarted_run h.started f).trans ho)

/-! ### A relation that an operation keeps -/

/-- The state an operation ends in, by its end or by a stop. -/
def endState {α : Type} : EStateM.Result Stop State α → State
  | .ok _ t => t
  | .error _ t => t

/-- From every state the operation ends in a related one. -/
def Keeps (R : State → State → Prop) {α : Type} (x : Op α) : Prop := ∀ s, R s (endState (x s))

section
variable {R : State → State → Prop} {α β : Type}

theorem Keeps.bind (ht : ∀ a b c, R a b → R b c → R a c) {x : Op α} {f : α → Op β} (hx : Keeps R x)
    (hf : ∀ a, Keeps R (f a)) : Keeps R (x >>= f) := by
  intro s
  have h1 := hx s
  rw [bind_apply]
  cases hxs : x s with
  | ok a t => rw [hxs] at h1; exact ht _ _ _ h1 (hf a t)
  | error e t => rw [hxs] at h1; exact h1

theorem Keeps.pure (hr : ∀ a, R a a) (a : α) : Keeps R (Pure.pure a : Op α) := fun s => hr s

theorem Keeps.get_bind {f : State → Op α} (h : ∀ s, R s (endState (f s s))) : Keeps R (get >>= f) := h

theorem Keeps.ite {c : Prop} [Decidable c] {x y : Op α} (hx : Keeps R x) (hy : Keeps R y) :
    Keeps R (if c then x else y) := by
  split
  · exact hx
  · exact hy

end

/-- What every operation but the start-up sequence and the hard phase keeps. -/
structure Kept (s t : State) : Prop where
  config : t.config = s.config
  pciBus : t.pciBus = s.pciBus
  busMap : t.busMap = s.busMap
  agenda : t.agenda = s.agenda
  fault : t.fault = s.fault
  started : t.started = s.started
  base : t.base = s.base
  irq : t.irq = s.irq
  rxAddr : t.rxAddr = s.rxAddr
  txAddr : t.txAddr = s.txAddr
  statsAddr : t.statsAddr = s.statsAddr
  cfgAddr : t.cfgAddr = s.cfgAddr
  hwAddr : t.hwAddr = s.hwAddr
  results : t.results = s.results
  eeWidth : s.eeWidth ≠ .unknown → t.eeWidth = s.eeWidth
  log : s.log <+: t.log
  replies : s.replies <+: t.replies
  reports : s.reports <+: t.reports
  wire : s.dev.wire <+: t.dev.wire
  events : s.events <:+ t.events
  fFr : t.fFr = true → s.fFr = true
  fRnr : t.fRnr = true → s.fRnr = true
  fSwi : t.fSwi = true → s.fSwi = true
  mem : s.mem.wf = true → t.mem.wf = true
  counters : s.dev.counters.length = s.config.statsWords → t.dev.counters.length = s.config.statsWords

theorem Kept.refl (s : State) : Kept s s := by
  constructor <;> first | rfl | exact fun h => h | exact List.prefix_refl _ | exact List.suffix_refl _ | exact fun _ => rfl

theorem Kept.trans (a b c : State) (h : Kept a b) (h' : Kept b c) : Kept a c where
  config := h'.config.trans h.config
  pciBus := h'.pciBus.trans h.pciBus
  busMap := h'.busMap.trans h.busMap
  agenda := h'.agenda.trans h.agenda
  fault := h'.fault.trans h.fault
  started := h'.started.trans h.started
  base := h'.base.trans h.base
  irq := h'.irq.trans h.irq
  rxAddr := h'.rxAddr.trans h.rxAddr
  txAddr := h'.txAddr.trans h.txAddr
  statsAddr := h'.statsAddr.trans h.statsAddr
  cfgAddr := h'.cfgAddr.trans h.cfgAddr
  hwAddr := h'.hwAddr.trans h.hwAddr
  results := h'.results.trans h.results
  eeWidth := fun hw => (h'.eeWidth (by rw [h.eeWidth hw]; exact hw)).trans (h.eeWidth hw)
  log := h.log.trans h'.log
  replies := h.replies.trans h'.replies
  reports := h.reports.trans h'.reports
  wire := h.wire.trans h'.wire
  events := h.events.trans h'.events
  fFr := fun x => h.fFr (h'.fFr x)
  fRnr := fun x => h.fRnr (h'.fRnr x)
  fSwi := fun x => h.fSwi (h'.fSwi x)
  mem := fun x => h'.mem (h.mem x)
  counters := fun x => by rw [← h.config]; exact h'.counters (by rw [h.config]; exact h.counters x)

/-! ### The pieces -/

section
variable {α β : Type}

theorem kept_bind {x : Op α} {f : α → Op β} (hx : Keeps Kept x) (hf : ∀ a, Keeps Kept (f a)) :
    Keeps Kept (x >>= f) := Keeps.bind Kept.trans hx hf

theorem kept_pure (a : α) : Keeps Kept (Pure.pure a : Op α) := Keeps.pure Kept.refl a

theorem kept_ite {c : Prop} [Decidable c] {x y : Op α} (hx : Keeps Kept x) (hy : Keeps Kept y) :
    Keeps Kept (if c then x else y) := Keeps.ite hx hy

theorem kept_get : Keeps Kept (get : Op State) := fun s => Kept.refl s

theorem kept_raise (r : FatalReason) : Keeps Kept (raise r : Op α) := fun s => Kept.refl s

theorem kept_stop (f : Fault) : Keeps Kept (stop f : Op α) := fun s => Kept.refl s

theorem kept_require (b : Bool) (r : FatalReason) : Keeps Kept (require b r) := kept_ite (kept_pure ()) (kept_raise r)

theorem kept_assume (b : Bool) (f : Fault) : Keeps Kept (assume b f) := kept_ite (kept_pure ()) (kept_stop f)

theorem kept_requireStarted : Keeps Kept requireStarted := kept_bind kept_get fun _ => kept_require _ _

theorem kept_modify {f : State → State} (h : ∀ s, Kept s (f s)) : Keeps Kept (modify f : Op Unit) := h

theorem kept_event (s : State) (e : BusEvent) : Kept s (s.event e) :=
  { Kept.refl s with events := List.suffix_cons _ _ }

theorem kept_store (s : State) (w : Agent) (a : BusAddr) (bs : List Byte) : Kept s (s.store w a bs) :=
  { Kept.refl s with events := List.suffix_cons _ _, mem := Memory.wf_writeBytes bs a }

theorem kept_readHalf (w : Agent) (a : BusAddr) : Keeps Kept (readHalf w a) := fun s => kept_event s _

theorem kept_readWord (w : Agent) (a : BusAddr) : Keeps Kept (readWord w a) := fun s => kept_event s _

theorem kept_readBuffer (w : Agent) (a : BusAddr) (n : Nat) : Keeps Kept (readBuffer w a n) := fun s => kept_event s _

theorem kept_writeBuffer (w : Agent) (a : BusAddr) (bs : List Byte) : Keeps Kept (writeBuffer w a bs) :=
  fun s => kept_store s w a bs

theorem kept_writeHalf (w : Agent) (a : BusAddr) (v : Half) : Keeps Kept (writeHalf w a v) := fun s => kept_store s w a _

theorem kept_writeByte (w : Agent) (a : BusAddr) (v : Byte) : Keeps Kept (writeByte w a v) := fun s => kept_store s w a _

theorem kept_writeWord (w : Agent) (a : BusAddr) (v : Word) : Keeps Kept (writeWord w a v) := fun s => kept_store s w a _

theorem kept_logEvent (e : LogEvent) : Keeps Kept (logEvent e) :=
  fun s => { Kept.refl s with log := List.prefix_append _ _ }

theorem kept_reply (c : Client) (v : Reply) : Keeps Kept (reply c v) :=
  fun s => { Kept.refl s with replies := List.prefix_append _ _ }

theorem kept_replyUnnamed (v : Reply) : Keeps Kept (replyUnnamed v) :=
  fun s => { Kept.refl s with replies := List.prefix_append _ _ }

end

/-! ### Ports and the device -/

theorem wire_writeSerCtl (c : Config) (v : Byte) (d : Device) : (d.writeSerCtl c v).wire = d.wire := rfl

theorem wire_writeRegister (c : Config) (v : Word) (d : Device) (r : WriteReg) :
    (d.writeRegister c v r).wire = d.wire := by
  cases r <;> simp only [Device.writeRegister]
  · rfl
  · split <;> rfl
  · simp only [Device.writeScbPort]; split <;> rfl
  · rfl

theorem counters_writeRegister (c : Config) (v : Word) (d : Device) (r : WriteReg) :
    (d.writeRegister c v r).counters = d.counters := by
  cases r <;> simp only [Device.writeRegister]
  · rfl
  · split <;> rfl
  · simp only [Device.writeScbPort]; split <;> rfl
  · rfl

theorem counters_afterRead (d : Device) (r : ReadReg) : (d.afterRead r).counters = d.counters := by
  cases r <;> simp only [Device.afterRead, Device.readSerCtl]
  split <;> rfl

theorem wire_afterRead (d : Device) (r : ReadReg) : (d.afterRead r).wire = d.wire := by
  cases r <;> simp only [Device.afterRead, Device.readSerCtl]
  split <;> rfl

theorem kept_portRead (r : ReadReg) : Keeps Kept (portRead r) := fun s =>
  { Kept.refl s with
    wire := by rw [show (endState (portRead r s)).dev = s.dev.afterRead r from rfl, wire_afterRead]
    counters := by rw [show (endState (portRead r s)).dev = s.dev.afterRead r from rfl, counters_afterRead]; exact id
    events := List.suffix_cons _ _ }

theorem kept_portWrite (r : WriteReg) (v : Word) : Keeps Kept (portWrite r v) := fun s =>
  { Kept.refl s with
    wire := by rw [show (endState (portWrite r v s)).dev = s.dev.writeRegister s.config v r from rfl, wire_writeRegister]
    counters := by
      rw [show (endState (portWrite r v s)).dev = s.dev.writeRegister s.config v r from rfl, counters_writeRegister]
      exact id
    events := List.suffix_cons _ _ }

theorem kept_readUnitCode (e : Engine) : Keeps Kept (readUnitCode e) :=
  kept_bind kept_get fun _ => kept_bind (kept_portRead _) fun _ => kept_pure _

theorem kept_readFieldIsNop (e : Engine) : Keeps Kept (readFieldIsNop e) :=
  kept_bind (kept_portRead _) fun _ => kept_pure _

theorem kept_modifyDevice {f : Device → Device} (h : ∀ d, d.wire <+: (f d).wire)
    (hc : ∀ d, (f d).counters = d.counters := by intro _; rfl) : Keeps Kept (modifyDevice f) :=
  fun s => { Kept.refl s with
    wire := h s.dev
    counters := fun x => by rw [show (endState (modifyDevice f s)).dev = f s.dev from rfl, hc]; exact x }

theorem kept_acceptMove (e : Engine) : Keeps Kept (acceptMove e) := by
  refine kept_bind kept_get fun s => ?_
  split
  iterate 5 exact kept_modifyDevice fun d => List.prefix_refl d.wire
  · exact kept_pure _
  · exact kept_stop _

theorem kept_readField (b : Bool) (a : BusAddr) : Keeps Kept (readField b a) :=
  kept_bind kept_get fun _ => kept_bind (kept_readHalf _ _) fun _ => kept_pure _

theorem kept_readLink (b : Bool) (a : BusAddr) : Keeps Kept (readLink b a) :=
  kept_bind kept_get fun _ => kept_bind (kept_readWord _ _) fun _ => kept_pure _

theorem kept_readFrame (b : Bool) (a : BusAddr) (n : Nat) : Keeps Kept (readFrame b a n) :=
  kept_bind kept_get fun _ => kept_bind (kept_readBuffer _ _ _) fun _ => kept_pure _

theorem kept_writeOwned (a : BusAddr) (bs : List Byte) : Keeps Kept (writeOwned a bs) :=
  fun s => by
    show Kept s (s.storeOwned a bs)
    unfold State.storeOwned
    split
    · exact kept_writeBuffer .device a bs s
    · exact Kept.refl s

theorem kept_cuFinish (b : Bool) (a : BusAddr) (el : Bool) : Keeps Kept (cuFinish b a el) :=
  kept_ite (kept_modifyDevice fun d => List.prefix_refl _)
    (kept_bind (kept_readLink _ _) fun _ => kept_modifyDevice fun d => List.prefix_refl _)

theorem kept_cuNop (el : Bool) (p : Place) (a : BusAddr) : Keeps Kept (cuNop el p a) :=
  kept_bind (kept_readField _ _) fun _ => kept_bind (kept_writeOwned _ _) fun _ => kept_cuFinish _ _ _

theorem kept_cuTransmit (el : Bool) (p : Place) (a : BusAddr) : Keeps Kept (cuTransmit el p a) :=
  kept_bind kept_get fun _ => kept_bind (kept_readField _ _) fun _ => kept_bind (kept_readFrame _ _ _) fun _ =>
    kept_bind (kept_modifyDevice fun d => List.prefix_append _ _) fun _ =>
    kept_bind (kept_writeOwned _ _) fun _ => kept_cuFinish _ _ _

theorem kept_cuExecute {body : Place → BusAddr → Op Unit} (h : ∀ p a, Keeps Kept (body p a)) :
    Keeps Kept (cuExecute body) :=
  kept_bind kept_get fun _ => kept_ite (kept_bind (kept_assume _ _) fun _ => h _ _) (kept_pure _)

theorem kept_cuConfigure (b : List Byte) : Keeps Kept (cuConfigure b) :=
  kept_bind kept_get fun _ => kept_bind (kept_readBuffer _ _ _) fun _ =>
    kept_bind (kept_modifyDevice fun d => List.prefix_refl _) fun _ =>
    kept_bind (kept_writeBuffer _ _ _) fun _ => kept_cuFinish _ _ _

theorem kept_cuFetchAndExecute : Keeps Kept cuFetchAndExecute := by
  refine kept_bind kept_get fun s => kept_bind (kept_readHalf _ _) fun _ => ?_
  split
  · exact kept_cuExecute fun p a => kept_cuNop _ p a
  · exact kept_cuExecute fun p a => kept_cuTransmit _ p a
  · exact kept_stop _

theorem kept_cuStepMove (v : Half) (b : List Byte) : Keeps Kept (cuStepMove v b) := by
  refine kept_bind (kept_modifyDevice fun d => List.prefix_refl _) fun _ => kept_bind kept_get fun s =>
    kept_ite ?_ (kept_pure _)
  split
  · exact kept_cuFetchAndExecute
  · exact kept_cuFetchAndExecute
  · exact kept_cuConfigure b
  · exact kept_cuFetchAndExecute
  · exact kept_stop _

theorem kept_ruFinish (b : Bool) (a : BusAddr) : Keeps Kept (ruFinish b a) :=
  kept_bind (kept_modifyDevice fun d => List.prefix_refl _) fun _ =>
    kept_bind (kept_readField _ _) fun _ => kept_ite (kept_modifyDevice fun d => List.prefix_refl _)
      (kept_bind (kept_readLink _ _) fun _ => kept_modifyDevice fun d => List.prefix_refl _)

theorem kept_ruFillDescriptor (p : Place) (a : BusAddr) (f : Frame) (v : Half) : Keeps Kept (ruFillDescriptor p a f v) :=
  kept_bind kept_get fun _ => kept_bind (kept_readField _ _) fun _ =>
    kept_bind (kept_writeOwned _ _) fun _ => kept_bind (kept_writeOwned _ _) fun _ =>
    kept_bind (kept_writeOwned _ _) fun _ => kept_ruFinish _ _

theorem kept_ruStepMove (f : Frame) (v : Half) : Keeps Kept (ruStepMove f v) :=
  kept_bind kept_get fun _ => kept_ite (kept_bind (kept_assume _ _) fun _ => kept_ruFillDescriptor _ _ _ _) (kept_pure _)

theorem kept_writeWords (w : Agent) (a : BusAddr) (l : List Word) : Keeps Kept (writeWords w a l) := by
  induction l generalizing a with
  | nil => exact kept_pure _
  | cons v l ih => exact kept_bind (kept_writeWord _ _ _) fun _ => ih _

theorem dumpCounters_length (c : Config) (l : List Word) : (dumpCounters c l).length = c.statsWords := by
  simp [dumpCounters]

theorem kept_dumpMove (l : List Word) : Keeps Kept (dumpMove l) := by
  intro s
  have hw : ∀ t : State, Kept t (endState ((do
      writeWords .device s.statsAddr (dumpCounters s.config l)
      writeWord .device s.statsDoneAddr s.config.dumpMagic : Op Unit) t)) :=
    kept_bind (kept_writeWords _ _ _) fun _ => kept_writeWord _ _ _
  simp only [dumpMove, bind_apply, get_apply]
  by_cases h : s.dev.dumpPending = true
  · rw [if_pos h]
    refine Kept.trans _ { s with dev := { s.dev with counters := dumpCounters s.config l, dumpPending := false } } _
      { Kept.refl s with counters := fun _ => dumpCounters_length _ _ } ?_
    exact hw _
  · rw [if_neg h]; exact Kept.refl s

theorem kept_deviceMove (m : DeviceMove) : Keeps Kept (deviceMove m) := by
  cases m with
  | accept e => exact kept_acceptMove e
  | cuStep v b => exact kept_cuStepMove v b
  | ruStep f v => exact kept_ruStepMove f v
  | linkChange v => exact kept_bind kept_get fun _ => kept_modifyDevice fun d => List.prefix_refl _
  | spurious b => exact kept_modifyDevice (f := (·.assertCause (unknownCauses b))) fun d => List.prefix_refl d.wire
  | dump l => exact kept_dumpMove l
  | drift e c =>
    cases e
    · exact kept_modifyDevice (f := fun d => { d with cuCode := c }) fun d => List.prefix_refl d.wire
    · exact kept_modifyDevice (f := fun d => { d with ruCode := c }) fun d => List.prefix_refl d.wire

/-! ### Descriptors and commands -/

theorem kept_rxAddrOf (i : Nat) : Keeps Kept (rxAddrOf i) := by
  refine kept_bind kept_get fun s => ?_
  split
  · exact kept_pure _
  · exact kept_stop _

theorem kept_txAddrOf (i : Nat) : Keeps Kept (txAddrOf i) := by
  refine kept_bind kept_get fun s => ?_
  split
  · exact kept_pure _
  · exact kept_stop _

theorem kept_rxInitLoop (i n : Nat) : Keeps Kept (rxInitLoop i n) := by
  induction n generalizing i with
  | zero => exact kept_pure _
  | succ n ih =>
    refine kept_bind ?_ fun _ => ih _
    exact kept_bind kept_get fun _ => kept_bind (kept_rxAddrOf _) fun _ => kept_bind (kept_writeHalf _ _ _) fun _ =>
      kept_bind (kept_writeHalf _ _ _) fun _ => kept_bind (kept_writeHalf _ _ _) fun _ =>
      kept_bind (kept_rxAddrOf _) fun _ => kept_bind (kept_writeWord _ _ _) fun _ => kept_writeHalf _ _ _

theorem kept_txInitLoop (i n : Nat) : Keeps Kept (txInitLoop i n) := by
  induction n generalizing i with
  | zero => exact kept_pure _
  | succ n ih =>
    refine kept_bind ?_ fun _ => ih _
    exact kept_bind kept_get fun _ => kept_bind (kept_txAddrOf _) fun _ => kept_bind (kept_writeHalf _ _ _) fun _ =>
      kept_bind (kept_writeHalf _ _ _) fun _ => kept_bind (kept_writeByte _ _ _) fun _ =>
      kept_bind (kept_writeByte _ _ _) fun _ =>
      kept_bind (kept_txAddrOf _) fun _ => kept_bind (kept_writeWord _ _ _) fun _ => kept_writeHalf _ _ _

theorem kept_rxInit : Keeps Kept rxInit :=
  kept_bind kept_get fun _ => kept_bind (kept_rxInitLoop _ _) fun _ => kept_modify fun s => { Kept.refl s with }

theorem kept_txInit : Keeps Kept txInit :=
  kept_bind kept_get fun _ => kept_bind (kept_txInitLoop _ _) fun _ => kept_modify fun s => { Kept.refl s with }

theorem kept_writeSlot (k : Nat) (f : Frame) : Keeps Kept (writeSlot k f) :=
  kept_bind kept_get fun _ => kept_bind (kept_txAddrOf _) fun _ => kept_bind (kept_writeHalf _ _ _) fun _ =>
    kept_bind (kept_writeHalf _ _ _) fun _ => kept_bind (kept_writeByte _ _ _) fun _ =>
    kept_bind (kept_writeBuffer _ _ _) fun _ => kept_writeHalf _ _ _

theorem kept_setPollScript (l : List PollEvent) : Keeps Kept (setPollScript l) :=
  kept_modify fun s => { Kept.refl s with }

theorem kept_awaitLoop {test : Op Bool} (h : Keeps Kept test) (r : FatalReason) (l : List PollEvent) (n : Nat) :
    Keeps Kept (awaitLoop test r l n) := by
  induction l generalizing n with
  | nil =>
    cases n with
    | zero => exact kept_bind (kept_setPollScript _) fun _ => kept_raise _
    | succ n => exact kept_bind (kept_setPollScript _) fun _ => kept_bind h fun _ => kept_require _ _
  | cons e l ih =>
    cases n with
    | zero => exact kept_bind (kept_setPollScript _) fun _ => kept_raise _
    | succ n =>
      cases e with
      | timeout => exact kept_bind (kept_setPollScript _) fun _ => kept_raise _
      | move m => exact kept_bind (kept_deviceMove m) fun _ => ih _
      | read => exact kept_bind h fun _ => kept_ite (kept_setPollScript _) (ih _)

theorem kept_awaitDevice {test : Op Bool} (h : Keeps Kept test) (n : Nat) (r : FatalReason) :
    Keeps Kept (awaitDevice test n r) := kept_bind kept_get fun _ => kept_awaitLoop h _ _ _

theorem kept_readStatsDone : Keeps Kept readStatsDone :=
  kept_bind kept_get fun _ => kept_bind (kept_readWord _ _) fun _ => kept_pure _

theorem kept_issue (cmd : EngineCommand) (a : BusAddr) (ri : Bool) : Keeps Kept (issue cmd a ri) :=
  kept_bind (kept_ite (kept_bind (kept_readUnitCode _) fun _ => kept_require _ _) (kept_pure _)) fun _ =>
  kept_bind (kept_readFieldIsNop _) fun _ => kept_bind (kept_require _ _) fun _ =>
  kept_bind (kept_bind kept_get fun _ =>
    kept_ite (kept_bind (kept_require _ _) fun _ => kept_writeWord _ _ _) (kept_pure _)) fun _ =>
  kept_bind kept_get fun _ => kept_bind (kept_portWrite _ _) fun _ => kept_bind (kept_portWrite _ _) fun _ =>
  kept_bind (kept_awaitDevice (kept_readFieldIsNop _) _ _) fun _ =>
  kept_bind kept_get fun _ => kept_ite (kept_awaitDevice kept_readStatsDone _ _) (kept_pure _)

theorem kept_issueOp (cmd : EngineCommand) (a : BusAddr) (ri : Bool) : Keeps Kept (issueOp cmd a ri) :=
  kept_bind kept_requireStarted fun _ => kept_bind (kept_issue _ _ _) fun _ => kept_pure _

theorem kept_applyConfig : Keeps Kept applyConfig :=
  kept_bind kept_get fun _ => kept_bind (kept_writeBuffer _ _ _) fun _ => kept_bind (kept_issue _ _ _) fun _ =>
    kept_bind (kept_awaitDevice (kept_bind (kept_readUnitCode _) fun _ => kept_pure _) _ _) fun _ =>
    kept_modify fun s => { Kept.refl s with }

theorem kept_restartRu : Keeps Kept restartRu :=
  kept_bind (kept_readUnitCode _) fun _ => kept_bind (kept_require _ _) fun _ => kept_bind kept_rxInit fun _ =>
    kept_bind (kept_rxAddrOf _) fun _ => kept_bind (kept_issue _ _ _) fun _ =>
    kept_modify fun s => { Kept.refl s with }

theorem kept_restartRuOp : Keeps Kept restartRuOp :=
  kept_bind kept_requireStarted fun _ => kept_bind kept_restartRu fun _ => kept_pure _

/-! ### Rings -/

theorem kept_rxPoll : Keeps Kept rxPoll :=
  kept_bind kept_get fun _ => kept_bind (kept_rxAddrOf _) fun _ => kept_bind (kept_readHalf _ _) fun _ =>
    kept_ite (kept_bind (kept_bind (kept_require _ _) fun _ => kept_bind (kept_readHalf _ _) fun _ =>
      kept_bind (kept_require _ _) fun _ => kept_bind (kept_readHalf _ _) fun _ =>
      kept_bind (kept_require _ _) fun _ => kept_readBuffer _ _ _) fun _ => kept_pure _) (kept_pure _)

theorem kept_rxRecycle (i : Nat) : Keeps Kept (rxRecycle i) :=
  kept_bind kept_get fun _ => kept_bind (kept_require _ _) fun _ => kept_bind (kept_rxAddrOf _) fun _ =>
    kept_bind (kept_readHalf _ _) fun _ => kept_bind (kept_require _ _) fun _ =>
    kept_bind (kept_writeHalf _ _ _) fun _ => kept_bind (kept_writeHalf _ _ _) fun _ =>
    kept_bind (kept_writeHalf _ _ _) fun _ => kept_bind (kept_rxAddrOf _) fun _ =>
    kept_bind (kept_readHalf _ _) fun _ => kept_bind (kept_require _ _) fun _ =>
    kept_bind (kept_writeHalf _ _ _) fun _ => kept_modify fun s => { Kept.refl s with }

theorem kept_clearOldEl (i : Nat) : Keeps Kept (clearOldEl i) :=
  kept_ite (kept_pure _) (kept_bind (kept_txAddrOf _) fun _ => kept_bind (kept_readHalf _ _) fun _ =>
    kept_writeHalf _ _ _)

theorem kept_txAppend (f : Frame) : Keeps Kept (txAppend f) :=
  kept_bind kept_get fun _ => kept_bind (kept_require _ _) fun _ => kept_ite
    (kept_bind kept_get fun _ => kept_bind (kept_writeSlot _ _) fun _ => kept_bind (kept_clearOldEl _) fun _ =>
      kept_bind (kept_modify fun s => { Kept.refl s with }) fun _ => kept_bind (kept_txAddrOf _) fun _ =>
      kept_bind (kept_issue _ _ _) fun _ => kept_pure _)
    (kept_bind kept_get fun _ => kept_ite (kept_pure _) (kept_bind (kept_writeSlot _ _) fun _ =>
      kept_bind (kept_txAddrOf _) fun _ => kept_bind (kept_writeHalf _ _ _) fun _ =>
      kept_bind (kept_modify fun s => { Kept.refl s with }) fun _ => kept_pure _))

theorem kept_drainLoop (i c n : Nat) : Keeps Kept (drainLoop i c n) := by
  induction n generalizing i c with
  | zero => exact kept_stop _
  | succ n ih =>
    refine kept_bind kept_get fun _ => kept_bind (kept_txAddrOf _) fun _ => kept_bind (kept_readHalf _ _) fun _ =>
      kept_ite ?_ (kept_pure _)
    refine kept_bind (kept_ite (kept_modify fun s => { Kept.refl s with }) (kept_pure _)) fun _ =>
      kept_bind (kept_readHalf _ _) fun _ => kept_ite ?_ (kept_bind (kept_require _ _) fun _ => ih _ _)
    exact kept_bind (kept_require _ _) fun _ => kept_bind (kept_modify fun s => { Kept.refl s with }) fun _ =>
      kept_pure _

theorem kept_txDrain : Keeps Kept txDrain :=
  kept_bind kept_get fun _ => kept_ite (kept_pure _) (kept_bind (kept_drainLoop _ _ _) fun _ =>
    kept_bind (kept_modify fun s => { Kept.refl s with }) fun _ => kept_pure _)

/-! ### Serial reads -/

theorem kept_driveLines (v : Byte) : Keeps Kept (driveLines v) :=
  kept_bind (kept_modify fun s => { Kept.refl s with }) fun _ => kept_bind (kept_portWrite _ _) fun _ =>
    kept_modify fun s => kept_event s _

theorem kept_driveLine (l : Byte) (b : Bool) : Keeps Kept (driveLine l b) :=
  kept_bind kept_get fun _ => kept_driveLines _

theorem kept_shiftOut (b : Bool) : Keeps Kept (shiftOut b) :=
  kept_bind (kept_driveLine _ _) fun _ => kept_bind (kept_driveLine _ _) fun _ => kept_driveLine _ _

theorem kept_readDo : Keeps Kept readDo := kept_bind (kept_portRead _) fun _ => kept_pure _

theorem kept_shiftIn : Keeps Kept shiftIn :=
  kept_bind (kept_driveLine _ _) fun _ => kept_bind kept_readDo fun _ => kept_bind (kept_driveLine _ _) fun _ =>
    kept_pure _

theorem kept_shiftOutAll (l : List Bool) : Keeps Kept (shiftOutAll l) := by
  induction l with
  | nil => exact kept_pure _
  | cons b l ih => exact kept_bind (kept_shiftOut _) fun _ => ih

theorem kept_shiftInWord (n : Nat) (d : Half) : Keeps Kept (shiftInWord n d) := by
  induction n generalizing d with
  | zero => exact kept_pure _
  | succ n ih => exact kept_bind kept_shiftIn fun _ => ih _

theorem kept_eeScan (w n : Nat) : Keeps Kept (eeScan w n) := by
  induction n generalizing w with
  | zero => exact kept_pure _
  | succ n ih => exact kept_bind (kept_shiftOut _) fun _ => kept_bind kept_readDo fun _ => kept_ite (ih _) (kept_pure _)

theorem kept_enterSerial : Keeps Kept enterSerial :=
  kept_bind kept_get fun _ => kept_bind (kept_require _ _) fun _ => kept_modify fun s => { Kept.refl s with }

theorem kept_leaveSerial : Keeps Kept leaveSerial := kept_modify fun s => { Kept.refl s with }

theorem kept_eeSelect : Keeps Kept eeSelect := kept_bind (kept_driveLines _) fun _ => kept_shiftOutAll _

theorem kept_eeDetectWidth : Keeps Kept eeDetectWidth := by
  refine kept_bind kept_eeSelect fun _ => kept_bind (kept_eeScan _ _) fun _ => ?_
  split
  · exact kept_bind kept_leaveSerial fun _ => kept_raise _
  · exact kept_bind (kept_shiftInWord _ _) fun _ => kept_bind (kept_driveLines _) fun _ => kept_pure _

theorem kept_ensureEeWidth : Keeps Kept ensureEeWidth := by
  intro s
  by_cases hu : s.eeWidth = .unknown
  · simp only [ensureEeWidth, bind_apply, get_apply, if_pos hu]
    have hk := kept_eeDetectWidth s
    cases hd : eeDetectWidth s with
    | error e t => rw [hd] at hk; exact hk
    | ok w t => rw [hd] at hk; exact { hk with eeWidth := fun h => absurd hu h }
  · simp only [ensureEeWidth, bind_apply, get_apply, if_neg hu]
    exact Kept.refl s

theorem kept_readEeprom (reg : Nat) : Keeps Kept (readEeprom reg) := by
  refine kept_bind kept_enterSerial fun _ => kept_bind kept_ensureEeWidth fun _ => kept_bind ?_ fun _ =>
    kept_bind ?_ fun _ => kept_bind kept_leaveSerial fun _ => kept_pure _
  · exact kept_bind kept_get fun _ => kept_ite (kept_pure _) (kept_bind kept_leaveSerial fun _ => kept_raise _)
  · exact kept_bind kept_get fun _ => kept_bind kept_eeSelect fun _ => kept_bind (kept_shiftOutAll _) fun _ =>
      kept_bind (kept_shiftInWord _ _) fun _ => kept_bind (kept_driveLines _) fun _ => kept_pure _

theorem kept_readPhy (reg : Nat) : Keeps Kept (readPhy reg) :=
  kept_bind kept_get fun _ => kept_bind kept_enterSerial fun _ => kept_bind (kept_driveLines _) fun _ =>
    kept_bind (kept_shiftOutAll _) fun _ => kept_bind (kept_driveLine _ _) fun _ => kept_bind kept_shiftIn fun _ =>
    kept_bind kept_shiftIn fun _ => kept_bind (kept_shiftInWord _ _) fun _ => kept_bind (kept_driveLines _) fun _ =>
    kept_bind kept_leaveSerial fun _ => kept_pure _

/-! ### Flow control, the deferred phase, the watchdog and the clients -/

theorem kept_armTx (r : TxRequest) : Keeps Kept (armTx r) :=
  kept_bind kept_get fun _ => kept_bind (kept_require _ _) fun _ => kept_modify fun s => { Kept.refl s with }

theorem kept_armRx (r : Client) : Keeps Kept (armRx r) :=
  kept_bind kept_get fun _ => kept_bind (kept_require _ _) fun _ => kept_modify fun s => { Kept.refl s with }

theorem kept_txService (r : TxRequest) : Keeps Kept (txService r) := by
  refine kept_bind (kept_txAppend _) fun res => ?_
  cases res with
  | ringFull => exact kept_bind (kept_armTx _) fun _ => kept_pure _
  | appended _ => exact kept_bind (kept_reply _ _) fun _ => kept_pure _

theorem kept_lazyRestart : Keeps Kept lazyRestart :=
  kept_bind kept_get fun _ => kept_ite
    (kept_bind (kept_readUnitCode _) fun _ => kept_ite kept_restartRu (kept_pure _)) (kept_pure _)

theorem kept_rxService (r : Client) : Keeps Kept (rxService r) := by
  refine kept_bind kept_rxPoll fun res => ?_
  cases res with
  | ready i f => exact kept_bind (kept_rxRecycle _) fun _ => kept_bind (kept_reply _ _) fun _ => kept_pure _
  | notReady => exact kept_bind kept_lazyRestart fun _ => kept_bind (kept_armRx _) fun _ => kept_pure _

theorem kept_replayTx : Keeps Kept replayTx := by
  refine kept_bind kept_get fun s => ?_
  split
  · exact kept_pure _
  · exact kept_bind (kept_modify fun s => { Kept.refl s with }) fun _ => kept_txService _

theorem kept_replayRx : Keeps Kept replayRx := by
  refine kept_bind kept_get fun s => ?_
  split
  · exact kept_pure _
  · exact kept_bind (kept_modify fun s => { Kept.refl s with }) fun _ => kept_rxService _

theorem kept_loadBasesAndConfigure : Keeps Kept loadBasesAndConfigure :=
  kept_bind (kept_issue _ _ _) fun _ => kept_bind (kept_issue _ _ _) fun _ => kept_applyConfig

theorem kept_startReceive : Keeps Kept startReceive :=
  kept_bind (kept_portWrite _ _) fun _ => kept_bind (kept_rxAddrOf _) fun _ => kept_issue _ _ _

theorem kept_deviceReset : Keeps Kept deviceReset :=
  kept_bind (kept_portWrite _ _) fun _ => kept_bind kept_txInit fun _ => kept_bind kept_rxInit fun _ =>
    kept_bind kept_loadBasesAndConfigure fun _ =>
    kept_bind (kept_modify fun s => { Kept.refl s with fRnr := (fun h => nomatch h) }) fun _ =>
    kept_bind kept_startReceive fun _ => kept_modify fun s => { Kept.refl s with }

theorem kept_txDeferred : Keeps Kept txDeferred := by
  refine kept_bind (kept_modify fun s => { Kept.refl s with }) fun _ => kept_bind kept_txDrain fun _ =>
    kept_bind (kept_bind kept_get fun _ => kept_ite kept_applyConfig (kept_pure _)) fun _ =>
    kept_bind ?_ fun _ => kept_bind kept_replayTx fun _ => kept_pure _
  exact kept_bind kept_get fun _ => kept_ite (kept_bind (kept_readUnitCode _) fun _ => kept_ite
    (kept_bind (kept_txAddrOf _) fun _ => kept_issue _ _ _)
    (kept_bind (kept_logEvent _) fun _ => kept_modify fun s => { Kept.refl s with })) (kept_pure _)

theorem kept_deferredReset : Keeps Kept deferredReset :=
  kept_bind kept_get fun _ => kept_ite (kept_bind kept_deviceReset fun _ =>
    kept_bind (kept_modify fun s => { Kept.refl s with }) fun _ => kept_bind kept_replayTx fun _ => kept_pure _)
    (kept_pure _)

theorem kept_deferredRx : Keeps Kept deferredRx :=
  kept_bind kept_get fun _ => kept_ite (kept_bind (kept_rxAddrOf _) fun _ => kept_bind (kept_readHalf _ _) fun _ =>
    kept_ite (kept_bind kept_replayRx fun _ => kept_pure _) (kept_pure _)) (kept_pure _)

theorem kept_deferredPhase : Keeps Kept deferredPhase := by
  refine kept_bind (kept_modify fun s => { Kept.refl s with fFr := (fun h => nomatch h), fSwi := (fun h => nomatch h) })
    fun _ => kept_bind kept_deferredReset fun _ => kept_bind kept_deferredRx fun _ =>
    kept_bind (kept_bind kept_get fun _ => kept_ite kept_txDeferred (kept_pure _)) fun _ =>
    kept_bind (kept_modify fun s => ?_) fun _ => kept_bind (kept_modify fun s => ?_) fun _ => kept_pure _
  · split
    · exact { Kept.refl s with fRnr := (fun h => nomatch h) }
    · exact Kept.refl s
  · split
    · exact { Kept.refl s with reports := List.prefix_append _ _, log := List.prefix_append _ _ }
    · exact Kept.refl s

theorem kept_watchdog : Keeps Kept watchdogTickOp := by
  refine kept_bind kept_requireStarted fun _ => kept_bind ?_ fun _ => kept_bind ?_ fun _ => kept_pure _
  · exact kept_bind kept_get fun _ => kept_ite (kept_pure _) (kept_bind
      (kept_bind kept_get fun _ => kept_readPhy _) fun _ => kept_ite (kept_pure _)
      (kept_bind kept_get fun _ => kept_bind (kept_logEvent _) fun _ =>
        kept_bind (kept_modify fun s => { Kept.refl s with }) fun _ => kept_portWrite _ _))
  · exact kept_bind kept_get fun _ => kept_ite (kept_modify fun s => { Kept.refl s with })
      (kept_ite (kept_modify fun s => { Kept.refl s with })
        (kept_bind (kept_modify fun s => { Kept.refl s with }) fun _ => kept_portWrite _ _))

theorem kept_configureOp (flags : ModeFlags) : Keeps Kept (configureOp flags) := by
  refine kept_bind kept_requireStarted fun _ => kept_bind (kept_modify fun s => { Kept.refl s with }) fun _ =>
    kept_bind kept_get fun _ => ?_
  split
  · exact kept_bind kept_applyConfig fun _ => kept_bind kept_get fun _ => kept_bind (kept_replyUnnamed _) fun _ =>
      kept_pure _
  · exact kept_bind (kept_modify fun s => { Kept.refl s with }) fun _ => kept_bind kept_get fun _ =>
      kept_bind (kept_replyUnnamed _) fun _ => kept_pure _

theorem kept_readWords (w : Agent) (a : BusAddr) (n : Nat) : Keeps Kept (readWords w a n) := by
  induction n generalizing a with
  | zero => exact kept_pure _
  | succ n ih => exact kept_bind (kept_readWord _ _) fun _ => kept_bind (ih _) fun _ => kept_pure _

/-! ### The operation port -/

/-- The operation of a request other than `on_interrupt` and `reset`. -/
def requestOp : Instr → Option (Op OpResult)
  | .rxPoll => some rxPollOp
  | .rxRecycle i => some (rxRecycleOp i)
  | .txAppend f => some (txAppendOp f)
  | .txDrain => some txDrainOp
  | .issueCuLoadBase ri a => some (issueOp .cuLoadBase a ri)
  | .issueRuLoadBase ri a => some (issueOp .ruLoadBase a ri)
  | .issueCuStart ri a => some (issueOp .cuStart a ri)
  | .issueRuStart ri a => some (issueOp .ruStart a ri)
  | .issueCuDumpStatistics ri a => some (issueOp .cuDumpStatistics a ri)
  | .restartRu => some restartRuOp
  | .onInterrupt => some onInterruptOp
  | .checkInterrupts => some checkInterruptsOp
  | .armTx c f => some (armTxOp c f)
  | .armRx c => some (armRxOp c)
  | .replayTx => some replayTxOp
  | .replayRx => some replayRxOp
  | .watchdogTick => some watchdogTickOp
  | .readEeprom r => some (readEepromOp r)
  | .readPhy r => some (readPhyOp r)
  | .configure f => some (configureOp f)
  | .transmit c f => some (transmitOp c f)
  | .receive c => some (receiveOp c)
  | .getStatistics c => some (getStatisticsOp c)
  | .reset => some resetOp
  | .scbCuNop => none
  | .scbCuStart => none
  | .scbCuDumpStatistics => none
  | .scbCuLoadBase => none
  | .scbRuNop => none
  | .scbRuStart => none
  | .scbRuLoadBase => none
  | .txdOpNop _ => none
  | .txdOpTx _ => none

theorem exec_request {i : Instr} {op : Op OpResult} (h : requestOp i = some op) (s : State) :
    exec i s = runOperation op s := by
  cases i <;> cases h <;> rfl

theorem requestOp_isSome {i : Instr} (h : i.isRequest = true) : ∃ op, requestOp i = some op := by
  cases i <;> first | exact ⟨_, rfl⟩ | cases h

/-- What an operation of the port keeps, the hard phase and the start-up sequence apart. -/
theorem kept_request {i : Instr} {op : Op OpResult} (h : requestOp i = some op) (h1 : i ≠ .onInterrupt)
    (h2 : i ≠ .reset) : Keeps Kept op := by
  cases i <;> cases h
  case rxPoll => exact kept_bind kept_requireStarted fun _ => kept_bind kept_rxPoll fun _ => kept_pure _
  case rxRecycle => exact kept_bind kept_requireStarted fun _ => kept_bind (kept_rxRecycle _) fun _ => kept_pure _
  case txAppend => exact kept_bind kept_requireStarted fun _ => kept_bind (kept_txAppend _) fun _ => kept_pure _
  case txDrain => exact kept_bind kept_requireStarted fun _ => kept_bind kept_txDrain fun _ => kept_pure _
  case issueCuLoadBase => exact kept_issueOp _ _ _
  case issueRuLoadBase => exact kept_issueOp _ _ _
  case issueCuStart => exact kept_issueOp _ _ _
  case issueRuStart => exact kept_issueOp _ _ _
  case issueCuDumpStatistics => exact kept_issueOp _ _ _
  case restartRu => exact kept_restartRuOp
  case onInterrupt => exact absurd rfl h1
  case checkInterrupts => exact kept_bind kept_requireStarted fun _ => kept_deferredPhase
  case armTx => exact kept_bind kept_requireStarted fun _ => kept_bind (kept_armTx _) fun _ => kept_pure _
  case armRx => exact kept_bind kept_requireStarted fun _ => kept_bind (kept_armRx _) fun _ => kept_pure _
  case replayTx => exact kept_bind kept_requireStarted fun _ => kept_replayTx
  case replayRx => exact kept_bind kept_requireStarted fun _ => kept_replayRx
  case watchdogTick => exact kept_watchdog
  case readEeprom => exact kept_bind kept_requireStarted fun _ => kept_bind (kept_readEeprom _) fun _ => kept_pure _
  case readPhy => exact kept_bind kept_requireStarted fun _ => kept_bind (kept_readPhy _) fun _ => kept_pure _
  case configure => exact kept_configureOp _
  case transmit =>
    exact kept_bind kept_requireStarted fun _ => kept_bind kept_get fun _ => kept_bind (kept_require _ _) fun _ =>
      kept_txService _
  case receive =>
    exact kept_bind kept_requireStarted fun _ => kept_bind kept_get fun _ => kept_bind (kept_require _ _) fun _ =>
      kept_rxService _
  case getStatistics =>
    exact kept_bind kept_requireStarted fun _ => kept_bind kept_get fun _ => kept_bind (kept_issue _ _ _) fun _ =>
      kept_bind (kept_readWords _ _ _) fun _ => kept_bind (kept_reply _ _) fun _ => kept_pure _
  case reset => exact absurd rfl h2

/-! ### The start-up sequence and the hard phase -/

/-- What the start-up sequence keeps until its last step, which sets `started`. -/
structure BootKept (s t : State) : Prop where
  config : t.config = s.config
  pciBus : t.pciBus = s.pciBus
  busMap : t.busMap = s.busMap
  agenda : t.agenda = s.agenda
  fault : t.fault = s.fault
  started : t.started = s.started
  results : t.results = s.results
  eeWidth : s.eeWidth ≠ .unknown → t.eeWidth = s.eeWidth
  log : s.log <+: t.log
  replies : s.replies <+: t.replies
  reports : s.reports <+: t.reports
  wire : s.dev.wire <+: t.dev.wire
  events : s.events <:+ t.events
  fFr : t.fFr = true → s.fFr = true
  fRnr : t.fRnr = true → s.fRnr = true
  fSwi : t.fSwi = true → s.fSwi = true
  mem : s.mem.wf = true → t.mem.wf = true
  counters : s.dev.counters.length = s.config.statsWords → t.dev.counters.length = s.config.statsWords

theorem Kept.boot {s t : State} (h : Kept s t) : BootKept s t := { h with }

theorem BootKept.refl (s : State) : BootKept s s := (Kept.refl s).boot

theorem BootKept.trans (a b c : State) (h : BootKept a b) (h' : BootKept b c) : BootKept a c where
  config := h'.config.trans h.config
  pciBus := h'.pciBus.trans h.pciBus
  busMap := h'.busMap.trans h.busMap
  agenda := h'.agenda.trans h.agenda
  fault := h'.fault.trans h.fault
  started := h'.started.trans h.started
  results := h'.results.trans h.results
  eeWidth := fun hw => (h'.eeWidth (by rw [h.eeWidth hw]; exact hw)).trans (h.eeWidth hw)
  log := h.log.trans h'.log
  replies := h.replies.trans h'.replies
  reports := h.reports.trans h'.reports
  wire := h.wire.trans h'.wire
  events := h.events.trans h'.events
  fFr := fun x => h.fFr (h'.fFr x)
  fRnr := fun x => h.fRnr (h'.fRnr x)
  fSwi := fun x => h.fSwi (h'.fSwi x)
  mem := fun x => h'.mem (h.mem x)
  counters := fun x => by rw [← h.config]; exact h'.counters (by rw [h.config]; exact h.counters x)

section
variable {α β : Type}

theorem boot_bind {x : Op α} {f : α → Op β} (hx : Keeps BootKept x) (hf : ∀ a, Keeps BootKept (f a)) :
    Keeps BootKept (x >>= f) := Keeps.bind BootKept.trans hx hf

theorem boot_of_kept {x : Op α} (h : Keeps Kept x) : Keeps BootKept x := fun s => (h s).boot

theorem boot_modify {f : State → State} (h : ∀ s, BootKept s (f s)) : Keeps BootKept (modify f : Op Unit) := h

end

theorem boot_checkMapped (a : Option BusAddr) : Keeps BootKept (checkMapped a) := by
  unfold checkMapped
  split
  · exact boot_of_kept (kept_raise _)
  · exact boot_of_kept (kept_bind (kept_require _ _) fun _ => kept_pure _)

theorem boot_mapRx (i n : Nat) : Keeps BootKept (mapRx i n) := by
  induction n generalizing i with
  | zero => exact boot_of_kept (kept_pure _)
  | succ n ih =>
    exact boot_bind (boot_of_kept kept_get) fun _ => boot_bind (boot_checkMapped _) fun _ =>
      boot_bind (boot_modify fun s => { BootKept.refl s with }) fun _ => ih _

theorem boot_mapTx (i n : Nat) : Keeps BootKept (mapTx i n) := by
  induction n generalizing i with
  | zero => exact boot_of_kept (kept_pure _)
  | succ n ih =>
    exact boot_bind (boot_of_kept kept_get) fun _ => boot_bind (boot_checkMapped _) fun _ =>
      boot_bind (boot_modify fun s => { BootKept.refl s with }) fun _ => ih _

theorem boot_mapRegions : Keeps BootKept mapRegions :=
  boot_bind (boot_of_kept kept_get) fun _ => boot_bind (boot_mapRx _ _) fun _ => boot_bind (boot_mapTx _ _) fun _ =>
    boot_bind (boot_checkMapped _) fun _ => boot_bind (boot_modify fun s => { BootKept.refl s with }) fun _ =>
    boot_bind (boot_checkMapped _) fun _ => boot_modify fun s => { BootKept.refl s with }

theorem boot_readHardwareAddress : Keeps BootKept readHardwareAddress :=
  boot_bind (boot_of_kept (kept_readEeprom _)) fun _ => boot_bind (boot_of_kept (kept_readEeprom _)) fun _ =>
    boot_bind (boot_of_kept (kept_readEeprom _)) fun _ => boot_modify fun s => { BootKept.refl s with }

theorem boot_initContext (s : State) : BootKept s (initContext s) :=
  { BootKept.refl s with fFr := (fun h => nomatch h), fRnr := (fun h => nomatch h), fSwi := (fun h => nomatch h) }

/-- The start-up sequence but for its last step. -/
def bootPrefix (f : PciFunction) : Op Half := do
  modify fun s => { s with base := f.base, irq := f.irq }
  let s ← get
  require (f.base.toNat % s.config.regSpan == 0) .badBar
  mapRegions
  portWrite .scbPort 2
  readHardwareAddress
  modify initContext
  txInit
  rxInit
  loadBasesAndConfigure
  startReceive
  clearPointer
  readPhyStatus

theorem bootSequence_eq (f : PciFunction) :
    bootSequence f = bootPrefix f >>= fun link =>
      modify fun s => { s with linkSnapshot := link, irqArmed := true, started := true } := by
  simp only [bootSequence, bootPrefix, bind_assoc]

theorem boot_prefix (f : PciFunction) : Keeps BootKept (bootPrefix f) :=
  boot_bind (boot_modify fun s => { BootKept.refl s with }) fun _ => boot_bind (boot_of_kept kept_get) fun _ =>
    boot_bind (boot_of_kept (kept_require _ _)) fun _ => boot_bind boot_mapRegions fun _ =>
    boot_bind (boot_of_kept (kept_portWrite _ _)) fun _ => boot_bind boot_readHardwareAddress fun _ =>
    boot_bind (boot_modify boot_initContext) fun _ => boot_bind (boot_of_kept kept_txInit) fun _ =>
    boot_bind (boot_of_kept kept_rxInit) fun _ => boot_bind (boot_of_kept kept_loadBasesAndConfigure) fun _ =>
    boot_bind (boot_of_kept kept_startReceive) fun _ =>
    boot_bind (boot_of_kept (kept_modifyDevice fun d => List.prefix_refl d.wire)) fun _ =>
    boot_of_kept (kept_bind kept_get fun _ => kept_readPhy _)

/-- The outcomes of `reset`. -/
theorem resetOp_cases (s : State) :
    (s.started = true ∧ resetOp s = .error (.fatal .precondition) s) ∨
    (s.started = false ∧ s.located = none ∧ resetOp s = .ok .absent s) ∨
    (∃ f link t, s.started = false ∧ s.located = some f ∧ bootPrefix f s = .ok link t ∧
      resetOp s = .ok .ok { t with linkSnapshot := link, irqArmed := true, started := true }) ∨
    (∃ f e t, s.started = false ∧ s.located = some f ∧ bootPrefix f s = .error e t ∧ resetOp s = .error e t) := by
  cases hs : s.started
  · right
    cases hl : s.located with
    | none => exact .inl ⟨rfl, rfl, by simp [resetOp, hs, hl]⟩
    | some f =>
      right
      cases hb : bootPrefix f s with
      | ok link t => exact .inl ⟨f, link, t, rfl, rfl, hb, by
        simp only [resetOp, bind_apply, get_apply, hs, hl, bootSequence_eq, hb, require_apply, modify_apply, pure_apply,
          Bool.not_false, if_true, hb]⟩
      | error e t => exact .inr ⟨f, e, t, rfl, rfl, hb, by
        simp only [resetOp, bind_apply, get_apply, hs, hl, bootSequence_eq, hb, require_apply, modify_apply, pure_apply,
          Bool.not_false, if_true, hb]⟩
  · exact .inl ⟨rfl, by simp [resetOp, hs]⟩

/-- The hard phase of a running block (R180). -/
theorem hardPhase_disarmed {s : State} (h : s.irqArmed = false) : hardPhase s = .ok .spurious s := by
  simp [hardPhase, h]

theorem hardPhase_armed {s : State} (h : s.irqArmed = true) :
    hardPhase s = .ok (.handled s.dev.scbIsr) { s with
      fFr := s.fFr || hasCause s.dev.scbIsr causeFr
      fCna := s.fCna || hasCause s.dev.scbIsr causeCna
      fRnr := s.fRnr || hasCause s.dev.scbIsr causeRnr
      fSwi := s.fSwi || hasCause s.dev.scbIsr causeSwi
      log := if unknownCauses s.dev.scbIsr = 0 then s.log else s.log ++ [.unknownCause (unknownCauses s.dev.scbIsr)]
      dev := { s.dev with scbIsr := 0 }
      events := .portWrite (s.writePort .scbIsr) (s.dev.scbIsr.setWidth 32) ::
        .portRead (s.readPort .scbIsr) (s.dev.scbIsr.setWidth 32) :: s.events } := by
  have hw : (BitVec.setWidth 32 s.dev.scbIsr).setWidth 8 = s.dev.scbIsr := by
    rw [BitVec.setWidth_setWidth_of_le _ (by decide), BitVec.setWidth_eq]
  have hz : s.dev.scbIsr &&& ~~~s.dev.scbIsr = 0 := by simp
  simp only [hardPhase, bind_apply, get_apply, h, if_true, modify_apply, portRead, Device.registerValue, hw, portWrite,
    Device.afterRead, Device.writeRegister, hz, logUnknown]
  by_cases hu : unknownCauses s.dev.scbIsr = 0
  · rw [if_pos hu, if_pos hu]
    simp only [pure_apply, modify_apply, setCauseFlags, State.writePort, State.readPort, ← h]
  · rw [if_neg hu, if_neg hu]
    simp only [logEvent_apply, modify_apply, setCauseFlags, State.writePort, State.readPort, ← h, pure_apply]

end Sys2Proof.Machine
end

