-- ==== Sys2Proof/Laws/Step.lean ====
section
/-! SUPPORT. What a step can be: nothing, one operation of the port, an illegal word, or one move of the device; and
what it keeps whichever it is. -/

namespace Sys2Proof.Machine

/-! ### A device input is its move -/

theorem runDevice_stop (f : Fault) (s : State) : runDevice (stop f) s = .fault f := rfl

theorem step_accept {s : State} {e : Engine} {rest : List Input} (h : s.agenda = .device (.accept e) :: rest) :
    step s = runDevice (acceptMove e) { s with agenda := rest } := by
  simp only [step, h, runInput, fetch, decode]
  have hp : State.pendingCommand { s with agenda := rest } e = decodeScbByte s.config.cmdCodes e (scbCmdByte s.dev) := rfl
  cases hd : decodeScbByte s.config.cmdCodes e (scbCmdByte s.dev) with
  | error r => simp only [runIllegal, runDevice, acceptMove, bind_apply, get_apply, hp, hd, stop_apply]
  | ok i =>
    have key : ∀ x : Op Unit, acceptMove e { s with agenda := rest } = x { s with agenda := rest } →
        runDevice (acceptMove e) { s with agenda := rest } = runDevice x { s with agenda := rest } := by
      intro x hx; unfold runDevice; rw [hx]
    have hi : i = .scbCuNop ∨ i = .scbCuStart ∨ i = .scbCuDumpStatistics ∨ i = .scbCuLoadBase ∨ i = .scbRuNop ∨
        i = .scbRuStart ∨ i = .scbRuLoadBase := by
      cases e
      · simp only [decodeScbByte, decodeCuCode] at hd
        (repeat' split at hd) <;> cases hd <;> simp
      · simp only [decodeScbByte, decodeRuCode] at hd
        (repeat' split at hd) <;> cases hd <;> simp
    rcases hi with rfl | rfl | rfl | rfl | rfl | rfl | rfl
    · exact (key (pure ()) (by simp only [acceptMove, bind_apply, get_apply, hp, hd])).symm
    · exact (key (modifyDevice acceptCuStart) (by simp only [acceptMove, bind_apply, get_apply, hp, hd])).symm
    · exact (key (modifyDevice acceptCuDumpStatistics) (by simp only [acceptMove, bind_apply, get_apply, hp, hd])).symm
    · exact (key (modifyDevice acceptCuLoadBase) (by simp only [acceptMove, bind_apply, get_apply, hp, hd])).symm
    · exact (key (pure ()) (by simp only [acceptMove, bind_apply, get_apply, hp, hd])).symm
    · exact (key (modifyDevice acceptRuStart) (by simp only [acceptMove, bind_apply, get_apply, hp, hd])).symm
    · exact (key (modifyDevice acceptRuLoadBase) (by simp only [acceptMove, bind_apply, get_apply, hp, hd])).symm

/-- Fetching and executing the command is executing it after the fetch. -/
theorem cuFetchAndExecute_apply (s : State) : cuFetchAndExecute s =
    (match decodeTxCommand s.cuCommand with
    | .ok (.txdOpNop el) => cuExecute (cuNop el)
    | .ok (.txdOpTx el) => cuExecute (cuTransmit el)
    | _ => stop .reservedDeviceCommand) (s.event (.memRead .device (s.dev.cuFetch + offCommand) 2)) := rfl

/-- A CU step where there is a command fetches and executes it. -/
theorem cuStepMove_command {s : State} {v : Half} {b : List Byte} (h : s.cuAtCommand = true) :
    cuStepMove v b s = cuFetchAndExecute { s with dev := { s.dev with cuDraw := v } } := by
  simp only [State.cuAtCommand, Bool.and_eq_true, beq_iff_eq] at h
  have hp : State.placeOf { s with dev := { s.dev with cuDraw := v } } .cu s.dev.cuFetch = s.placeOf .cu s.dev.cuFetch :=
    rfl
  simp only [cuStepMove, modifyDevice, bind_apply, modify_apply, get_apply, h.1, if_true, hp]
  cases hq : s.placeOf .cu s.dev.cuFetch <;> first | rfl | (rw [hq] at h; cases h.2)

theorem step_cuStep {s : State} {v : Half} {b : List Byte} {rest : List Input}
    (h : s.agenda = .device (.cuStep v b) :: rest) :
    step s = runDevice (cuStepMove v b) { s with agenda := rest } := by
  simp only [step, h, runInput, fetch]
  by_cases hc : State.cuAtCommand { s with agenda := rest } = true
  · rw [if_pos hc]
    simp only [decode]
    unfold runDevice
    rw [cuStepMove_command hc, cuFetchAndExecute_apply]
    have hcmd : State.cuCommand { s with agenda := rest, dev := { s.dev with cuDraw := v } } =
        State.cuCommand { s with agenda := rest } := rfl
    rw [hcmd]
    generalize hd : decodeTxCommand (State.cuCommand { s with agenda := rest }) = d
    cases d with
    | error r => rfl
    | ok i =>
      have hi : (∃ el, i = .txdOpNop el) ∨ ∃ el, i = .txdOpTx el := by
        unfold decodeTxCommand at hd
        split at hd <;> cases hd <;> simp
      rcases hi with ⟨el, rfl⟩ | ⟨el, rfl⟩ <;> rfl
  · rw [if_neg hc]; rfl

theorem step_device {s : State} {m : DeviceMove} {rest : List Input} (h : s.agenda = .device m :: rest) :
    step s = runDevice (deviceMove m) { s with agenda := rest } := by
  cases m with
  | accept e => exact step_accept h
  | cuStep v b => exact step_cuStep h
  | ruStep f v => simp only [step, h, runInput, fetch, runPlainInput]
  | linkChange v => simp only [step, h, runInput, fetch, runPlainInput]
  | spurious b => simp only [step, h, runInput, fetch, runPlainInput]
  | dump l => simp only [step, h, runInput, fetch, runPlainInput]
  | drift e c => simp only [step, h, runInput, fetch, runPlainInput]

/-! ### The outcomes of a step -/

theorem step_empty {s : State} (h : s.agenda = []) : step s = .next s := by simp only [step, h]

theorem step_request {s : State} {w : Word} {p : Payload} {rest : List Input} {i : Instr}
    (h : s.agenda = .request w p :: rest) (hd : decodeOpw w p = .ok i) : step s = exec i { s with agenda := rest } := by
  simp only [step, h, runInput, fetch, decode, hd, afterFetch]

theorem step_illegal {s : State} {w : Word} {p : Payload} {rest : List Input} {r : DecodeError}
    (h : s.agenda = .request w p :: rest) (hd : decodeOpw w p = .error r) :
    step s = illegalOperation { s with agenda := rest } := by
  simp only [step, h, runInput, fetch, decode, hd, runIllegal]

/-- Every step: no input; an operation; an illegal word; a device move. -/
theorem step_cases (s : State) :
    (s.agenda = [] ∧ step s = .next s) ∨
    (∃ w p rest i op, s.agenda = .request w p :: rest ∧ decodeOpw w p = .ok i ∧ requestOp i = some op ∧
      step s = runOperation op { s with agenda := rest }) ∨
    (∃ w p rest r, s.agenda = .request w p :: rest ∧ decodeOpw w p = .error r ∧
      step s = runOperation (raise .illegalOp) { s with agenda := rest }) ∨
    (∃ m rest, s.agenda = .device m :: rest ∧ step s = runDevice (deviceMove m) { s with agenda := rest }) := by
  cases h : s.agenda with
  | nil => exact .inl ⟨rfl, step_empty h⟩
  | cons input rest =>
    cases input with
    | device m => exact .inr (.inr (.inr ⟨m, rest, rfl, step_device h⟩))
    | request w p =>
      cases hd : decodeOpw w p with
      | error r => exact .inr (.inr (.inl ⟨w, p, rest, r, rfl, hd, step_illegal h hd⟩))
      | ok i =>
        obtain ⟨op, ho⟩ := requestOp_isSome (decodeOpw_cases hd).2.1
        exact .inr (.inl ⟨w, p, rest, i, op, rfl, hd, ho, (step_request h hd).trans (exec_request ho _)⟩)

/-- The outcomes of an operation of the port that answers a next state. -/
theorem runOperation_cases {op : Op OpResult} {s t : State} (h : runOperation op s = .next t) :
    (∃ r, s.fault = some r ∧ t = { s with results := s.results ++ [.refused] }) ∨
    (s.fault = none ∧ ∃ x u, op s = .ok x u ∧ t = { u with results := u.results ++ [x] }) ∨
    (s.fault = none ∧ ∃ r u, op s = .error (.fatal r) u ∧ t = takeFatal r u) := by
  unfold runOperation at h
  cases hf : s.fault with
  | some r => rw [hf] at h; cases h; exact .inl ⟨r, rfl, rfl⟩
  | none =>
    rw [hf] at h
    cases ho : op s with
    | ok x u => rw [ho] at h; cases h; exact .inr (.inl ⟨rfl, x, u, rfl, rfl⟩)
    | error e u =>
      rw [ho] at h
      cases e with
      | fatal r => cases h; exact .inr (.inr ⟨rfl, r, u, rfl, rfl⟩)
      | fault f => cases h

theorem takeFatal_keeps {u : State} {r r0 : FatalReason} (h : u.fault = some r0) :
    (takeFatal r u).fault = some r0 := by
  rw [takeFatal_fault_some h, h]

/-- The hard phase as an operation keeps what a step keeps. -/
theorem onInterrupt_cases (s : State) :
    (s.started = false ∧ onInterruptOp s = .error (.fatal .notStarted) s) ∨
    (s.started = true ∧ s.irqArmed = false ∧ onInterruptOp s = .ok .spurious s) ∨
    (s.started = true ∧ s.irqArmed = true ∧ onInterruptOp s = .ok (.handled s.dev.scbIsr) { s with
      fFr := s.fFr || hasCause s.dev.scbIsr causeFr
      fCna := s.fCna || hasCause s.dev.scbIsr causeCna
      fRnr := s.fRnr || hasCause s.dev.scbIsr causeRnr
      fSwi := s.fSwi || hasCause s.dev.scbIsr causeSwi
      log := if unknownCauses s.dev.scbIsr = 0 then s.log else s.log ++ [.unknownCause (unknownCauses s.dev.scbIsr)]
      dev := { s.dev with scbIsr := 0 }
      events := .portWrite (s.writePort .scbIsr) (s.dev.scbIsr.setWidth 32) ::
        .portRead (s.readPort .scbIsr) (s.dev.scbIsr.setWidth 32) :: s.events }) := by
  unfold onInterruptOp
  by_cases hs : s.started = true
  · rw [requireStarted_run hs]
    by_cases ha : s.irqArmed = true
    · exact .inr (.inr ⟨hs, ha, hardPhase_armed ha⟩)
    · have ha := Bool.eq_false_iff.mpr ha
      exact .inr (.inl ⟨hs, ha, hardPhase_disarmed ha⟩)
  · have hs := Bool.eq_false_iff.mpr hs
    exact .inl ⟨hs, requireStarted_stop hs _⟩

end Sys2Proof.Machine
end

