-- ==== Sys2Proof/Laws/Device.lean ====
section
/-! SUPPORT. What a device move can change: the device, the event order, and of memory only the spans the device may
write (R50, R262); the serial lines and their slaves are not moved. A device move raises no Fatal. -/

namespace Sys2Proof.Machine

/-- What one device move, or several, change at most; `sp` are the spans it may write. -/
structure Moved (sp : List (BusAddr × Nat)) (s t : State) : Prop where
  frame : t = { s with mem := t.mem, events := t.events, dev := t.dev }
  only : s.ChangesOnly t sp
  serCtl : t.dev.serCtl = s.dev.serCtl
  ee : t.dev.ee = s.dev.ee
  phy : t.dev.phy = s.dev.phy

theorem Moved.refl (sp : List (BusAddr × Nat)) (s : State) : Moved sp s s :=
  ⟨rfl, fun _ _ => rfl, rfl, rfl, rfl⟩

theorem Moved.trans {sp : List (BusAddr × Nat)} {a b c : State} (h : Moved sp a b) (h' : Moved sp b c) :
    Moved sp a c := by
  refine ⟨?_, fun x hx => (h'.only x hx).trans (h.only x hx), h'.serCtl.trans h.serCtl, h'.ee.trans h.ee,
    h'.phy.trans h.phy⟩
  rw [h'.frame, h.frame]

/-- Two states with the same parameters and the same cached addresses. -/
structure SameLayout (o s : State) : Prop where
  config : s.config = o.config
  rxAddr : s.rxAddr = o.rxAddr
  txAddr : s.txAddr = o.txAddr
  statsAddr : s.statsAddr = o.statsAddr
  cfgAddr : s.cfgAddr = o.cfgAddr

theorem Moved.layout {sp : List (BusAddr × Nat)} {o s t : State} (h : Moved sp s t) (ho : SameLayout o s) :
    SameLayout o t := by
  rw [h.frame]; exact ⟨ho.config, ho.rxAddr, ho.txAddr, ho.statsAddr, ho.cfgAddr⟩

/-- From a state laid out like `o`, the piece changes only what the device may write there, or stops the machine. -/
def Moves (o : State) {α : Type} (x : Op α) : Prop :=
  ∀ s, SameLayout o s →
    match x s with
    | .ok _ t => Moved o.deviceSpans s t
    | .error e _ => ∃ f, e = .fault f

section
variable {o : State} {α β : Type}

theorem moves_bind {x : Op α} {f : α → Op β} (hx : Moves o x) (hf : ∀ a, Moves o (f a)) : Moves o (x >>= f) := by
  intro s hs
  have h1 := hx s hs
  rw [bind_apply]
  cases hxs : x s with
  | error e t => rw [hxs] at h1; exact h1
  | ok a t =>
    rw [hxs] at h1
    simp only at h1 ⊢
    have h2 := hf a t (h1.layout hs)
    cases hft : f a t with
    | error e u => rw [hft] at h2; exact h2
    | ok b u => rw [hft] at h2; exact h1.trans h2

theorem moves_get_bind {f : State → Op β} (hf : ∀ s, SameLayout o s → Moves o (f s)) : Moves o (get >>= f) :=
  fun s hs => hf s hs s hs

theorem moves_pure (a : α) : Moves o (pure a : Op α) := fun s _ => Moved.refl _ s

theorem moves_stop (f : Fault) : Moves o (stop f : Op α) := fun _ _ => ⟨f, rfl⟩

theorem moves_ite {c : Prop} [Decidable c] {x y : Op α} (hx : c → Moves o x) (hy : ¬ c → Moves o y) :
    Moves o (if c then x else y) := by
  split
  · exact hx (by assumption)
  · exact hy (by assumption)

theorem moves_assume_bind {b : Bool} {f : Fault} {y : Unit → Op β} (hy : b = true → Moves o (y ())) :
    Moves o (assume b f >>= y) := by
  intro s hs
  cases b with
  | false => exact ⟨f, rfl⟩
  | true => exact hy rfl s hs

theorem moves_read_aux {x : Op α} (h : ∀ s, ∃ a e, x s = .ok a (s.event e)) : Moves o x := by
  intro s _
  obtain ⟨a, e, hx⟩ := h s
  rw [hx]
  exact ⟨rfl, fun _ _ => rfl, rfl, rfl, rfl⟩

theorem moves_readHalf (w : Agent) (a : BusAddr) : Moves o (readHalf w a) := moves_read_aux fun _ => ⟨_, _, rfl⟩

theorem moves_readWord (w : Agent) (a : BusAddr) : Moves o (readWord w a) := moves_read_aux fun _ => ⟨_, _, rfl⟩

theorem moves_readBuffer (w : Agent) (a : BusAddr) (n : Nat) : Moves o (readBuffer w a n) :=
  moves_read_aux fun _ => ⟨_, _, rfl⟩

theorem moves_modifyDevice {f : Device → Device}
    (h : ∀ d, (f d).serCtl = d.serCtl ∧ (f d).ee = d.ee ∧ (f d).phy = d.phy) : Moves o (modifyDevice f) :=
  fun s _ => ⟨rfl, fun _ _ => rfl, (h s.dev).1, (h s.dev).2.1, (h s.dev).2.2⟩

/-- A write inside one of the spans. -/
theorem moves_writeBuffer {w : Agent} {a : BusAddr} {bs : List Byte}
    (h : ∀ x, inSpan a bs.length x = true → ∃ r ∈ o.deviceSpans, inSpan r.1 r.2 x = true) : Moves o (writeBuffer w a bs) := by
  intro s _
  refine ⟨rfl, fun x hx => byteAt_store_other ?_, rfl, rfl, rfl⟩
  rw [Bool.eq_false_iff]
  intro hin
  obtain ⟨r, hr, hrx⟩ := h x hin
  rw [hx r hr] at hrx
  cases hrx

end

theorem SameLayout.deviceMayWrite {o s : State} (h : SameLayout o s) (a : BusAddr) (n : Nat) :
    s.deviceMayWrite a n = o.deviceMayWrite a n := by
  simp only [State.deviceMayWrite, State.deviceSpans, h.config, h.rxAddr, h.txAddr, h.statsAddr, h.cfgAddr]

/-! ### The moves -/

section
variable {o : State}

theorem moves_acceptMove (e : Engine) : Moves o (acceptMove e) := by
  refine moves_get_bind fun s _ => ?_
  split
  iterate 5 exact moves_modifyDevice fun d => ⟨rfl, rfl, rfl⟩
  · exact moves_pure _
  · exact moves_stop _

theorem moves_readField (b : Bool) (a : BusAddr) : Moves o (readField b a) := moves_read_aux fun _ => ⟨_, _, rfl⟩

theorem moves_readLink (b : Bool) (a : BusAddr) : Moves o (readLink b a) := moves_read_aux fun _ => ⟨_, _, rfl⟩

theorem moves_readFrame (b : Bool) (a : BusAddr) (n : Nat) : Moves o (readFrame b a n) :=
  moves_read_aux fun _ => ⟨_, _, rfl⟩

theorem moves_writeOwned (a : BusAddr) (bs : List Byte) : Moves o (writeOwned a bs) := by
  intro s hs
  rw [writeOwned_apply]
  by_cases hw : s.deviceMayWrite a bs.length = true
  · rw [storeOwned_pos hw]
    rw [hs.deviceMayWrite] at hw
    exact moves_writeBuffer (w := .device) (fun x hx => deviceMayWrite_span hw hx) s hs
  · rw [storeOwned_neg (Bool.eq_false_iff.mpr hw)]; exact Moved.refl _ s

theorem moves_cuFinish (b : Bool) (a : BusAddr) (el : Bool) : Moves o (cuFinish b a el) :=
  moves_ite (fun _ => moves_modifyDevice fun d => ⟨rfl, rfl, rfl⟩)
    fun _ => moves_bind (moves_readLink _ _) fun _ => moves_modifyDevice fun d => ⟨rfl, rfl, rfl⟩

theorem moves_cuNop (el : Bool) (p : Place) (a : BusAddr) : Moves o (cuNop el p a) :=
  moves_bind (moves_readField _ _) fun _ => moves_bind (moves_writeOwned _ _) fun _ => moves_cuFinish _ _ _

theorem moves_cuTransmit (el : Bool) (p : Place) (a : BusAddr) : Moves o (cuTransmit el p a) :=
  moves_get_bind fun _ _ => moves_bind (moves_readField _ _) fun _ => moves_bind (moves_readFrame _ _ _) fun _ =>
    moves_bind (moves_modifyDevice fun d => ⟨rfl, rfl, rfl⟩) fun _ => moves_bind (moves_writeOwned _ _) fun _ =>
    moves_cuFinish _ _ _

theorem moves_cuExecute {body : Place → BusAddr → Op Unit} (h : ∀ p a, Moves o (body p a)) : Moves o (cuExecute body) :=
  moves_get_bind fun _ _ => moves_ite (fun _ => moves_assume_bind fun _ => h _ _) fun _ => moves_pure _

theorem moves_cuConfigure (b : List Byte) : Moves o (cuConfigure b) := by
  refine moves_get_bind fun s hs => moves_bind (moves_readBuffer _ _ _) fun _ =>
    moves_bind (moves_modifyDevice fun d => ⟨rfl, rfl, rfl⟩) fun _ => moves_bind (moves_writeBuffer fun x hx => ?_)
    fun _ => moves_cuFinish _ _ _
  rw [hs.cfgAddr, hs.config] at hx
  exact ⟨_, mem_deviceSpans_cfg, inSpan_mono hx (by simp)⟩

theorem moves_cuFetchAndExecute : Moves o cuFetchAndExecute := by
  refine moves_get_bind fun s hs => moves_bind (moves_readHalf _ _) fun _ => ?_
  split
  · exact moves_cuExecute fun p a => moves_cuNop _ p a
  · exact moves_cuExecute fun p a => moves_cuTransmit _ p a
  · exact moves_stop _

theorem moves_cuStepMove (v : Half) (b : List Byte) : Moves o (cuStepMove v b) := by
  refine moves_bind (moves_modifyDevice fun d => ⟨rfl, rfl, rfl⟩) fun _ => moves_get_bind fun s hs =>
    moves_ite (fun _ => ?_) fun _ => moves_pure _
  split
  · exact moves_cuFetchAndExecute
  · exact moves_cuFetchAndExecute
  · exact moves_cuConfigure b
  · exact moves_cuFetchAndExecute
  · exact moves_stop _

theorem moves_ruFinish (b : Bool) (a : BusAddr) : Moves o (ruFinish b a) :=
  moves_bind (moves_modifyDevice (f := (·.assertCause causeFr)) fun d => ⟨rfl, rfl, rfl⟩) fun _ =>
    moves_bind (moves_readField _ _) fun _ => moves_ite (fun _ => moves_modifyDevice fun d => ⟨rfl, rfl, rfl⟩) fun _ =>
    moves_bind (moves_readLink _ _) fun _ => moves_modifyDevice fun d => ⟨rfl, rfl, rfl⟩

theorem moves_ruFillDescriptor (p : Place) (a : BusAddr) (f : Frame) (v : Half) : Moves o (ruFillDescriptor p a f v) :=
  moves_get_bind fun _ _ => moves_bind (moves_readField _ _) fun _ => moves_bind (moves_writeOwned _ _) fun _ =>
    moves_bind (moves_writeOwned _ _) fun _ => moves_bind (moves_writeOwned _ _) fun _ => moves_ruFinish _ _

theorem moves_ruStepMove (f : Frame) (v : Half) : Moves o (ruStepMove f v) :=
  moves_get_bind fun _ _ => moves_ite (fun _ => moves_assume_bind fun _ => moves_ruFillDescriptor _ _ f v) fun _ =>
    moves_pure _

/-- A span at an offset of a span. -/
theorem inSpan_add {a x : BusAddr} {k n m : Nat} (h : inSpan (a + BitVec.ofNat 32 k) n x = true) (hm : k + n ≤ m) :
    inSpan a m x = true := by
  simp only [inSpan, decide_eq_true_eq, BitVec.toNat_sub, BitVec.toNat_add, BitVec.toNat_ofNat] at h ⊢
  have := x.isLt
  have := a.isLt
  omega

theorem moves_writeWords {w : Agent} (l : List Word) (k : Nat) (hk : 4 * k + 4 * l.length ≤ 4 * o.config.statsWords + 4) :
    Moves o (writeWords w (o.statsAddr + BitVec.ofNat 32 (4 * k)) l) := by
  induction l generalizing k with
  | nil => exact moves_pure _
  | cons v l ih =>
    simp only [List.length_cons] at hk
    refine moves_bind (moves_writeBuffer fun x hx => ⟨_, mem_deviceSpans_stats, ?_⟩) fun _ => ?_
    · rw [length_leBytes] at hx
      exact inSpan_add hx (by omega)
    · have := ih (k + 1) (by omega)
      rwa [show o.statsAddr + BitVec.ofNat 32 (4 * (k + 1)) = o.statsAddr + BitVec.ofNat 32 (4 * k) + 4 by
        rw [BitVec.add_assoc]; congr 1; rw [Nat.mul_add, Nat.mul_one, BitVec.ofNat_add]; rfl] at this

theorem length_dumpCounters (c : Config) (l : List Word) : (dumpCounters c l).length = c.statsWords := by
  simp [dumpCounters]

theorem moves_dumpMove (l : List Word) : Moves o (dumpMove l) := by
  refine moves_get_bind fun s hs => moves_ite (fun _ => ?_) fun _ => moves_pure _
  refine moves_bind (moves_modifyDevice fun d => ⟨rfl, rfl, rfl⟩) fun _ => moves_bind ?_ fun _ =>
    moves_writeBuffer fun x hx => ⟨_, mem_deviceSpans_stats, ?_⟩
  · have := moves_writeWords (o := o) (w := .device) (dumpCounters s.config l) 0
      (by rw [length_dumpCounters, hs.config]; omega)
    rw [hs.statsAddr]
    simpa using this
  · rw [length_leBytes, State.statsDoneAddr, hs.statsAddr, hs.config] at hx
    exact inSpan_add hx (by omega)

theorem moves_deviceMove (m : DeviceMove) : Moves o (deviceMove m) := by
  cases m with
  | accept e => exact moves_acceptMove e
  | cuStep v b => exact moves_cuStepMove v b
  | ruStep f v => exact moves_ruStepMove f v
  | linkChange v => exact moves_get_bind fun _ _ => moves_modifyDevice fun d => ⟨rfl, rfl, rfl⟩
  | spurious b => exact moves_modifyDevice (f := (·.assertCause (unknownCauses b))) fun d => ⟨rfl, rfl, rfl⟩
  | dump l => exact moves_dumpMove l
  | drift e c =>
    cases e
    · exact moves_modifyDevice (f := fun d => { d with cuCode := c }) fun d => ⟨rfl, rfl, rfl⟩
    · exact moves_modifyDevice (f := fun d => { d with ruCode := c }) fun d => ⟨rfl, rfl, rfl⟩

end

/-- A device move as a step: it changes only what the device may write. -/
theorem runDevice_moved {m : DeviceMove} {s t : State} (h : runDevice (deviceMove m) s = .next t) :
    deviceMove m s = .ok () t ∧ Moved s.deviceSpans s t := by
  have hm := moves_deviceMove (o := s) m s ⟨rfl, rfl, rfl, rfl, rfl⟩
  unfold runDevice at h
  cases ho : deviceMove m s with
  | ok a u => rw [ho] at h hm; cases h; exact ⟨rfl, hm⟩
  | error e u =>
    rw [ho] at h hm
    obtain ⟨f, rfl⟩ := hm
    cases h

/-! ### What the bodies of the steps do -/

section
variable (s : State) (p : Place) (a : BusAddr) (el : Bool)

/-- After a CU command the CU is idle at the mark, else at the link. -/
theorem cuFinish_apply (there : Bool) : cuFinish there a el s = .ok () (if el
    then { s with dev := { s.dev with cuCode := codeIdle, scbIsr := s.dev.scbIsr ||| causeCna } }
    else { s with
      events := .memRead .device (a + offLink) 4 :: s.events
      dev := { s.dev with cuFetch := if there then s.word (a + offLink) else Config.absentField s.events.length } }) := by
  cases el <;> rfl

/-- NOP completes the status it has read. -/
theorem cuNop_apply : cuNop el p a s =
    (let st := if p.isDescriptor then s.half (a + offStatus) else (Config.absentField s.events.length).setWidth 16
    cuFinish p.isDescriptor a el ((s.event (.memRead .device (a + offStatus) 2)).storeOwned (a + offStatus)
      (leBytes 2 (completed st).toNat))) := rfl

/-- TX puts a frame on the wire, then writes the drawn status, complete. -/
theorem cuTransmit_apply : cuTransmit el p a s =
    (let bc := if p == .own then s.half (a + offByteCount) else (Config.absentField s.events.length).setWidth 16
    let held := if p.isDescriptor then min (byteCount bc) s.config.bufSize else 0
    let frame := s.mem.readBytes (a + offBuffer) held ++
      (List.range (byteCount bc - held)).map (Config.absentByte (s.events.length + 1))
    cuFinish p.isDescriptor a el (State.storeOwned { s with
      events := .memRead .device (a + offBuffer) held :: .memRead .device (a + offByteCount) 2 :: s.events
      dev := { s.dev with wire := s.dev.wire ++ [frame] } } (a + offStatus)
      (leBytes 2 (completed s.dev.cuDraw).toNat))) := rfl

/-- A frame is stored, its length and the drawn status written, each where the device may write. -/
theorem ruFillDescriptor_apply (frame : Frame) (status : Half) : ruFillDescriptor p a frame status s =
    (let cap := capacityOf (if p == .own then s.half (a + offCapacity)
      else (Config.absentField s.events.length).setWidth 16)
    let bytes := frame.take (min cap s.config.bufSize)
    let length := reportedLength s cap frame.length bytes.length
    ruFinish p.isDescriptor a ((((s.event (.memRead .device (a + offCapacity) 2)).storeOwned (a + offBuffer) bytes).storeOwned
      (a + offReceivedLength) (leBytes 2 (lengthWord length).toNat)).storeOwned
      (a + offStatus) (leBytes 2 (completed status).toNat))) := rfl

/-- After an RU step FR is asserted; at the mark the RU has no resources, else it is at the link. -/
theorem ruFinish_apply (there : Bool) : ruFinish there a s =
    (let command := if there then s.half (a + offCommand) else (Config.absentField s.events.length).setWidth 16
    let link := if there then s.word (a + offLink) else Config.absentField (s.events.length + 1)
    .ok () (if commandEl command
      then { s with
        events := .memRead .device (a + offCommand) 2 :: s.events
        dev := { s.dev with ruCode := codeNoResources, scbIsr := s.dev.scbIsr ||| causeFr ||| causeRnr } }
      else { s with
        events := .memRead .device (a + offLink) 4 :: .memRead .device (a + offCommand) 2 :: s.events
        dev := { s.dev with ruFill := link, scbIsr := s.dev.scbIsr ||| causeFr } })) := by
  generalize hc : (if there then s.half (a + offCommand) else (Config.absentField s.events.length).setWidth 16) = c
  simp only [ruFinish, modifyDevice, bind_apply, modify_apply, readField_apply, ite_apply']
  refine Eq.trans (congrArg (fun c => if commandEl c = true then _ else _) hc) ?_
  split <;> rfl

/-- An active CU executes the body at what it finds at its fetch address, unless that is outside the regions. -/
theorem cuExecute_apply (body : Place → BusAddr → Op Unit) : cuExecute body s =
    if s.dev.unitState .cu = .active then
      if s.placeOf .cu s.dev.cuFetch = .outside then .error (.fault .outsideRegions) s
      else body (s.placeOf .cu s.dev.cuFetch) s.dev.cuFetch s
    else .ok () s := by
  unfold cuExecute
  simp only [bind_apply, get_apply, ite_apply', assume_apply, pure_apply]
  refine ite_congr rfl (fun _ => ?_) fun _ => rfl
  by_cases h : s.placeOf .cu s.dev.cuFetch = .outside <;> simp [h]

end
end Sys2Proof.Machine
end

