-- ==== Sys2Proof/Laws/Ring.lean ====
section
/-! SUPPORT. What the ring operations do, outcome by outcome: `rx_poll`, `rx_recycle`, `tx_append`, `tx_drain`. -/

namespace Sys2Proof.Machine

theorem Config.wf_facts {c : Config} (h : c.wf = true) :
    2 ≤ c.nRx ∧ 2 ≤ c.nTx ∧ c.maxTaggedFrame ≤ c.bufSize ∧ c.bufSize < 2 ^ 14 ∧ c.dumpMagic ≠ 0 ∧
      c.threshInit.toNat ≤ c.threshMax.toNat ∧ 1 ≤ c.cfgBlockLen := by
  simp only [Config.wf, Bool.and_eq_true, decide_eq_true_eq, bne_iff_ne, ne_eq] at h
  obtain ⟨⟨⟨⟨⟨⟨⟨⟨⟨⟨⟨⟨⟨⟨⟨⟨⟨h1, h2⟩, h3⟩, h4⟩, -⟩, h6⟩, -⟩, -⟩, -⟩, h5⟩, -⟩, -⟩, -⟩, h7⟩, -⟩, -⟩, -⟩, -⟩ := h
  exact ⟨h1, h2, h3, h4, h5, h6, h7⟩

theorem Config.wf_codes {c : Config} (h : c.wf = true) : c.cmdCodes.wf = true := by
  simp only [Config.wf, Bool.and_eq_true] at h
  exact h.2

/-! ### rx_poll -/

/-- The checks of a complete descriptor, in the rule's order. -/
theorem rxFrame_apply (c : Config) (a : BusAddr) (st : Half) (u : State) :
    rxFrame c a st u =
      if statusOk st && statusErr st == 0 then
        if lengthEof (u.half (a + offReceivedLength)) && lengthFinal (u.half (a + offReceivedLength)) then
          if lengthCount c (u.half (a + offReceivedLength)) ≤ capacityOf (u.half (a + offCapacity)) then
            .ok (u.mem.readBytes (a + offBuffer) (lengthCount c (u.half (a + offReceivedLength))))
              (((u.event (.memRead .block (a + offReceivedLength) 2)).event (.memRead .block (a + offCapacity) 2)).event
                (.memRead .block (a + offBuffer) (lengthCount c (u.half (a + offReceivedLength)))))
          else .error (.fatal .rxLength) ((u.event (.memRead .block (a + offReceivedLength) 2)).event
            (.memRead .block (a + offCapacity) 2))
        else .error (.fatal .rxLength) (u.event (.memRead .block (a + offReceivedLength) 2))
      else .error (.fatal .rxError) u := by
  simp only [rxFrame, bind_apply, require_apply, readHalf_apply, readBuffer_apply]
  simp only [decide_eq_true_eq]
  by_cases h1 : (statusOk st && statusErr st == 0) = true
  · rw [if_pos h1, if_pos h1]
    dsimp only
    by_cases h2 : (lengthEof (u.half (a + offReceivedLength)) && lengthFinal (u.half (a + offReceivedLength))) = true
    · rw [if_pos h2, if_pos h2]
      dsimp only
      by_cases h3 : lengthCount c (u.half (a + offReceivedLength)) ≤
        capacityOf ((u.event (.memRead .block (a + offReceivedLength) 2)).half (a + offCapacity))
      · have h3' : lengthCount c (u.half (a + offReceivedLength)) ≤ capacityOf (u.half (a + offCapacity)) := h3
        rw [if_pos h3, if_pos h3']
        rfl
      · have h3' : ¬ lengthCount c (u.half (a + offReceivedLength)) ≤ capacityOf (u.half (a + offCapacity)) := h3
        rw [if_neg h3, if_neg h3']
    · rw [if_neg h2, if_neg h2]
  · rw [if_neg h1, if_neg h1]

/-- `rx_poll` reads the head's status first (R76). -/
theorem rxPoll_apply {s : State} (h : s.rxHead < s.rxAddr.length) :
    rxPoll s =
      if statusC (s.rxStatus s.rxHead) then
        match rxFrame s.config (s.rxSlot s.rxHead) (s.rxStatus s.rxHead)
          (s.event (.memRead .block (s.rxSlot s.rxHead + offStatus) 2)) with
        | .ok frame t => .ok (.ready s.rxHead frame) t
        | .error e t => .error e t
      else .ok .notReady (s.event (.memRead .block (s.rxSlot s.rxHead + offStatus) 2)) := by
  simp only [rxPoll, bind_apply, get_apply, rxAddrOf_apply h, readHalf_apply]
  rw [show s.half (s.rxSlot s.rxHead + offStatus) = s.rxStatus s.rxHead from rfl]
  by_cases hc : statusC (s.rxStatus s.rxHead) = true
  · rw [if_pos hc, if_pos hc, bind_apply]
    cases rxFrame s.config (s.rxSlot s.rxHead) (s.rxStatus s.rxHead)
      (s.event (.memRead .block (s.rxSlot s.rxHead + offStatus) 2)) <;> rfl
  · rw [if_neg hc, if_neg hc]
    rfl

theorem rxFrame_rxLength {c : Config} {a : BusAddr} {st : Half} {u : State}
    (ho : statusOk st = true) (he : statusErr st = 0)
    (hb : ¬ (lengthEof (u.half (a + offReceivedLength)) = true ∧ lengthFinal (u.half (a + offReceivedLength)) = true ∧
      lengthCount c (u.half (a + offReceivedLength)) ≤ capacityOf (u.half (a + offCapacity)))) :
    ∃ ev, rxFrame c a st u = .error (.fatal .rxLength) { u with events := ev } := by
  rw [rxFrame_apply, if_pos (by simp [ho, he])]
  by_cases h1 : (lengthEof (u.half (a + offReceivedLength)) && lengthFinal (u.half (a + offReceivedLength))) = true
  · rw [if_pos h1]
    rw [Bool.and_eq_true] at h1
    rw [if_neg fun hx => hb ⟨h1.1, h1.2, hx⟩]
    exact ⟨_, rfl⟩
  · rw [if_neg h1]
    exact ⟨_, rfl⟩

theorem rxPoll_notReady {s : State} (h : s.rxHead < s.rxAddr.length) (hc : statusC (s.rxStatus s.rxHead) = false) :
    ∃ ev, rxPoll s = .ok .notReady { s with events := ev } := by
  rw [rxPoll_apply h, hc, if_neg (by decide)]
  exact ⟨_, rfl⟩

theorem rxPoll_rxError {s : State} (h : s.rxHead < s.rxAddr.length) (hc : statusC (s.rxStatus s.rxHead) = true)
    (hb : ¬ (statusOk (s.rxStatus s.rxHead) = true ∧ statusErr (s.rxStatus s.rxHead) = 0)) :
    ∃ ev, rxPoll s = .error (.fatal .rxError) { s with events := ev } := by
  rw [rxPoll_apply h, if_pos hc, rxFrame_apply, if_neg (by simpa using hb)]
  exact ⟨_, rfl⟩

theorem rxPoll_rxLength {s : State} (h : s.rxHead < s.rxAddr.length) (hc : statusC (s.rxStatus s.rxHead) = true)
    (ho : statusOk (s.rxStatus s.rxHead) = true) (he : statusErr (s.rxStatus s.rxHead) = 0)
    (hb : ¬ (lengthEof (s.rxLength s.rxHead) = true ∧ lengthFinal (s.rxLength s.rxHead) = true ∧
      lengthCount s.config (s.rxLength s.rxHead) ≤ capacityOf (s.rxCapacity s.rxHead))) :
    ∃ ev, rxPoll s = .error (.fatal .rxLength) { s with events := ev } := by
  obtain ⟨ev, hx⟩ := rxFrame_rxLength (c := s.config) (a := s.rxSlot s.rxHead)
    (u := s.event (.memRead .block (s.rxSlot s.rxHead + offStatus) 2)) ho he hb
  rw [rxPoll_apply h, if_pos hc, hx]
  exact ⟨_, rfl⟩

theorem rxFrame_ready {c : Config} {a : BusAddr} {st : Half} {u : State}
    (ho : statusOk st = true) (he : statusErr st = 0) (h1 : lengthEof (u.half (a + offReceivedLength)) = true)
    (h2 : lengthFinal (u.half (a + offReceivedLength)) = true)
    (h3 : lengthCount c (u.half (a + offReceivedLength)) ≤ capacityOf (u.half (a + offCapacity))) :
    ∃ ev, rxFrame c a st u =
      .ok (u.mem.readBytes (a + offBuffer) (lengthCount c (u.half (a + offReceivedLength)))) { u with events := ev } := by
  rw [rxFrame_apply, if_pos (by simp [ho, he]), if_pos (by simp [h1, h2]), if_pos h3]
  exact ⟨_, rfl⟩

theorem rxPoll_ready {s : State} (h : s.rxHead < s.rxAddr.length) (hg : s.HeadGood) :
    ∃ ev, rxPoll s = .ok (.ready s.rxHead s.headFrame) { s with events := ev } := by
  obtain ⟨ev, hx⟩ := rxFrame_ready (c := s.config) (a := s.rxSlot s.rxHead)
    (u := s.event (.memRead .block (s.rxSlot s.rxHead + offStatus) 2)) hg.ok hg.err hg.eof hg.final hg.fits
  rw [rxPoll_apply h, if_pos hg.complete, hx]
  exact ⟨_, rfl⟩

/-! ### rx_recycle -/

theorem prevIdx_lt {n i : Nat} (h : 0 < n) : prevIdx n i < n := Nat.mod_lt _ h

theorem prevIdx_ne {n i : Nat} (h : 2 ≤ n) (hi : i < n) : prevIdx n i ≠ i := by
  unfold prevIdx
  by_cases h0 : i = 0
  · subst h0; rw [Nat.mod_eq_of_lt (by omega)]; omega
  · rw [show i + n - 1 = (i - 1) + n by omega, Nat.add_mod_right, Nat.mod_eq_of_lt (by omega)]; omega

theorem prevIdx_nextIdx {n i : Nat} (hi : i < n) : prevIdx n (nextIdx n i) = i := by
  unfold prevIdx nextIdx
  by_cases h0 : i + 1 = n
  · rw [h0, Nat.mod_self, Nat.zero_add, Nat.mod_eq_of_lt (by omega)]; omega
  · rw [Nat.mod_eq_of_lt (show i + 1 < n by omega), show i + 1 + n - 1 = i + n by omega, Nat.add_mod_right,
      Nat.mod_eq_of_lt hi]

/-- `rx_recycle` up to the check of the previous descriptor: the head's three fields are written. -/
theorem rxRecycle_written {s : State} (hw : 2 ≤ s.config.nRx) (h : s.Laid) (hh : s.rxHead < s.config.nRx)
    (hc : statusC (s.rxStatus s.rxHead) = true) :
    ∃ t : State, t = { s with mem := t.mem, events := t.events } ∧
      t.rxStatus s.rxHead = 0 ∧ t.rxLength s.rxHead = 0 ∧ t.rxCommand s.rxHead = rxCommandWord true ∧
      s.ChangesOnly t (s.recycledSpans s.rxHead) ∧
      t.rxCommand (prevIdx s.config.nRx s.rxHead) = s.rxCommand (prevIdx s.config.nRx s.rxHead) ∧
      t.events = .memRead .block (s.rxSlot (prevIdx s.config.nRx s.rxHead) + offCommand) 2 ::
          .memWrite .block (s.rxSlot s.rxHead + offCommand) (leBytes 2 (rxCommandWord true).toNat) ::
          .memWrite .block (s.rxSlot s.rxHead + offReceivedLength) (leBytes 2 0) ::
          .memWrite .block (s.rxSlot s.rxHead + offStatus) (leBytes 2 0) ::
          .memRead .block (s.rxSlot s.rxHead + offStatus) 2 :: s.events ∧
      rxRecycle s.rxHead s =
        if commandEl (s.rxCommand (prevIdx s.config.nRx s.rxHead)) then
          .ok () { t.store .block (s.rxSlot (prevIdx s.config.nRx s.rxHead) + offCommand)
            (leBytes 2 (rxCommandWord false).toNat) with rxHead := nextIdx s.config.nRx s.rxHead }
        else .error (.fatal .ringInvariant) t := by
  have hl : s.rxHead < s.rxAddr.length := by rw [h.rxLen]; exact hh
  have hp : prevIdx s.config.nRx s.rxHead < s.config.nRx := prevIdx_lt (by omega)
  have hpl : prevIdx s.config.nRx s.rxHead < s.rxAddr.length := by rw [h.rxLen]; exact hp
  have hne := prevIdx_ne hw hh
  have hA := h.rx_header hh
  have hap : Apart (s.rxSlot s.rxHead) 12 (s.rxSlot (prevIdx s.config.nRx s.rxHead)) 12 :=
    h.apart_rx hh hp (Ne.symm hne)
  have hB := h.rx_header hp
  generalize hP : prevIdx s.config.nRx s.rxHead = P at *
  generalize hA' : s.rxSlot s.rxHead = A at *
  generalize hB' : s.rxSlot P = B at *
  generalize ht : ((((s.event (.memRead .block (A + offStatus) 2)).store .block (A + offStatus)
    (leBytes 2 (0 : Half).toNat)).store .block (A + offReceivedLength) (leBytes 2 (0 : Half).toNat)).store .block
    (A + offCommand) (leBytes 2 (rxCommandWord true).toNat)).event (.memRead .block (B + offCommand) 2) = t
  have hte : t = { s with mem := t.mem, events := t.events } := by rw [← ht]; simp only [State.store, State.event]
  have hs : ∀ i, t.rxSlot i = s.rxSlot i := by intro i; rw [hte]; rfl
  have hbytes : ∀ x, inSpan A 12 x = false → t.byteAt x = s.byteAt x := by
    intro x hx
    rw [← ht, byteAt_event, byteAt_store_other, byteAt_store_other, byteAt_store_other, byteAt_event] <;>
      exact outside_sub hA (by simp only [length_leBytes]; decide) hx
  have hcmd : t.rxCommand P = s.rxCommand P := by
    have := (SameBytes.of_apart (s := s) (t := t) hbytes hap).half hB (k := offCommand) (by decide)
    unfold State.rxCommand; rw [hs, hB']; exact this
  refine ⟨t, hte, ?_, ?_, ?_, ?_, hcmd, ?_, ?_⟩
  · unfold State.rxStatus; rw [hs, hA', ← ht, half_event]
    rw [half_store_off hA, half_store_off hA, half_store_same] <;> simp <;> omega
  · unfold State.rxLength; rw [hs, hA', ← ht, half_event]
    rw [half_store_off hA, half_store_same] <;> simp <;> omega
  · unfold State.rxCommand; rw [hs, hA', ← ht, half_event, half_store_same]
  · intro x hx
    have h1 : inSpan A 4 x = false := by
      have := hx (A, 4) (by simp [State.recycledSpans, hA']); exact this
    have h2 : inSpan (A + offReceivedLength) 2 x = false := by
      have := hx (A + offReceivedLength, 2) (by simp [State.recycledSpans, hA']); exact this
    rw [← ht, byteAt_event, byteAt_store_other, byteAt_store_other, byteAt_store_other, byteAt_event]
    · exact outside_sub (W := 4) (by omega) (by simp only [length_leBytes]; decide) h1
    · exact h2
    · exact outside_sub (W := 4) (by omega) (by simp only [length_leBytes]; decide) h1
  · rw [← ht]; rfl
  · unfold State.rxStatus at hc; rw [hA'] at hc
    have hcb : (s.event (.memRead .block (A + offStatus) 2)).rxAddr = s.rxAddr := rfl
    have hread : ((((s.event (.memRead .block (A + offStatus) 2)).store .block (A + offStatus)
      (leBytes 2 (0 : Half).toNat)).store .block (A + offReceivedLength) (leBytes 2 (0 : Half).toNat)).store .block
      (A + offCommand) (leBytes 2 (rxCommandWord true).toNat)).half (B + offCommand) = s.rxCommand P := by
      rw [← hcmd]; unfold State.rxCommand; rw [hs, hB', ← ht, half_event]
    simp only [rxRecycle, bind_apply, get_apply, require_apply, beq_self_eq_true, if_true, rxAddrOf_apply hl, hA',
      readHalf_apply, hc, writeHalf_apply, rxAddrOf_eq, store_rxAddr, event_rxAddr, if_pos hpl, store_rxSlot,
      event_rxSlot, hB', hread, hP]
    by_cases hel : commandEl (s.rxCommand P) = true
    · rw [if_pos hel, if_pos hel, ← ht]
      rfl
    · rw [if_neg hel, if_neg hel, ← ht]

theorem rxRecycle_index {s : State} {i : Nat} (h : i ≠ s.rxHead) : rxRecycle i s = .error (.fatal .precondition) s := by
  simp only [rxRecycle, bind_apply, get_apply, require_apply, beq_eq_false_iff_ne.mpr h, if_neg Bool.false_ne_true]

theorem rxRecycle_incomplete {s : State} (h : s.rxHead < s.rxAddr.length) (hc : statusC (s.rxStatus s.rxHead) = false) :
    ∃ ev, rxRecycle s.rxHead s = .error (.fatal .precondition) { s with events := ev } := by
  have hx : rxRecycle s.rxHead s = .error (.fatal .precondition) (s.event (.memRead .block (s.rxSlot s.rxHead + offStatus) 2)) := by
    unfold State.rxStatus at hc
    simp only [rxRecycle, bind_apply, get_apply, require_apply, beq_self_eq_true, if_true, rxAddrOf_apply h, readHalf_apply, hc, if_neg Bool.false_ne_true]
  exact ⟨_, hx⟩

/-- `rx_recycle` with the mark where it belongs. -/
theorem rxRecycle_ok {s : State} (hw : 2 ≤ s.config.nRx) (h : s.Laid) (hh : s.rxHead < s.config.nRx)
    (hc : statusC (s.rxStatus s.rxHead) = true) (hel : commandEl (s.rxCommand (prevIdx s.config.nRx s.rxHead)) = true) :
    ∃ t : State, rxRecycle s.rxHead s = .ok () t ∧
      t = { s with rxHead := nextIdx s.config.nRx s.rxHead, mem := t.mem, events := t.events } ∧
      t.rxStatus s.rxHead = 0 ∧ t.rxLength s.rxHead = 0 ∧ t.rxCommand s.rxHead = rxCommandWord true ∧
      t.rxCommand (prevIdx s.config.nRx s.rxHead) = rxCommandWord false ∧
      s.ChangesOnly t (s.recycledSpans s.rxHead ++ [s.rxCommandSpan (prevIdx s.config.nRx s.rxHead)]) ∧
      t.events =
        .memWrite .block (s.rxSlot (prevIdx s.config.nRx s.rxHead) + offCommand) (leBytes 2 (rxCommandWord false).toNat) ::
        .memRead .block (s.rxSlot (prevIdx s.config.nRx s.rxHead) + offCommand) 2 ::
        .memWrite .block (s.rxSlot s.rxHead + offCommand) (leBytes 2 (rxCommandWord true).toNat) ::
        .memWrite .block (s.rxSlot s.rxHead + offReceivedLength) (leBytes 2 0) ::
        .memWrite .block (s.rxSlot s.rxHead + offStatus) (leBytes 2 0) ::
        .memRead .block (s.rxSlot s.rxHead + offStatus) 2 :: s.events := by
  obtain ⟨t, hte, h1, h2, h3, hco, -, hev, hx⟩ := rxRecycle_written hw h hh hc
  rw [if_pos hel] at hx
  have hp : prevIdx s.config.nRx s.rxHead < s.config.nRx := prevIdx_lt (by omega)
  have hne := prevIdx_ne hw hh
  have hap : Apart (s.rxSlot (prevIdx s.config.nRx s.rxHead)) 12 (s.rxSlot s.rxHead) 12 := h.apart_rx hp hh hne
  have hA := h.rx_header hh
  have hB := h.rx_header hp
  generalize prevIdx s.config.nRx s.rxHead = P at *
  generalize hu : t.store .block (s.rxSlot P + offCommand) (leBytes 2 (rxCommandWord false).toNat) = u at hx
  have hue : u = { s with mem := u.mem, events := u.events } := by
    rw [← hu, hte]; simp only [State.store]
  have hs : ∀ i, u.rxSlot i = s.rxSlot i := by intro i; rw [hue]; rfl
  have ht : ∀ i, t.rxSlot i = s.rxSlot i := by intro i; rw [hte]; rfl
  have hb : SameBytes t u (s.rxSlot s.rxHead) 12 := by
    refine SameBytes.of_apart (B := s.rxSlot P) (m := 12) (fun x hx => ?_) hap
    rw [← hu, byteAt_store_other]
    exact outside_sub hB (by simp only [length_leBytes]; decide) hx
  refine ⟨{ u with rxHead := nextIdx s.config.nRx s.rxHead }, hx, ?_, ?_, ?_, ?_, ?_, ?_, ?_⟩
  · rw [hue]
  · rw [← h1]; show u.half (u.rxSlot _ + _) = t.half (t.rxSlot _ + _); rw [hs, ht]; exact hb.half hA (by decide)
  · rw [← h2]; show u.half (u.rxSlot _ + _) = t.half (t.rxSlot _ + _); rw [hs, ht]; exact hb.half hA (by decide)
  · rw [← h3]; show u.half (u.rxSlot _ + _) = t.half (t.rxSlot _ + _); rw [hs, ht]; exact hb.half hA (by decide)
  · show u.half (u.rxSlot _ + _) = _; rw [hs, ← hu, half_store_same]
  · intro x hx'
    have a1 : u.byteAt x = t.byteAt x := by
      rw [← hu, byteAt_store_other]
      have := hx' (s.rxCommandSpan P) (by simp)
      exact this
    show u.byteAt x = _
    rw [a1]
    exact hco x fun r hr => hx' r (by simp [hr])
  · show u.events = _
    rw [← hu, ← hev]; rfl

theorem rxRecycle_invariant {s : State} (hw : 2 ≤ s.config.nRx) (h : s.Laid) (hh : s.rxHead < s.config.nRx)
    (hc : statusC (s.rxStatus s.rxHead) = true) (hel : commandEl (s.rxCommand (prevIdx s.config.nRx s.rxHead)) = false) :
    ∃ t : State, rxRecycle s.rxHead s = .error (.fatal .ringInvariant) t ∧
      t = { s with mem := t.mem, events := t.events } ∧
      t.rxStatus s.rxHead = 0 ∧ t.rxLength s.rxHead = 0 ∧ t.rxCommand s.rxHead = rxCommandWord true ∧
      s.ChangesOnly t (s.recycledSpans s.rxHead) := by
  obtain ⟨t, hte, h1, h2, h3, hco, -, -, hx⟩ := rxRecycle_written hw h hh hc
  rw [if_neg (by simp [hel])] at hx
  exact ⟨t, hx, hte, h1, h2, h3, hco⟩

/-! ### tx_append -/

theorem txAppend_size {s : State} {f : Frame}
    (h : f.length < s.config.minFrame ∨ s.config.maxTaggedFrame < f.length) :
    txAppend f s = .error (.fatal .frameSize) s := by
  have hb : frameSizeOk s.config f.length = false := by
    unfold frameSizeOk
    simp only [Bool.and_eq_false_iff, decide_eq_false_iff_not]
    omega
  simp only [txAppend, bind_apply, get_apply, require_apply, hb, if_neg Bool.false_ne_true]

theorem frameSizeOk_iff {c : Config} {n : Nat} :
    frameSizeOk c n = true ↔ c.minFrame ≤ n ∧ n ≤ c.maxTaggedFrame := by
  simp only [frameSizeOk, Bool.and_eq_true, decide_eq_true_eq]

theorem txAppend_full {s : State} {f : Frame} (h : s.txFull = true) (h1 : s.config.minFrame ≤ f.length)
    (h2 : f.length ≤ s.config.maxTaggedFrame) : txAppend f s = .ok .ringFull s := by
  unfold State.txFull at h
  simp only [Bool.and_eq_true, Bool.not_eq_true', beq_iff_eq] at h
  simp only [txAppend, bind_apply, get_apply, require_apply, frameSizeOk_iff.mpr ⟨h1, h2⟩, if_true, h.1, h.2,
    if_neg Bool.false_ne_true, appendActive, pure_apply]

end Sys2Proof.Machine
end

