-- ==== Sys2Proof/Laws/Flow.lean ====
section
/-! SUPPORT. The flow-control queue and the request services, outcome by outcome. -/

namespace Sys2Proof.Machine

theorem armTx_empty {s : State} {r : TxRequest} (h : s.pendTx = .empty) :
    armTx r s = .ok () { s with pendTx := .armed r } := by
  simp only [armTx, bind_apply, get_apply, require_apply, h, beq_self_eq_true, if_true, modify_apply]

theorem armTx_armed {s : State} {r : TxRequest} (h : s.pendTx ≠ .empty) :
    armTx r s = .error (.fatal .doubleArm) s := by
  simp only [armTx, bind_apply, get_apply, require_apply, beq_eq_false_iff_ne.mpr h, if_neg Bool.false_ne_true]

theorem armRx_empty {s : State} {c : Client} (h : s.pendRx = .empty) :
    armRx c s = .ok () { s with pendRx := .armed c } := by
  simp only [armRx, bind_apply, get_apply, require_apply, h, beq_self_eq_true, if_true, modify_apply]

theorem armRx_armed {s : State} {c : Client} (h : s.pendRx ≠ .empty) :
    armRx c s = .error (.fatal .doubleArm) s := by
  simp only [armRx, bind_apply, get_apply, require_apply, beq_eq_false_iff_ne.mpr h, if_neg Bool.false_ne_true]

/-! ### TX -/

theorem txService_full {s : State} {r : TxRequest} (h : txAppend r.frame s = .ok .ringFull s) (hp : s.pendTx = .empty) :
    txService r s = .ok .deferred { s with pendTx := .armed r } := by
  simp only [txService, bind_apply, h, armTx_empty hp, pure_apply]

theorem txService_appended {s t : State} {r : TxRequest} {k : Nat} (h : txAppend r.frame s = .ok (.appended k) t) :
    txService r s = .ok .sent { t with replies := t.replies ++ [(some r.client, .ack)] } := by
  simp only [txService, bind_apply, h, reply_apply, pure_apply]

theorem txService_error {s t : State} {r : TxRequest} {e : Stop} (h : txAppend r.frame s = .error e t) :
    txService r s = .error e t := by
  simp only [txService, bind_apply, h]

theorem replayTx_empty {s : State} (h : s.pendTx = .empty) : replayTx s = .ok .nothing s := by
  simp only [replayTx, bind_apply, get_apply, h, pure_apply]

theorem replayTx_armed {s : State} {r : TxRequest} (h : s.pendTx = .armed r) :
    replayTx s = txService r { s with pendTx := .empty } := by
  simp only [replayTx, bind_apply, get_apply, h, modify_apply]

/-! ### RX -/

theorem replayRx_empty {s : State} (h : s.pendRx = .empty) : replayRx s = .ok .nothing s := by
  simp only [replayRx, bind_apply, get_apply, h, pure_apply]

theorem replayRx_armed {s : State} {c : Client} (h : s.pendRx = .armed c) :
    replayRx s = rxService c { s with pendRx := .empty } := by
  simp only [replayRx, bind_apply, get_apply, h, modify_apply]

/-- A frame is delivered: the poll is ready and the descriptor is recycled. -/
theorem rxService_ready {s t u : State} {c : Client} {i : Nat} {f : Frame} (h : rxPoll s = .ok (.ready i f) t)
    (hr : rxRecycle i t = .ok () u) :
    rxService c s = .ok .delivered { u with replies := u.replies ++ [(some c, .frame f)] } := by
  simp only [rxService, bind_apply, h, hr, reply_apply, pure_apply]

/-- Nothing is ready: after the lazy restart the request is armed. -/
theorem rxService_notReady {s t u : State} {c : Client} (h : rxPoll s = .ok .notReady t)
    (hr : lazyRestart t = .ok () u) (hp : u.pendRx = .empty) :
    rxService c s = .ok .deferred { u with pendRx := .armed c } := by
  simp only [rxService, bind_apply, h, hr, armRx_empty hp, pure_apply]

theorem lazyRestart_unmarked {s : State} (h : s.rxNeedRestart = false) : lazyRestart s = .ok () s := by
  simp only [lazyRestart, bind_apply, get_apply, h, if_neg Bool.false_ne_true, pure_apply]

theorem lazyRestart_busy {s : State} (hm : s.rxNeedRestart = true) (h : s.dev.unitState .ru ≠ .noResources) :
    ∃ ev, lazyRestart s = .ok () { s with events := ev } := by
  have h' : unitStateOf (s.dev.unitCode .ru) ≠ .noResources := h
  have hx : lazyRestart s = .ok () (s.event (s.statusRead)) := by
    simp only [lazyRestart, bind_apply, get_apply, hm, if_true, readUnitCode_apply, if_neg h', pure_apply]
  exact ⟨_, hx⟩

theorem lazyRestart_restart {s : State} (hm : s.rxNeedRestart = true) (h : s.dev.unitState .ru = .noResources) :
    ∃ ev, lazyRestart s = restartRu { s with events := ev } := by
  have h' : unitStateOf (s.dev.unitCode .ru) = .noResources := h
  have hx : lazyRestart s = restartRu (s.event (s.statusRead)) := by
    simp only [lazyRestart, bind_apply, get_apply, hm, if_true, readUnitCode_apply, if_pos h']
  exact ⟨_, hx⟩

/-- A good frame at the head is delivered (R135). -/
theorem rxService_delivers {s : State} (c : Client) (hw : 2 ≤ s.config.nRx) (h : s.Laid) (hh : s.rxHead < s.config.nRx)
    (hg : s.HeadGood) (hel : commandEl (s.rxCommand (prevIdx s.config.nRx s.rxHead)) = true) :
    ∃ t : State, rxService c s = .ok .delivered t ∧
      t = { s with
        rxHead := nextIdx s.config.nRx s.rxHead, mem := t.mem, events := t.events
        replies := s.replies ++ [(some c, .frame s.headFrame)] } ∧
      t.rxStatus s.rxHead = 0 ∧ t.rxLength s.rxHead = 0 ∧ t.rxCommand s.rxHead = rxCommandWord true ∧
      t.rxCommand (prevIdx s.config.nRx s.rxHead) = rxCommandWord false ∧
      s.ChangesOnly t (s.recycledSpans s.rxHead ++ [s.rxCommandSpan (prevIdx s.config.nRx s.rxHead)]) := by
  obtain ⟨ev, hp⟩ := rxPoll_ready (by rw [h.rxLen]; exact hh) hg
  generalize hv : ({ s with events := ev } : State) = v at hp
  have hl : v.Laid := by rw [← hv]; exact h.of_eq rfl rfl rfl rfl rfl
  have e1 : v.rxHead = s.rxHead := by rw [← hv]
  have e2 : v.config = s.config := by rw [← hv]
  have e3 : ∀ i, v.rxStatus i = s.rxStatus i := by intro i; rw [← hv]; rfl
  have e4 : ∀ i, v.rxCommand i = s.rxCommand i := by intro i; rw [← hv]; rfl
  obtain ⟨t, hx, hte, h1, h2, h3, h4, h5, -⟩ := rxRecycle_ok (s := v) (by rw [e2]; exact hw) hl (by rw [e1, e2]; exact hh)
    (by rw [e1, e3]; exact hg.complete) (by rw [e1, e2, e4]; exact hel)
  rw [e1] at hx h1 h2 h3
  rw [e1, e2] at h4 h5
  refine ⟨{ t with replies := t.replies ++ [(some c, .frame s.headFrame)] }, rxService_ready hp hx, ?_, h1, h2, h3, h4, ?_⟩
  · rw [hte, ← hv]
  · intro x hx'
    have := h5 x (by rw [← hv]; exact hx')
    exact this.trans (by rw [← hv]; rfl)

end Sys2Proof.Machine
end

