-- ==== Sys2Proof/Laws/Sequence.lean ====
section
/-! SUPPORT. The operations that issue commands, with a device that answers: the RU restart, appending, the
configuration. -/

namespace Sys2Proof.Machine

theorem mem_headers {ring : List BusAddr} {i : Nat} (h : i < ring.length) : (ring.getD i 0, 12) ∈ headers ring := by
  unfold headers
  rw [List.mem_map]
  exact ⟨ring.getD i 0, by rw [List.getD_eq_getElem _ _ h]; exact List.getElem_mem h, rfl⟩

theorem restartRu_precondition {s : State} (h : s.dev.unitState .ru ≠ .noResources) :
    restartRu s = .error (.fatal .precondition) (s.event s.statusRead) := by
  have h' : (unitStateOf (s.dev.unitCode .ru) == .noResources) = false := beq_eq_false_iff_ne.mpr h
  simp only [restartRu, bind_apply, readUnitCode_apply, require_apply, h', if_neg Bool.false_ne_true]

theorem restartRu_ok {s : State} (hw : s.config.wf = true) (h : s.Laid) (hn : s.dev.unitState .ru = .noResources)
    (hc : s.dev.noCommand .ru = true) {k : Nat} {rest : List PollEvent} (hp : s.pollScript = acceptedAfter .ru k rest)
    (hk : k < s.config.ruPollBound) :
    ∃ t : State, restartRu s = .ok () t ∧
      t = { s with
        rxHead := 0, rxNeedRestart := false, pollScript := rest, mem := t.mem, events := t.events
        dev := EngineCommand.effect .ruStart (s.rxSlot 0) s.dev } ∧
      (∀ i, i < s.config.nRx → t.RxFresh i) ∧ s.ChangesOnly t (headers s.rxAddr) := by
  have h2 := (Config.wf_facts hw).1
  have hn' : (unitStateOf (s.dev.unitCode .ru) == .noResources) = true := beq_iff_eq.mpr hn
  generalize hv : s.event s.statusRead = v
  have hl : v.Laid := by rw [← hv]; exact h.of_eq rfl rfl rfl rfl rfl
  obtain ⟨m, ev, hx, hf, hb⟩ := rxInit_ok hl
  generalize hu : ({ v with mem := m, rxHead := 0, events := ev } : State) = u at hx hf hb
  have e1 : u.dev = s.dev := by rw [← hu, ← hv]; rfl
  have e2 : u.config = s.config := by rw [← hu, ← hv]; rfl
  have e3 : u.rxAddr = s.rxAddr := by rw [← hu, ← hv]; rfl
  obtain ⟨ev', hi⟩ := issue_accepted' (s := u) (cmd := .ruStart) (a := u.rxSlot 0) (ri := false) (k := k) (rest := rest)
    (by rw [e2]; exact Config.wf_codes hw) (by decide)
    ⟨by rw [e1]; exact hc, by intro h; cases h⟩ (by rw [← hu, ← hv]; exact hp) (by show k < u.config.ruPollBound; rw [e2]; exact hk)
  have hrun : restartRu s = .ok () { u with dev := EngineCommand.effect .ruStart (u.rxSlot 0) u.dev, pollScript := rest, events := ev', rxNeedRestart := false } := by
    simp only [restartRu, bind_apply, readUnitCode_apply, require_apply, hn', if_true, hv, hx,
      rxAddrOf_apply (show 0 < u.rxAddr.length by rw [e3, h.rxLen]; omega), hi, modify_apply]
  refine ⟨_, hrun, ?_, fun i hi => ?_, fun x hx => ?_⟩
  · rw [show u.rxSlot 0 = s.rxSlot 0 by unfold State.rxSlot; rw [e3], ← hu, ← hv]
    simp only [State.event]
  · have := hf i (by rw [show v.config = s.config by rw [← hv]; rfl]; exact hi)
    obtain ⟨f1, f2, f3, f4, f5⟩ := this
    exact ⟨f1, f2, f3, f4, f5⟩
  · show u.byteAt x = _
    rw [hb x fun j hj => ?_, ← hv, byteAt_event]
    rw [← hv] at hj ⊢
    exact hx _ (mem_headers (by rw [h.rxLen]; exact hj))

end Sys2Proof.Machine
end

