-- ==== Sys2Proof/Laws/Whole.lean ====
section
/-! SUPPORT. What a step keeps whichever it is: the parameters, the outputs, memory's canonical form; what it keeps of
a started block; which steps set the flags and the start-up mark. -/

namespace Sys2Proof.Machine

/-- Every operation of the port, ended or stopped, keeps at least this. -/
structure RunKept (s u : State) : Prop where
  config : u.config = s.config
  pciBus : u.pciBus = s.pciBus
  busMap : u.busMap = s.busMap
  agenda : u.agenda = s.agenda
  fault : u.fault = s.fault
  results : u.results = s.results
  eeWidth : s.eeWidth ≠ .unknown → u.eeWidth = s.eeWidth
  log : s.log <+: u.log
  replies : s.replies <+: u.replies
  reports : s.reports <+: u.reports
  wire : s.dev.wire <+: u.dev.wire
  events : s.events <:+ u.events
  mem : s.mem.wf = true → u.mem.wf = true
  counters : s.dev.counters.length = s.config.statsWords → u.dev.counters.length = s.config.statsWords
  started : s.started = true → u.started = true ∧ u.rxAddr = s.rxAddr ∧ u.txAddr = s.txAddr ∧
    u.statsAddr = s.statsAddr ∧ u.cfgAddr = s.cfgAddr ∧ u.base = s.base ∧ u.irq = s.irq ∧ u.hwAddr = s.hwAddr

theorem Kept.run {s u : State} (h : Kept s u) : RunKept s u :=
  { h with started := fun hs => ⟨h.started.trans hs, h.rxAddr, h.txAddr, h.statsAddr, h.cfgAddr, h.base, h.irq, h.hwAddr⟩ }

theorem onInterrupt_run (s : State) : RunKept s (endState (onInterruptOp s)) := by
  rcases onInterrupt_cases s with ⟨-, h⟩ | ⟨-, -, h⟩ | ⟨-, -, h⟩ <;> rw [h]
  · exact (Kept.refl s).run
  · exact (Kept.refl s).run
  · refine { (Kept.refl s).run with log := ?_, events := ?_ }
    · show s.log <+: if _ then _ else _
      split
      · exact List.prefix_refl _
      · exact List.prefix_append _ _
    · exact (List.suffix_cons _ _).trans (List.suffix_cons _ _)

theorem resetOp_run (s : State) : RunKept s (endState (resetOp s)) := by
  have hb : ∀ {u : State}, BootKept s u → s.started = false → RunKept s u :=
    fun h hs => { h with started := fun h' => by rw [hs] at h'; cases h' }
  rcases resetOp_cases s with ⟨-, h⟩ | ⟨-, -, h⟩ | ⟨f, link, u, hs, -, hu, h⟩ | ⟨f, e, u, hs, -, hu, h⟩ <;> rw [h]
  · exact (Kept.refl s).run
  · exact (Kept.refl s).run
  · have := boot_prefix f s
    rw [hu] at this
    exact { hb this hs with started := fun h' => by rw [hs] at h'; cases h' }
  · have := boot_prefix f s
    rw [hu] at this
    exact hb this hs

theorem request_run {i : Instr} {op : Op OpResult} (h : requestOp i = some op) (s : State) :
    RunKept s (endState (op s)) := by
  by_cases h1 : i = .onInterrupt
  · subst h1; cases h; exact onInterrupt_run s
  · by_cases h2 : i = .reset
    · subst h2; cases h; exact resetOp_run s
    · exact (kept_request h h1 h2 s).run

/-- What every step keeps. -/
structure StepRun (s t : State) : Prop where
  config : t.config = s.config
  pciBus : t.pciBus = s.pciBus
  busMap : t.busMap = s.busMap
  fault : ∀ r, s.fault = some r → t.fault = some r
  results : s.results <+: t.results
  eeWidth : s.eeWidth ≠ .unknown → t.eeWidth = s.eeWidth
  log : s.log <+: t.log
  replies : s.replies <+: t.replies
  reports : s.reports <+: t.reports
  wire : s.dev.wire <+: t.dev.wire
  events : s.events <:+ t.events
  mem : s.mem.wf = true → t.mem.wf = true
  counters : s.dev.counters.length = s.config.statsWords → t.dev.counters.length = s.config.statsWords
  started : s.started = true → t.started = true ∧ t.rxAddr = s.rxAddr ∧ t.txAddr = s.txAddr ∧
    t.statsAddr = s.statsAddr ∧ t.cfgAddr = s.cfgAddr ∧ t.base = s.base ∧ t.irq = s.irq ∧ t.hwAddr = s.hwAddr

theorem StepRun.of_run {s u : State} {rest : List Input} (h : RunKept { s with agenda := rest } u) (l : List OpResult)
    (f : Option FatalReason) (hf : ∀ r, u.fault = some r → f = some r) :
    StepRun s { u with results := u.results ++ l, fault := f } :=
  { h with
    fault := fun r hr => hf r (h.fault.trans hr)
    results := by show s.results <+: u.results ++ l; rw [h.results]; exact List.prefix_append _ _ }

theorem runOperation_run {op : Op OpResult} {s t : State} {rest : List Input}
    (hk : RunKept { s with agenda := rest } (endState (op { s with agenda := rest })))
    (h : runOperation op { s with agenda := rest } = .next t) : StepRun s t := by
  rcases runOperation_cases h with ⟨r, hf, rfl⟩ | ⟨hf, x, u, hu, rfl⟩ | ⟨hf, r, u, hu, rfl⟩
  · exact StepRun.of_run (Kept.refl { s with agenda := rest }).run [.refused] s.fault fun _ h => h
  · rw [hu] at hk
    exact StepRun.of_run hk [x] u.fault fun _ h => h
  · rw [hu] at hk
    have := StepRun.of_run hk [] (takeFatal r u).fault fun r0 h => takeFatal_keeps h
    rw [List.append_nil] at this
    exact this

theorem step_run {s t : State} (h : step s = .next t) : StepRun s t := by
  rcases step_cases s with ⟨-, hs⟩ | ⟨w, p, rest, i, op, -, -, ho, hs⟩ | ⟨w, p, rest, r, -, -, hs⟩ | ⟨m, rest, -, hs⟩
  · rw [hs] at h; cases h
    exact { (Kept.refl s).run with
      results := List.prefix_refl _, fault := fun _ h => h }
  · rw [hs] at h; exact runOperation_run (request_run ho _) h
  · rw [hs] at h; exact runOperation_run (kept_raise .illegalOp _).run h
  · rw [hs] at h
    obtain ⟨h1, h2⟩ := runDevice_moved h
    have hk := kept_deviceMove m { s with agenda := rest }
    rw [h1] at hk
    exact { hk.run with
      fault := fun r hr => hk.fault.trans hr
      results := by have := hk.results; simp only [endState] at this; rw [this] }

end Sys2Proof.Machine
end

