-- ==== Sys2Proof/Laws/Good.lean ====
section
/-! SUPPORT. The parts of a sound state that say something about a running block (`State.Good`), and which pieces
keep them: accesses, device moves, polls, commands, the serial engine. -/

namespace Sys2Proof.Machine

/-! ### A property of states that an operation keeps when it ends -/

/-- If the operation ends from a state with the property, it ends in one. -/
def Holds (P : State → Prop) {α : Type} (x : Op α) : Prop := ∀ s, P s → ∀ a t, x s = .ok a t → P t

section
variable {P : State → Prop} {α β : Type}

theorem holds_bind {x : Op α} {f : α → Op β} (hx : Holds P x) (hf : ∀ a, Holds P (f a)) : Holds P (x >>= f) := by
  intro s hs b u h
  rw [bind_apply] at h
  cases hxs : x s with
  | ok a t => rw [hxs] at h; exact hf a t (hx s hs a t hxs) b u h
  | error e t => rw [hxs] at h; cases h

theorem holds_get_bind {f : State → Op β} (hf : ∀ s, P s → ∀ b t, f s s = .ok b t → P t) : Holds P (get >>= f) := hf

theorem holds_get : Holds P (get : Op State) := fun s hs a t h => by cases h; exact hs

theorem holds_pure (a : α) : Holds P (pure a : Op α) := fun s hs b t h => by cases h; exact hs

theorem holds_raise (r : FatalReason) : Holds P (raise r : Op α) := fun s _ b t h => by cases h

theorem holds_stop (f : Fault) : Holds P (stop f : Op α) := fun s _ b t h => by cases h

theorem holds_ite {c : Prop} [Decidable c] {x y : Op α} (hx : Holds P x) (hy : Holds P y) :
    Holds P (if c then x else y) := by
  split
  · exact hx
  · exact hy

theorem holds_require (b : Bool) (r : FatalReason) : Holds P (require b r) := holds_ite (holds_pure ()) (holds_raise r)

theorem holds_modify {f : State → State} (h : ∀ s, P s → P (f s)) : Holds P (modify f : Op Unit) :=
  fun s hs a t ht => by cases ht; exact h s hs

theorem holds_requireStarted : Holds P requireStarted := holds_bind holds_get fun _ => holds_require _ _

end

/-! ### What a running block keeps -/

/-- The parts of a sound state that say something about a running block. -/
structure State.Good (s : State) : Prop where
  params : s.config.wf = true
  laid : s.Laid
  marks : s.Marks
  serial : s.SerialIdle
  threshold : s.txThreshold.toNat ≤ s.config.threshMax.toNat

/-- Two states that agree on what `Good` looks at. -/
structure SameGood (s t : State) : Prop where
  config : t.config = s.config
  rxAddr : t.rxAddr = s.rxAddr
  txAddr : t.txAddr = s.txAddr
  statsAddr : t.statsAddr = s.statsAddr
  cfgAddr : t.cfgAddr = s.cfgAddr
  rxHead : t.rxHead = s.rxHead
  txHead : t.txHead = s.txHead
  txTail : t.txTail = s.txTail
  txIdle : t.txIdle = s.txIdle
  txThreshold : t.txThreshold = s.txThreshold
  busy : t.serBusy = s.serBusy
  lines : t.lines = s.lines
  serCtl : t.dev.serCtl = s.dev.serCtl
  ee : t.dev.ee = s.dev.ee
  phy : t.dev.phy = s.dev.phy
  rxCommand : ∀ i, i < s.config.nRx → t.rxCommand i = s.rxCommand i
  txCommand : ∀ i, i < s.config.nTx → t.txCommand i = s.txCommand i

theorem SameGood.of_mem {s t : State} (hm : t.mem = s.mem) (h1 : t.config = s.config) (h2 : t.rxAddr = s.rxAddr)
    (h3 : t.txAddr = s.txAddr) (h4 : t.statsAddr = s.statsAddr) (h5 : t.cfgAddr = s.cfgAddr) (h6 : t.rxHead = s.rxHead)
    (h7 : t.txHead = s.txHead) (h8 : t.txTail = s.txTail) (h9 : t.txIdle = s.txIdle)
    (h10 : t.txThreshold = s.txThreshold) (h11 : t.serBusy = s.serBusy) (h12 : t.lines = s.lines)
    (h13 : t.dev.serCtl = s.dev.serCtl) (h14 : t.dev.ee = s.dev.ee) (h15 : t.dev.phy = s.dev.phy) : SameGood s t :=
  ⟨h1, h2, h3, h4, h5, h6, h7, h8, h9, h10, h11, h12, h13, h14, h15,
    fun i _ => by simp only [State.rxCommand, State.rxSlot, State.half, hm, h2],
    fun i _ => by simp only [State.txCommand, State.txSlot, State.half, hm, h3]⟩

theorem SameGood.good {s t : State} (h : SameGood s t) (hs : s.Good) : t.Good where
  params := by rw [h.config]; exact hs.params
  laid := hs.laid.of_eq h.config h.rxAddr h.txAddr h.statsAddr h.cfgAddr
  marks :=
    { rxHead := by rw [h.config, h.rxHead]; exact hs.marks.rxHead
      txHead := by rw [h.config, h.txHead]; exact hs.marks.txHead
      txTail := by rw [h.config, h.txTail]; exact hs.marks.txTail
      rxEl := fun i hi => by
        rw [h.config] at hi
        rw [h.rxCommand i hi, h.config, h.rxHead]; exact hs.marks.rxEl i hi
      txEl := fun i hi => by
        rw [h.config] at hi
        rw [h.txCommand i hi, h.txHead]; exact hs.marks.txEl i hi
      idle := fun hi => by rw [h.txIdle] at hi; rw [h.txTail, h.txHead]; exact hs.marks.idle hi }
  serial := by
    obtain ⟨a, b, c, d, e⟩ := hs.serial
    exact ⟨h.busy.trans a, h.lines.trans b, h.serCtl.trans c, h.ee.trans d, h.phy.trans e⟩
  threshold := by rw [h.txThreshold, h.config]; exact hs.threshold

/-- Nothing that `Good` looks at has changed. -/
theorem State.Good.same {s t : State} (hs : s.Good) (hm : t.mem = s.mem) (h1 : t.config = s.config) (h2 : t.rxAddr = s.rxAddr)
    (h3 : t.txAddr = s.txAddr) (h4 : t.statsAddr = s.statsAddr) (h5 : t.cfgAddr = s.cfgAddr) (h6 : t.rxHead = s.rxHead)
    (h7 : t.txHead = s.txHead) (h8 : t.txTail = s.txTail) (h9 : t.txIdle = s.txIdle)
    (h10 : t.txThreshold = s.txThreshold) (h11 : t.serBusy = s.serBusy) (h12 : t.lines = s.lines)
    (h13 : t.dev.serCtl = s.dev.serCtl) (h14 : t.dev.ee = s.dev.ee) (h15 : t.dev.phy = s.dev.phy) : t.Good :=
  (SameGood.of_mem hm h1 h2 h3 h4 h5 h6 h7 h8 h9 h10 h11 h12 h13 h14 h15).good hs

section
variable {α β : Type}

theorem good_modify {f : State → State} (h : ∀ s, SameGood s (f s)) : Holds State.Good (modify f : Op Unit) :=
  holds_modify fun s hs => (h s).good hs

theorem good_readHalf (w : Agent) (a : BusAddr) : Holds State.Good (readHalf w a) := fun s hs b t h => by
  cases h; exact hs.same rfl rfl rfl rfl rfl rfl rfl rfl rfl rfl rfl rfl rfl rfl rfl rfl

theorem good_readWord (w : Agent) (a : BusAddr) : Holds State.Good (readWord w a) := fun s hs b t h => by
  cases h; exact hs.same rfl rfl rfl rfl rfl rfl rfl rfl rfl rfl rfl rfl rfl rfl rfl rfl

theorem good_readBuffer (w : Agent) (a : BusAddr) (n : Nat) : Holds State.Good (readBuffer w a n) := fun s hs b t h => by
  cases h; exact hs.same rfl rfl rfl rfl rfl rfl rfl rfl rfl rfl rfl rfl rfl rfl rfl rfl

theorem good_logEvent (e : LogEvent) : Holds State.Good (logEvent e) :=
  good_modify fun _ => SameGood.of_mem rfl rfl rfl rfl rfl rfl rfl rfl rfl rfl rfl rfl rfl rfl rfl rfl

theorem good_reply (c : Client) (v : Reply) : Holds State.Good (reply c v) :=
  good_modify fun _ => SameGood.of_mem rfl rfl rfl rfl rfl rfl rfl rfl rfl rfl rfl rfl rfl rfl rfl rfl

theorem good_replyUnnamed (v : Reply) : Holds State.Good (replyUnnamed v) :=
  good_modify fun _ => SameGood.of_mem rfl rfl rfl rfl rfl rfl rfl rfl rfl rfl rfl rfl rfl rfl rfl rfl

theorem good_setPollScript (l : List PollEvent) : Holds State.Good (setPollScript l) :=
  good_modify fun _ => SameGood.of_mem rfl rfl rfl rfl rfl rfl rfl rfl rfl rfl rfl rfl rfl rfl rfl rfl

theorem good_portRead (r : ReadReg) : Holds State.Good (portRead r) := fun s hs b t h => by
  cases h
  refine hs.same rfl rfl rfl rfl rfl rfl rfl rfl rfl rfl rfl rfl rfl ?_ ?_ ?_ <;>
    cases r <;> simp only [Device.afterRead, Device.readSerCtl] <;> split <;> rfl

theorem good_portWrite {r : WriteReg} (hr : r ≠ .serCtl) (v : Word) : Holds State.Good (portWrite r v) := fun s hs b t h => by
  cases h
  refine hs.same rfl rfl rfl rfl rfl rfl rfl rfl rfl rfl rfl rfl rfl ?_ ?_ ?_ <;>
    cases r <;> simp only [Device.writeRegister, Device.writeScbCmd, Device.writeScbPort] <;>
    first | rfl | exact absurd rfl hr | (split <;> rfl)

theorem good_rxAddrOf (i : Nat) : Holds State.Good (rxAddrOf i) := fun s hs b t h => by
  rw [rxAddrOf_eq] at h; split at h <;> cases h; exact hs

theorem good_txAddrOf (i : Nat) : Holds State.Good (txAddrOf i) := fun s hs b t h => by
  rw [txAddrOf_eq] at h; split at h <;> cases h; exact hs

theorem good_readUnitCode (e : Engine) : Holds State.Good (readUnitCode e) :=
  holds_bind holds_get fun _ => holds_bind (good_portRead _) fun _ => holds_pure _

theorem good_readFieldIsNop (e : Engine) : Holds State.Good (readFieldIsNop e) :=
  holds_bind (good_portRead _) fun _ => holds_pure _

end

/-! ### Writes away from the command words -/

theorem half_of_only {s t : State} {sp : List (BusAddr × Nat)} {a : BusAddr} (h : s.ChangesOnly t sp)
    (ha : ∀ r ∈ sp, Apart r.1 r.2 a 2) : t.half a = s.half a := by
  unfold State.half
  rw [Memory.readBytes_congr (by decide) fun x hx => h x fun r hr => ha r hr x hx]

theorem exists_rxSlot {s : State} (h : s.Laid) {a : BusAddr} (ha : a ∈ s.rxAddr) : ∃ j, j < s.config.nRx ∧ a = s.rxSlot j := by
  obtain ⟨j, hj, rfl⟩ := List.getElem_of_mem ha
  exact ⟨j, by rw [← h.rxLen]; exact hj, by rw [State.rxSlot, List.getD_eq_getElem _ _ hj]⟩

theorem exists_txSlot {s : State} (h : s.Laid) {a : BusAddr} (ha : a ∈ s.txAddr) : ∃ j, j < s.config.nTx ∧ a = s.txSlot j := by
  obtain ⟨j, hj, rfl⟩ := List.getElem_of_mem ha
  exact ⟨j, by rw [← h.txLen]; exact hj, by rw [State.txSlot, List.getD_eq_getElem _ _ hj]⟩

/-- Two regions' starts: a whole region lies apart from a part of another. -/
theorem apart_whole {A B k' : BusAddr} {m W W' : Nat} (hA : A.toNat + W ≤ 2 ^ 32) (hB : B.toNat + W' ≤ 2 ^ 32)
    (hd : A.toNat + W ≤ B.toNat ∨ B.toNat + W' ≤ A.toNat) (h2 : k'.toNat + m ≤ W') : Apart A W (B + k') m := by
  have := apart_in (k := 0) (n := W) hA hB hd (by simp) h2
  rwa [show A + 0 = A by simp] at this

section
variable {s : State} (h : s.Laid)
include h

/-- The device writes no RX command word. -/
theorem deviceSpans_apart_rx {i : Nat} (hi : i < s.config.nRx) {r : BusAddr × Nat} (hr : r ∈ s.deviceSpans) :
    Apart r.1 r.2 (s.rxSlot i + offCommand) 2 := by
  have hD := descriptorSize_ge s.config
  have hB := h.rx_fits hi
  simp only [State.deviceSpans, List.mem_append, List.mem_flatMap, List.mem_map, List.mem_cons, List.not_mem_nil,
    or_false] at hr
  rcases hr with (⟨a, ha, hr⟩ | ⟨a, ha, rfl⟩) | hr
  · obtain ⟨j, hj, rfl⟩ := exists_rxSlot h ha
    have hA := h.rx_fits hj
    by_cases hij : j = i
    · subst hij
      rcases hr with rfl | rfl | rfl <;> refine apart_same hA ?_ ?_ ?_ <;> simp <;> omega
    · have hd := h.rx_rx hj hi hij
      rcases hr with rfl | rfl | rfl <;> refine apart_in hA hB hd ?_ ?_ <;> simp <;> omega
  · obtain ⟨j, hj, rfl⟩ := exists_txSlot h ha
    have hA := h.tx_fits hj
    have hd := h.rx_tx hi hj
    refine apart_in hA hB (by omega) ?_ ?_ <;> simp <;> omega
  · rcases hr with rfl | rfl
    · have hd := h.rx_stats hi
      exact apart_whole h.stats_fits hB hd.symm (by simp; omega)
    · have hd := h.rx_cfg hi
      exact apart_whole h.cfg_fits hB hd.symm (by simp; omega)

/-- The device writes no TX command word. -/
theorem deviceSpans_apart_tx {i : Nat} (hi : i < s.config.nTx) {r : BusAddr × Nat} (hr : r ∈ s.deviceSpans) :
    Apart r.1 r.2 (s.txSlot i + offCommand) 2 := by
  have hD := descriptorSize_ge s.config
  have hB := h.tx_fits hi
  simp only [State.deviceSpans, List.mem_append, List.mem_flatMap, List.mem_map, List.mem_cons, List.not_mem_nil,
    or_false] at hr
  rcases hr with (⟨a, ha, hr⟩ | ⟨a, ha, rfl⟩) | hr
  · obtain ⟨j, hj, rfl⟩ := exists_rxSlot h ha
    have hA := h.rx_fits hj
    have hd := h.rx_tx hj hi
    rcases hr with rfl | rfl | rfl <;> refine apart_in hA hB hd ?_ ?_ <;> simp <;> omega
  · obtain ⟨j, hj, rfl⟩ := exists_txSlot h ha
    have hA := h.tx_fits hj
    by_cases hij : j = i
    · subst hij
      refine apart_same hA ?_ ?_ ?_ <;> simp <;> omega
    · have hd := h.tx_tx hj hi hij
      refine apart_in hA hB hd ?_ ?_ <;> simp <;> omega
  · rcases hr with rfl | rfl
    · have hd := h.tx_stats hi
      exact apart_whole h.stats_fits hB hd.symm (by simp; omega)
    · have hd := h.tx_cfg hi
      exact apart_whole h.cfg_fits hB hd.symm (by simp; omega)

end

/-- A device move keeps a running block's state good. -/
theorem Moved.good {s t : State} (hm : Moved s.deviceSpans s t) (hs : s.Good) : t.Good := by
  have hf := hm.frame
  have hr : ∀ i, t.rxSlot i = s.rxSlot i := fun i => by rw [hf]; rfl
  have hx : ∀ i, t.txSlot i = s.txSlot i := fun i => by rw [hf]; rfl
  have hsame : SameGood s t :=
    ⟨by rw [hf], by rw [hf], by rw [hf], by rw [hf], by rw [hf], by rw [hf], by rw [hf], by rw [hf], by rw [hf],
      by rw [hf], by rw [hf], by rw [hf], hm.serCtl, hm.ee, hm.phy,
      fun i hi => by
        rw [State.rxCommand, hr]
        exact half_of_only hm.only fun r hr => deviceSpans_apart_rx hs.laid hi hr,
      fun i hi => by
        rw [State.txCommand, hx]
        exact half_of_only hm.only fun r hr => deviceSpans_apart_tx hs.laid hi hr⟩
  exact hsame.good hs

theorem good_deviceMove (m : DeviceMove) : Holds State.Good (deviceMove m) := by
  intro s hs a t h
  have := moves_deviceMove (o := s) m s ⟨rfl, rfl, rfl, rfl, rfl⟩
  rw [h] at this
  exact Moved.good this hs

/-- The block writes in the statistics region or in the configuration block. -/
theorem good_write_outside {s : State} (hs : s.Good) {w : Agent} {a : BusAddr} {bs : List Byte}
    (h : ∀ x, inSpan a bs.length x = true → ∃ r ∈ s.deviceSpans, inSpan r.1 r.2 x = true) : (s.store w a bs).Good := by
  refine Moved.good (s := s) ⟨rfl, fun x hx => byteAt_store_other ?_, rfl, rfl, rfl⟩ hs
  rw [Bool.eq_false_iff]
  intro hin
  obtain ⟨r, hr, hrx⟩ := h x hin
  rw [hx r hr] at hrx
  cases hrx

/-! ### Commands -/

theorem good_awaitLoop {test : Op Bool} (h : Holds State.Good test) (r : FatalReason) (l : List PollEvent) (n : Nat) :
    Holds State.Good (awaitLoop test r l n) := by
  induction l generalizing n with
  | nil =>
    cases n with
    | zero => exact holds_bind (good_setPollScript _) fun _ => holds_raise _
    | succ n => exact holds_bind (good_setPollScript _) fun _ => holds_bind h fun _ => holds_require _ _
  | cons e l ih =>
    cases n with
    | zero => cases e <;> exact holds_bind (good_setPollScript _) fun _ => holds_raise _
    | succ n =>
      cases e with
      | move m => exact holds_bind (good_deviceMove m) fun _ => ih (n + 1)
      | read => exact holds_bind h fun b => holds_ite (good_setPollScript _) (ih n)
      | timeout => exact holds_bind (good_setPollScript _) fun _ => holds_raise _

theorem good_awaitDevice {test : Op Bool} (h : Holds State.Good test) (n : Nat) (r : FatalReason) :
    Holds State.Good (awaitDevice test n r) := holds_bind holds_get fun _ => good_awaitLoop h r _ n

theorem good_readStatsDone : Holds State.Good readStatsDone :=
  holds_bind holds_get fun _ => holds_bind (good_readWord _ _) fun _ => holds_pure _

theorem good_prepareDump (cmd : EngineCommand) (a : BusAddr) : Holds State.Good (prepareDump cmd a) := by
  refine holds_get_bind fun s hs b t h => ?_
  split at h
  · cases hb : (a == s.statsAddr)
    · simp only [bind_apply, require_apply, hb, if_neg Bool.false_ne_true] at h
      cases h
    · simp only [bind_apply, require_apply, hb, if_true, writeWord_apply] at h
      cases h
      refine good_write_outside hs fun x hx => ⟨_, mem_deviceSpans_stats, ?_⟩
      rw [length_leBytes, State.statsDoneAddr] at hx
      exact inSpan_add hx (by omega)
  · cases h; exact hs

theorem good_issue (cmd : EngineCommand) (a : BusAddr) (ri : Bool) : Holds State.Good (issue cmd a ri) :=
  holds_bind (holds_ite (holds_bind (good_readUnitCode _) fun _ => holds_require _ _) (holds_pure _)) fun _ =>
    holds_bind (good_readFieldIsNop _) fun _ => holds_bind (holds_require _ _) fun _ =>
    holds_bind (good_prepareDump _ _) fun _ => holds_bind holds_get fun _ =>
    holds_bind (good_portWrite (by decide) _) fun _ => holds_bind (good_portWrite (by decide) _) fun _ =>
    holds_bind (good_awaitDevice (good_readFieldIsNop _) _ _) fun _ =>
    holds_bind holds_get fun _ => holds_ite (good_awaitDevice good_readStatsDone _ _) (holds_pure _)

theorem good_applyConfig : Holds State.Good applyConfig := by
  refine holds_get_bind fun s hs b t h => ?_
  have hw : (s.store .block s.cfgAddr (cfgBlock s.config s.cfg)).Good :=
    good_write_outside hs fun x hx => ⟨_, mem_deviceSpans_cfg, inSpan_mono hx (by simp [cfgBlock])⟩
  have hr : Holds State.Good (issue .cuStart s.cfgAddr true >>= fun _ =>
      awaitDevice readCuIdle s.config.cuPollBound .cmdTimeout >>= fun _ =>
      modify fun s => { s with cfgPending := false }) :=
    holds_bind (good_issue _ _ _) fun _ => holds_bind (good_awaitDevice (holds_bind (good_readUnitCode _) fun _ =>
      holds_pure _) _ _) fun _ => good_modify fun _ =>
      SameGood.of_mem rfl rfl rfl rfl rfl rfl rfl rfl rfl rfl rfl rfl rfl rfl rfl rfl
  rw [bind_apply, writeBuffer_apply] at h
  exact hr _ hw b t h

/-! ### The serial engine -/

/-- Two states that agree on what a serial operation leaves alone. -/
structure SameBlock (s t : State) : Prop where
  mem : t.mem = s.mem
  config : t.config = s.config
  rxAddr : t.rxAddr = s.rxAddr
  txAddr : t.txAddr = s.txAddr
  statsAddr : t.statsAddr = s.statsAddr
  cfgAddr : t.cfgAddr = s.cfgAddr
  rxHead : t.rxHead = s.rxHead
  txHead : t.txHead = s.txHead
  txTail : t.txTail = s.txTail
  txIdle : t.txIdle = s.txIdle
  txThreshold : t.txThreshold = s.txThreshold

theorem SameBlock.refl (s : State) : SameBlock s s := ⟨rfl, rfl, rfl, rfl, rfl, rfl, rfl, rfl, rfl, rfl, rfl⟩

theorem SameBlock.trans (a b c : State) (h : SameBlock a b) (h' : SameBlock b c) : SameBlock a c :=
  ⟨h'.mem.trans h.mem, h'.config.trans h.config, h'.rxAddr.trans h.rxAddr, h'.txAddr.trans h.txAddr,
    h'.statsAddr.trans h.statsAddr, h'.cfgAddr.trans h.cfgAddr, h'.rxHead.trans h.rxHead, h'.txHead.trans h.txHead,
    h'.txTail.trans h.txTail, h'.txIdle.trans h.txIdle, h'.txThreshold.trans h.txThreshold⟩

/-- What a serial operation leaves alone, and an idle engine: the state is good again. -/
theorem SameBlock.good {s t : State} (h : SameBlock s t) (hi : t.SerialIdle) (hs : s.Good) : t.Good := by
  have : SameGood s t := SameGood.of_mem h.mem h.config h.rxAddr h.txAddr h.statsAddr h.cfgAddr h.rxHead h.txHead h.txTail
    h.txIdle h.txThreshold (hi.busy.trans hs.serial.busy.symm) (hi.lines.trans hs.serial.lines.symm)
    (hi.serCtl.trans hs.serial.serCtl.symm) (hi.ee.trans hs.serial.ee.symm) (hi.phy.trans hs.serial.phy.symm)
  exact this.good hs

section
variable {α β : Type}

theorem same_bind {x : Op α} {f : α → Op β} (hx : Keeps SameBlock x) (hf : ∀ a, Keeps SameBlock (f a)) :
    Keeps SameBlock (x >>= f) := Keeps.bind SameBlock.trans hx hf

theorem same_get : Keeps SameBlock (get : Op State) := fun s => SameBlock.refl s

theorem same_pure (a : α) : Keeps SameBlock (pure a : Op α) := fun s => SameBlock.refl s

theorem same_raise (r : FatalReason) : Keeps SameBlock (raise r : Op α) := fun s => SameBlock.refl s

theorem same_require (b : Bool) (r : FatalReason) : Keeps SameBlock (require b r) :=
  Keeps.ite (same_pure ()) (same_raise r)

theorem same_modify {f : State → State} (h : ∀ s, SameBlock s (f s)) : Keeps SameBlock (modify f : Op Unit) := h

end

theorem same_driveLines (v : Byte) : Keeps SameBlock (driveLines v) := fun _ =>
  ⟨rfl, rfl, rfl, rfl, rfl, rfl, rfl, rfl, rfl, rfl, rfl⟩

theorem same_driveLine (l : Byte) (b : Bool) : Keeps SameBlock (driveLine l b) :=
  same_bind same_get fun _ => same_driveLines _

theorem same_readDo : Keeps SameBlock readDo := fun _ => ⟨rfl, rfl, rfl, rfl, rfl, rfl, rfl, rfl, rfl, rfl, rfl⟩

theorem same_shiftOut (b : Bool) : Keeps SameBlock (shiftOut b) :=
  same_bind (same_driveLine _ _) fun _ => same_bind (same_driveLine _ _) fun _ => same_driveLine _ _

theorem same_shiftIn : Keeps SameBlock shiftIn :=
  same_bind (same_driveLine _ _) fun _ => same_bind same_readDo fun _ => same_bind (same_driveLine _ _) fun _ => same_pure _

theorem same_shiftOutAll (l : List Bool) : Keeps SameBlock (shiftOutAll l) := by
  induction l with
  | nil => exact same_pure _
  | cons b l ih => exact same_bind (same_shiftOut b) fun _ => ih

theorem same_shiftInWord (n : Nat) (d : Half) : Keeps SameBlock (shiftInWord n d) := by
  induction n generalizing d with
  | zero => exact same_pure _
  | succ n ih => exact same_bind same_shiftIn fun _ => ih _

theorem same_eeScan (w n : Nat) : Keeps SameBlock (eeScan w n) := by
  induction n generalizing w with
  | zero => exact same_pure _
  | succ n ih =>
    exact same_bind (same_shiftOut _) fun _ => same_bind same_readDo fun _ => Keeps.ite (ih _) (same_pure _)

theorem same_leaveSerial : Keeps SameBlock leaveSerial :=
  same_modify fun _ => ⟨rfl, rfl, rfl, rfl, rfl, rfl, rfl, rfl, rfl, rfl, rfl⟩

theorem same_enterSerial : Keeps SameBlock enterSerial :=
  same_bind same_get fun _ => same_bind (same_require _ _) fun _ =>
    same_modify fun _ => ⟨rfl, rfl, rfl, rfl, rfl, rfl, rfl, rfl, rfl, rfl, rfl⟩

theorem same_eeSelect : Keeps SameBlock eeSelect := same_bind (same_driveLines _) fun _ => same_shiftOutAll _

theorem same_eeDetectWidth : Keeps SameBlock eeDetectWidth := by
  refine same_bind same_eeSelect fun _ => same_bind (same_eeScan _ _) fun r => ?_
  split
  · exact same_bind same_leaveSerial fun _ => same_raise _
  · exact same_bind (same_shiftInWord _ _) fun _ => same_bind (same_driveLines _) fun _ => same_pure _

theorem same_ensureEeWidth : Keeps SameBlock ensureEeWidth :=
  same_bind same_get fun _ => Keeps.ite (same_bind same_eeDetectWidth fun _ =>
    same_modify fun _ => ⟨rfl, rfl, rfl, rfl, rfl, rfl, rfl, rfl, rfl, rfl, rfl⟩) (same_pure _)

theorem same_eeReadFrame (reg : Nat) : Keeps SameBlock (eeReadFrame reg) :=
  same_bind same_get fun _ => same_bind same_eeSelect fun _ => same_bind (same_shiftOutAll _) fun _ =>
    same_bind (same_shiftInWord _ _) fun _ => same_bind (same_driveLines _) fun _ => same_pure _

theorem same_readEeprom (reg : Nat) : Keeps SameBlock (readEeprom reg) :=
  same_bind same_enterSerial fun _ => same_bind same_ensureEeWidth fun _ =>
    same_bind (same_bind same_get fun _ => Keeps.ite (same_pure _) (same_bind same_leaveSerial fun _ => same_raise _)) fun _ =>
    same_bind (same_eeReadFrame reg) fun _ => same_bind same_leaveSerial fun _ => same_pure _

theorem same_readPhy (reg : Nat) : Keeps SameBlock (readPhy reg) :=
  same_bind same_get fun _ => same_bind same_enterSerial fun _ => same_bind (same_driveLines _) fun _ =>
    same_bind (same_shiftOutAll _) fun _ => same_bind (same_driveLine _ _) fun _ => same_bind same_shiftIn fun _ =>
    same_bind same_shiftIn fun _ => same_bind (same_shiftInWord _ _) fun _ => same_bind (same_driveLines _) fun _ =>
    same_bind same_leaveSerial fun _ => same_pure _

/-- Every state the piece ends in has the property. -/
def Ends (P : State → Prop) {α : Type} (x : Op α) : Prop := ∀ s a t, x s = .ok a t → P t

theorem ends_bind {P : State → Prop} {α β : Type} {x : Op α} {f : α → Op β} (hf : ∀ a, Ends P (f a)) :
    Ends P (x >>= f) := by
  intro s b u h
  rw [bind_apply] at h
  cases hxs : x s with
  | ok a t => rw [hxs] at h; exact hf a t b u h
  | error e t => rw [hxs] at h; cases h

/-- All lines low: whatever went before, both slaves are deselected. -/
theorem lines_low (s : State) : ∃ t, driveLines 0 s = .ok () t ∧ t.lines = 0 ∧ t.dev.serCtl = 0 ∧ t.dev.ee = .idle ∧
    t.dev.phy = .idle := by
  have he : ∀ c o e, EeSlave.onLines c o 0 e = .idle := fun c o e => by
    unfold EeSlave.onLines; rw [if_pos (by decide)]
  have hp : ∀ c g o p, PhySlave.onLines c g o 0 p = .idle := fun c g o p => by
    unfold PhySlave.onLines; simp only; rw [if_pos (by decide)]
  refine ⟨{ s with
    lines := 0, dev := s.dev.writeSerCtl s.config 0
    events := .delay s.config.serDelayUs :: .portWrite (s.writePort .serCtl) ((0 : Byte).setWidth 32) :: s.events },
    rfl, rfl, rfl, ?_, ?_⟩
  · exact he s.config s.dev.serCtl s.dev.ee
  · exact hp s.config s.dev.phyRegister s.dev.serCtl s.dev.phy

theorem ends_serial {α β : Type} (d : α) (e : β) :
    Ends State.SerialIdle ((driveLines 0 >>= fun _ => (pure d : Op α)) >>= fun _ => leaveSerial >>= fun _ => (pure e : Op β)) := by
  intro s a t h
  obtain ⟨u, hu, h1, h2, h3, h4⟩ := lines_low s
  simp only [bind_apply, hu, pure_apply, leaveSerial, modify_apply] at h
  cases h
  exact ⟨rfl, h1, h2, h3, h4⟩

theorem readEeprom_ends (reg : Nat) : Ends State.SerialIdle (readEeprom reg) := by
  refine ends_bind fun _ => ends_bind fun _ => ends_bind fun _ => ?_
  unfold eeReadFrame
  simp only [bind_assoc]
  refine ends_bind fun _ => ends_bind fun _ => ends_bind fun _ => ends_bind fun d => ?_
  have := ends_serial d d
  simpa only [bind_assoc, pure_bind] using this

theorem readPhy_ends (reg : Nat) : Ends State.SerialIdle (readPhy reg) := by
  refine ends_bind fun _ => ends_bind fun _ => ends_bind fun _ => ends_bind fun _ => ends_bind fun _ => ends_bind fun _ =>
    ends_bind fun _ => ends_bind fun d => ?_
  have := ends_serial d d
  simpa only [bind_assoc, pure_bind] using this

theorem good_readEeprom (reg : Nat) : Holds State.Good (readEeprom reg) := fun s hs a t h => by
  have := same_readEeprom reg s
  rw [h] at this
  exact SameBlock.good this (readEeprom_ends reg s a t h) hs

theorem good_readPhy (reg : Nat) : Holds State.Good (readPhy reg) := fun s hs a t h => by
  have := same_readPhy reg s
  rw [h] at this
  exact SameBlock.good this (readPhy_ends reg s a t h) hs

end Sys2Proof.Machine
end

