-- ==== Sys2Proof/Laws/GoodRing.lean ====
section
/-! SUPPORT. Every operation of the port but the start-up sequence keeps a running block's state good: the rings,
flow control, the deferred phase, the clients. -/

namespace Sys2Proof.Machine

/-! ### Command words of other descriptors -/

section
variable {s : State} (h : s.Laid)
include h

theorem rx_span_rx {i j : Nat} (hj : j < s.config.nRx) (hi : i < s.config.nRx) (hij : j ≠ i) {k : BusAddr} {n : Nat}
    (hk : k.toNat + n ≤ 12 + s.config.bufSize) : Apart (s.rxSlot j + k) n (s.rxSlot i + offCommand) 2 := by
  have hD := descriptorSize_ge s.config
  exact apart_in (h.rx_fits hj) (h.rx_fits hi) (h.rx_rx hj hi hij) (by omega) (by simp; omega)

theorem rx_span_tx {i j : Nat} (hj : j < s.config.nRx) (hi : i < s.config.nTx) {k : BusAddr} {n : Nat}
    (hk : k.toNat + n ≤ 12 + s.config.bufSize) : Apart (s.rxSlot j + k) n (s.txSlot i + offCommand) 2 := by
  have hD := descriptorSize_ge s.config
  exact apart_in (h.rx_fits hj) (h.tx_fits hi) (h.rx_tx hj hi) (by omega) (by simp; omega)

theorem tx_span_rx {i j : Nat} (hj : j < s.config.nTx) (hi : i < s.config.nRx) {k : BusAddr} {n : Nat}
    (hk : k.toNat + n ≤ 12 + s.config.bufSize) : Apart (s.txSlot j + k) n (s.rxSlot i + offCommand) 2 := by
  have hD := descriptorSize_ge s.config
  exact apart_in (h.tx_fits hj) (h.rx_fits hi) (h.rx_tx hi hj).symm (by omega) (by simp; omega)

theorem tx_span_tx {i j : Nat} (hj : j < s.config.nTx) (hi : i < s.config.nTx) (hij : j ≠ i) {k : BusAddr} {n : Nat}
    (hk : k.toNat + n ≤ 12 + s.config.bufSize) : Apart (s.txSlot j + k) n (s.txSlot i + offCommand) 2 := by
  have hD := descriptorSize_ge s.config
  exact apart_in (h.tx_fits hj) (h.tx_fits hi) (h.tx_tx hj hi hij) (by omega) (by simp; omega)

theorem recycled_apart_rx {i j : Nat} (hj : j < s.config.nRx) (hi : i < s.config.nRx) (hij : j ≠ i)
    {r : BusAddr × Nat} (hr : r ∈ s.recycledSpans j) : Apart r.1 r.2 (s.rxSlot i + offCommand) 2 := by
  simp only [State.recycledSpans, List.mem_cons, List.not_mem_nil, or_false] at hr
  rcases hr with rfl | rfl
  · have := rx_span_rx h hj hi hij (k := 0) (n := 4) (by simp; omega)
    rwa [show s.rxSlot j + 0 = s.rxSlot j by simp] at this
  · exact rx_span_rx h hj hi hij (by simp; omega)

theorem recycled_apart_tx {i j : Nat} (hj : j < s.config.nRx) (hi : i < s.config.nTx)
    {r : BusAddr × Nat} (hr : r ∈ s.recycledSpans j) : Apart r.1 r.2 (s.txSlot i + offCommand) 2 := by
  simp only [State.recycledSpans, List.mem_cons, List.not_mem_nil, or_false] at hr
  rcases hr with rfl | rfl
  · have := rx_span_tx h hj hi (k := 0) (n := 4) (by simp; omega)
    rwa [show s.rxSlot j + 0 = s.rxSlot j by simp] at this
  · exact rx_span_tx h hj hi (by simp; omega)

theorem filled_apart_rx {i j : Nat} (hj : j < s.config.nTx) (hi : i < s.config.nRx) {f : Frame}
    (hf : f.length ≤ s.config.bufSize) {r : BusAddr × Nat} (hr : r ∈ s.filledSpans j f) :
    Apart r.1 r.2 (s.rxSlot i + offCommand) 2 := by
  simp only [State.filledSpans, List.mem_cons, List.not_mem_nil, or_false] at hr
  rcases hr with rfl | rfl | rfl
  · have := tx_span_rx h hj hi (k := 0) (n := 4) (by simp; omega)
    rwa [show s.txSlot j + 0 = s.txSlot j by simp] at this
  · exact tx_span_rx h hj hi (by simp; omega)
  · exact tx_span_rx h hj hi (by simp; omega)

theorem filled_apart_tx {i j : Nat} (hj : j < s.config.nTx) (hi : i < s.config.nTx) (hij : j ≠ i) {f : Frame}
    (hf : f.length ≤ s.config.bufSize) {r : BusAddr × Nat} (hr : r ∈ s.filledSpans j f) :
    Apart r.1 r.2 (s.txSlot i + offCommand) 2 := by
  simp only [State.filledSpans, List.mem_cons, List.not_mem_nil, or_false] at hr
  rcases hr with rfl | rfl | rfl
  · have := tx_span_tx h hj hi hij (k := 0) (n := 4) (by simp; omega)
    rwa [show s.txSlot j + 0 = s.txSlot j by simp] at this
  · exact tx_span_tx h hj hi hij (by simp; omega)
  · exact tx_span_tx h hj hi hij (by simp; omega)

/-- `write_slot` and the command words. -/
theorem writeSlot_commands {k : Nat} (hk : k < s.config.nTx) {f : Frame} (hf : f.length ≤ s.config.bufSize) :
    ∃ u : State, writeSlot k f s = .ok () u ∧ u = { s with mem := u.mem, events := u.events } ∧
      u.TxFilled k s.txThreshold f ∧ s.ChangesOnly u (s.filledSpans k f) ∧
      (∀ i, i < s.config.nTx → i ≠ k → u.txCommand i = s.txCommand i) ∧
      ∀ i, i < s.config.nRx → u.rxCommand i = s.rxCommand i := by
  obtain ⟨m, ev, hx, h1, h2, h3, h4, h5, hb⟩ := writeSlot_ok h hk hf
  have hco : s.ChangesOnly { s with mem := m, events := ev } (s.filledSpans k f) := fun x hx =>
    hb x (hx (s.txSlot k, 4) (by simp [State.filledSpans]))
      (hx (s.txSlot k + offByteCount, 3) (by simp [State.filledSpans]))
      (hx (s.txSlot k + offBuffer, f.length) (by simp [State.filledSpans]))
  exact ⟨_, hx, rfl, ⟨h1, h2, h3, h4, h5⟩, hco,
    fun i hi hik => half_of_only hco fun r hr => filled_apart_tx h hk hi (Ne.symm hik) hf hr,
    fun i hi => half_of_only hco fun r hr => filled_apart_rx h hk hi hf hr⟩

theorem txCommand_store {w : Agent} {i j : Nat} (hi : i < s.config.nTx) (hj : j < s.config.nTx) (hij : i ≠ j) (v : Half) :
    (s.store w (s.txSlot j + offCommand) (leBytes 2 v.toNat)).txCommand i = s.txCommand i := by
  unfold State.txCommand
  rw [store_txSlot]
  exact half_store_other (by rw [length_leBytes]; exact tx_span_tx h hj hi (Ne.symm hij) (by simp; omega))

theorem rxCommand_store {w : Agent} {i j : Nat} (hi : i < s.config.nRx) (hj : j < s.config.nTx) (v : Half) :
    (s.store w (s.txSlot j + offCommand) (leBytes 2 v.toNat)).rxCommand i = s.rxCommand i := by
  unfold State.rxCommand
  rw [store_rxSlot]
  exact half_store_other (by rw [length_leBytes]; exact tx_span_rx h hj hi (by simp; omega))

end

theorem commandEl_rx (b : Bool) : commandEl (rxCommandWord b) = b := by cases b <;> decide

theorem commandEl_tx (b : Bool) (op : BitVec 3) : commandEl (txCommandWord b op) = b := by
  cases b <;> revert op <;> decide

/-! ### The rings -/

theorem good_rxPoll : Holds State.Good rxPoll := by
  refine holds_bind holds_get fun s => holds_bind (good_rxAddrOf _) fun _ => holds_bind (good_readHalf _ _) fun _ =>
    holds_ite (holds_bind (holds_bind (holds_require _ _) fun _ => holds_bind (good_readHalf _ _) fun _ =>
      holds_bind (holds_require _ _) fun _ => holds_bind (good_readHalf _ _) fun _ =>
      holds_bind (holds_require _ _) fun _ => good_readBuffer _ _ _) fun _ => holds_pure _) (holds_pure _)

theorem good_rxRecycle (i : Nat) : Holds State.Good (rxRecycle i) := by
  intro s hs a t h
  have hw : 2 ≤ s.config.nRx := (Config.wf_facts hs.params).1
  have hh := hs.marks.rxHead
  by_cases hi : i = s.rxHead
  · subst hi
    cases hc : statusC (s.rxStatus s.rxHead)
    · obtain ⟨ev, hx⟩ := rxRecycle_incomplete (by rw [hs.laid.rxLen]; exact hh) hc
      rw [hx] at h; cases h
    · have hp : prevIdx s.config.nRx s.rxHead < s.config.nRx := prevIdx_lt (by omega)
      have hne := prevIdx_ne hw hh
      have hel : commandEl (s.rxCommand (prevIdx s.config.nRx s.rxHead)) = true := by
        rw [hs.marks.rxEl _ hp]; simp
      obtain ⟨u, hx, hu, -, -, c1, c2, hco, -⟩ := rxRecycle_ok hw hs.laid hh hc hel
      rw [hx] at h
      injection h with _ hut
      subst hut
      have e1 : u.config = s.config := by rw [hu]
      have e2 : u.rxHead = nextIdx s.config.nRx s.rxHead := by rw [hu]
      have hr : ∀ i, u.rxSlot i = s.rxSlot i := fun i => by rw [hu]; rfl
      have hx' : ∀ i, u.txSlot i = s.txSlot i := fun i => by rw [hu]; rfl
      have htx : ∀ i, i < s.config.nTx → u.txCommand i = s.txCommand i := fun i hi => by
        rw [State.txCommand, hx']
        refine half_of_only hco fun r hr => ?_
        rcases List.mem_append.mp hr with hr | hr
        · exact recycled_apart_tx hs.laid hh hi hr
        · rw [List.mem_singleton] at hr; subst hr
          exact rx_span_tx hs.laid hp hi (k := offCommand) (n := 2) (by simp; omega)
      refine ⟨by rw [e1]; exact hs.params, hs.laid.of_eq e1 (by rw [hu]) (by rw [hu]) (by rw [hu]) (by rw [hu]), ?_, ?_, ?_⟩
      · refine ⟨?_, ?_, ?_, ?_, ?_, ?_⟩
        · rw [e1, e2]; exact nextIdx_lt (by omega)
        · rw [e1, show u.txHead = s.txHead by rw [hu]]; exact hs.marks.txHead
        · rw [e1, show u.txTail = s.txTail by rw [hu]]; exact hs.marks.txTail
        · intro i hi
          rw [e1] at hi
          rw [e1, e2, prevIdx_nextIdx hh]
          by_cases h1 : i = s.rxHead
          · subst h1; rw [c1, commandEl_rx]; simp
          · by_cases h2 : i = prevIdx s.config.nRx s.rxHead
            · subst h2; rw [c2, commandEl_rx]; simp [hne]
            · rw [State.rxCommand, hr]
              rw [half_of_only hco fun r hr => ?_]
              · have := hs.marks.rxEl i hi
                rw [State.rxCommand] at this
                rw [this]; simp [h1, h2]
              · rcases List.mem_append.mp hr with hr | hr
                · exact recycled_apart_rx hs.laid hh hi (Ne.symm h1) hr
                · rw [List.mem_singleton] at hr; subst hr
                  exact rx_span_rx hs.laid hp hi (Ne.symm h2) (k := offCommand) (n := 2) (by simp; omega)
        · intro i hi
          rw [e1] at hi
          rw [htx i hi, show u.txHead = s.txHead by rw [hu]]
          exact hs.marks.txEl i hi
        · intro hid
          rw [show u.txIdle = s.txIdle by rw [hu]] at hid
          rw [show u.txTail = s.txTail by rw [hu], show u.txHead = s.txHead by rw [hu]]
          exact hs.marks.idle hid
      · obtain ⟨a, b, c, d, e⟩ := hs.serial
        exact ⟨by rw [hu]; exact a, by rw [hu]; exact b, by rw [hu]; exact c, by rw [hu]; exact d, by rw [hu]; exact e⟩
      · rw [e1, show u.txThreshold = s.txThreshold by rw [hu]]; exact hs.threshold
  · rw [rxRecycle_index hi] at h; cases h

/-- A good state in which the TX ring is another: what has to be shown. -/
theorem State.Good.newTx {s t : State} (hs : s.Good) (h1 : t.config = s.config) (h2 : t.rxAddr = s.rxAddr)
    (h3 : t.txAddr = s.txAddr) (h4 : t.statsAddr = s.statsAddr) (h5 : t.cfgAddr = s.cfgAddr) (h6 : t.rxHead = s.rxHead)
    (h7 : t.serBusy = s.serBusy) (h8 : t.lines = s.lines) (h9 : t.dev = s.dev) (h10 : t.txThreshold = s.txThreshold)
    (hr : ∀ i, i < s.config.nRx → t.rxCommand i = s.rxCommand i) (hh : t.txHead < s.config.nTx)
    (ht : t.txTail < s.config.nTx) (hx : ∀ i, i < s.config.nTx → commandEl (t.txCommand i) = (i == t.txHead))
    (hi : t.txIdle = true → t.txTail = t.txHead) : t.Good where
  params := by rw [h1]; exact hs.params
  laid := hs.laid.of_eq h1 h2 h3 h4 h5
  marks :=
    { rxHead := by rw [h1, h6]; exact hs.marks.rxHead
      txHead := by rw [h1]; exact hh
      txTail := by rw [h1]; exact ht
      rxEl := fun i hi => by rw [h1] at hi; rw [hr i hi, h1, h6]; exact hs.marks.rxEl i hi
      txEl := fun i hi => by rw [h1] at hi; exact hx i hi
      idle := hi }
  serial := by
    obtain ⟨a, b, c, d, e⟩ := hs.serial
    exact ⟨h7.trans a, h8.trans b, by rw [h9]; exact c, by rw [h9]; exact d, by rw [h9]; exact e⟩
  threshold := by rw [h1, h10]; exact hs.threshold

theorem good_appendActive {f : Frame} {s : State} (hs : s.Good) (hb : f.length ≤ s.config.bufSize)
    (hid : s.txIdle = false) {r : AppendResult} {t : State} (h : appendActive f s = .ok r t) : t.Good := by
  have hw : 2 ≤ s.config.nTx := (Config.wf_facts hs.params).2.1
  have hh := hs.marks.txHead
  have hn : nextIdx s.config.nTx s.txHead < s.config.nTx := nextIdx_lt (by omega)
  have hne : s.txHead ≠ nextIdx s.config.nTx s.txHead := by
    intro e
    have := prevIdx_nextIdx hh
    rw [← e] at this
    exact prevIdx_ne hw hh this
  have hhl : s.txHead < s.txAddr.length := by rw [hs.laid.txLen]; exact hh
  obtain ⟨u, hx, hu, hf, -, hc, hr⟩ := writeSlot_commands hs.laid hn hb
  have eu : ∀ i, u.txSlot i = s.txSlot i := fun i => by rw [hu]; rfl
  have ec : u.config = s.config := by rw [hu]
  have hl : u.Laid := hs.laid.of_eq ec (by rw [hu]) (by rw [hu]) (by rw [hu]) (by rw [hu])
  unfold appendActive at h
  simp only [bind_apply, get_apply] at h
  split at h
  · cases h; exact hs
  · rename_i hnt
    generalize hv : u.store .block (s.txSlot s.txHead + offCommand) (leBytes 2 (txCommandWord false opTx).toNat) = v
    have hve : v = { s with mem := v.mem, events := v.events } := by rw [← hv, hu]; simp only [State.store]
    simp only [bind_apply, hx, txAddrOf_eq, show u.txAddr = s.txAddr by rw [hu], hhl, if_true, writeHalf_apply,
      modify_apply, pure_apply, eu, hv] at h
    injection h with _ hut
    subst hut
    have hu' : u.txSlot s.txHead = s.txSlot s.txHead := eu _
    refine hs.newTx (by rw [hve]) (by rw [hve]) (by rw [hve]) (by rw [hve]) (by rw [hve]) (by rw [hve]) (by rw [hve])
      (by rw [hve]) (by rw [hve]) (by rw [hve]) ?_ hn ?_ ?_ ?_
    · intro i hi
      show v.rxCommand i = _
      rw [← hv, ← hu', rxCommand_store hl (by rw [ec]; exact hi) (by rw [ec]; exact hh)]
      exact hr i hi
    · show v.txTail < _; rw [hve]; exact hs.marks.txTail
    · intro i hi
      show commandEl (v.txCommand i) = (i == nextIdx s.config.nTx s.txHead)
      by_cases h1 : i = s.txHead
      · subst h1
        rw [← hv, State.txCommand, store_txSlot, hu', half_store_same, commandEl_tx]
        simp [hne]
      · rw [← hv, ← hu', txCommand_store hl (by rw [ec]; exact hi) (by rw [ec]; exact hh) h1]
        by_cases h2 : i = nextIdx s.config.nTx s.txHead
        · subst h2; rw [hf.command, commandEl_tx]; simp
        · rw [hc i hi h2, hs.marks.txEl i hi]; simp [h1, h2]
    · intro hi
      have : v.txIdle = true := hi
      rw [hve, hid] at this
      cases this

/-- `clearOldEl` on a slot that is not slot 0. -/
theorem clearOldEl_ok {s : State} (h : s.Laid) {k : Nat} (hk : k < s.config.nTx) :
    ∃ u : State, clearOldEl k s = .ok () u ∧ u = { s with mem := u.mem, events := u.events } ∧
      (k ≠ 0 → u.txCommand k = txCommandWord false (commandOp (s.txCommand k))) ∧
      s.ChangesOnly u [s.txCommandSpan k] ∧
      (∀ i, i < s.config.nTx → (i ≠ k ∨ k = 0) → u.txCommand i = s.txCommand i) ∧
      ∀ i, i < s.config.nRx → u.rxCommand i = s.rxCommand i := by
  by_cases h0 : k = 0
  · exact ⟨s, by simp [clearOldEl, h0], rfl, fun h => absurd h0 h, fun _ _ => rfl, fun _ _ _ => rfl, fun _ _ => rfl⟩
  · have hkl : k < s.txAddr.length := by rw [h.txLen]; exact hk
    generalize hw : txCommandWord false (commandOp (s.txCommand k)) = w
    generalize hv : s.event (.memRead .block (s.txSlot k + offCommand) 2) = v
    have hvl : v.Laid := by rw [← hv]; exact h.of_eq rfl rfl rfl rfl rfl
    have ec : v.config = s.config := by rw [← hv]; rfl
    have ex : ∀ i, v.txSlot i = s.txSlot i := fun i => by rw [← hv]; rfl
    have hx : clearOldEl k s = .ok () (v.store .block (v.txSlot k + offCommand) (leBytes 2 w.toNat)) := by
      simp only [clearOldEl, if_neg h0, bind_apply, txAddrOf_apply hkl, readHalf_apply, writeHalf_apply, hv, ex]
      rw [← hw]; rfl
    refine ⟨_, hx, ?_, fun _ => ?_, fun x hx => ?_, fun i hi hik => ?_, fun i hi => ?_⟩
    · rw [← hv]; simp only [State.store, State.event]
    · rw [State.txCommand, store_txSlot, half_store_same]
    · rw [byteAt_store_other, ← hv, byteAt_event]
      rw [ex]
      exact hx (s.txCommandSpan k) (by simp)
    · rw [txCommand_store hvl (by rw [ec]; exact hi) (by rw [ec]; exact hk) (by tauto), ← hv]; rfl
    · rw [rxCommand_store hvl (by rw [ec]; exact hi) (by rw [ec]; exact hk), ← hv]; rfl

theorem good_appendIdle {f : Frame} {s : State} (hs : s.Good) (hb : f.length ≤ s.config.bufSize)
    {r : AppendResult} {t : State} (h : appendIdle f s = .ok r t) : t.Good := by
  have hw : 2 ≤ s.config.nTx := (Config.wf_facts hs.params).2.1
  have hh := hs.marks.txHead
  have h0 : 0 < s.config.nTx := by omega
  obtain ⟨u, hx, hu, hf, -, hc, hr⟩ := writeSlot_commands hs.laid h0 hb
  have ec : u.config = s.config := by rw [hu]
  have hl : u.Laid := hs.laid.of_eq ec (by rw [hu]) (by rw [hu]) (by rw [hu]) (by rw [hu])
  obtain ⟨v, hy, hv, hk, -, hc', hr'⟩ := clearOldEl_ok hl (k := s.txHead) (by rw [ec]; exact hh)
  have hg : ({ v with txHead := 0, txTail := 0, txIdle := false } : State).Good := by
    refine hs.newTx (by rw [hv, hu]) (by rw [hv, hu]) (by rw [hv, hu]) (by rw [hv, hu]) (by rw [hv, hu]) (by rw [hv, hu])
      (by rw [hv, hu]) (by rw [hv, hu]) (by rw [hv, hu]) (by rw [hv, hu]) ?_ h0 h0 ?_ (fun h => by cases h)
    · intro i hi
      exact (hr' i (by rw [ec]; exact hi)).trans (hr i hi)
    · intro i hi
      show commandEl (v.txCommand i) = (i == 0)
      have hi' : i < u.config.nTx := by rw [ec]; exact hi
      by_cases h1 : i = s.txHead
      · subst h1
        by_cases h2 : s.txHead = 0
        · rw [hc' _ hi' (.inr h2), h2, hf.command, commandEl_tx]; rfl
        · rw [hk h2, commandEl_tx]; simp [h2]
      · rw [hc' i hi' (.inl h1)]
        by_cases h2 : i = 0
        · subst h2; rw [hf.command, commandEl_tx]; rfl
        · rw [hc i hi h2, hs.marks.txEl i hi]; simp [h1, h2]
  unfold appendIdle at h
  simp only [bind_apply, get_apply, hx, hy, modify_apply] at h
  exact (holds_bind (good_txAddrOf 0) fun a => holds_bind (good_issue .cuStart a true) fun _ =>
    holds_pure (AppendResult.appended 0)) _ hg r t (by simpa only [bind_apply] using h)

theorem good_txAppend (f : Frame) : Holds State.Good (txAppend f) := by
  intro s hs r t h
  unfold txAppend at h
  simp only [bind_apply, get_apply, require_apply] at h
  split at h
  · rename_i heq
    split at heq
    · rename_i hsz
      cases heq
      have hb := (frameSizeOk_iff.mp hsz).2
      have := (Config.wf_facts hs.params)
      cases hid : s.txIdle
      · rw [hid, if_neg Bool.false_ne_true] at h
        exact good_appendActive hs (by omega) hid h
      · rw [hid, if_pos rfl] at h
        exact good_appendIdle hs (by omega) h
    · cases heq
  · cases h

/-- What the drain loop leaves: only the event order, the threshold and the idle flag may differ. -/
structure Drained (s t : State) (j : Nat) : Prop where
  frame : t = { s with events := t.events, txThreshold := t.txThreshold, txIdle := t.txIdle }
  threshold : s.txThreshold.toNat ≤ s.config.threshMax.toNat → t.txThreshold.toNat ≤ t.config.threshMax.toNat
  lt : j < s.config.nTx
  idle : t.txIdle = true → s.txIdle = true ∨ j = s.txHead

theorem raiseThreshold_le (c : Config) (t : Byte) : (raiseThreshold c t).toNat ≤ c.threshMax.toNat := by
  unfold raiseThreshold
  rw [BitVec.toNat_ofNat, Nat.mod_eq_of_lt]
  · omega
  · have := c.threshMax.isLt; omega

theorem noteUnderrun_drained (st : Half) {s : State} {i : Nat} (hi : i < s.config.nTx) :
    ∃ t, noteUnderrun st s = .ok () t ∧ Drained s t i ∧ t.txIdle = s.txIdle := by
  unfold noteUnderrun
  split
  · exact ⟨_, rfl, ⟨rfl, fun _ => raiseThreshold_le _ _, hi, .inl⟩, rfl⟩
  · exact ⟨_, rfl, ⟨rfl, id, hi, .inl⟩, rfl⟩

theorem Drained.trans {a b c : State} {i j : Nat} (h : Drained a b i) (hi : b.txIdle = a.txIdle) (h' : Drained b c j) :
    Drained a c j := by
  have ec : b.config = a.config := by rw [h.frame]
  refine ⟨?_, fun hs => h'.threshold (h.threshold hs), by rw [← ec]; exact h'.lt, fun hc => ?_⟩
  · rw [h'.frame, h.frame]
  · have := h'.idle hc
    rw [hi, show b.txHead = a.txHead by rw [h.frame]] at this
    exact this

theorem drainLoop_drained (fuel : Nat) {i c : Nat} {s t : State} {r : Nat × Nat} (hn : 0 < s.config.nTx)
    (hi : i < s.config.nTx) (h : drainLoop i c fuel s = .ok r t) : Drained s t r.1 := by
  induction fuel generalizing i c s with
  | zero => cases h
  | succ fuel ih =>
    simp only [drainLoop, bind_apply, get_apply, txAddrOf_eq] at h
    by_cases hl : i < s.txAddr.length
    · simp only [hl, if_true, readHalf_apply] at h
      generalize hv : s.event (.memRead .block (s.txSlot i + offStatus) 2) = v at h
      have d0 : Drained s v i := by rw [← hv]; exact ⟨rfl, id, hi, .inl⟩
      have e0 : v.txIdle = s.txIdle := by rw [← hv]; rfl
      split at h
      · obtain ⟨w, hw, d1, e1⟩ := noteUnderrun_drained (s.half (s.txSlot i + offStatus)) (s := v) (i := i)
          (by rw [show v.config = s.config by rw [← hv]; rfl]; exact hi)
        simp only [bind_apply, hw, readHalf_apply] at h
        generalize hx : w.event (.memRead .block (s.txSlot i + offCommand) 2) = x at h
        have d2 : Drained w x i := by
          rw [← hx]
          exact ⟨rfl, id, by rw [show w.config = v.config by rw [d1.frame], show v.config = s.config by rw [← hv]; rfl]; exact hi, .inl⟩
        have e2 : x.txIdle = w.txIdle := by rw [← hx]; rfl
        have d : Drained s x i := (d0.trans e0 d1).trans (e1.trans e0) d2
        have e : x.txIdle = s.txIdle := e2.trans (e1.trans e0)
        have ec : x.config = s.config := by rw [d.frame]
        split at h
        · simp only [bind_apply, require_apply, modify_apply, pure_apply] at h
          split at h
          · rename_i heq
            split at heq
            · rename_i hih
              cases heq; cases h
              rw [beq_iff_eq] at hih
              refine d.trans e ⟨rfl, id, by rw [ec]; exact hi, fun _ => .inr ?_⟩
              rw [hih, show x.txHead = s.txHead by rw [d.frame]]
            · cases heq
          · cases h
        · simp only [bind_apply, require_apply] at h
          split at h
          · rename_i heq
            split at heq
            · cases heq
              exact d.trans e (ih (by rw [ec]; exact hn) (by rw [ec]; exact nextIdx_lt hn) h)
            · cases heq
          · cases h
      · cases h; exact d0
    · simp only [hl, if_false] at h; cases h

theorem good_txDrain : Holds State.Good txDrain := by
  refine holds_get_bind fun s hs b t h => ?_
  split at h
  · cases h; exact hs
  · rename_i hid
    rw [Bool.not_eq_true] at hid
    simp only [bind_apply, modify_apply, pure_apply] at h
    split at h
    · rename_i r u hx
      have d := drainLoop_drained _ (by have := hs.marks.txTail; omega) hs.marks.txTail hx
      cases h
      have hf := d.frame
      refine ⟨?_, ?_, ?_, ?_, ?_⟩
      · show u.config.wf = true; rw [hf]; exact hs.params
      · exact hs.laid.of_eq (show u.config = _ by rw [hf]) (show u.rxAddr = _ by rw [hf]) (show u.txAddr = _ by rw [hf])
          (show u.statsAddr = _ by rw [hf]) (show u.cfgAddr = _ by rw [hf])
      · obtain ⟨m1, m2, m3, m4, m5, m6⟩ := hs.marks
        have ec : u.config = s.config := by rw [hf]
        refine ⟨?_, ?_, ?_, ?_, ?_, ?_⟩
        · show u.rxHead < u.config.nRx; rw [hf]; exact m1
        · show u.txHead < u.config.nTx; rw [hf]; exact m2
        · show r.1 < u.config.nTx; rw [ec]; exact d.lt
        · intro i hi
          have hi' : i < u.config.nRx := hi
          rw [ec] at hi'
          show commandEl (u.rxCommand i) = (i == prevIdx u.config.nRx u.rxHead)
          rw [hf]; exact m4 i hi'
        · intro i hi
          have hi' : i < u.config.nTx := hi
          rw [ec] at hi'
          show commandEl (u.txCommand i) = (i == u.txHead)
          rw [hf]; exact m5 i hi'
        · intro hi
          show r.1 = u.txHead
          rcases d.idle hi with h | h
          · rw [hid] at h; cases h
          · rw [h, hf]
      · obtain ⟨a, b, c, d, e⟩ := hs.serial
        refine ⟨?_, ?_, ?_, ?_, ?_⟩
        · show u.serBusy = _; rw [hf]; exact a
        · show u.lines = _; rw [hf]; exact b
        · show u.dev.serCtl = _; rw [hf]; exact c
        · show u.dev.ee = _; rw [hf]; exact d
        · show u.dev.phy = _; rw [hf]; exact e
      · exact d.threshold hs.threshold
    · cases h

/-! ### The initialisations -/

theorem RxMarks_of_fresh {t : State} (h2 : 2 ≤ t.config.nRx) (h : ∀ j, j < t.config.nRx → t.RxFresh j) (h0 : t.rxHead = 0)
    {i : Nat} (hi : i < t.config.nRx) : commandEl (t.rxCommand i) = (i == prevIdx t.config.nRx t.rxHead) := by
  rw [(h i hi).command, commandEl_rx, h0, prevIdx, Nat.zero_add, Nat.mod_eq_of_lt (by omega)]
  by_cases h1 : i + 1 = t.config.nRx
  · rw [beq_iff_eq.mpr h1, beq_iff_eq.mpr (by omega)]
  · rw [beq_eq_false_iff_ne.mpr h1, beq_eq_false_iff_ne.mpr (by omega)]

theorem TxMarks_of_fresh {t : State} (h : ∀ j, j < t.config.nTx → t.TxFresh j) {i : Nat} (hi : i < t.config.nTx) :
    commandEl (t.txCommand i) = (i == 0) := by
  rw [(h i hi).command, commandEl_tx]

theorem header_apart_rx {s : State} (h : s.Laid) {j i : Nat} (hj : j < s.config.nTx) (hi : i < s.config.nRx) :
    Apart (s.txSlot j) 12 (s.rxSlot i + offCommand) 2 := by
  have := tx_span_rx h hj hi (k := 0) (n := 12) (by simp)
  rwa [show s.txSlot j + 0 = s.txSlot j by simp] at this

theorem header_apart_tx {s : State} (h : s.Laid) {j i : Nat} (hj : j < s.config.nRx) (hi : i < s.config.nTx) :
    Apart (s.rxSlot j) 12 (s.txSlot i + offCommand) 2 := by
  have := rx_span_tx h hj hi (k := 0) (n := 12) (by simp)
  rwa [show s.rxSlot j + 0 = s.rxSlot j by simp] at this

/-- `rx_init`, and what it leaves of the TX ring. -/
theorem rxInit_marks {s : State} (h : s.Laid) : ∃ u : State, rxInit s = .ok () u ∧
    u = { s with mem := u.mem, rxHead := 0, events := u.events } ∧ (∀ i, i < s.config.nRx → u.RxFresh i) ∧
    ∀ i, i < s.config.nTx → u.txCommand i = s.txCommand i := by
  obtain ⟨m, ev, hx, hf, hb⟩ := rxInit_ok h
  refine ⟨_, hx, rfl, hf, fun i hi => ?_⟩
  have : s.ChangesOnly { s with mem := m, rxHead := 0, events := ev } (headers s.rxAddr) := fun x hx' =>
    hb x fun j hj => hx' _ (mem_headers (by rw [h.rxLen]; exact hj))
  refine half_of_only this fun r hr => ?_
  simp only [headers, List.mem_map] at hr
  obtain ⟨a, ha, rfl⟩ := hr
  obtain ⟨j, hj, rfl⟩ := exists_rxSlot h ha
  exact header_apart_tx h hj hi

/-- `tx_init`, and what it leaves of the RX ring. -/
theorem txInit_marks {s : State} (h : s.Laid) : ∃ u : State, txInit s = .ok () u ∧
    u = { s with mem := u.mem, txHead := 0, txTail := 0, txIdle := true, events := u.events } ∧
    (∀ i, i < s.config.nTx → u.TxFresh i) ∧ ∀ i, i < s.config.nRx → u.rxCommand i = s.rxCommand i := by
  obtain ⟨m, ev, hx, hf, hb⟩ := txInit_ok h
  refine ⟨_, hx, rfl, hf, fun i hi => ?_⟩
  have : s.ChangesOnly { s with mem := m, txHead := 0, txTail := 0, txIdle := true, events := ev } (headers s.txAddr) :=
    fun x hx' => hb x fun j hj => hx' _ (mem_headers (by rw [h.txLen]; exact hj))
  refine half_of_only this fun r hr => ?_
  simp only [headers, List.mem_map] at hr
  obtain ⟨a, ha, rfl⟩ := hr
  obtain ⟨j, hj, rfl⟩ := exists_txSlot h ha
  exact header_apart_rx h hj hi

theorem good_txInit : Holds State.Good txInit := fun s hs a t h => by
  obtain ⟨u, hx, hu, hf, hr⟩ := txInit_marks hs.laid
  rw [hx] at h
  injection h with _ h
  subst h
  have hn : 0 < s.config.nTx := by have := hs.marks.txHead; omega
  have ec : u.config = s.config := by rw [hu]
  refine hs.newTx ec (by rw [hu]) (by rw [hu]) (by rw [hu]) (by rw [hu]) (by rw [hu]) (by rw [hu]) (by rw [hu]) (by rw [hu])
    (by rw [hu]) hr (by rw [hu]; exact hn) (by rw [hu]; exact hn) (fun i hi => ?_) (fun _ => by rw [hu])
  rw [show u.txHead = 0 by rw [hu]]
  exact TxMarks_of_fresh (fun j hj => hf j (by rw [← ec]; exact hj)) (by rw [ec]; exact hi)

theorem good_rxInit : Holds State.Good rxInit := fun s hs a t h => by
  obtain ⟨u, hx, hu, hf, hr⟩ := rxInit_marks hs.laid
  rw [hx] at h
  injection h with _ h
  subst h
  have hw := Config.wf_facts hs.params
  have ec : u.config = s.config := by rw [hu]
  obtain ⟨m1, m2, m3, m4, m5, m6⟩ := hs.marks
  refine ⟨by rw [ec]; exact hs.params, hs.laid.of_eq ec (by rw [hu]) (by rw [hu]) (by rw [hu]) (by rw [hu]), ?_, ?_, ?_⟩
  · refine ⟨?_, ?_, ?_, ?_, ?_, ?_⟩
    · rw [ec, show u.rxHead = 0 by rw [hu]]; omega
    · rw [ec, show u.txHead = s.txHead by rw [hu]]; exact m2
    · rw [ec, show u.txTail = s.txTail by rw [hu]]; exact m3
    · exact fun i hi => RxMarks_of_fresh (by rw [ec]; omega) (fun j hj => hf j (by rw [← ec]; exact hj)) (by rw [hu]) hi
    · intro i hi
      rw [hr i (by rw [← ec]; exact hi), show u.txHead = s.txHead by rw [hu]]
      exact m5 i (by rw [← ec]; exact hi)
    · intro hi
      rw [show u.txIdle = s.txIdle by rw [hu]] at hi
      rw [show u.txTail = s.txTail by rw [hu], show u.txHead = s.txHead by rw [hu]]
      exact m6 hi
  · obtain ⟨a, b, c, d, e⟩ := hs.serial
    exact ⟨by rw [hu]; exact a, by rw [hu]; exact b, by rw [hu]; exact c, by rw [hu]; exact d, by rw [hu]; exact e⟩
  · rw [ec, show u.txThreshold = s.txThreshold by rw [hu]]; exact hs.threshold

/-! ### Flow control, the deferred phase, the clients -/

theorem good_restartRu : Holds State.Good restartRu :=
  holds_bind (good_readUnitCode _) fun _ => holds_bind (holds_require _ _) fun _ => holds_bind good_rxInit fun _ =>
    holds_bind (good_rxAddrOf _) fun _ => holds_bind (good_issue _ _ _) fun _ =>
    good_modify fun _ => SameGood.of_mem rfl rfl rfl rfl rfl rfl rfl rfl rfl rfl rfl rfl rfl rfl rfl rfl

theorem good_armTx (r : TxRequest) : Holds State.Good (armTx r) :=
  holds_bind holds_get fun _ => holds_bind (holds_require _ _) fun _ =>
    good_modify fun _ => SameGood.of_mem rfl rfl rfl rfl rfl rfl rfl rfl rfl rfl rfl rfl rfl rfl rfl rfl

theorem good_armRx (r : Client) : Holds State.Good (armRx r) :=
  holds_bind holds_get fun _ => holds_bind (holds_require _ _) fun _ =>
    good_modify fun _ => SameGood.of_mem rfl rfl rfl rfl rfl rfl rfl rfl rfl rfl rfl rfl rfl rfl rfl rfl

theorem good_txService (r : TxRequest) : Holds State.Good (txService r) := by
  refine holds_bind (good_txAppend _) fun a => ?_
  cases a with
  | ringFull => exact holds_bind (good_armTx _) fun _ => holds_pure _
  | appended _ => exact holds_bind (good_reply _ _) fun _ => holds_pure _

theorem good_lazyRestart : Holds State.Good lazyRestart :=
  holds_bind holds_get fun _ => holds_ite (holds_bind (good_readUnitCode _) fun _ =>
    holds_ite good_restartRu (holds_pure _)) (holds_pure _)

theorem good_rxService (r : Client) : Holds State.Good (rxService r) := by
  refine holds_bind good_rxPoll fun a => ?_
  cases a with
  | notReady => exact holds_bind good_lazyRestart fun _ => holds_bind (good_armRx _) fun _ => holds_pure _
  | ready i f => exact holds_bind (good_rxRecycle _) fun _ => holds_bind (good_reply _ _) fun _ => holds_pure _

theorem good_replayTx : Holds State.Good replayTx := by
  refine holds_bind holds_get fun s => ?_
  cases s.pendTx with
  | empty => exact holds_pure _
  | armed r =>
    exact holds_bind (good_modify fun _ => SameGood.of_mem rfl rfl rfl rfl rfl rfl rfl rfl rfl rfl rfl rfl rfl rfl rfl rfl)
      fun _ => good_txService r

theorem good_replayRx : Holds State.Good replayRx := by
  refine holds_bind holds_get fun s => ?_
  cases s.pendRx with
  | empty => exact holds_pure _
  | armed r =>
    exact holds_bind (good_modify fun _ => SameGood.of_mem rfl rfl rfl rfl rfl rfl rfl rfl rfl rfl rfl rfl rfl rfl rfl rfl)
      fun _ => good_rxService r

theorem good_loadBasesAndConfigure : Holds State.Good loadBasesAndConfigure :=
  holds_bind (good_issue _ _ _) fun _ => holds_bind (good_issue _ _ _) fun _ => good_applyConfig

theorem good_startReceive : Holds State.Good startReceive :=
  holds_bind (good_portWrite (by decide) _) fun _ => holds_bind (good_rxAddrOf _) fun _ => good_issue _ _ _

theorem good_deviceReset : Holds State.Good deviceReset :=
  holds_bind (good_portWrite (by decide) _) fun _ => holds_bind good_txInit fun _ => holds_bind good_rxInit fun _ =>
    holds_bind good_loadBasesAndConfigure fun _ =>
    holds_bind (good_modify fun _ => SameGood.of_mem rfl rfl rfl rfl rfl rfl rfl rfl rfl rfl rfl rfl rfl rfl rfl rfl) fun _ =>
    holds_bind good_startReceive fun _ =>
    good_modify fun _ => SameGood.of_mem rfl rfl rfl rfl rfl rfl rfl rfl rfl rfl rfl rfl rfl rfl rfl rfl

theorem good_txDeferred : Holds State.Good txDeferred := by
  refine holds_bind (good_modify fun _ => SameGood.of_mem rfl rfl rfl rfl rfl rfl rfl rfl rfl rfl rfl rfl rfl rfl rfl rfl)
    fun _ => holds_bind good_txDrain fun _ =>
    holds_bind (holds_bind holds_get fun _ => holds_ite good_applyConfig (holds_pure _)) fun _ =>
    holds_bind (holds_bind holds_get fun _ => holds_ite (holds_bind (good_readUnitCode _) fun _ =>
      holds_ite (holds_bind (good_txAddrOf _) fun _ => good_issue _ _ _) (holds_bind (good_logEvent _) fun _ =>
        good_modify fun _ => SameGood.of_mem rfl rfl rfl rfl rfl rfl rfl rfl rfl rfl rfl rfl rfl rfl rfl rfl))
      (holds_pure _)) fun _ => holds_bind good_replayTx fun _ => holds_pure _

theorem good_deferredPhase : Holds State.Good deferredPhase := by
  refine holds_bind (good_modify fun _ => SameGood.of_mem rfl rfl rfl rfl rfl rfl rfl rfl rfl rfl rfl rfl rfl rfl rfl rfl)
    fun _ => holds_bind (holds_bind holds_get fun _ => holds_ite (holds_bind good_deviceReset fun _ =>
      holds_bind (good_modify fun _ => SameGood.of_mem rfl rfl rfl rfl rfl rfl rfl rfl rfl rfl rfl rfl rfl rfl rfl rfl)
        fun _ => holds_bind good_replayTx fun _ => holds_pure _) (holds_pure _)) fun _ =>
    holds_bind (holds_bind holds_get fun _ => holds_ite (holds_bind (good_rxAddrOf _) fun _ =>
      holds_bind (good_readHalf _ _) fun _ => holds_ite (holds_bind good_replayRx fun _ => holds_pure _) (holds_pure _))
      (holds_pure _)) fun _ =>
    holds_bind (holds_bind holds_get fun _ => holds_ite good_txDeferred (holds_pure _)) fun _ =>
    holds_bind (good_modify fun s => ?_) fun _ => holds_bind (good_modify fun s => ?_) fun _ => holds_pure _
  · split <;> exact SameGood.of_mem rfl rfl rfl rfl rfl rfl rfl rfl rfl rfl rfl rfl rfl rfl rfl rfl
  · split <;> exact SameGood.of_mem rfl rfl rfl rfl rfl rfl rfl rfl rfl rfl rfl rfl rfl rfl rfl rfl

theorem good_onInterruptOp : Holds State.Good onInterruptOp := fun s hs a t h => by
  rcases onInterrupt_cases s with ⟨-, hx⟩ | ⟨-, -, hx⟩ | ⟨-, -, hx⟩ <;> rw [hx] at h
  · cases h
  · cases h; exact hs
  · injection h with _ h; subst h
    exact hs.same rfl rfl rfl rfl rfl rfl rfl rfl rfl rfl rfl rfl rfl rfl rfl rfl

theorem good_noteLinkChange (v : Half) : Holds State.Good (noteLinkChange v) :=
  holds_bind holds_get fun _ => holds_bind (good_logEvent _) fun _ =>
    holds_bind (good_modify fun _ => SameGood.of_mem rfl rfl rfl rfl rfl rfl rfl rfl rfl rfl rfl rfl rfl rfl rfl rfl) fun _ =>
    good_portWrite (by decide) _

theorem good_watchdogTickOp : Holds State.Good watchdogTickOp := by
  refine holds_bind holds_requireStarted fun _ => holds_bind (holds_bind holds_get fun _ => holds_ite (holds_pure _)
    (holds_bind (holds_bind holds_get fun _ => good_readPhy _) fun _ => holds_bind holds_get fun _ =>
      holds_ite (holds_pure _) (good_noteLinkChange _))) fun _ =>
    holds_bind (holds_bind holds_get fun _ => holds_ite
      (good_modify fun _ => SameGood.of_mem rfl rfl rfl rfl rfl rfl rfl rfl rfl rfl rfl rfl rfl rfl rfl rfl)
      (holds_ite (good_modify fun _ => SameGood.of_mem rfl rfl rfl rfl rfl rfl rfl rfl rfl rfl rfl rfl rfl rfl rfl rfl)
        (holds_bind (good_modify fun _ => SameGood.of_mem rfl rfl rfl rfl rfl rfl rfl rfl rfl rfl rfl rfl rfl rfl rfl rfl)
          fun _ => good_portWrite (by decide) _))) fun _ => holds_pure _

theorem good_readWords (w : Agent) (a : BusAddr) (n : Nat) : Holds State.Good (readWords w a n) := by
  induction n generalizing a with
  | zero => exact holds_pure _
  | succ n ih => exact holds_bind (good_readWord _ _) fun _ => holds_bind (ih _) fun _ => holds_pure _

/-- Every operation of the port but the start-up sequence keeps a running block's state good. -/
theorem good_request {i : Instr} {op : Op OpResult} (h : requestOp i = some op) (h2 : i ≠ .reset) :
    Holds State.Good op := by
  have hi : ∀ cmd a ri, Holds State.Good (issueOp cmd a ri) := fun cmd a ri =>
    holds_bind holds_requireStarted fun _ => holds_bind (good_issue _ _ _) fun _ => holds_pure _
  cases i <;> cases h
  case rxPoll => exact holds_bind holds_requireStarted fun _ => holds_bind good_rxPoll fun _ => holds_pure _
  case rxRecycle => exact holds_bind holds_requireStarted fun _ => holds_bind (good_rxRecycle _) fun _ => holds_pure _
  case txAppend => exact holds_bind holds_requireStarted fun _ => holds_bind (good_txAppend _) fun _ => holds_pure _
  case txDrain => exact holds_bind holds_requireStarted fun _ => holds_bind good_txDrain fun _ => holds_pure _
  case issueCuLoadBase => exact hi _ _ _
  case issueRuLoadBase => exact hi _ _ _
  case issueCuStart => exact hi _ _ _
  case issueRuStart => exact hi _ _ _
  case issueCuDumpStatistics => exact hi _ _ _
  case restartRu => exact holds_bind holds_requireStarted fun _ => holds_bind good_restartRu fun _ => holds_pure _
  case onInterrupt => exact good_onInterruptOp
  case checkInterrupts => exact holds_bind holds_requireStarted fun _ => good_deferredPhase
  case armTx => exact holds_bind holds_requireStarted fun _ => holds_bind (good_armTx _) fun _ => holds_pure _
  case armRx => exact holds_bind holds_requireStarted fun _ => holds_bind (good_armRx _) fun _ => holds_pure _
  case replayTx => exact holds_bind holds_requireStarted fun _ => good_replayTx
  case replayRx => exact holds_bind holds_requireStarted fun _ => good_replayRx
  case watchdogTick => exact good_watchdogTickOp
  case readEeprom => exact holds_bind holds_requireStarted fun _ => holds_bind (good_readEeprom _) fun _ => holds_pure _
  case readPhy => exact holds_bind holds_requireStarted fun _ => holds_bind (good_readPhy _) fun _ => holds_pure _
  case configure =>
    exact holds_bind holds_requireStarted fun _ =>
      holds_bind (good_modify fun _ => SameGood.of_mem rfl rfl rfl rfl rfl rfl rfl rfl rfl rfl rfl rfl rfl rfl rfl rfl)
      fun _ => holds_bind holds_get fun _ => holds_ite
        (holds_bind good_applyConfig fun _ => holds_bind holds_get fun _ => holds_bind (good_replyUnnamed _) fun _ =>
          holds_pure _)
        (holds_bind (good_modify fun _ => SameGood.of_mem rfl rfl rfl rfl rfl rfl rfl rfl rfl rfl rfl rfl rfl rfl rfl rfl)
          fun _ => holds_bind holds_get fun _ => holds_bind (good_replyUnnamed _) fun _ => holds_pure _)
  case transmit =>
    exact holds_bind holds_requireStarted fun _ => holds_bind holds_get fun _ => holds_bind (holds_require _ _) fun _ =>
      good_txService _
  case receive =>
    exact holds_bind holds_requireStarted fun _ => holds_bind holds_get fun _ => holds_bind (holds_require _ _) fun _ =>
      good_rxService _
  case getStatistics =>
    exact holds_bind holds_requireStarted fun _ => holds_bind holds_get fun _ => holds_bind (good_issue _ _ _) fun _ =>
      holds_bind (good_readWords _ _ _) fun _ => holds_bind (good_reply _ _) fun _ => holds_pure _
  case reset => exact absurd rfl h2

end Sys2Proof.Machine
end

