-- ==== Sys2Proof/Laws/GoodStart.lean ====
section
/-! SUPPORT. The start-up sequence: the caches hold what the collaborator answers, and a sequence that ends leaves a
good and aligned state; which operations a block that has not started refuses. -/

namespace Sys2Proof.Machine

/-! ### Start-up -/

/-- A sequence that ends, ended in its parts. -/
theorem ok_of_bind {α β : Type} {x : Op α} {f : α → Op β} {s u : State} {b : β} (h : (x >>= f) s = .ok b u) :
    ∃ a t, x s = .ok a t ∧ f a t = .ok b u := by
  rw [bind_apply] at h
  cases hx : x s with
  | ok a t => rw [hx] at h; exact ⟨a, t, rfl, h⟩
  | error e t => rw [hx] at h; cases h

/-- The cached addresses are the same. -/
structure SameAddr (s t : State) : Prop where
  config : t.config = s.config
  rxAddr : t.rxAddr = s.rxAddr
  txAddr : t.txAddr = s.txAddr
  statsAddr : t.statsAddr = s.statsAddr
  cfgAddr : t.cfgAddr = s.cfgAddr

theorem SameAddr.refl (s : State) : SameAddr s s := ⟨rfl, rfl, rfl, rfl, rfl⟩

theorem SameAddr.trans (a b c : State) (h : SameAddr a b) (h' : SameAddr b c) : SameAddr a c :=
  ⟨h'.config.trans h.config, h'.rxAddr.trans h.rxAddr, h'.txAddr.trans h.txAddr, h'.statsAddr.trans h.statsAddr,
    h'.cfgAddr.trans h.cfgAddr⟩

theorem Kept.addr {s t : State} (h : Kept s t) : SameAddr s t := ⟨h.config, h.rxAddr, h.txAddr, h.statsAddr, h.cfgAddr⟩

theorem SameBlock.addr {s t : State} (h : SameBlock s t) : SameAddr s t :=
  ⟨h.config, h.rxAddr, h.txAddr, h.statsAddr, h.cfgAddr⟩

/-- The start-up sequence after the regions are mapped. -/
def bootRest : Op Half := do
  portWrite .scbPort 2
  readHardwareAddress
  modify initContext
  txInit
  rxInit
  loadBasesAndConfigure
  startReceive
  clearPointer
  readPhyStatus

theorem bootPrefix_eq (f : PciFunction) : bootPrefix f = (do
    modify fun s => { s with base := f.base, irq := f.irq }
    let s ← get
    require (f.base.toNat % s.config.regSpan == 0) .badBar
    mapRegions
    bootRest) := rfl

theorem same_readHardwareAddress : Keeps SameBlock readHardwareAddress :=
  same_bind (same_readEeprom _) fun _ => same_bind (same_readEeprom _) fun _ => same_bind (same_readEeprom _) fun _ =>
    same_modify fun _ => ⟨rfl, rfl, rfl, rfl, rfl, rfl, rfl, rfl, rfl, rfl, rfl⟩

theorem addr_bootRest : Keeps SameAddr bootRest := by
  have hk : ∀ {α : Type} {x : Op α}, Keeps Kept x → Keeps SameAddr x := fun h s => (h s).addr
  have hb : ∀ {α : Type} {x : Op α}, Keeps SameBlock x → Keeps SameAddr x := fun h s => (h s).addr
  exact Keeps.bind SameAddr.trans (hk (kept_portWrite _ _)) fun _ =>
    Keeps.bind SameAddr.trans (hb same_readHardwareAddress) fun _ =>
    Keeps.bind SameAddr.trans (fun s => ⟨rfl, rfl, rfl, rfl, rfl⟩) fun _ =>
    Keeps.bind SameAddr.trans (hk kept_txInit) fun _ => Keeps.bind SameAddr.trans (hk kept_rxInit) fun _ =>
    Keeps.bind SameAddr.trans (hk kept_loadBasesAndConfigure) fun _ =>
    Keeps.bind SameAddr.trans (hk kept_startReceive) fun _ =>
    Keeps.bind SameAddr.trans (fun s => ⟨rfl, rfl, rfl, rfl, rfl⟩) fun _ => hk (kept_bind kept_get fun _ => kept_readPhy _)

theorem good_clearPointer : Holds State.Good clearPointer :=
  good_modify fun _ => SameGood.of_mem rfl rfl rfl rfl rfl rfl rfl rfl rfl rfl rfl rfl rfl rfl rfl rfl

theorem readHardwareAddress_ends : Ends State.SerialIdle readHardwareAddress := by
  refine ends_bind fun w0 => ends_bind fun w1 => ?_
  intro s a t h
  obtain ⟨w2, u, hu, h⟩ := ok_of_bind h
  have := readEeprom_ends 2 s w2 u hu
  cases h
  exact ⟨this.busy, this.lines, this.serCtl, this.ee, this.phy⟩

/-- From mapped regions the start-up sequence ends in a good state. -/
theorem bootRest_good {s t : State} {link : Half} (hw : s.config.wf = true) (hl : s.Laid)
    (h : bootRest s = .ok link t) : t.Good := by
  obtain ⟨_, s1, h1, h⟩ := ok_of_bind h
  obtain ⟨_, s2, h2, h⟩ := ok_of_bind h
  obtain ⟨_, s3, h3, h⟩ := ok_of_bind h
  obtain ⟨_, s4, h4, h⟩ := ok_of_bind h
  obtain ⟨_, s5, h5, h⟩ := ok_of_bind h
  have a1 : SameAddr s s1 := by have := kept_portWrite .scbPort 2 s; rw [h1] at this; exact this.addr
  have a2 : SameAddr s1 s2 := by have := same_readHardwareAddress s1; rw [h2] at this; exact this.addr
  have i2 : s2.SerialIdle := readHardwareAddress_ends s1 _ s2 h2
  injection h3 with _ h3
  have a3 : SameAddr s2 s3 := by rw [← h3]; exact ⟨rfl, rfl, rfl, rfl, rfl⟩
  have i3 : s3.SerialIdle := by rw [← h3]; exact ⟨i2.busy, i2.lines, i2.serCtl, i2.ee, i2.phy⟩
  have ht : s3.txThreshold.toNat ≤ s3.config.threshMax.toNat := by
    rw [a3.config, a2.config, a1.config, ← h3]
    show s2.config.threshInit.toNat ≤ _
    rw [a2.config, a1.config]
    exact (Config.wf_facts hw).2.2.2.2.2.1
  have a := SameAddr.trans _ _ _ (SameAddr.trans _ _ _ a1 a2) a3
  have l3 : s3.Laid := hl.of_eq a.config a.rxAddr a.txAddr a.statsAddr a.cfgAddr
  obtain ⟨u4, x4, e4, f4, -⟩ := txInit_marks l3
  rw [x4] at h4; injection h4 with _ h4; subst h4
  have c4 : u4.config = s3.config := by rw [e4]
  have l4 : u4.Laid := l3.of_eq c4 (by rw [e4]) (by rw [e4]) (by rw [e4]) (by rw [e4])
  obtain ⟨u5, x5, e5, f5, r5⟩ := rxInit_marks l4
  rw [x5] at h5; injection h5 with _ h5; subst h5
  have c5 : u5.config = u4.config := by rw [e5]
  have hw3 : s3.config.wf = true := by rw [a.config]; exact hw
  have wf := Config.wf_facts hw3
  have c : u5.config = s3.config := c5.trans c4
  have hg : u5.Good := by
    refine ⟨by rw [c]; exact hw3, l4.of_eq c5 (by rw [e5]) (by rw [e5]) (by rw [e5]) (by rw [e5]), ⟨?_, ?_, ?_, ?_, ?_, ?_⟩, ?_, ?_⟩
    · rw [c, show u5.rxHead = 0 by rw [e5]]; omega
    · rw [c, show u5.txHead = 0 by rw [e5, e4]]; omega
    · rw [c, show u5.txTail = 0 by rw [e5, e4]]; omega
    · exact fun i hi => RxMarks_of_fresh (by rw [c]; omega) (fun j hj => f5 j (by rw [← c5]; exact hj)) (by rw [e5]) hi
    · intro i hi
      rw [show u5.txHead = 0 by rw [e5, e4], r5 i (by rw [← c5]; exact hi)]
      exact TxMarks_of_fresh (fun j hj => f4 j (by rw [← c4]; exact hj)) (by rw [← c5]; exact hi)
    · intro _; rw [e5, e4]
    · obtain ⟨a, b, c, d, e⟩ := i3
      exact ⟨by rw [e5, e4]; exact a, by rw [e5, e4]; exact b, by rw [e5, e4]; exact c, by rw [e5, e4]; exact d,
        by rw [e5, e4]; exact e⟩
    · rw [c, show u5.txThreshold = s3.txThreshold by rw [e5, e4]]; exact ht
  exact (holds_bind good_loadBasesAndConfigure fun _ => holds_bind good_startReceive fun _ =>
    holds_bind good_clearPointer fun _ => holds_bind holds_get fun _ => good_readPhy _) u5 hg link t h

/-! ### Mapping -/

theorem length_cacheAt {l : List BusAddr} {i : Nat} (h : i < l.length) (a : BusAddr) : (cacheAt l i a).length = l.length := by
  simp [cacheAt]; omega

/-- The caches keep their lengths. -/
structure SameLen (s t : State) : Prop where
  config : t.config = s.config
  rx : t.rxAddr.length = s.rxAddr.length
  tx : t.txAddr.length = s.txAddr.length

theorem SameLen.trans {a b c : State} (h : SameLen a b) (h' : SameLen b c) : SameLen a c :=
  ⟨h'.config.trans h.config, h'.rx.trans h.rx, h'.tx.trans h.tx⟩

theorem checkMapped_end (a : Option BusAddr) (s : State) :
    (∃ b, a = some b ∧ b.toNat % 4 = 0 ∧ checkMapped a s = .ok b s) ∨ ∃ e, checkMapped a s = .error e s := by
  cases a with
  | none => exact .inr ⟨_, rfl⟩
  | some b =>
    cases hb : (b.toNat % 4 == 0)
    · exact .inr ⟨.fatal .misaligned, by simp [checkMapped, hb]⟩
    · exact .inl ⟨b, rfl, by simpa using hb, by simp [checkMapped, hb]⟩

theorem mapRx_len (count : Nat) {i : Nat} {s : State} (h : i + count ≤ s.rxAddr.length) :
    SameLen s (endState (mapRx i count s)) := by
  induction count generalizing i s with
  | zero => exact ⟨rfl, rfl, rfl⟩
  | succ n ih =>
    rw [mapRx, bind_apply, get_apply]
    simp only [bind_apply]
    rcases checkMapped_end (s.busMap.rx.getD i none) s with ⟨b, -, -, hx⟩ | ⟨e, hx⟩ <;> rw [hx]
    · simp only [modify_apply]
      have hl := length_cacheAt (l := s.rxAddr) (i := i) (by omega) b
      exact SameLen.trans (b := { s with rxAddr := cacheAt s.rxAddr i b }) ⟨rfl, hl, rfl⟩ (ih (by rw [hl]; omega))
    · exact ⟨rfl, rfl, rfl⟩

theorem mapTx_len (count : Nat) {i : Nat} {s : State} (h : i + count ≤ s.txAddr.length) :
    SameLen s (endState (mapTx i count s)) := by
  induction count generalizing i s with
  | zero => exact ⟨rfl, rfl, rfl⟩
  | succ n ih =>
    rw [mapTx, bind_apply, get_apply]
    simp only [bind_apply]
    rcases checkMapped_end (s.busMap.tx.getD i none) s with ⟨b, -, -, hx⟩ | ⟨e, hx⟩ <;> rw [hx]
    · simp only [modify_apply]
      have hl := length_cacheAt (l := s.txAddr) (i := i) (by omega) b
      exact SameLen.trans (b := { s with txAddr := cacheAt s.txAddr i b }) ⟨rfl, rfl, hl⟩ (ih (by rw [hl]; omega))
    · exact ⟨rfl, rfl, rfl⟩

/-- Mapping that ends puts the answers in their places. -/
theorem mapRx_ok (count : Nat) {i : Nat} {s t : State} (h : i + count ≤ s.rxAddr.length) (hx : mapRx i count s = .ok () t) :
    ∃ l : List BusAddr, (List.range' i count).mapM (fun j => s.busMap.rx.getD j none) = some l ∧ l.length = count ∧
      (∀ a ∈ l, a.toNat % 4 = 0) ∧ t = { s with rxAddr := s.rxAddr.take i ++ l ++ s.rxAddr.drop (i + count) } := by
  induction count generalizing i s with
  | zero =>
    cases hx
    exact ⟨[], by simp, rfl, by simp, by simp⟩
  | succ n ih =>
    rw [mapRx, bind_apply, get_apply] at hx
    simp only [bind_apply] at hx
    rcases checkMapped_end (s.busMap.rx.getD i none) s with ⟨b, hb, h4, hc⟩ | ⟨e, hc⟩ <;> rw [hc] at hx
    · simp only [modify_apply] at hx
      have hl := length_cacheAt (l := s.rxAddr) (i := i) (by omega) b
      obtain ⟨l, hm, hn, ha, ht⟩ := ih (s := { s with rxAddr := cacheAt s.rxAddr i b }) (i := i + 1) (by rw [hl]; omega) hx
      refine ⟨b :: l, ?_, by simp [hn], by simpa [h4] using ha, ?_⟩
      · rw [List.range'_succ, List.mapM_cons, hb]
        simp only [Option.bind_eq_bind, Option.bind_some]
        rw [hm]; rfl
      · rw [ht]
        have e1 : (cacheAt s.rxAddr i b).take (i + 1) = s.rxAddr.take i ++ [b] := by
          unfold cacheAt
          rw [List.take_append, List.take_of_length_le (by simp)]
          have : (s.rxAddr.take i).length = i := by simp; omega
          rw [this]; simp
        have e2 : (cacheAt s.rxAddr i b).drop (i + 1 + n) = s.rxAddr.drop (i + (n + 1)) := by
          unfold cacheAt
          have : (s.rxAddr.take i).length = i := by simp; omega
          rw [List.drop_append, this, List.drop_eq_nil_of_le (by omega), show i + 1 + n - i = n + 1 by omega]
          simp [List.drop_drop]; congr 1; omega
        simp only [e1, e2, List.append_assoc, List.cons_append, List.nil_append]
    · cases hx

theorem mapTx_ok (count : Nat) {i : Nat} {s t : State} (h : i + count ≤ s.txAddr.length) (hx : mapTx i count s = .ok () t) :
    ∃ l : List BusAddr, (List.range' i count).mapM (fun j => s.busMap.tx.getD j none) = some l ∧ l.length = count ∧
      (∀ a ∈ l, a.toNat % 4 = 0) ∧ t = { s with txAddr := s.txAddr.take i ++ l ++ s.txAddr.drop (i + count) } := by
  induction count generalizing i s with
  | zero =>
    cases hx
    exact ⟨[], by simp, rfl, by simp, by simp⟩
  | succ n ih =>
    rw [mapTx, bind_apply, get_apply] at hx
    simp only [bind_apply] at hx
    rcases checkMapped_end (s.busMap.tx.getD i none) s with ⟨b, hb, h4, hc⟩ | ⟨e, hc⟩ <;> rw [hc] at hx
    · simp only [modify_apply] at hx
      have hl := length_cacheAt (l := s.txAddr) (i := i) (by omega) b
      obtain ⟨l, hm, hn, ha, ht⟩ := ih (s := { s with txAddr := cacheAt s.txAddr i b }) (i := i + 1) (by rw [hl]; omega) hx
      refine ⟨b :: l, ?_, by simp [hn], by simpa [h4] using ha, ?_⟩
      · rw [List.range'_succ, List.mapM_cons, hb]
        simp only [Option.bind_eq_bind, Option.bind_some]
        rw [hm]; rfl
      · rw [ht]
        have e1 : (cacheAt s.txAddr i b).take (i + 1) = s.txAddr.take i ++ [b] := by
          unfold cacheAt
          rw [List.take_append, List.take_of_length_le (by simp)]
          have : (s.txAddr.take i).length = i := by simp; omega
          rw [this]; simp
        have e2 : (cacheAt s.txAddr i b).drop (i + 1 + n) = s.txAddr.drop (i + (n + 1)) := by
          unfold cacheAt
          have : (s.txAddr.take i).length = i := by simp; omega
          rw [List.drop_append, this, List.drop_eq_nil_of_le (by omega), show i + 1 + n - i = n + 1 by omega]
          simp [List.drop_drop]; congr 1; omega
        simp only [e1, e2, List.append_assoc, List.cons_append, List.nil_append]
    · cases hx

theorem mapRegions_len {s : State} (h1 : s.config.nRx ≤ s.rxAddr.length) (h2 : s.config.nTx ≤ s.txAddr.length) :
    SameLen s (endState (mapRegions s)) := by
  simp only [mapRegions, bind_apply, get_apply]
  have hr := mapRx_len s.config.nRx (i := 0) (s := s) (by omega)
  cases hx : mapRx 0 s.config.nRx s with
  | error e t => rw [hx] at hr; exact hr
  | ok a t =>
    rw [hx] at hr
    have hr : SameLen s t := hr
    simp only
    have ht := mapTx_len s.config.nTx (i := 0) (s := t) (by rw [hr.tx]; omega)
    cases hy : mapTx 0 s.config.nTx t with
    | error e u => rw [hy] at ht; exact hr.trans ht
    | ok a u =>
      rw [hy] at ht
      have ht : SameLen t u := ht
      simp only
      rcases checkMapped_end s.busMap.stats u with ⟨b, -, -, hc⟩ | ⟨e, hc⟩ <;> rw [hc]
      · simp only [modify_apply]
        rcases checkMapped_end s.busMap.cfg { u with statsAddr := b } with ⟨b', -, -, hd⟩ | ⟨e, hd⟩ <;> rw [hd]
        · exact hr.trans (ht.trans ⟨rfl, rfl, rfl⟩)
        · exact hr.trans (ht.trans ⟨rfl, rfl, rfl⟩)
      · exact hr.trans ht

/-- The regions are mapped: the caches hold the collaborator's answers, every one a multiple of 4. -/
theorem mapRegions_ok {s t : State} (h1 : s.rxAddr.length = s.config.nRx) (h2 : s.txAddr.length = s.config.nTx)
    (h : mapRegions s = .ok () t) :
    ∃ rx tx stats cfg, s.busMap.answers s.config = some (rx, tx, stats, cfg) ∧ rx.length = s.config.nRx ∧
      tx.length = s.config.nTx ∧ (∀ a ∈ rx ++ tx ++ [stats, cfg], a.toNat % 4 = 0) ∧
      t = { s with rxAddr := rx, txAddr := tx, statsAddr := stats, cfgAddr := cfg } := by
  simp only [mapRegions, bind_apply, get_apply] at h
  cases hx : mapRx 0 s.config.nRx s with
  | error e u => rw [hx] at h; cases h
  | ok a u =>
    obtain ⟨rx, m1, l1, a1, e1⟩ := mapRx_ok s.config.nRx (by omega) hx
    simp only [List.take_zero, List.nil_append, Nat.zero_add, ← h1, List.drop_length, List.append_nil] at e1
    rw [hx] at h
    simp only at h
    cases hy : mapTx 0 s.config.nTx u with
    | error e v => rw [hy] at h; cases h
    | ok a v =>
      obtain ⟨tx, m2, l2, a2, e2⟩ := mapTx_ok s.config.nTx (i := 0) (s := u) (by rw [e1]; show _ ≤ s.txAddr.length; omega) hy
      have hut : u.txAddr = s.txAddr := by rw [e1]
      simp only [List.take_zero, List.nil_append, Nat.zero_add, ← h2, hut, List.drop_length, List.append_nil] at e2
      rw [show u.busMap = s.busMap by rw [e1]] at m2
      rw [hy] at h
      simp only at h
      rcases checkMapped_end s.busMap.stats v with ⟨st, hst, s4, hc⟩ | ⟨e, hc⟩ <;> rw [hc] at h
      · simp only [modify_apply] at h
        rcases checkMapped_end s.busMap.cfg { v with statsAddr := st } with ⟨cf, hcf, c4, hd⟩ | ⟨e, hd⟩ <;> rw [hd] at h
        · injection h with _ h
          subst h
          refine ⟨rx, tx, st, cf, ?_, l1, l2, ?_, ?_⟩
          · unfold BusMap.answers
            rw [List.range_eq_range', List.range_eq_range', m1, m2, hst, hcf]; rfl
          · intro a ha
            simp only [List.mem_append, List.mem_cons, List.not_mem_nil, or_false] at ha
            rcases ha with (ha | ha) | rfl | rfl
            · exact a1 a ha
            · exact a2 a ha
            · exact s4
            · exact c4
          · rw [e2, e1]
        · cases h
      · cases h

/-! ### Sound states -/

theorem State.Sound.good {s : State} (h : s.Sound) (hr : s.Running) : s.Good :=
  ⟨h.params, h.laid hr.started, h.marks hr, h.serial hr.noFault, h.threshold hr⟩

/-- An operation of the port that is not the start-up sequence ends only in a started block. -/
theorem request_started {i : Instr} {op : Op OpResult} (h : requestOp i = some op) (h2 : i ≠ .reset) {s : State}
    (hs : s.started = false) : op s = .error (.fatal .notStarted) s := by
  cases i <;> cases h <;> first | exact requireStarted_stop hs _ | exact absurd rfl h2

/-- The start-up sequence from a state with caches of the right lengths. -/
theorem resetOp_len {s : State} (h1 : s.rxAddr.length = s.config.nRx) (h2 : s.txAddr.length = s.config.nTx) :
    SameLen s (endState (resetOp s)) := by
  have hp : ∀ f, SameLen s (endState (bootPrefix f s)) := by
    intro f
    simp only [bootPrefix_eq, bind_apply, modify_apply, get_apply, require_apply]
    split
    · rename_i heq
      split at heq
      · cases heq
        have hm := mapRegions_len (s := { s with base := f.base, irq := f.irq }) (le_of_eq h1.symm) (le_of_eq h2.symm)
        cases hx : mapRegions { s with base := f.base, irq := f.irq } with
        | error e t => rw [hx] at hm; exact ⟨hm.config, hm.rx, hm.tx⟩
        | ok a t =>
          rw [hx] at hm
          have ha := addr_bootRest t
          have he : SameLen t (endState (bootRest t)) := ⟨ha.config, by rw [ha.rxAddr], by rw [ha.txAddr]⟩
          have : SameLen s (endState (bootRest t)) := SameLen.trans ⟨hm.config, hm.rx, hm.tx⟩ he
          exact this
      · cases heq
    · rename_i heq
      split at heq
      · cases heq
      · cases heq; exact ⟨rfl, rfl, rfl⟩
  rcases resetOp_cases s with ⟨-, h⟩ | ⟨-, -, h⟩ | ⟨f, link, u, -, -, hu, h⟩ | ⟨f, e, u, -, -, hu, h⟩ <;> rw [h]
  · exact ⟨rfl, rfl, rfl⟩
  · exact ⟨rfl, rfl, rfl⟩
  · have := hp f; rw [hu] at this; exact ⟨this.config, this.rx, this.tx⟩
  · have := hp f; rw [hu] at this; exact this

/-- A start-up sequence that ends leaves a good and aligned state. -/
theorem bootPrefix_good {s t : State} {f : PciFunction} {link : Half} (hw : s.config.wf = true)
    (hm : s.busMap.apart s.config = true) (h1 : s.rxAddr.length = s.config.nRx) (h2 : s.txAddr.length = s.config.nTx)
    (h : bootPrefix f s = .ok link t) : t.Good ∧ t.aligned = true := by
  obtain ⟨_, s1, x1, h⟩ := ok_of_bind h
  obtain ⟨_, s2, x2, h⟩ := ok_of_bind h
  obtain ⟨_, s3, x3, h⟩ := ok_of_bind h
  obtain ⟨_, s4, x4, h⟩ := ok_of_bind h
  injection x1 with _ e1
  injection x2 with _ e2
  have e3 : s3 = s2 := by
    rw [require_apply] at x3
    split at x3
    · injection x3 with _ e; exact e.symm
    · cases x3
  have h : bootRest s4 = .ok link t := h
  have e2' : s2 = { s with base := f.base, irq := f.irq } := e2.symm.trans e1.symm
  rw [e3, e2'] at x4
  obtain ⟨rx, tx, stats, cfg, ha, l1, l2, h4, e4⟩ := mapRegions_ok (s := { s with base := f.base, irq := f.irq }) h1 h2 x4
  have hl : s4.Laid := by
    rw [e4]
    refine ⟨l1, l2, ?_⟩
    simp only [BusMap.apart] at hm
    have ha : s.busMap.answers s.config = some (rx, tx, stats, cfg) := ha
    rw [ha] at hm
    exact hm
  have hg := bootRest_good (by rw [e4]; exact hw) hl h
  have had := addr_bootRest s4
  rw [h] at had
  refine ⟨hg, ?_⟩
  simp only [State.aligned, List.all_eq_true, beq_iff_eq]
  intro a ham
  have hr : t.rxAddr = rx := had.rxAddr.trans (by rw [e4])
  have ht : t.txAddr = tx := had.txAddr.trans (by rw [e4])
  have hs : t.statsAddr = stats := had.statsAddr.trans (by rw [e4])
  have hc : t.cfgAddr = cfg := had.cfgAddr.trans (by rw [e4])
  rw [hr, ht, hs, hc] at ham
  exact h4 a ham

theorem SameLen.sized {s u : State} (h : SameLen s u) (h1 : s.rxAddr.length = s.config.nRx)
    (h2 : s.txAddr.length = s.config.nTx) : u.rxAddr.length = u.config.nRx ∧ u.txAddr.length = u.config.nTx := by
  rw [h.rx, h.tx, h.config]; exact ⟨h1, h2⟩

end Sys2Proof.Machine
end

