-- ==== Sys2Proof/Laws/PerInstr.lean ====
section
/-! SUPPORT. One lemma per constructor of Instr: the words of a well-formed instruction decode to it. -/

namespace Sys2Proof.Laws.RoundTrip

def Statement (i : Instr) : Prop := ∀ k : CmdCodes, k.wf = true → i.wf = true → decode k (encode k i) = .ok i

theorem rxPoll : Statement .rxPoll := fun _ _ _ => rfl

theorem rxRecycle (n : Nat) : Statement (.rxRecycle n) := by
  intro _ _ h
  have hn : n < 256 := by simpa [Instr.wf] using h
  rw [encode, decode, decodeOpw_mkOpw]
  show (Except.ok (Instr.rxRecycle (BitVec.ofNat 8 n).toNat) : Except DecodeError Instr) = _
  rw [BitVec.toNat_ofNat, Nat.mod_eq_of_lt hn]

theorem txAppend (f : Frame) : Statement (.txAppend f) := fun _ _ _ => rfl

theorem txDrain : Statement .txDrain := fun _ _ _ => rfl

theorem issueCuLoadBase (ri : Bool) (a : BusAddr) : Statement (.issueCuLoadBase ri a) := fun _ _ _ => by cases ri <;> rfl

theorem issueRuLoadBase (ri : Bool) (a : BusAddr) : Statement (.issueRuLoadBase ri a) := fun _ _ _ => by cases ri <;> rfl

theorem issueCuStart (ri : Bool) (a : BusAddr) : Statement (.issueCuStart ri a) := fun _ _ _ => by cases ri <;> rfl

theorem issueRuStart (ri : Bool) (a : BusAddr) : Statement (.issueRuStart ri a) := fun _ _ _ => by cases ri <;> rfl

theorem issueCuDumpStatistics (ri : Bool) (a : BusAddr) : Statement (.issueCuDumpStatistics ri a) := fun _ _ _ => by cases ri <;> rfl

theorem restartRu : Statement .restartRu := fun _ _ _ => rfl

theorem onInterrupt : Statement .onInterrupt := fun _ _ _ => rfl

theorem checkInterrupts : Statement .checkInterrupts := fun _ _ _ => rfl

theorem armTx (c : Client) (f : Frame) : Statement (.armTx c f) := fun _ _ _ => rfl

theorem armRx (c : Client) : Statement (.armRx c) := fun _ _ _ => rfl

theorem replayTx : Statement .replayTx := fun _ _ _ => rfl

theorem replayRx : Statement .replayRx := fun _ _ _ => rfl

theorem watchdogTick : Statement .watchdogTick := fun _ _ _ => rfl

theorem readEeprom (n : Nat) : Statement (.readEeprom n) := by
  intro _ _ h
  have hn : n < 256 := by simpa [Instr.wf] using h
  rw [encode, decode, decodeOpw_mkOpw]
  show (Except.ok (Instr.readEeprom (BitVec.ofNat 8 n).toNat) : Except DecodeError Instr) = _
  rw [BitVec.toNat_ofNat, Nat.mod_eq_of_lt hn]

theorem readPhy (n : Nat) : Statement (.readPhy n) := by
  intro _ _ h
  have hn : n < 32 := by simpa [Instr.wf] using h
  rw [encode, decode, decodeOpw_mkOpw]
  exact decodePhySel_ofNat hn

theorem configure (f : ModeFlags) : Statement (.configure f) := by
  intro _ _ _
  rw [encode, decode, decodeOpw_mkOpw]
  exact decodeConfigureSel_configureSel f

theorem transmit (c : Client) (f : Frame) : Statement (.transmit c f) := fun _ _ _ => rfl

theorem receive (c : Client) : Statement (.receive c) := fun _ _ _ => rfl

theorem getStatistics (c : Client) : Statement (.getStatistics c) := fun _ _ _ => rfl

theorem reset : Statement .reset := fun _ _ _ => rfl

theorem scbCuNop : Statement .scbCuNop := fun _ _ _ => rfl

theorem scbCuStart : Statement .scbCuStart := fun k h _ => by
  rw [encode, decode, decodeScbByte, scbCuField_cuByte, decodeCuCode_start h]

theorem scbCuDumpStatistics : Statement .scbCuDumpStatistics := fun k h _ => by
  rw [encode, decode, decodeScbByte, scbCuField_cuByte, decodeCuCode_dump h]

theorem scbCuLoadBase : Statement .scbCuLoadBase := fun k h _ => by
  rw [encode, decode, decodeScbByte, scbCuField_cuByte, decodeCuCode_load h]

theorem scbRuNop : Statement .scbRuNop := fun _ _ _ => rfl

theorem scbRuStart : Statement .scbRuStart := fun k h _ => by
  rw [encode, decode, decodeScbByte, scbRuField_ruByte, decodeRuCode_start h]

theorem scbRuLoadBase : Statement .scbRuLoadBase := fun k h _ => by
  rw [encode, decode, decodeScbByte, scbRuField_ruByte, decodeRuCode_load h]

theorem txdOpNop (el : Bool) : Statement (.txdOpNop el) := fun _ _ _ => by cases el <;> rfl

theorem txdOpTx (el : Bool) : Statement (.txdOpTx el) := fun _ _ _ => by cases el <;> rfl

end Sys2Proof.Laws.RoundTrip
end

