-- ==== Sys2Proof/Laws/Serial.lean ====
section
/-! SUPPORT. What the serial engine's pieces do with the two slaves: bits shifted out reach the slave one
clock at a time, bits shifted in are the slave's word, and nothing but the serial state changes. -/

namespace Sys2Proof.Machine

/-- A state with its serial part replaced: `lines` and SER_CTL (equal), both slaves, the free line levels used,
the events. -/
def State.serial (s : State) (l : Byte) (e : EeSlave) (p : PhySlave) (n : Nat) (ev : List BusEvent) : State :=
  { s with lines := l, dev := { s.dev with serCtl := l, ee := e, phy := p, lineReads := n }, events := ev }

section
variable (s : State) (l l' : Byte) (e e' : EeSlave) (p p' : PhySlave) (n n' : Nat) (ev ev' : List BusEvent)

@[simp] theorem serial_config : (s.serial l e p n ev).config = s.config := rfl
@[simp] theorem serial_lines : (s.serial l e p n ev).lines = l := rfl
@[simp] theorem serial_eeWidth : (s.serial l e p n ev).eeWidth = s.eeWidth := rfl
@[simp] theorem serial_serBusy : (s.serial l e p n ev).serBusy = s.serBusy := rfl
@[simp] theorem serial_phyRegister (r : BitVec 5) :
    (s.serial l e p n ev).dev.phyRegister r = s.dev.phyRegister r := rfl

@[simp] theorem serial_serial : (s.serial l e p n ev).serial l' e' p' n' ev' = s.serial l' e' p' n' ev' := rfl

end

/-- Driving new line levels: SER_CTL takes them and both slaves see them. -/
theorem driveLines_serial (s : State) (l v : Byte) (e : EeSlave) (p : PhySlave) (n : Nat) (ev : List BusEvent)
    (hv : v &&& lineOutputs = v) :
    ∃ ev', driveLines v (s.serial l e p n ev) =
      .ok () (s.serial v (e.onLines s.config l v) (p.onLines s.config s.dev.phyRegister l v) n ev') := by
  refine ⟨.delay s.config.serDelayUs :: .portWrite (s.writePort .serCtl) (v.setWidth 32) :: ev, ?_⟩
  simp only [driveLines, portWrite, delay, bind_apply, modify_apply]
  simp only [State.serial, Device.writeRegister, Device.writeSerCtl, State.event, State.writePort,
    BitVec.setWidth_setWidth_of_le _ (show 8 ≤ 32 by decide), BitVec.setWidth_eq, hv]
  rfl

/-- Line levels while the EEPROM is selected and the clock is low: DI is the only line that varies. -/
def eeLines (di : Bool) : Byte := if di then 0x06 else 0x02

/-- The EEPROM has been selected and takes in bits: it is not idle. -/
def EeSlave.selected : EeSlave → Bool
  | .idle => false
  | .command _ => true
  | .address _ _ => true
  | .data _ _ => true
  | .other => true

theorem selected_clock {c : Config} {b : Bool} {e : EeSlave} (h : e.selected = true) :
    (e.clock c b).selected = true := by
  cases e with
  | idle => simp [EeSlave.selected] at h
  | command bits =>
    unfold EeSlave.clock
    cases bits with
    | nil => rfl
    | cons a bits => cases bits with
      | nil => rfl
      | cons a' bits => cases bits with
        | nil => simp only; split <;> rfl
        | cons => rfl
  | address k v => unfold EeSlave.clock; simp only; split <;> rfl
  | data w k => rfl
  | other => rfl

/-- New levels at a selected EEPROM that stays selected. -/
theorem onLines_selected {c : Config} {old new : Byte} {e : EeSlave} (h : e.selected = true)
    (hp : lineHigh new linePsel = false) (hc : lineHigh new lineCs = true) :
    e.onLines c old new =
      if !lineHigh old lineSk && lineHigh new lineSk then e.clock c (lineHigh new lineDi) else e := by
  cases e <;> simp_all [EeSlave.onLines, EeSlave.selected]

theorem phy_onLines_unselected (c : Config) (reg : BitVec 5 → Half) (old new : Byte) (p : PhySlave)
    (hp : lineHigh new linePsel = false) : p.onLines c reg old new = .idle := by
  simp [PhySlave.onLines, hp]

/-- A rising clock edge between two line levels. -/
def rises (old new : Byte) : Bool := !lineHigh old lineSk && lineHigh new lineSk

/-- Driving levels that keep the EEPROM selected. -/
theorem driveLines_ee (s : State) (l v : Byte) (e : EeSlave) (n : Nat) (ev : List BusEvent)
    (h : e.selected = true) (hv : v &&& lineOutputs = v) (hp : lineHigh v linePsel = false)
    (hc : lineHigh v lineCs = true) :
    ∃ ev', driveLines v (s.serial l e .idle n ev) =
      .ok () (s.serial v (if rises l v then e.clock s.config (lineHigh v lineDi) else e) .idle n ev') := by
  obtain ⟨ev', h'⟩ := driveLines_serial s l v e .idle n ev hv
  exact ⟨ev', by rw [h', onLines_selected h hp hc, phy_onLines_unselected _ _ _ _ _ hp]; rfl⟩

/-- The line levels of `eeLines` with the clock high. -/
def eeLinesHigh (di : Bool) : Byte := eeLines di ||| lineSk

theorem setLine_di_ee (di b : Bool) : setLine (eeLines di) lineDi b = eeLines b := by
  cases di <;> cases b <;> decide

theorem setLine_sk_ee (di : Bool) : setLine (eeLines di) lineSk true = eeLinesHigh di := by
  cases di <;> decide

theorem setLine_sk_eeHigh (di : Bool) : setLine (eeLinesHigh di) lineSk false = eeLines di := by
  cases di <;> decide

theorem driveLines_ee_low (s : State) (di b : Bool) (e : EeSlave) (n : Nat) (ev : List BusEvent)
    (h : e.selected = true) :
    ∃ ev', driveLines (eeLines b) (s.serial (eeLines di) e .idle n ev) =
      .ok () (s.serial (eeLines b) e .idle n ev') := by
  obtain ⟨ev', h'⟩ := driveLines_ee s (eeLines di) (eeLines b) e n ev h (by cases b <;> decide)
    (by cases b <;> decide) (by cases b <;> decide)
  rw [show rises (eeLines di) (eeLines b) = false by cases di <;> cases b <;> decide] at h'
  exact ⟨ev', h'⟩

theorem driveLines_ee_fall (s : State) (b : Bool) (e : EeSlave) (n : Nat) (ev : List BusEvent)
    (h : e.selected = true) :
    ∃ ev', driveLines (eeLines b) (s.serial (eeLinesHigh b) e .idle n ev) =
      .ok () (s.serial (eeLines b) e .idle n ev') := by
  obtain ⟨ev', h'⟩ := driveLines_ee s (eeLinesHigh b) (eeLines b) e n ev h (by cases b <;> decide)
    (by cases b <;> decide) (by cases b <;> decide)
  rw [show rises (eeLinesHigh b) (eeLines b) = false by cases b <;> decide] at h'
  exact ⟨ev', h'⟩

theorem driveLines_ee_rise (s : State) (b : Bool) (e : EeSlave) (n : Nat) (ev : List BusEvent)
    (h : e.selected = true) :
    ∃ ev', driveLines (eeLinesHigh b) (s.serial (eeLines b) e .idle n ev) =
      .ok () (s.serial (eeLinesHigh b) (e.clock s.config b) .idle n ev') := by
  obtain ⟨ev', h'⟩ := driveLines_ee s (eeLines b) (eeLinesHigh b) e n ev h (by cases b <;> decide)
    (by cases b <;> decide) (by cases b <;> decide)
  rw [show rises (eeLines b) (eeLinesHigh b) = true by cases b <;> decide,
    show lineHigh (eeLinesHigh b) lineDi = b by cases b <;> decide] at h'
  exact ⟨ev', h'⟩

/-- One bit out to the selected EEPROM is one clock of it. -/
theorem shiftOut_ee (s : State) (di b : Bool) (e : EeSlave) (n : Nat) (ev : List BusEvent)
    (h : e.selected = true) :
    ∃ ev', shiftOut b (s.serial (eeLines di) e .idle n ev) =
      .ok () (s.serial (eeLines b) (e.clock s.config b) .idle n ev') := by
  obtain ⟨ev1, h1⟩ := driveLines_ee_low s di b e n ev h
  obtain ⟨ev2, h2⟩ := driveLines_ee_rise s b e n ev1 h
  obtain ⟨ev3, h3⟩ := driveLines_ee_fall s b _ n ev2 (selected_clock (c := s.config) (b := b) h)
  refine ⟨ev3, ?_⟩
  simp only [shiftOut, driveLine, bind_apply, get_apply, serial_lines, setLine_di_ee, h1, setLine_sk_ee, h2,
    setLine_sk_eeHigh, h3]

/-- A sequence of bits out to the selected EEPROM. -/
theorem shiftOutAll_ee (s : State) (bs : List Bool) (di : Bool) (e : EeSlave) (n : Nat) (ev : List BusEvent)
    (h : e.selected = true) :
    ∃ di' ev', shiftOutAll bs (s.serial (eeLines di) e .idle n ev) =
      .ok () (s.serial (eeLines di') (bs.foldl (fun e b => e.clock s.config b) e) .idle n ev') := by
  induction bs generalizing di e ev with
  | nil => exact ⟨di, ev, rfl⟩
  | cons b bs ih =>
    obtain ⟨ev1, h1⟩ := shiftOut_ee s di b e n ev h
    obtain ⟨di2, ev2, h2⟩ := ih b (e.clock s.config b) ev1 (selected_clock h)
    exact ⟨di2, ev2, by simp only [shiftOutAll, bind_apply, h1, h2, List.foldl_cons]⟩

/-! ### Reading DO -/

theorem serCtlByte_bit (l : Byte) (b : Bool) (hl : l &&& lineOutputs = l) :
    ((l ||| ((BitVec.ofBool b).setWidth 8 <<< 3)).setWidth 32).getLsbD 3 = b := by
  have h3 : l[3] = false := by
    have := congrArg (fun x : Byte => x[3]) hl
    simpa [lineOutputs] using this.symm
  cases b <;> simp [h3]

/-- What DO reads, and how many free levels that uses. -/
def Device.doRead (d : Device) : Bool × Nat :=
  match d.doLevel with
  | some b => (b, d.lineReads)
  | none => (Config.floatingLine d.lineReads, d.lineReads + 1)

theorem readDo_serial (s : State) (l : Byte) (e : EeSlave) (p : PhySlave) (n : Nat) (ev : List BusEvent)
    (hl : l &&& lineOutputs = l) :
    ∃ ev', readDo (s.serial l e p n ev) =
      .ok (s.serial l e p n ev).dev.doRead.1 (s.serial l e p n (ev)  |>.serial l e p (s.serial l e p n ev).dev.doRead.2 ev') := by
  refine ⟨.portRead (s.readPort .serCtl) ((s.serial l e p n ev).dev.registerValue (s.serial l e p n ev).statusReserved .serCtl) :: ev, ?_⟩
  have hb : ((s.serial l e p n ev).dev.registerValue (s.serial l e p n ev).statusReserved .serCtl).getLsbD 3 = (s.serial l e p n ev).dev.doRead.1 := by
    have := serCtlByte_bit l (s.serial l e p n ev).dev.doBit hl
    refine Eq.trans this ?_
    unfold Device.doBit Device.doRead
    cases (s.serial l e p n ev).dev.doLevel <;> rfl
  simp only [readDo, bind_apply, portRead, pure_apply, hb]
  congr 1
  unfold Device.afterRead Device.readSerCtl Device.doRead
  cases h : (s.serial l e p n ev).dev.doLevel <;> rfl

theorem readDo_ee (s : State) (l : Byte) (e : EeSlave) (n : Nat) (ev : List BusEvent) (b : Bool)
    (hl : l &&& lineOutputs = l) (hp : lineHigh l linePsel = false) (he : e.level = some b) :
    ∃ ev', readDo (s.serial l e .idle n ev) = .ok b (s.serial l e .idle n ev') := by
  obtain ⟨ev', h⟩ := readDo_serial s l e .idle n ev hl
  have hd : (s.serial l e .idle n ev).dev.doLevel = some b := by
    simp only [Device.doLevel, State.serial, hp]; exact he
  have hr : (s.serial l e .idle n ev).dev.doRead = (b, n) := by
    unfold Device.doRead; rw [hd]; rfl
  rw [hr] at h
  exact ⟨ev', h⟩

/-- One bit in from the selected EEPROM: the level it drives after one clock. -/
theorem shiftIn_ee (s : State) (di : Bool) (e : EeSlave) (n : Nat) (ev : List BusEvent) (b : Bool)
    (h : e.selected = true) (hb : (e.clock s.config di).level = some b) :
    ∃ ev', shiftIn (s.serial (eeLines di) e .idle n ev) =
      .ok b (s.serial (eeLines di) (e.clock s.config di) .idle n ev') := by
  obtain ⟨ev1, h1⟩ := driveLines_ee_rise s di e n ev h
  obtain ⟨ev2, h2⟩ := readDo_ee s (eeLinesHigh di) (e.clock s.config di) n ev1 b (by cases di <;> decide)
    (by cases di <;> decide) hb
  obtain ⟨ev3, h3⟩ := driveLines_ee_fall s di _ n ev2 (selected_clock (c := s.config) (b := di) h)
  refine ⟨ev3, ?_⟩
  simp only [shiftIn, driveLine, bind_apply, get_apply, serial_lines, setLine_sk_ee, h1, h2,
    setLine_sk_eeHigh, h3, pure_apply]

/-- Taking one more bit of a word in, most significant first. -/
theorem shift_in_bit (w : Half) (j : Nat) :
    (w >>> (j + 1)) <<< 1 ||| (BitVec.ofBool (w.getLsbD j)).setWidth 16 = w >>> j := by
  apply BitVec.eq_of_getLsbD_eq
  intro i hi
  rcases i with _ | i
  · simp
  · simp [BitVec.getLsbD_setWidth, show j + 1 + i = j + (i + 1) by omega]
    omega

/-- The remaining `m` bits of the word the EEPROM presents. -/
theorem shiftInWord_ee (s : State) (di : Bool) (w : Half) (n : Nat) (m k : Nat) (hk : k + m = 16)
    (ev : List BusEvent) :
    ∃ ev', shiftInWord m (w >>> m) (s.serial (eeLines di) (.data w k) .idle n ev) =
      .ok w (s.serial (eeLines di) (.data w (k + m)) .idle n ev') := by
  induction m generalizing k ev with
  | zero => exact ⟨ev, by simp [shiftInWord]⟩
  | succ m ih =>
    have hlev : (EeSlave.clock s.config di (.data w k)).level = some (w.getLsbD m) := by
      simp only [EeSlave.clock, EeSlave.level]
      rw [if_neg (by omega), if_pos (by omega), show 16 - (k + 1) = m by omega]
    obtain ⟨ev1, h1⟩ := shiftIn_ee s di (.data w k) n ev _ rfl hlev
    obtain ⟨ev2, h2⟩ := ih (k + 1) (by omega) ev1
    refine ⟨ev2, ?_⟩
    simp only [shiftInWord, bind_apply, h1]
    rw [shift_in_bit w m]
    rw [show EeSlave.clock s.config di (.data w k) = .data w (k + 1) from rfl, h2]
    rw [show k + (m + 1) = k + 1 + m by omega]

/-! ### A whole EEPROM read -/

/-- Selecting the EEPROM and sending the READ command leaves it waiting for its address. -/
theorem eeSelect_serial (s : State) (n : Nat) (ev : List BusEvent) :
    ∃ di ev', eeSelect (s.serial 0 .idle .idle n ev) =
      .ok () (s.serial (eeLines di) (.address 0 0) .idle n ev') := by
  obtain ⟨ev1, h1⟩ := driveLines_serial s 0 lineCs .idle .idle n ev (by decide)
  rw [show EeSlave.onLines s.config 0 lineCs .idle = .command [] by
      simp [EeSlave.onLines, show lineHigh lineCs linePsel = false by decide,
        show lineHigh lineCs lineCs = true by decide, show lineHigh lineCs lineSk = false by decide],
    phy_onLines_unselected _ _ _ _ _ (by decide)] at h1
  obtain ⟨di, ev2, h2⟩ := shiftOutAll_ee s eeReadCommand false (.command []) n ev1 rfl
  refine ⟨di, ev2, ?_⟩
  simp only [eeSelect, bind_apply, h1]
  exact h2

/-- The value of a bit sequence, most significant first, after a value already taken in. -/
theorem foldl_bitsMsbFirst (m v acc : Nat) :
    (bitsMsbFirst m v).foldl (fun a b => 2 * a + b.toNat) acc = acc * 2 ^ m + v % 2 ^ m := by
  induction m generalizing acc with
  | zero => simp [bitsMsbFirst, Nat.mod_one]
  | succ m ih =>
    simp only [bitsMsbFirst, List.foldl_cons, ih]
    rw [Nat.mod_pow_succ, Nat.pow_succ, Nat.toNat_testBit]
    ring

/-- The address bits reach the EEPROM, which then has the word. -/
theorem clock_address (c : Config) (bs : List Bool) (k v : Nat) (hk : k + bs.length = c.eeDevWidth)
    (hb : bs ≠ []) :
    bs.foldl (fun e b => EeSlave.clock c b e) (.address k v) =
      .data (c.eeMem.getD (bs.foldl (fun a b => 2 * a + b.toNat) v) 0) 0 := by
  induction bs generalizing k v with
  | nil => exact absurd rfl hb
  | cons b bs ih =>
    simp only [List.foldl_cons]
    simp only [List.length_cons] at hk
    by_cases hbs : bs = []
    · subst hbs
      simp only [List.length_nil, Nat.zero_add] at hk
      simp [EeSlave.clock, hk]
    · have : 0 < bs.length := List.length_pos_iff.mpr hbs
      rw [show EeSlave.clock c b (.address k v) = .address (k + 1) (2 * v + b.toNat) by
        simp only [EeSlave.clock]; rw [if_neg (by omega)], ih (k + 1) _ (by omega) hbs]

theorem length_bitsMsbFirst (m v : Nat) : (bitsMsbFirst m v).length = m := by
  induction m with
  | zero => rfl
  | succ m ih => simp [bitsMsbFirst, ih]

/-- Deselecting everything. -/
theorem driveLines_idle (s : State) (l : Byte) (e : EeSlave) (p : PhySlave) (n : Nat) (ev : List BusEvent) :
    ∃ ev', driveLines 0 (s.serial l e p n ev) = .ok () (s.serial 0 .idle .idle n ev') := by
  obtain ⟨ev', h⟩ := driveLines_serial s l 0 e p n ev (by decide)
  refine ⟨ev', ?_⟩
  rw [h, phy_onLines_unselected _ _ _ _ _ (by decide)]
  simp only [EeSlave.onLines, show (lineHigh 0 linePsel || !lineHigh 0 lineCs) = true by decide, if_true]

/-- Reading word `reg` when the cached width is the part's (R203, R205). -/
theorem eeReadFrame_serial (s : State) (reg n : Nat) (ev : List BusEvent)
    (hw : s.eeWidth.bits = s.config.eeDevWidth) (h0 : 0 < s.config.eeDevWidth)
    (hr : reg < 2 ^ s.config.eeDevWidth) :
    ∃ ev', eeReadFrame reg (s.serial 0 .idle .idle n ev) =
      .ok (s.config.eeMem.getD reg 0) (s.serial 0 .idle .idle n ev') := by
  obtain ⟨di, ev1, h1⟩ := eeSelect_serial s n ev
  obtain ⟨di2, ev2, h2⟩ := shiftOutAll_ee s (bitsMsbFirst s.eeWidth.bits reg) di (.address 0 0) n ev1 rfl
  rw [clock_address s.config _ 0 0 (by rw [length_bitsMsbFirst]; omega)
    (by intro hn; have := congrArg List.length hn; rw [length_bitsMsbFirst] at this; simp at this; omega),
    foldl_bitsMsbFirst, hw, Nat.mod_eq_of_lt hr] at h2
  simp only [Nat.zero_mul, Nat.zero_add] at h2
  obtain ⟨ev3, h3⟩ := shiftInWord_ee s di2 (s.config.eeMem.getD reg 0) n 16 0 (by omega) ev2
  rw [show s.config.eeMem.getD reg 0 >>> 16 = 0 by
    apply BitVec.eq_of_toNat_eq; simp [Nat.shiftRight_eq_div_pow]; omega] at h3
  obtain ⟨ev4, h4⟩ := driveLines_idle s (eeLines di2) (.data (s.config.eeMem.getD reg 0) (0 + 16)) .idle n ev3
  refine ⟨ev4, ?_⟩
  simp only [eeReadFrame, bind_apply, get_apply, serial_eeWidth, h1, hw, h2, h3, h4, pure_apply]

/-! ### The width scan (R204) -/

/-- The scan stops at the part's width if that is within its reach. -/
theorem eeScan_found (s : State) (di : Bool) (n k fuel : Nat) (ev : List BusEvent)
    (hk : k < s.config.eeDevWidth) (hf : s.config.eeDevWidth ≤ k + fuel) :
    ∃ ev', eeScan k fuel (s.serial (eeLines di) (.address k 0) .idle n ev) =
      .ok (s.config.eeDevWidth, false) (s.serial (eeLines false) (.data (s.config.eeMem.getD 0 0) 0) .idle n ev') := by
  induction fuel generalizing k di ev with
  | zero => omega
  | succ fuel ih =>
    obtain ⟨ev1, h1⟩ := shiftOut_ee s di false (.address k 0) n ev rfl
    by_cases hw : k + 1 = s.config.eeDevWidth
    · rw [show EeSlave.clock s.config false (.address k 0) = .data (s.config.eeMem.getD 0 0) 0 by
        simp [EeSlave.clock, hw]] at h1
      obtain ⟨ev2, h2⟩ := readDo_ee s (eeLines false) (.data (s.config.eeMem.getD 0 0) 0) n ev1 false (by decide)
        (by decide) rfl
      exact ⟨ev2, by simp only [eeScan, bind_apply, h1, h2, hw, Bool.false_eq_true, if_false, pure_apply]⟩
    · rw [show EeSlave.clock s.config false (.address k 0) = .address (k + 1) 0 by
        simp [EeSlave.clock, hw]] at h1
      obtain ⟨ev2, h2⟩ := readDo_ee s (eeLines false) (.address (k + 1) 0) n ev1 true (by decide) (by decide) rfl
      obtain ⟨ev3, h3⟩ := ih false (k + 1) ev2 (by omega) (by omega)
      exact ⟨ev3, by simp only [eeScan, bind_apply, h1, h2, h3, if_true]⟩

/-- The scan runs to its end if the part's width is out of its reach. -/
theorem eeScan_lost (s : State) (di : Bool) (n k fuel v : Nat) (ev : List BusEvent)
    (hk : s.config.eeDevWidth ≤ k ∨ k + fuel < s.config.eeDevWidth) :
    ∃ t, eeScan k fuel (s.serial (eeLines di) (.address k v) .idle n ev) = .ok (k + fuel, true) t ∧
      ∃ l e n' ev', t = s.serial l e .idle n' ev' := by
  induction fuel generalizing k di v ev with
  | zero => exact ⟨_, rfl, _, _, _, _, rfl⟩
  | succ fuel ih =>
    obtain ⟨ev1, h1⟩ := shiftOut_ee s di false (.address k v) n ev rfl
    rw [show EeSlave.clock s.config false (.address k v) = .address (k + 1) (2 * v) by
      simp only [EeSlave.clock]; rw [if_neg (by omega)]; simp] at h1
    obtain ⟨ev2, h2⟩ := readDo_ee s (eeLines false) (.address (k + 1) (2 * v)) n ev1 true (by decide) (by decide) rfl
    obtain ⟨t, h3, ht⟩ := ih false (k + 1) (2 * v) ev2 (by omega)
    exact ⟨t, by simp only [eeScan, bind_apply, h1, h2, h3, if_true]; rw [show k + 1 + fuel = k + (fuel + 1) by omega], ht⟩

theorem eeDetectWidth_supported (s : State) (w : EeWidth) (n : Nat) (ev : List BusEvent)
    (hw : supportedWidth s.config = some w) :
    ∃ ev', eeDetectWidth (s.serial 0 .idle .idle n ev) = .ok w (s.serial 0 .idle .idle n ev') := by
  have hW : s.config.eeDevWidth = 6 ∨ s.config.eeDevWidth = 8 := by
    unfold supportedWidth at hw; split at hw
    · exact .inl (by assumption)
    · split at hw
      · exact .inr (by assumption)
      · cases hw
  obtain ⟨di, ev1, h1⟩ := eeSelect_serial s n ev
  obtain ⟨ev2, h2⟩ := eeScan_found s di n 0 8 ev1 (by omega) (by omega)
  have hs : scannedWidth (s.config.eeDevWidth, false) = some w := by
    rw [← hw]; unfold scannedWidth supportedWidth; simp
  obtain ⟨ev3, h3⟩ := shiftInWord_ee s false (s.config.eeMem.getD 0 0) n 16 0 (by omega) ev2
  rw [show s.config.eeMem.getD 0 0 >>> 16 = 0 by
    apply BitVec.eq_of_toNat_eq; simp [Nat.shiftRight_eq_div_pow]; omega] at h3
  obtain ⟨ev4, h4⟩ := driveLines_idle s (eeLines false) (.data (s.config.eeMem.getD 0 0) (0 + 16)) .idle n ev3
  refine ⟨ev4, ?_⟩
  simp only [eeDetectWidth, bind_apply, h1, h2, hs, h3, h4, pure_apply]

theorem eeDetectWidth_unsupported (s : State) (n : Nat) (ev : List BusEvent)
    (hw : supportedWidth s.config = none) :
    ∃ l e n' ev', eeDetectWidth (s.serial 0 .idle .idle n ev) =
      .error (.fatal .eepromWidth) { s.serial l e .idle n' ev' with serBusy := false } := by
  obtain ⟨di, ev1, h1⟩ := eeSelect_serial s n ev
  have hne : s.config.eeDevWidth ≠ 6 ∧ s.config.eeDevWidth ≠ 8 := by
    unfold supportedWidth at hw; split at hw
    · cases hw
    · split at hw
      · cases hw
      · exact ⟨by assumption, by assumption⟩
  by_cases hW : 0 < s.config.eeDevWidth ∧ s.config.eeDevWidth ≤ 8
  · obtain ⟨ev2, h2⟩ := eeScan_found s di n 0 8 ev1 hW.1 (by omega)
    have hs : scannedWidth (s.config.eeDevWidth, false) = none := by
      simp [scannedWidth, hne]
    refine ⟨eeLines false, .data (s.config.eeMem.getD 0 0) 0, n, ev2, ?_⟩
    simp only [eeDetectWidth, bind_apply, h1, h2, hs, leaveSerial, modify_apply, raise_apply]
  · obtain ⟨t, h2, l, e, n', ev', ht⟩ := eeScan_lost s di n 0 8 0 ev1 (by omega)
    have hs : scannedWidth (0 + 8, true) = none := rfl
    refine ⟨l, e, n', ev', ?_⟩
    simp only [eeDetectWidth, bind_apply, h1, h2, hs, leaveSerial, modify_apply, raise_apply, ht]

/-! ### read_eeprom -/

/-- What `serial` gives back once everything is idle again. -/
theorem serial_idle_eq {s : State} (h1 : s.lines = 0) (h2 : s.dev.serCtl = 0) (h3 : s.dev.ee = .idle)
    (h4 : s.dev.phy = .idle) (n : Nat) (ev : List BusEvent) :
    s.serial 0 .idle .idle n ev = { s with dev := { s.dev with lineReads := n }, events := ev } := by
  have hd : ({ s.dev with serCtl := 0, ee := .idle, phy := .idle, lineReads := n } : Device) =
      { s.dev with lineReads := n } := by
    rw [← h3, ← h4, ← h2]
  unfold State.serial
  rw [hd, ← h1]

theorem serial_of_idle {s : State} (h1 : s.lines = 0) (h2 : s.dev.serCtl = 0) (h3 : s.dev.ee = .idle)
    (h4 : s.dev.phy = .idle) : s = s.serial 0 .idle .idle s.dev.lineReads s.events :=
  (serial_idle_eq h1 h2 h3 h4 _ _).symm

theorem readEeprom_busy (s : State) (reg : Nat) (h : s.serBusy = true) :
    readEeprom reg s = .error (.fatal .serialBusy) s := by
  simp [readEeprom, enterSerial, h]

/-- Entering an idle serial engine. -/
theorem enterSerial_idle {s : State} (h : s.serBusy = false) :
    enterSerial s = .ok () { s with serBusy := true } := by
  simp [enterSerial, h]

theorem ensureEeWidth_idle {s : State} (h : s.SerialIdle) {w : EeWidth} (hw : supportedWidth s.config = some w)
    (hc : s.eeWidth = .unknown ∨ s.eeWidth = w) :
    ∃ ev', ensureEeWidth { s with serBusy := true } =
      .ok () { s with serBusy := true, eeWidth := w, events := ev' } := by
  obtain ⟨_, h1, h2, h3, h4⟩ := h
  by_cases hu : s.eeWidth = .unknown
  · obtain ⟨ev, hd⟩ := eeDetectWidth_supported { s with serBusy := true } w s.dev.lineReads s.events hw
    rw [serial_idle_eq (s := { s with serBusy := true }) h1 h2 h3 h4,
      serial_idle_eq (s := { s with serBusy := true }) h1 h2 h3 h4] at hd
    refine ⟨ev, ?_⟩
    have hd' : eeDetectWidth { s with serBusy := true } = .ok w { s with serBusy := true, events := ev } := hd
    simp only [ensureEeWidth, bind_apply, get_apply, if_pos hu, hd', modify_apply]
  · have hw' : s.eeWidth = w := hc.resolve_left hu
    refine ⟨s.events, ?_⟩
    simp only [ensureEeWidth, bind_apply, get_apply, hu, if_false, pure_apply]
    subst hw'; rfl

/-- `read_eeprom` with a supported part and a word number in range (R203, R205). -/
theorem readEeprom_ok {s : State} (h : s.SerialIdle) {w : EeWidth} (hw : supportedWidth s.config = some w)
    (hc : s.eeWidth = .unknown ∨ s.eeWidth = w) {reg : Nat} (hr : reg < 2 ^ s.config.eeDevWidth) :
    ∃ ev', readEeprom reg s = .ok (s.config.eeMem.getD reg 0) { s with eeWidth := w, events := ev' } := by
  obtain ⟨ev1, h1⟩ := ensureEeWidth_idle h hw hc
  obtain ⟨hb, hl, h2, h3, h4⟩ := h
  have hbits : w.bits = s.config.eeDevWidth ∧ 0 < s.config.eeDevWidth := by
    unfold supportedWidth at hw; split at hw
    · rename_i h6; injection hw with hw; subst hw; simp [EeWidth.bits, h6]
    · split at hw
      · rename_i h8; injection hw with hw; subst hw; simp [EeWidth.bits, h8]
      · cases hw
  obtain ⟨ev2, hf⟩ := eeReadFrame_serial { s with serBusy := true, eeWidth := w } reg s.dev.lineReads ev1
    hbits.1 hbits.2 hr
  rw [serial_idle_eq (s := { s with serBusy := true, eeWidth := w }) hl h2 h3 h4,
    serial_idle_eq (s := { s with serBusy := true, eeWidth := w }) hl h2 h3 h4] at hf
  refine ⟨ev2, ?_⟩
  simp only [readEeprom, bind_apply, enterSerial_idle hb, h1]
  have hrange : checkEeRange reg { s with serBusy := true, eeWidth := w, events := ev1 } =
      .ok () { s with serBusy := true, eeWidth := w, events := ev1 } := by
    simp only [checkEeRange, bind_apply, get_apply, hbits.1, hr, if_true, pure_apply]
  rw [hrange]
  have hf' : eeReadFrame reg { s with serBusy := true, eeWidth := w, events := ev1 } =
    .ok (s.config.eeMem.getD reg 0) { s with serBusy := true, eeWidth := w, events := ev2 } := hf
  simp only [hf', leaveSerial, modify_apply, pure_apply]
  rw [← hb]

/-- A word number beyond the width is refused before any line is driven (R203). -/
theorem readEeprom_range {s : State} (h : s.SerialIdle) {w : EeWidth} (hw : supportedWidth s.config = some w)
    (hc : s.eeWidth = .unknown ∨ s.eeWidth = w) {reg : Nat} (hr : 2 ^ s.config.eeDevWidth ≤ reg) :
    ∃ ev', readEeprom reg s = .error (.fatal .serialRange) { s with eeWidth := w, events := ev' } := by
  obtain ⟨ev1, h1⟩ := ensureEeWidth_idle h hw hc
  have hbits : w.bits = s.config.eeDevWidth := by
    unfold supportedWidth at hw; split at hw
    · rename_i h6; injection hw with hw; subst hw; simp [EeWidth.bits, h6]
    · split at hw
      · rename_i h8; injection hw with hw; subst hw; simp [EeWidth.bits, h8]
      · cases hw
  obtain ⟨hb, -⟩ := h
  refine ⟨ev1, ?_⟩
  simp only [readEeprom, bind_apply, enterSerial_idle hb, h1, checkEeRange, get_apply, hbits,
    if_neg (Nat.not_lt.mpr hr), leaveSerial, modify_apply, raise_apply]
  rw [← hb]

/-- The first read of an unsupported part (R204, R205). -/
theorem readEeprom_width {s : State} (h : s.SerialIdle) (hw : supportedWidth s.config = none)
    (hu : s.eeWidth = .unknown) (reg : Nat) :
    ∃ l e n ev, readEeprom reg s = .error (.fatal .eepromWidth) (s.serial l e .idle n ev) := by
  obtain ⟨hb, hl, h2, h3, h4⟩ := h
  obtain ⟨l, e, n, ev, hd⟩ := eeDetectWidth_unsupported { s with serBusy := true } s.dev.lineReads s.events hw
  rw [serial_idle_eq (s := { s with serBusy := true }) hl h2 h3 h4] at hd
  have hd' : eeDetectWidth { s with serBusy := true } =
    .error (.fatal .eepromWidth) { ({ s with serBusy := true } : State).serial l e .idle n ev with serBusy := false } := hd
  refine ⟨l, e, n, ev, ?_⟩
  simp only [readEeprom, bind_apply, enterSerial_idle hb, ensureEeWidth, get_apply, if_pos hu, hd']
  unfold State.serial; rw [← hb]

/-! ### read_phy -/

/-- Line levels while the block drives the PHY's data line and the clock is low. -/
def phyLines (di : Bool) : Byte := if di then 0x34 else 0x30

/-- One bit out to the PHY is taken in by it. -/
theorem shiftOut_phy (s : State) (di b : Bool) (f : BitVec 46) (n : Nat) (ev : List BusEvent) :
    ∃ ev', shiftOut b (s.serial (phyLines di) .idle (.listen f) n ev) =
      .ok () (s.serial (phyLines b) .idle (.listen (shiftBit f b)) n ev') := by
  have e1 : setLine (phyLines di) lineDi b = phyLines b := by cases di <;> cases b <;> decide
  have e2 : setLine (phyLines b) lineSk true = phyLines b ||| lineSk := by cases b <;> decide
  have e3 : setLine (phyLines b ||| lineSk) lineSk false = phyLines b := by cases b <;> decide
  obtain ⟨ev1, h1⟩ := driveLines_serial s (phyLines di) (phyLines b) .idle (.listen f) n ev
    (by cases b <;> decide)
  obtain ⟨ev2, h2⟩ := driveLines_serial s (phyLines b) (phyLines b ||| lineSk) .idle (.listen f) n ev1
    (by cases b <;> decide)
  obtain ⟨ev3, h3⟩ := driveLines_serial s (phyLines b ||| lineSk) (phyLines b) .idle (.listen (shiftBit f b)) n ev2
    (by cases b <;> decide)
  have o1 : ∀ l l', lineHigh l' linePsel = true → EeSlave.onLines s.config l l' .idle = .idle := by
    intro l l' h; simp [EeSlave.onLines, h]
  have p1 : PhySlave.onLines s.config s.dev.phyRegister (phyLines di) (phyLines b) (.listen f) = .listen f := by
    cases di <;> cases b <;> rfl
  have p2 : PhySlave.onLines s.config s.dev.phyRegister (phyLines b) (phyLines b ||| lineSk) (.listen f) =
      .listen (shiftBit f b) := by
    cases b <;> rfl
  have p3 : PhySlave.onLines s.config s.dev.phyRegister (phyLines b ||| lineSk) (phyLines b)
      (.listen (shiftBit f b)) = .listen (shiftBit f b) := by
    cases b <;> rfl
  rw [p1, o1 _ _ (by cases b <;> decide)] at h1
  rw [p2, o1 _ _ (by cases b <;> decide)] at h2
  rw [p3, o1 _ _ (by cases b <;> decide)] at h3
  refine ⟨ev3, ?_⟩
  simp only [shiftOut, driveLine, bind_apply, get_apply, serial_lines, e1, h1, e2, h2, e3, h3]

theorem shiftOutAll_phy (s : State) (bs : List Bool) (di : Bool) (f : BitVec 46) (n : Nat) (ev : List BusEvent) :
    ∃ ev', shiftOutAll bs (s.serial (phyLines di) .idle (.listen f) n ev) =
      .ok () (s.serial (phyLines (bs.getLastD di)) .idle (.listen (bs.foldl shiftBit f)) n ev') := by
  induction bs generalizing di f ev with
  | nil => exact ⟨ev, rfl⟩
  | cons b bs ih =>
    obtain ⟨ev1, h1⟩ := shiftOut_phy s di b f n ev
    obtain ⟨ev2, h2⟩ := ih b (shiftBit f b) ev1
    refine ⟨ev2, ?_⟩
    simp only [shiftOutAll, bind_apply, h1, h2, List.foldl_cons]
    cases bs <;> rfl

/-- Line levels after the block released the PHY's data line. -/
def phyReleased (di : Bool) : Byte := if di then 0x24 else 0x20

/-- The PHY does not go back to listening while the block does not drive the data line. -/
def PhySlave.released : PhySlave → Bool
  | .drive _ _ => true
  | .silent => true
  | .idle => false
  | .listen _ => false

/-- The bit a released line gives after one more clock, and the free levels used then. -/
def PhySlave.nextBit (p : PhySlave) (n : Nat) : Bool × Nat :=
  match p.tick.level with
  | some b => (b, n)
  | none => (Config.floatingLine n, n + 1)

theorem shiftIn_phy (s : State) (di : Bool) (p : PhySlave) (n : Nat) (ev : List BusEvent) (h : p.released = true) :
    ∃ ev', shiftIn (s.serial (phyReleased di) .idle p n ev) =
      .ok (p.nextBit n).1 (s.serial (phyReleased di) .idle p.tick (p.nextBit n).2 ev') := by
  have e2 : setLine (phyReleased di) lineSk true = phyReleased di ||| lineSk := by cases di <;> decide
  have e3 : setLine (phyReleased di ||| lineSk) lineSk false = phyReleased di := by cases di <;> decide
  obtain ⟨ev1, h1⟩ := driveLines_serial s (phyReleased di) (phyReleased di ||| lineSk) .idle p n ev
    (by cases di <;> decide)
  have o1 : ∀ l l', lineHigh l' linePsel = true → EeSlave.onLines s.config l l' .idle = .idle := by
    intro l l' h; simp [EeSlave.onLines, h]
  have r1 : p.release s.config s.dev.phyRegister = p := by cases p <;> simp_all [PhySlave.released, PhySlave.release]
  have r2 : p.tick.release s.config s.dev.phyRegister = p.tick := by
    cases p <;> simp_all [PhySlave.released, PhySlave.release, PhySlave.tick]
  have p1 : PhySlave.onLines s.config s.dev.phyRegister (phyReleased di) (phyReleased di ||| lineSk) p = p.tick := by
    rw [← r1]; cases di <;> simp [PhySlave.onLines, phyReleased, lineHigh, lineSk, linePsel, lineOe, r1]
  have p2 : PhySlave.onLines s.config s.dev.phyRegister (phyReleased di ||| lineSk) (phyReleased di) p.tick = p.tick := by
    cases di <;> simp [PhySlave.onLines, phyReleased, lineHigh, lineSk, linePsel, lineOe, r2]
  rw [p1, o1 _ _ (by cases di <;> decide)] at h1
  obtain ⟨ev2, h2⟩ := readDo_serial s (phyReleased di ||| lineSk) .idle p.tick n ev1 (by cases di <;> decide)
  have hd : (s.serial (phyReleased di ||| lineSk) .idle p.tick n ev1).dev.doRead = p.nextBit n := by
    have : lineHigh (phyReleased di ||| lineSk) linePsel = true := by cases di <;> decide
    simp only [Device.doRead, Device.doLevel, State.serial, this, if_true, PhySlave.nextBit]
  rw [hd] at h2
  simp only [serial_serial] at h2
  obtain ⟨ev3, h3⟩ := driveLines_serial s (phyReleased di ||| lineSk) (phyReleased di) .idle p.tick (p.nextBit n).2 ev2
    (by cases di <;> decide)
  rw [p2, o1 _ _ (by cases di <;> decide)] at h3
  refine ⟨ev3, ?_⟩
  simp only [shiftIn, driveLine, bind_apply, get_apply, serial_lines, e2, h1, h2, e3, h3, pure_apply]

/-- The remaining `m` bits of the register the PHY presents. -/
theorem shiftInWord_phy (s : State) (di : Bool) (w : Half) (n : Nat) (m k : Nat) (hk : k + m = 18) (hm : m ≤ 16)
    (ev : List BusEvent) :
    ∃ ev', shiftInWord m (w >>> m) (s.serial (phyReleased di) .idle (.drive w k) n ev) =
      .ok w (s.serial (phyReleased di) .idle (.drive w (k + m)) n ev') := by
  induction m generalizing k ev with
  | zero => exact ⟨ev, by simp [shiftInWord]⟩
  | succ m ih =>
    have hlev : (PhySlave.drive w k).nextBit n = (w.getLsbD m, n) := by
      simp only [PhySlave.nextBit, PhySlave.tick, PhySlave.level]
      rw [show (decide (3 ≤ k + 1) && decide (k + 1 ≤ 18)) = true by simp; omega, if_pos rfl,
        show 18 - (k + 1) = m by omega]
    obtain ⟨ev1, h1⟩ := shiftIn_phy s di (.drive w k) n ev rfl
    rw [hlev] at h1
    obtain ⟨ev2, h2⟩ := ih (k + 1) (by omega) (by omega) ev1
    refine ⟨ev2, ?_⟩
    simp only [shiftInWord, bind_apply, h1]
    rw [shift_in_bit w m]
    rw [show PhySlave.tick (.drive w k) = .drive w (k + 1) from rfl, h2]
    rw [show k + (m + 1) = k + 1 + m by omega]

theorem shiftInWord_silent (s : State) (di : Bool) (d : Half) (n m : Nat) (ev : List BusEvent) :
    ∃ ev', shiftInWord m d (s.serial (phyReleased di) .idle .silent n ev) =
      .ok (floatingBits m n d) (s.serial (phyReleased di) .idle .silent (n + m) ev') := by
  induction m generalizing n d ev with
  | zero => exact ⟨ev, rfl⟩
  | succ m ih =>
    obtain ⟨ev1, h1⟩ := shiftIn_phy s di .silent n ev rfl
    obtain ⟨ev2, h2⟩ := ih (d <<< 1 ||| (BitVec.ofBool (Config.floatingLine n)).setWidth 16) (n + 1) ev1
    refine ⟨ev2, ?_⟩
    simp only [shiftInWord, bind_apply, h1]
    rw [show PhySlave.nextBit .silent n = (Config.floatingLine n, n + 1) from rfl,
      show PhySlave.tick .silent = .silent from rfl]
    simp only [h2, floatingBits]
    rw [show n + 1 + m = n + (m + 1) by omega]

theorem toNat_shiftBit (f : BitVec 46) (b : Bool) : (shiftBit f b).toNat = (2 * f.toNat + b.toNat) % 2 ^ 46 := by
  have h : shiftBit f b = f * 2#46 + (BitVec.ofBool b).setWidth 46 := by
    rw [shiftBit, ← BitVec.add_eq_or_of_and_eq_zero]
    · congr 1
      apply BitVec.eq_of_toNat_eq
      simp [Nat.shiftLeft_eq]
    · apply BitVec.eq_of_getLsbD_eq
      intro i hi
      rcases i with _ | i <;> cases b <;> simp
  rw [h]
  cases b <;> simp [BitVec.toNat_add, BitVec.toNat_mul] <;> omega

theorem toNat_foldl_shiftBit (bs : List Bool) (f : BitVec 46) :
    (bs.foldl shiftBit f).toNat = bs.foldl (fun a b => 2 * a + b.toNat) f.toNat % 2 ^ 46 := by
  have key : ∀ (bs : List Bool) (a c : Nat), a % 2 ^ 46 = c % 2 ^ 46 →
      bs.foldl (fun a b => 2 * a + b.toNat) a % 2 ^ 46 = bs.foldl (fun a b => 2 * a + b.toNat) c % 2 ^ 46 := by
    intro bs
    induction bs with
    | nil => intro a c h; exact h
    | cons b bs ih =>
      intro a c h
      exact ih _ _ (show (2 * a + b.toNat) % 2 ^ 46 = (2 * c + b.toNat) % 2 ^ 46 by omega)
  induction bs generalizing f with
  | nil => simp [Nat.mod_eq_of_lt f.isLt]
  | cons b bs ih =>
    rw [List.foldl_cons, ih, List.foldl_cons]
    exact key bs _ _ (by rw [toNat_shiftBit, Nat.mod_mod])

/-- The bits of a read frame are its fields. -/
theorem frame_bits (a : BitVec 5) (reg : Nat) :
    ((List.replicate 32 true ++ [false, true, true, false] ++ bitsMsbFirst 5 a.toNat ++ bitsMsbFirst 5 reg).foldl
      shiftBit 0).toNat = ((0xFFFFFFFF * 16 + 6) * 32 + a.toNat) * 32 + reg % 32 := by
  rw [toNat_foldl_shiftBit, List.foldl_append, List.foldl_append, foldl_bitsMsbFirst, foldl_bitsMsbFirst]
  have h0 : (List.replicate 32 true ++ [false, true, true, false]).foldl (fun a b => 2 * a + b.toNat)
      (0 : BitVec 46).toNat = 0xFFFFFFFF * 16 + 6 := by decide +kernel
  rw [h0, Nat.mod_eq_of_lt (show a.toNat < 2 ^ 5 from a.isLt)]
  omega

/-- A word with the fields of a read frame is a read frame of that register. -/
theorem isReadFrame_of_toNat {c : Config} {f : BitVec 46} {reg : Nat}
    (h : f.toNat = ((0xFFFFFFFF * 16 + 6) * 32 + c.phyAddr.toNat) * 32 + reg % 32) :
    isReadFrame c f = true ∧ frameReg f = BitVec.ofNat 5 reg := by
  have ha := c.phyAddr.isLt
  have e1 : f.extractLsb' 14 32 = BitVec.allOnes 32 := by
    apply BitVec.eq_of_toNat_eq
    rw [BitVec.extractLsb'_toNat, Nat.shiftRight_eq_div_pow, h, BitVec.toNat_allOnes]; omega
  have e2 : f.extractLsb' 10 4 = 0b0110#4 := by
    apply BitVec.eq_of_toNat_eq
    rw [BitVec.extractLsb'_toNat, Nat.shiftRight_eq_div_pow, h, BitVec.toNat_ofNat]; omega
  have e3 : f.extractLsb' 5 5 = c.phyAddr := by
    apply BitVec.eq_of_toNat_eq
    rw [BitVec.extractLsb'_toNat, Nat.shiftRight_eq_div_pow, h]; omega
  constructor
  · simp [isReadFrame, e1, e2, e3]
  · apply BitVec.eq_of_toNat_eq
    rw [frameReg, BitVec.extractLsb'_toNat, Nat.shiftRight_eq_div_pow, h, BitVec.toNat_ofNat]; omega

/-- Driving the PHY's read frame and releasing the line. -/
theorem phyFrame_serial (s : State) (reg : Nat) (n : Nat) (ev : List BusEvent) :
    ∃ di x y ev', driveLines (linePsel ||| lineOe) (s.serial 0 .idle .idle n ev) = .ok () x ∧
      shiftOutAll (phyFrameBits s.config reg) x = .ok () y ∧ driveLine lineOe false y =
      .ok () (s.serial (phyReleased di) .idle
        (if s.config.phyPresent then .drive (s.dev.phyRegister (BitVec.ofNat 5 reg)) 0 else .silent) n ev') := by
  obtain ⟨ev1, h1⟩ := driveLines_serial s 0 (linePsel ||| lineOe) .idle .idle n ev (by decide)
  have o1 : ∀ l l', lineHigh l' linePsel = true → EeSlave.onLines s.config l l' .idle = .idle := by
    intro l l' h; simp [EeSlave.onLines, h]
  rw [o1 _ _ (by decide), show PhySlave.onLines s.config s.dev.phyRegister 0 (linePsel ||| lineOe) .idle = .listen 0
    from rfl] at h1
  obtain ⟨ev2, h2⟩ := shiftOutAll_phy s (phyFrameBits s.config reg) false 0 n ev1
  generalize (phyFrameBits s.config reg).getLastD false = di at h2
  obtain ⟨c1, c2⟩ := isReadFrame_of_toNat (c := s.config) (frame_bits s.config.phyAddr reg)
  generalize hF : (List.replicate 32 true ++ [false, true, true, false] ++ bitsMsbFirst 5 s.config.phyAddr.toNat ++
    bitsMsbFirst 5 reg).foldl shiftBit 0 = F at c1 c2
  rw [show (phyFrameBits s.config reg).foldl shiftBit 0 = F from hF] at h2
  obtain ⟨ev3, h3⟩ := driveLines_serial s (phyLines di) (phyReleased di) .idle (.listen F) n ev2
    (by cases di <;> decide)
  rw [o1 _ _ (by cases di <;> decide)] at h3
  have hp : PhySlave.onLines s.config s.dev.phyRegister (phyLines di) (phyReleased di) (.listen F) =
      if s.config.phyPresent then .drive (s.dev.phyRegister (BitVec.ofNat 5 reg)) 0 else .silent := by
    have hg : PhySlave.onLines s.config s.dev.phyRegister (phyLines di) (phyReleased di) (.listen F) =
      PhySlave.release s.config s.dev.phyRegister (.listen F) := by
      cases di <;> rfl
    rw [hg]
    simp only [PhySlave.release, c1, c2, Bool.and_true]
  rw [hp] at h3
  refine ⟨di, _, _, ev3, h1, h2, ?_⟩
  simp only [driveLine, bind_apply, get_apply, serial_lines]
  rw [show setLine (phyLines di) lineOe false = phyReleased di by cases di <;> decide, h3]

/-- The pieces of `read_phy` put together. -/
theorem readPhy_run {s : State} (hb : s.serBusy = false) {reg : Nat} {x y s1 s2 s3 s4 : State} {b1 b2 : Bool}
    {d : Half} {n : Nat} {ev : List BusEvent}
    (h1 : driveLines (linePsel ||| lineOe) { s with serBusy := true } = .ok () x)
    (h2 : shiftOutAll (phyFrameBits s.config reg) x = .ok () y) (h3 : driveLine lineOe false y = .ok () s1)
    (t1 : shiftIn s1 = .ok b1 s2) (t2 : shiftIn s2 = .ok b2 s3) (t3 : shiftInWord 16 0 s3 = .ok d s4)
    (t4 : driveLines 0 s4 =
      .ok () { s with serBusy := true, dev := { s.dev with lineReads := n }, events := ev }) :
    readPhy reg s = .ok d { s with dev := { s.dev with lineReads := n }, events := ev } := by
  simp only [readPhy, bind_apply, get_apply, enterSerial_idle hb, h1, h2, h3, t1, t2, t3, t4, leaveSerial,
    modify_apply, pure_apply]
  rw [← hb]

/-- `read_phy`: the register's value if a PHY answers, free bits if none does (R206, R207). -/
theorem readPhy_ok {s : State} (h : s.SerialIdle) (reg : Nat) :
    ∃ ev', readPhy reg s =
      .ok (s.phyValue reg)
        { s with dev := { s.dev with lineReads := s.dev.lineReads + s.config.phyFreeReads }, events := ev' } := by
  unfold State.phyValue Config.phyFreeReads
  obtain ⟨hb, hl, h2, h3, h4⟩ := h
  obtain ⟨di, x, y, ev1, f1, f2, h1⟩ := phyFrame_serial { s with serBusy := true } reg s.dev.lineReads s.events
  rw [serial_idle_eq (s := { s with serBusy := true }) hl h2 h3 h4] at f1
  by_cases hp : s.config.phyPresent = true
  · have hp' : ({ s with serBusy := true } : State).config.phyPresent = true := hp
    rw [if_pos hp'] at h1
    obtain ⟨ev2, t1⟩ := shiftIn_phy { s with serBusy := true } di
      (.drive (s.dev.phyRegister (BitVec.ofNat 5 reg)) 0) s.dev.lineReads ev1 rfl
    obtain ⟨ev3, t2⟩ := shiftIn_phy { s with serBusy := true } di
      (.drive (s.dev.phyRegister (BitVec.ofNat 5 reg)) 1) (s.dev.lineReads + 1) ev2 rfl
    obtain ⟨ev4, t3⟩ := shiftInWord_phy { s with serBusy := true } di (s.dev.phyRegister (BitVec.ofNat 5 reg))
      (s.dev.lineReads + 2) 16 2 (by omega) (by omega) ev3
    rw [show s.dev.phyRegister (BitVec.ofNat 5 reg) >>> 16 = 0 by
      apply BitVec.eq_of_toNat_eq; simp [Nat.shiftRight_eq_div_pow]; omega] at t3
    obtain ⟨ev5, t4⟩ := driveLines_idle { s with serBusy := true } (phyReleased di) .idle
      (.drive (s.dev.phyRegister (BitVec.ofNat 5 reg)) (2 + 16)) (s.dev.lineReads + 2) ev4
    rw [serial_idle_eq (s := { s with serBusy := true }) hl h2 h3 h4] at t4
    refine ⟨ev5, ?_⟩
    rw [if_pos hp, if_pos hp]
    exact readPhy_run hb f1 f2 h1 t1 t2 t3 t4
  · have hp' : ¬ ({ s with serBusy := true } : State).config.phyPresent = true := hp
    rw [if_neg hp'] at h1
    obtain ⟨ev2, t1⟩ := shiftIn_phy { s with serBusy := true } di .silent s.dev.lineReads ev1 rfl
    obtain ⟨ev3, t2⟩ := shiftIn_phy { s with serBusy := true } di .silent (s.dev.lineReads + 1) ev2 rfl
    obtain ⟨ev4, t3⟩ := shiftInWord_silent { s with serBusy := true } di 0 (s.dev.lineReads + 2) 16 ev3
    obtain ⟨ev5, t4⟩ := driveLines_idle { s with serBusy := true } (phyReleased di) .idle
      .silent (s.dev.lineReads + 2 + 16) ev4
    rw [serial_idle_eq (s := { s with serBusy := true }) hl h2 h3 h4] at t4
    refine ⟨ev5, ?_⟩
    rw [if_neg hp, if_neg hp]
    exact readPhy_run hb f1 f2 h1 t1 t2 t3 t4

end Sys2Proof.Machine
end

