-- ==== Sys2Proof/Tests/Slice0.lean ====
section
/-! SUPPORT. The model's own tests. Expected values are the vectors of spec/95_test_vectors.md (its ids stand in
the comments) or are worked out by hand from the rule that is named. The last part has a witness for the
hypotheses of every statement that has any: concrete data that meet them together. -/

namespace Sys2Proof.Tests

set_option Elab.async false

open Sys2Proof Sys2Proof.Machine

/-! ### Well-formedness refuses -/

theorem test_wf_refuses_recycle_index : Instr.wf (.rxRecycle 256) = false := by decide

theorem test_wf_refuses_eeprom_register : Instr.wf (.readEeprom 256) = false := by decide

theorem test_wf_refuses_phy_register : Instr.wf (.readPhy 32) = false := by decide

theorem test_wf_admits_the_bounds : Instr.wf (.rxRecycle 255) = true ∧ Instr.wf (.readPhy 31) = true := by decide

/-! ### Decoding: the words written out from R90-R93, R104, R114 -/

/-- A payload with every operand set. -/
def someOperands : Payload := { addr := 0x00030000, client := 7, frame := [1, 2] }

theorem test_decode_rxPoll : decodeOpw 0x00000001 someOperands = .ok .rxPoll := by decide

/-- L2-E18: SEL = 3. -/
theorem test_decode_rxRecycle : decodeOpw 0x00000302 someOperands = .ok (.rxRecycle 3) := by decide

theorem test_decode_txAppend : decodeOpw 0x00000004 someOperands = .ok (.txAppend [1, 2]) := by decide

theorem test_decode_txDrain : decodeOpw 0x00000005 someOperands = .ok .txDrain := by decide

/-- L2-E7: CMD = 0, RI = 1, UNIT = 0 and 1. -/
theorem test_decode_loadBase :
    decodeOpw 0x00000210 someOperands = .ok (.issueCuLoadBase true 0x00030000) ∧
    decodeOpw 0x00000310 someOperands = .ok (.issueRuLoadBase true 0x00030000) := by decide

/-- L2-E6, L2-E8: CMD = 1. -/
theorem test_decode_start :
    decodeOpw 0x00001210 someOperands = .ok (.issueCuStart true 0x00030000) ∧
    decodeOpw 0x00001110 someOperands = .ok (.issueRuStart false 0x00030000) := by decide

/-- L2-E9: CMD = 2. -/
theorem test_decode_dump : decodeOpw 0x00002010 someOperands = .ok (.issueCuDumpStatistics false 0x00030000) := by decide

theorem test_decode_restartRu : decodeOpw 0x00000011 someOperands = .ok .restartRu := by decide

theorem test_decode_interrupts :
    decodeOpw 0x00000020 someOperands = .ok .onInterrupt ∧
    decodeOpw 0x00000021 someOperands = .ok .checkInterrupts := by decide

theorem test_decode_flow :
    decodeOpw 0x00000030 someOperands = .ok (.armTx 7 [1, 2]) ∧ decodeOpw 0x00000031 someOperands = .ok (.armRx 7) ∧
    decodeOpw 0x00000032 someOperands = .ok .replayTx ∧ decodeOpw 0x00000033 someOperands = .ok .replayRx := by decide

theorem test_decode_watchdogTick : decodeOpw 0x00000040 someOperands = .ok .watchdogTick := by decide

/-- L2-E13, L2-E14. -/
theorem test_decode_serial :
    decodeOpw 0x0000FF50 someOperands = .ok (.readEeprom 255) ∧
    decodeOpw 0x00001F51 someOperands = .ok (.readPhy 31) := by decide

/-- SEL = 4: the broadcast flag alone (R93). -/
theorem test_decode_configure : decodeOpw 0x00000460 someOperands =
    .ok (.configure { promiscuous := false, multicast := false, broadcast := true }) := by decide

theorem test_decode_clients :
    decodeOpw 0x00000061 someOperands = .ok (.transmit 7 [1, 2]) ∧
    decodeOpw 0x00000062 someOperands = .ok (.receive 7) ∧
    decodeOpw 0x00000063 someOperands = .ok (.getStatistics 7) := by decide

theorem test_decode_reset : decodeOpw 0x00000070 someOperands = .ok .reset := by decide

/-- L2-E2, E3, E4, E5, E10, E11, E12, E15, E17. -/
theorem test_decode_refuses :
    decodeOpw 0x00010001 someOperands = .error .zeroFieldSet ∧ decodeOpw 0x00000101 someOperands = .error .selNotZero ∧
    decodeOpw 0x00000003 someOperands = .error .unknownOp ∧ decodeOpw 0x000000FF someOperands = .error .unknownOp ∧
    decodeOpw 0x00003010 someOperands = .error .selReserved ∧ decodeOpw 0x00000410 someOperands = .error .selReserved ∧
    decodeOpw 0x00002110 someOperands = .error .selReserved ∧ decodeOpw 0x00002051 someOperands = .error .selReserved ∧
    decodeOpw 0x00000860 someOperands = .error .selReserved := by decide

/-- R104: the CU codes 0, 1, 5, 6 in bits 7:4. -/
theorem test_decode_cu_commands :
    decodeScbByte CmdCodes.table .cu 0x00 = .ok .scbCuNop ∧ decodeScbByte CmdCodes.table .cu 0x10 = .ok .scbCuStart ∧
    decodeScbByte CmdCodes.table .cu 0x50 = .ok .scbCuDumpStatistics ∧
    decodeScbByte CmdCodes.table .cu 0x60 = .ok .scbCuLoadBase ∧
    decodeScbByte CmdCodes.table .cu 0x20 = .error .reservedCommandCode := by decide

/-- R104: the RU codes 0, 1, 6 in bits 2:0. -/
theorem test_decode_ru_commands :
    decodeScbByte CmdCodes.table .ru 0x00 = .ok .scbRuNop ∧ decodeScbByte CmdCodes.table .ru 0x01 = .ok .scbRuStart ∧
    decodeScbByte CmdCodes.table .ru 0x06 = .ok .scbRuLoadBase ∧
    decodeScbByte CmdCodes.table .ru 0x04 = .error .reservedCommandCode := by decide

/-- Command codes other than those of R104 (R11). -/
def otherCodes : CmdCodes := { CmdCodes.table with cuStart := 5, cuDumpStatistics := 1, ruStart := 7 }

theorem test_decode_other_codes :
    otherCodes.wf = true ∧ decodeScbByte otherCodes .cu 0x57 = .ok .scbCuStart ∧
    decodeScbByte otherCodes .ru 0x57 = .ok .scbRuStart ∧ (EngineCommand.byte otherCodes .cuStart) = 0x50 := by decide

/-- R114: OP in bits 2:0, EL in bit 15; code 1 is reserved. -/
theorem test_decode_tx_commands :
    decodeTxCommand 0x8000 = .ok (.txdOpNop true) ∧ decodeTxCommand 0x0004 = .ok (.txdOpTx false) ∧
    decodeTxCommand 0x8001 = .error .reservedTxOp := by decide

/-! ### The start state S0 of spec/95 section 0, and small changes of it -/

/-- The ring headers of S0, the bytes that are not 0: link and the mark of `tx`, mark, link and capacity of `rx`. -/
def ringImage : Memory :=
  [(0x10003, 0x80), (0x10005, 0x08), (0x10006, 0x01), (0x10805, 0x10), (0x10806, 0x01)] ++
  [(0x11005, 0x18), (0x11006, 0x01), (0x11806, 0x01)] ++
  [(0x20005, 0x08), (0x20006, 0x02), (0x2000A, 0xF4), (0x2000B, 0x07)] ++
  [(0x20805, 0x10), (0x20806, 0x02), (0x2080A, 0xF4), (0x2080B, 0x07)] ++
  [(0x21005, 0x18), (0x21006, 0x02), (0x2100A, 0xF4), (0x2100B, 0x07)] ++
  [(0x21803, 0x80), (0x21806, 0x02), (0x2180A, 0xF4), (0x2180B, 0x07)]

/-- S0: what a reset leaves of the power-on state. -/
def S0 : State :=
  { State.reset with
    started := true
    base := 0x0000E000
    rxAddr := [0x20000, 0x20800, 0x21000, 0x21800]
    txAddr := [0x10000, 0x10800, 0x11000, 0x11800]
    statsAddr := 0x30000
    cfgAddr := 0x30800
    txThreshold := 1
    irqArmed := true
    eeWidth := .six
    hwAddr := #v[0x00, 0x12, 0x34, 0x56, 0x78, 0x9A]
    linkSnapshot := 0x786D
    mem := ringImage
    dev := { Device.reset with ruCode := 4, ruFill := 0x20000, cuFetch := 0x30800, scbPtr := 0 } }

/-- A 16-bit field set in memory. -/
def put (a : BusAddr) (v : Half) (s : State) : State := { s with mem := s.mem.writeBytes a (leBytes 2 v.toNat) }

/-- `Active(t, h)` of spec/95: slots `0 .. 3` hold TX commands, the mark is on `h`. -/
def active (t h : Nat) (s : State) : State :=
  { (List.range 4).foldl (fun s i => put (s.txSlot i + 2) (if i = h then 0x8004 else 0x0004) s) s with
    txIdle := false, txTail := t, txHead := h }

/-- The status of TX slot `i`. -/
def txDone (i : Nat) (status : Half) (s : State) : State := put (s.txSlot i) status s

/-- A frame of `n` bytes in RX slot `i`. -/
def rxDone (i : Nat) (length : Half) (s : State) : State := put (s.rxSlot i + 8) length (put (s.rxSlot i) 0xA000 s)

/-- The state one engine reports. -/
def cuReports (c : BitVec 3) (s : State) : State := { s with dev := { s.dev with cuCode := c } }

@[inherit_doc cuReports]
def ruReports (c : BitVec 3) (s : State) : State := { s with dev := { s.dev with ruCode := c } }

/-- What happens during the polls. -/
def answer (l : List PollEvent) (s : State) : State := { s with pollScript := l }

/-- A frame of 60 bytes. -/
def f60 : Frame := List.replicate 60 5

/-- An outcome is a next state with a property. -/
def leads (o : Host.Outcome State Fault Refusal) (p : State → Bool) : Bool :=
  match o with
  | .next t => p t
  | .fault _ => false
  | .refused _ => false

theorem exists_next {o : Host.Outcome State Fault Refusal} {p : State → Bool} (h : leads o p = true) :
    ∃ t, o = .next t ∧ p t = true := by
  cases o with
  | next t => exact ⟨t, rfl, h⟩
  | fault _ => simp [leads] at h
  | refused _ => simp [leads] at h

/-! ### The rings -/

/-- L2-RX2. -/
theorem test_rxPoll_ready : leads (exec .rxPoll (rxDone 0 0xC002 S0))
    (fun t => t.results == [.ready 0 [0, 0]] && t.fault == none) = true := by decide +kernel

/-- L2-RX5: 2037 is above the capacity. -/
theorem test_rxPoll_too_long : leads (exec .rxPoll (rxDone 0 0xC7F5 S0)) (fun t => t.fault == some .rxLength) = true := by
  decide +kernel

/-- L2-RX12: the wrap. -/
theorem test_rxRecycle_wraps :
    leads (exec (.rxRecycle 3) (put 0x21802 0 (put 0x21002 0x8000 (rxDone 3 0xC040 { S0 with rxHead := 3 }))))
      (fun t => t.rxHead == 0 && t.rxCommand 3 == 0x8000 && t.rxCommand 2 == 0 && t.rxLength 3 == 0 && t.rxStatus 3 == 0)
      = true := by decide +kernel

/-- L2-RX15: the end-of-list mark is lost. -/
theorem test_rxRecycle_lost_mark : leads (exec (.rxRecycle 0) (put 0x21802 0 (rxDone 0 0xC040 S0)))
    (fun t => t.fault == some .ringInvariant && t.rxHead == 0 && t.rxCommand 0 == 0x8000) = true := by decide +kernel

/-- L2-TX8: idle with head and tail 2. -/
theorem test_txAppend_idle :
    leads (exec (.txAppend f60) (answer (acceptedAfter .cu 0 []) { active 2 2 S0 with txIdle := true }))
      (fun t => t.results == [.appended 0] && t.txCommand 0 == 0x8004 && t.txCommand 2 == 0x0004 &&
        t.txByteCount 0 == 0x803C && t.txHead == 0 && t.txTail == 0 && !t.txIdle &&
        t.dev.cuCode == 5 && t.dev.cuFetch == 0x10000) = true := by decide +kernel

/-- L2-TX7: the wrapped full ring. -/
theorem test_txAppend_full : leads (exec (.txAppend f60) (active 2 1 S0)) (fun t => t.results == [.ringFull]) = true := by
  decide +kernel

/-- L2-TX12: two underruns, the second clamped. -/
theorem test_txDrain_threshold :
    leads (exec .txDrain (txDone 0 0xB000 (txDone 1 0xB000 { active 0 1 S0 with txThreshold := 2 })))
      (fun t => t.results == [.retired 2] && t.txThreshold == 3 && t.txIdle && t.txTail == 1) = true := by decide +kernel

/-- L2-TX16: the head without its mark. -/
theorem test_txDrain_lost_mark :
    leads (exec .txDrain (put 0x10802 0x0004 (txDone 0 0xA000 (txDone 1 0xA000 (active 0 1 S0)))))
      (fun t => t.fault == some .ringInvariant) = true := by decide +kernel

/-! ### Commands -/

/-- L2-C7. -/
theorem test_issueCuLoadBase : leads (exec (.issueCuLoadBase true 0) (answer (acceptedAfter .cu 2 []) S0))
    (fun t => t.dev.scbPtr == 0 && t.events.contains (.portWrite 0xE002 0x60) && t.results == [.ok]) = true := by
  decide +kernel

@[inherit_doc test_issueCuLoadBase]
theorem test_issueRuLoadBase :
    leads (exec (.issueRuLoadBase true 0x40) (ruReports 0 (answer (acceptedAfter .ru 0 []) S0)))
      (fun t => t.dev.ruBase == 0x40 && t.events.contains (.portWrite 0xE002 0x06) && t.results == [.ok]) = true := by
  decide +kernel

/-- L2-C3: a reserved code is not idle. -/
theorem test_issueCuStart_reserved_state : leads (exec (.issueCuStart true 0x10000) (cuReports 3 S0))
    (fun t => t.fault == some .notIdle && t.dev.scbPtr == 0) = true := by decide +kernel

/-- L2-C5. -/
theorem test_issueCuStart_timeout : leads (exec (.issueCuStart true 0x10000) (answer [.read, .timeout] S0))
    (fun t => t.fault == some .cmdTimeout && t.dev.scbPtr == 0x10000 && t.dev.cmdCu == 1) = true := by decide +kernel

/-- L2-C6: the state is not read. -/
theorem test_issueRuStart :
    leads (exec (.issueRuStart false 0x20000) (ruReports 2 (answer (acceptedAfter .ru 0 []) S0)))
      (fun t => t.results == [.ok] && t.dev.ruCode == 4 && t.dev.ruFill == 0x20000) = true := by decide +kernel

/-- L2-C8. -/
theorem test_dump_completes :
    leads (exec (.issueCuDumpStatistics false 0x30000) (answer (dumpedAfter 0 1 [1, 2, 3, 4] []) S0))
      (fun t => t.word 0x30004 == 2 && t.word 0x3000C == 4 && t.word 0x30010 == 0xA005 && t.results == [.ok]) = true := by
  decide +kernel

/-- L2-C9. -/
theorem test_dump_elsewhere : leads (exec (.issueCuDumpStatistics false 0x30100) S0)
    (fun t => t.fault == some .precondition) = true := by decide +kernel

/-- L2-C12. -/
theorem test_restartRu :
    leads (exec .restartRu (rxDone 1 0xC040 (ruReports 2 (answer (acceptedAfter .ru 0 []) { S0 with
      rxHead := 2, rxNeedRestart := true }))))
      (fun t => t.mem == ringImage && t.rxHead == 0 && !t.rxNeedRestart && t.dev.scbPtr == 0x20000 && t.dev.ruCode == 4)
      = true := by decide +kernel

/-! ### Interrupts and flow control -/

/-- S0 with causes asserted. -/
def causes (v : Byte) : State := { S0 with dev := { S0.dev with scbIsr := v } }

/-- L2-I1 and L2-I2 at once. -/
theorem test_onInterrupt : leads (exec .onInterrupt (causes 0xE1))
    (fun t => t.results == [.handled 0xE1] && t.fFr && t.fCna && !t.fRnr && !t.fSwi && t.dev.scbIsr == 0 &&
      t.log == [.unknownCause 0x81]) = true := by decide +kernel

/-- `Active(0, 2)` with two of the three slots complete, the CU's flag set (L2-I6, L2-I7). -/
def raced : State := { txDone 0 0xA000 (txDone 1 0xA000 (active 0 2 S0)) with fCna := true }

/-- L2-I6. -/
theorem test_checkInterrupts_restarts : leads (exec .checkInterrupts (answer (acceptedAfter .cu 0 []) raced))
    (fun t => t.txTail == 2 && t.dev.cuFetch == 0x11000 && !t.fCna && t.log == []) = true := by decide +kernel

/-- L2-I7. -/
theorem test_checkInterrupts_race : leads (exec .checkInterrupts (cuReports 5 raced))
    (fun t => t.txTail == 2 && t.fCna && t.log == [.cmdRace .cu .active] && t.results == [.ok]) = true := by decide +kernel

/-- L2-I11. -/
theorem test_armTx_twice : leads (exec (.armTx 2 [9]) { S0 with pendTx := .armed { client := 1, frame := [8] } })
    (fun t => t.fault == some .doubleArm && t.pendTx == .armed { client := 1, frame := [8] }) = true := by decide +kernel

theorem test_armRx : leads (exec (.armRx 2) S0) (fun t => t.pendRx == .armed 2 && t.results == [.ok]) = true := by
  decide +kernel

/-- L2-I12. -/
theorem test_replayTx_nothing : leads (exec .replayTx S0) (fun t => t.results == [.nothing]) = true := by decide +kernel

/-- Step 10 of L1-1: the armed request starts a fresh chain. -/
theorem test_replayTx_sends :
    leads (exec .replayTx (answer (acceptedAfter .cu 0 []) { active 3 3 S0 with
      txIdle := true, pendTx := .armed { client := 5, frame := f60 } }))
      (fun t => t.replies == [(some 5, .ack)] && t.pendTx == .empty && t.txCommand 0 == 0x8004 && t.txCommand 3 == 0x0004)
      = true := by decide +kernel

/-- L2-I13. -/
theorem test_replayRx : leads (exec .replayRx (rxDone 0 0xC002 { S0 with pendRx := .armed 2 }))
    (fun t => t.results == [.delivered] && t.replies == [(some 2, .frame [0, 0])] && t.pendRx == .empty && t.rxHead == 1)
    = true := by decide +kernel

/-! ### Watchdog, serial engine, clients -/

/-- L2-W3: S0 with a stalled request. -/
theorem test_watchdog_stall :
    leads (exec .watchdogTick { S0 with pendTx := .armed { client := 5, frame := [] }, txAlive := false })
      (fun t => t.needReset && t.dev.scbIsr == 0x04 && t.log == []) = true := by decide +kernel

/-- L2-W4. -/
theorem test_watchdog_link :
    leads (exec .watchdogTick { S0 with dev := { S0.dev with phyReg := S0.dev.phyReg.set 1 0x7849 } })
      (fun t => t.log == [.linkChange 0x786D 0x7849] && t.linkSnapshot == 0x7849 && t.linkReportPending && t.txAlive)
      = true := by decide +kernel

/-- L2-S5: the word and the number of port accesses, 61 writes and 16 reads. -/
theorem test_readEeprom : leads (exec (.readEeprom 2) S0)
    (fun t => t.results == [.serialWord 0x9A78] && t.eeWidth == .six &&
      (t.events.filter fun e => match e with | .portWrite _ _ => true | .portRead _ _ => true | _ => false).length == 77)
    = true := by decide +kernel

/-- L2-S6. -/
theorem test_readEeprom_range : leads (exec (.readEeprom 64) S0)
    (fun t => t.fault == some .serialRange && !t.serBusy) = true := by decide +kernel

/-- L2-S8: the register, 177 writes and 18 reads. -/
theorem test_readPhy : leads (exec (.readPhy 1) S0)
    (fun t => t.results == [.serialWord 0x786D] &&
      (t.events.filter fun e => match e with | .portWrite _ _ => true | .portRead _ _ => true | _ => false).length == 195)
    = true := by decide +kernel

/-- The broadcast flag. -/
def broadcastOnly : ModeFlags := { promiscuous := false, multicast := false, broadcast := true }

/-- L2-CL8. -/
theorem test_configure_idle : leads (exec (.configure broadcastOnly) (answer (configuredAfter 0 0 0 [] []) S0))
    (fun t => t.results == [.hardwareAddress #v[0x00, 0x12, 0x34, 0x56, 0x78, 0x9A]] && !t.cfgPending &&
      t.dev.cuFetch == 0x30800 && t.dev.cuCode == 0 && t.replies == [(none, .address t.hwAddr)]) = true := by decide +kernel

/-- L2-CL9. -/
theorem test_configure_waits : leads (exec (.configure broadcastOnly) (active 0 1 S0))
    (fun t => t.cfgPending && t.results == [.hardwareAddress #v[0x00, 0x12, 0x34, 0x56, 0x78, 0x9A]]) = true := by
  decide +kernel

/-- L2-CL2. -/
theorem test_transmit_deferred : leads (exec (.transmit 5 f60) (active 0 3 S0))
    (fun t => t.results == [.deferred] && t.pendTx == .armed { client := 5, frame := f60 } && t.replies == []) = true := by
  decide +kernel

/-- L2-CL6. -/
theorem test_receive_restarts :
    leads (exec (.receive 2) (ruReports 2 (answer (acceptedAfter .ru 0 []) { S0 with rxNeedRestart := true })))
      (fun t => t.results == [.deferred] && t.pendRx == .armed 2 && !t.rxNeedRestart && t.dev.ruCode == 4) = true := by
  decide +kernel

/-- L2-CL7. -/
theorem test_receive_ready_ru : leads (exec (.receive 2) { S0 with rxNeedRestart := true })
    (fun t => t.results == [.deferred] && t.rxNeedRestart && t.dev.ruCode == 4) = true := by decide +kernel

/-- L2-CL10. -/
theorem test_getStatistics : leads (exec (.getStatistics 3) (answer (dumpedAfter 0 0 [1, 2, 3, 4] []) S0))
    (fun t => t.replies == [(some 3, .snapshot [1, 2, 3, 4])]) = true := by decide +kernel

/-! ### Start-up -/

/-- L2-RS5, with a device that answers at once. -/
theorem test_reset_starts : leads (exec .reset (answer (bootAnswers 0 0 0 0 0 0 [] []) State.reset))
    (fun t => t.results == [.ok] && t.started && t.irqArmed && t.eeWidth == .six && t.linkSnapshot == 0x786D &&
      t.hwAddr == #v[0x00, 0x12, 0x34, 0x56, 0x78, 0x9A] && t.dev.ruFill == 0x20000 && t.dev.scbPtr == 0) = true := by
  decide +kernel

/-- L2-RS4. -/
theorem test_reset_misaligned :
    leads (exec .reset { State.reset with busMap := { BusMap.bench with tx := [some 0x10000, some 0x10802] } })
      (fun t => t.fault == some .misaligned && !t.started) = true := by decide +kernel

/-! ### The device -/

/-- S0 with a pointer and codes in SCB_CMD. -/
def commanded (cu : BitVec 4) (ru : BitVec 3) : State :=
  { S0 with dev := { S0.dev with cmdCu := cu, cmdRu := ru, scbPtr := 0x11000 } }

theorem test_scbCuNop : leads (exec .scbCuNop (commanded 0 1)) (fun t => t == commanded 0 1) = true := by decide +kernel

theorem test_scbRuNop : leads (exec .scbRuNop (commanded 1 0)) (fun t => t == commanded 1 0) = true := by decide +kernel

theorem test_scbCuStart : leads (exec .scbCuStart (commanded 1 1))
    (fun t => t.dev.cuCode == 5 && t.dev.cuFetch == 0x11000 && t.dev.cmdCu == 0 && t.dev.cmdRu == 1) = true := by
  decide +kernel

theorem test_scbCuDumpStatistics : leads (exec .scbCuDumpStatistics (commanded 5 0))
    (fun t => t.dev.dumpPending && t.dev.cmdCu == 0 && t.dev.cuCode == 0) = true := by decide +kernel

theorem test_scbCuLoadBase : leads (exec .scbCuLoadBase (commanded 6 0))
    (fun t => t.dev.cuBase == 0x11000 && t.dev.cmdCu == 0 && t.dev.cuFetch == 0x30800) = true := by decide +kernel

theorem test_scbRuStart : leads (exec .scbRuStart (commanded 1 1))
    (fun t => t.dev.ruCode == 4 && t.dev.ruFill == 0x11000 && t.dev.cmdRu == 0 && t.dev.cmdCu == 1) = true := by
  decide +kernel

theorem test_scbRuLoadBase : leads (exec .scbRuLoadBase (commanded 0 6))
    (fun t => t.dev.ruBase == 0x11000 && t.dev.cmdRu == 0 && t.dev.ruCode == 4) = true := by decide +kernel

/-- The CU is at TX slot `k` and 2 bytes of the buffer are to be sent. -/
def sending (k : Nat) (s : State) : State :=
  put (s.txSlot k + 8) 0x8002 { s with dev := { s.dev with cuCode := 5, cuFetch := s.txSlot k, cuDraw := 0x2000 } }

/-- R262 move 2: no mark, so the CU goes on to the link. -/
theorem test_txdOpTx : leads (exec (.txdOpTx false) (sending 0 (active 0 1 S0)))
    (fun t => t.txStatus 0 == 0xA000 && t.dev.wire == [[0, 0]] && t.dev.cuFetch == 0x10800 && t.dev.cuCode == 5) = true := by
  decide +kernel

/-- R262 move 2: at the mark the CU is idle and CNA asserted. -/
theorem test_txdOpNop : leads (exec (.txdOpNop true) (sending 1 (active 0 1 S0)))
    (fun t => t.txStatus 1 == 0x8000 && t.dev.wire == [] && t.dev.cuCode == 0 && t.dev.scbIsr == 0x20) = true := by
  decide +kernel

/-- An active CU that has come to an address. -/
def cuCame (a : BusAddr) (s : State) : State := { s with dev := { s.dev with cuCode := 5, cuFetch := a, cuDraw := 0x2000 } }

/-- A ready RU that has come to an address. -/
def ruCame (a : BusAddr) (s : State) : State := { s with dev := { s.dev with ruCode := 4, ruFill := a } }

/-- R262 move 2 at an RX descriptor: its status is completed and its link followed. -/
theorem test_txdOpNop_rx : leads (exec (.txdOpNop false) (cuCame 0x20800 S0))
    (fun t => t.rxStatus 1 == 0x8000 && t.dev.wire == [] && t.dev.cuFetch == 0x21000 && t.dev.cuCode == 5) = true := by
  decide +kernel

/-- R262 move 2 where a `link` stands: a frame is sent, nothing is written (R50), and the mark ends the chain. -/
theorem test_txdOpTx_elsewhere : leads (exec (.txdOpTx true) (cuCame 0x20804 S0))
    (fun t => t.rxLink 1 == 0x21000 && t.dev.wire.length == 1 && t.dev.cuCode == 0 && t.dev.scbIsr == 0x20) = true := by
  decide +kernel

/-- R262 move 3: two bytes arrive; the mark is elsewhere. -/
theorem test_ruStep : leads (step { S0 with agenda := [.device (.ruStep [0xAA, 0xBB] 0x2000)] })
    (fun t => t.rxStatus 0 == 0xA000 && t.rxLength 0 == 0xC002 && t.rxBuffer 0 2 == [0xAA, 0xBB] &&
      t.dev.scbIsr == 0x40 && t.dev.ruFill == 0x20800) = true := by decide +kernel

/-! ### Witnesses: the hypotheses of the statements are met -/

/-- States with the addresses of S0 are laid out. -/
theorem laid {s : State} (hc : s.config = Config.bench) (hr : s.rxAddr = S0.rxAddr) (ht : s.txAddr = S0.txAddr)
    (hs : s.statsAddr = S0.statsAddr) (hf : s.cfgAddr = S0.cfgAddr) : s.Laid where
  rxLen := by rw [hr, hc]; decide
  txLen := by rw [ht, hc]; decide
  apart := by rw [hc, hr, ht, hs, hf]; decide +kernel

theorem S0_marks : S0.Marks where
  rxHead := by decide
  txHead := by decide
  txTail := by decide
  rxEl := by decide +kernel
  txEl := by decide +kernel
  idle := by decide

theorem S0_serialIdle : S0.SerialIdle := ⟨rfl, rfl, rfl, rfl, rfl⟩

theorem S0_sound : S0.Sound where
  params := by decide +kernel
  map := by decide +kernel
  memory := by decide +kernel
  rxLen := by decide
  txLen := by decide
  laid _ := laid rfl rfl rfl rfl rfl
  aligned _ := by decide +kernel
  marks _ := S0_marks
  serial _ := S0_serialIdle
  threshold _ := by decide
  counters := by decide

/-- An operation word requested with a zero payload. -/
def request (w : Word) (s : State) : State := { s with agenda := [.request w Payload.zero] }

/-- A device move as the next input. -/
def moves (m : DeviceMove) (s : State) : State := { s with agenda := [.device m] }

theorem witness_DecodeOfEncode :
    CmdCodes.table.wf = true ∧ Instr.wf (.rxRecycle 255) = true ∧ Instr.wf (.readEeprom 255) = true ∧
    Instr.wf (.readPhy 31) = true ∧ Instr.wf (.txdOpTx true) = true := by decide

theorem witness_EncodeOfDecode : ∃ w p i, decodeOpw w p = .ok i := ⟨0xFF02, someOperands, .rxRecycle 255, by decide⟩

theorem witness_WorkedOperationWords : ∃ (s : State) (p : Payload) (rest : List Input),
    s.agenda = .request 0x00002310 p :: rest ∧ s.fault = none := ⟨request 0x2310 S0, _, _, rfl, rfl⟩

theorem witness_StepRunsTheRequestedOperation :
    S0.agenda = [] ∧ ∃ (s : State) (w : Word) (p : Payload) (rest : List Input) (i : Instr),
      s.agenda = .request w p :: rest ∧ decodeOpw w p = .ok i :=
  ⟨rfl, request 0x0F50 S0, 0x0F50, Payload.zero, [], .readEeprom 15, rfl, by decide⟩

theorem witness_IllegalWordRaisesIllegalOp : ∃ (s : State) (w : Word) (p : Payload) (rest : List Input),
    s.agenda = .request w p :: rest ∧ s.fault = none ∧ ∀ r ∈ opwRows, w &&& r.1 ≠ r.2 :=
  ⟨request 0x10070 State.reset, 0x10070, Payload.zero, [], rfl, rfl, by simp [opwRows]⟩

/-- The CU is at TX slot 1 with a command word there. -/
def cuAt (c : Half) : State := moves (.cuStep 0x2000 []) (put 0x10802 c (sending 1 S0))

/-- A CU step where the CU has come. -/
def cuStepAt (a : BusAddr) : State := moves (.cuStep 0x2000 []) (cuCame a S0)

theorem witness_StepRunsTheDeviceCommand :
    (∃ (s : State) (e : Engine) (rest : List Input) (i : Instr), s.agenda = .device (.accept e) :: rest ∧
      decodeScbByte s.config.cmdCodes e (scbCmdByte s.dev) = .ok i) ∧
    (∃ (s : State) (e : Engine) (rest : List Input) (r : DecodeError), s.agenda = .device (.accept e) :: rest ∧
      decodeScbByte s.config.cmdCodes e (scbCmdByte s.dev) = .error r) ∧
    let steps (s : State) : Prop := ∃ (status : Half) (block : List Byte) (rest : List Input),
      s.agenda = .device (.cuStep status block) :: rest ∧ s.dev.unitState .cu = .active
    (∃ (s : State) (i : Instr), steps s ∧ s.dev.cuFetch ∈ s.txAddr ++ s.rxAddr ∧
      decodeTxCommand (s.half (s.dev.cuFetch + offCommand)) = .ok i) ∧
    (∃ (s : State) (i : Instr), steps s ∧ s.dev.cuFetch ∈ s.rxAddr ∧
      decodeTxCommand (s.half (s.dev.cuFetch + offCommand)) = .ok i) ∧
    (∃ (s : State) (r : DecodeError), steps s ∧ s.dev.cuFetch ∈ s.txAddr ++ s.rxAddr ∧
      decodeTxCommand (s.half (s.dev.cuFetch + offCommand)) = .error r) ∧
    (∃ s : State, steps s ∧ s.inRegions s.dev.cuFetch = true ∧ s.dev.cuFetch ∉ s.txAddr ++ s.rxAddr ∧
      s.dev.cuFetch ≠ s.cfgAddr) ∧
    ∃ s : State, steps s ∧ s.config.wf = true ∧ s.inRegions s.dev.cuFetch = false :=
  ⟨⟨moves (.accept .cu) (commanded 5 0), .cu, [], .scbCuDumpStatistics, rfl, by decide⟩,
    ⟨moves (.accept .ru) (commanded 0 7), .ru, [], .reservedCommandCode, rfl, by decide⟩,
    ⟨cuAt 0x8004, .txdOpTx true, ⟨0x2000, [], [], rfl, by decide⟩, by decide, by decide +kernel⟩,
    ⟨cuStepAt 0x21800, .txdOpNop true, ⟨0x2000, [], [], rfl, by decide⟩, by decide, by decide +kernel⟩,
    ⟨cuAt 0x8007, .reservedTxOp, ⟨0x2000, [], [], rfl, by decide⟩, by decide, by decide +kernel⟩,
    ⟨cuStepAt 0x10FFF, ⟨0x2000, [], [], rfl, by decide⟩, by decide +kernel, by decide, by decide⟩,
    ⟨cuStepAt 0x12000, ⟨0x2000, [], [], rfl, by decide⟩, by decide +kernel, by decide +kernel⟩⟩

theorem witness_DeviceInputIsItsMove : ∃ (s : State) (m : DeviceMove) (rest : List Input),
    s.agenda = .device m :: rest := ⟨moves (.accept .cu) S0, _, _, rfl⟩

theorem witness_PlacedWordRunsNext :
    S0.config.cmdCodes = CmdCodes.table ∧ decodeTableWord 32 0x0000FF02 = some (.rxRecycle 255) ∧
    decodeTableWord 8 0x06 = some .scbRuLoadBase ∧
    decodeTableWord 16 0x8004 = some (.txdOpTx true) := by decide

theorem witness_NoReturnFromFault : ∃ (s : State) (r : FatalReason) (i : Instr), s.fault = some r ∧
    i.isRequest = true ∧ ∃ t, step s = .next t ∧ (t.results == [.refused]) = true :=
  ⟨request 0x70 { S0 with fault := some .badBar }, .badBar, .reset, rfl, rfl, exists_next (by decide +kernel)⟩

theorem witness_OnlyResetBeforeStart : ∃ (s : State) (i : Instr), s.fault = none ∧ s.started = false ∧
    i.isRequest = true ∧ i ≠ .reset := ⟨State.reset, .rxPoll, rfl, rfl, rfl, by decide⟩

theorem witness_OnlyResetStarts :
    (∃ s : State, s.started = true ∧ ∃ t, step s = .next t ∧ t.started = true) ∧
    ∃ s : State, s.started = false ∧ ∃ t, step s = .next t ∧ t.started = true :=
  ⟨⟨request 0x70 S0, rfl, exists_next (by decide +kernel)⟩,
    ⟨request 0x70 (answer (bootAnswers 0 0 0 0 0 0 [] []) State.reset), rfl, exists_next (by decide +kernel)⟩⟩

theorem witness_ConstantsOfARun : ∃ s : State, s.started = true ∧ s.eeWidth ≠ .unknown ∧
    ∃ t, step s = .next t ∧ (t.results == [.serialWord 0x1200]) = true :=
  ⟨request 0x50 S0, rfl, by decide, exists_next (by decide +kernel)⟩

theorem witness_OutputsOnlyGrow : ∃ s t : State, step s = .next t ∧ (t.log == [.unknownCause 0x80]) = true :=
  ⟨request 0x20 (causes 0x80), exists_next (by decide +kernel)⟩

theorem witness_OnlyTheHardPhaseSetsFlags :
    ∃ s t : State, step s = .next t ∧ (!s.fFr && t.fFr && !s.fRnr && t.fRnr && !s.fSwi && t.fSwi) = true :=
  ⟨request 0x20 (causes 0x54), exists_next (by decide +kernel)⟩

/-- S0 with a TX request armed, and with an RX request armed. -/
def armedTx (s : State) : State := { s with pendTx := .armed { client := 5, frame := f60 } }

@[inherit_doc armedTx]
def armedRx (s : State) : State := { s with pendRx := .armed 5 }

/-- Each of the four operations of the statement, once with a reply and once armed. -/
theorem witness_RequestsReplyOnceOrStayArmed :
    (S0.Running ∧ (active 0 1 S0).Running ∧ (armedTx (active 0 3 S0)).pendTx = .armed { client := 5, frame := f60 }) ∧
    (∃ t, exec (.transmit 5 f60) (active 0 1 S0) = .next t ∧ (t.fault == none && t.replies == [(some 5, .ack)]) = true) ∧
    (∃ t, exec (.transmit 5 f60) (active 0 3 S0) = .next t ∧ (t.fault == none && t.pendTx != .empty) = true) ∧
    (∃ t, exec .replayTx (armedTx (active 0 1 S0)) = .next t ∧ (t.fault == none && t.pendTx == .empty) = true) ∧
    (∃ t, exec .replayTx (armedTx (active 0 3 S0)) = .next t ∧ (t.fault == none && t.pendTx != .empty) = true) ∧
    (∃ t, exec (.receive 5) (rxDone 0 0xC000 S0) = .next t ∧ (t.fault == none && t.pendRx == .empty) = true) ∧
    (∃ t, exec (.receive 5) S0 = .next t ∧ (t.fault == none && t.pendRx == .armed 5) = true) ∧
    (∃ t, exec .replayRx (armedRx (rxDone 0 0xC000 S0)) = .next t ∧ (t.fault == none && t.pendRx == .empty) = true) ∧
    (∃ t, exec .replayRx (armedRx S0) = .next t ∧ (t.fault == none && t.pendRx == .armed 5) = true) :=
  ⟨⟨⟨rfl, rfl⟩, ⟨rfl, rfl⟩, rfl⟩, exists_next (by decide +kernel), exists_next (by decide +kernel),
    exists_next (by decide +kernel), exists_next (by decide +kernel), exists_next (by decide +kernel),
    exists_next (by decide +kernel), exists_next (by decide +kernel), exists_next (by decide +kernel)⟩

theorem witness_DeviceWritesOnlyItsFields : ∃ (s : State) (m : DeviceMove) (rest : List Input),
    s.agenda = .device m :: rest ∧ ∃ t, step s = .next t ∧ (t.rxBuffer 0 1 == [0xAA]) = true :=
  ⟨moves (.ruStep [0xAA] 0x2000) S0, _, _, rfl, exists_next (by decide +kernel)⟩

theorem witness_SoundnessIsKept : S0.Sound ∧ ∃ t, step S0 = .next t ∧ (t == S0) = true :=
  ⟨S0_sound, exists_next (by decide +kernel)⟩

/-- An append after which the mark has moved. -/
theorem witness_OneEndOfListMark : ∃ s : State, s.Sound ∧ ∃ t, step s = .next t ∧
    (t.started && t.fault == none && t.txCommand 0 == 0x8004) = true :=
  ⟨{ S0 with
      pollScript := acceptedAfter .cu 0 [], agenda := [.request 0x04 { Payload.zero with frame := f60 }] },
    { S0_sound with
      laid := fun _ => laid rfl rfl rfl rfl rfl
      marks := fun _ => { S0_marks with idle := fun _ => rfl }
      serial := fun _ => ⟨rfl, rfl, rfl, rfl, rfl⟩
      threshold := fun _ => by decide
      counters := by decide }, exists_next (by decide +kernel)⟩

/-- A good frame of the greatest length (L2-RX4), and each way a complete descriptor is bad. -/
theorem witness_RxPollInspectsTheHead :
    S0.fault = none ∧ S0.rxHead < S0.rxAddr.length ∧ State.reset.started = false ∧ statusC (S0.rxStatus 0) = false ∧
    (rxDone 0 0xC7F4 S0).HeadGood ∧ statusC ((put 0x20000 0x8000 S0).rxStatus 0) = true ∧
    statusOk ((put 0x20000 0x8000 S0).rxStatus 0) = false ∧ statusErr ((rxDone 0 0xC7F5 S0).rxStatus 0) = 0 ∧
    capacityOf ((rxDone 0 0xC7F5 S0).rxCapacity 0) < lengthCount Config.bench ((rxDone 0 0xC7F5 S0).rxLength 0) ∧
    lengthEof ((rxDone 0 0xC7F5 S0).rxLength 0) = true ∧ lengthFinal ((rxDone 0 0xC7F5 S0).rxLength 0) = true ∧
    statusOk ((rxDone 0 0x8002 S0).rxStatus 0) = true ∧ lengthFinal ((rxDone 0 0x8002 S0).rxLength 0) = false := by
  refine ⟨rfl, by decide, rfl, by decide +kernel, ⟨?_, ?_, ?_, ?_, ?_, ?_⟩, ?_⟩ <;> decide +kernel

/-- Every clause, at the first and the last index; the mark lost (L2-RX15). -/
theorem witness_RxRecycleMovesTheMark :
    S0.config.wf = true ∧ S0.Laid ∧ S0.rxHead < S0.config.nRx ∧ S0.fault = none ∧ State.reset.started = false ∧
    statusC (S0.rxStatus 0) = false ∧ statusC ((rxDone 0 0xC040 S0).rxStatus 0) = true ∧
    commandEl ((rxDone 0 0xC040 S0).rxCommand (prevIdx 4 0)) = true ∧
    commandEl ((put 0x21802 0 (rxDone 0 0xC040 S0)).rxCommand (prevIdx 4 0)) = false := by
  refine ⟨?_, laid rfl rfl rfl rfl rfl, ?_⟩ <;> decide +kernel

theorem witness_FrameOutOfBoundsIsFatal :
    S0.Running ∧ (List.replicate 59 (0 : Byte)).length < S0.config.minFrame ∧
    S0.config.maxTaggedFrame < (List.replicate 1519 (0 : Byte)).length ∧ S0.pendTx = .empty ∧
    (armedTx S0).pendTx = .armed { client := 5, frame := f60 } :=
  ⟨⟨rfl, rfl⟩, by decide, by rw [List.length_replicate]; decide, rfl, rfl⟩

theorem witness_AppendToActiveChain : ∃ s : State, s.config.wf = true ∧ s.Laid ∧ s.Running ∧
    s.txHead < s.config.nTx ∧ s.txIdle = false ∧ s.config.minFrame ≤ f60.length ∧
    f60.length ≤ s.config.maxTaggedFrame ∧ nextIdx s.config.nTx s.txHead ≠ s.txTail ∧
    s.pendTx = .empty ∧ (armedTx s).pendTx = .armed { client := 5, frame := f60 } :=
  ⟨active 1 3 S0, by decide +kernel, laid rfl rfl rfl rfl rfl, ⟨rfl, rfl⟩, by decide, rfl, by decide, by decide,
    by decide, rfl, rfl⟩

theorem witness_FullRingDefers : (active 2 1 S0).Running ∧ (active 2 1 S0).txFull = true ∧ 60 ≤ f60.length ∧
    f60.length ≤ 1518 ∧ (active 2 1 S0).pendTx = .empty := ⟨⟨rfl, rfl⟩, by decide, by decide, by decide, rfl⟩

/-- S0 with answers to the polls; its CU is idle and no command is pending. -/
theorem S0_canIssue (l : List PollEvent) (ri : Bool) : (answer l S0).CanIssue .cu ri := ⟨rfl, fun _ => rfl⟩

theorem witness_AppendToIdleRing : ∃ (s : State) (k : Nat) (rest : List PollEvent), s.config.wf = true ∧ s.Laid ∧
    s.Running ∧ s.txHead < s.config.nTx ∧ s.txIdle = true ∧ s.config.minFrame ≤ f60.length ∧
    f60.length ≤ s.config.maxTaggedFrame ∧ s.CanIssue .cu true ∧ s.pollScript = acceptedAfter .cu k rest ∧
    k < s.config.cuPollBound ∧ s.txHead ≠ 0 ∧ s.pendTx = .empty :=
  ⟨answer (acceptedAfter .cu 99 []) { active 3 3 S0 with txIdle := true }, 99, [], by decide +kernel,
    laid rfl rfl rfl rfl rfl, ⟨rfl, rfl⟩, by decide, rfl, by decide, by decide, ⟨rfl, fun _ => rfl⟩, rfl, by decide,
    by decide, rfl⟩

/-- Each of the three faults, the old mark on slot 3; with no request armed and with one. -/
theorem witness_AppendKeepsItsWritesOnFault :
    (∃ s : State, s.config.wf = true ∧ s.Laid ∧ s.Running ∧ s.txHead < s.config.nTx ∧ s.txIdle = true ∧
      s.config.minFrame ≤ f60.length ∧ f60.length ≤ s.config.maxTaggedFrame ∧ s.txHead ≠ 0 ∧ s.pendTx = .empty ∧
      (armedTx s).pendTx = .armed { client := 5, frame := f60 } ∧ s.CanIssue .cu true ∧
      (cuReports 5 s).dev.unitState .cu ≠ .idle ∧
      PollFails (answer (List.replicate 100 .read ++ [.timeout]) s).pollScript s.config.cuPollBound [.timeout]) ∧
    (commanded 1 0).txIdle = true ∧ (commanded 1 0).Running ∧ (commanded 1 0).dev.unitState .cu = .idle ∧
    (commanded 1 0).dev.noCommand .cu = false :=
  ⟨⟨{ active 3 3 S0 with txIdle := true }, by decide +kernel, laid rfl rfl rfl rfl rfl, ⟨rfl, rfl⟩, by decide, rfl,
    by decide, by decide, by decide, rfl, rfl, ⟨rfl, fun _ => rfl⟩, by decide, .inr (.inl rfl)⟩, rfl, ⟨rfl, rfl⟩,
    by decide, by decide⟩

/-- `Active(3, 1)`, the first slot complete: the walk wraps after it. -/
def wrapped : State := txDone 3 0xB000 (active 3 1 S0)

theorem witness_DrainStopsAtTheFirstIncomplete :
    S0.Running ∧ S0.txIdle = true ∧ wrapped.Running ∧ wrapped.txIdle = false ∧
    wrapped.txAddr.length = wrapped.config.nTx ∧ wrapped.txHead < wrapped.config.nTx ∧
    wrapped.txTail < wrapped.config.nTx ∧ wrapped.TxRun 1 ∧ statusC (wrapped.txStatus (wrapped.txWalk 1)) = false :=
  ⟨⟨rfl, rfl⟩, rfl, ⟨rfl, rfl⟩, rfl, by decide, by decide, by decide, by unfold State.TxRun; decide +kernel,
    by decide +kernel⟩

/-- `Active(3, 0)` with both slots complete; and the head without its mark. -/
def finished : State := txDone 0 0xA000 (txDone 3 0xB000 (active 3 0 S0))

theorem witness_DrainStopsAtTheMark :
    finished.Running ∧ finished.txIdle = false ∧ finished.txAddr.length = finished.config.nTx ∧
    finished.txHead < finished.config.nTx ∧ finished.txTail < finished.config.nTx ∧ finished.TxRun 1 ∧
    statusC (finished.txStatus (finished.txWalk 1)) = true ∧
    commandEl (finished.txCommand (finished.txWalk 1)) = true ∧ finished.txWalk 1 = finished.txHead ∧
    (put 0x10002 0x0004 finished).TxRun 1 ∧
    commandEl ((put 0x10002 0x0004 finished).txCommand (finished.txWalk 1)) = decide (finished.txWalk 1 ≠ 0) :=
  ⟨⟨rfl, rfl⟩, rfl, by decide, by decide, by decide, by unfold State.TxRun; decide +kernel, by decide +kernel,
    by decide +kernel, by decide, by unfold State.TxRun; decide +kernel, by decide +kernel⟩

theorem witness_IssueRunsToAcceptance : ∃ (cmd : EngineCommand) (s : State) (k : Nat) (rest : List PollEvent),
    s.config.cmdCodes.wf = true ∧ cmd ≠ .cuDumpStatistics ∧ s.Running ∧ s.CanIssue cmd.engine true ∧
    s.pollScript = acceptedAfter cmd.engine k rest ∧
    k < s.pollBound cmd.engine :=
  ⟨.cuLoadBase, answer (acceptedAfter .cu 99 [.timeout]) S0, 99, [.timeout], by decide, by decide, ⟨rfl, rfl⟩,
    S0_canIssue _ _, rfl, by decide⟩

/-- The three ways a poll of at most `bound` reads ends without an answer. -/
theorem pollFails_timeout {k bound : Nat} (h : k < bound) (rest : List PollEvent) :
    PollFails (List.replicate k .read ++ .timeout :: rest) bound rest := .inl ⟨k, h, rfl⟩

@[inherit_doc pollFails_timeout]
theorem pollFails_reads (bound : Nat) (rest : List PollEvent) :
    PollFails (List.replicate bound .read ++ rest) bound rest := .inr (.inl rfl)

@[inherit_doc pollFails_timeout]
theorem pollFails_nothing {k bound : Nat} (h : k < bound) : PollFails (List.replicate k .read) bound [] :=
  .inr (.inr ⟨rfl, k, h, rfl⟩)

/-- Each clause, and each of the three ways the poll ends. -/
theorem witness_IssueFaults :
    S0.Running ∧ (cuReports 5 S0).dev.unitState .cu ≠ .idle ∧ (commanded 1 0).dev.noCommand .cu = false ∧
    (commanded 1 0).dev.unitState .cu = .idle ∧ S0.config.cmdCodes.wf = true ∧ S0.CanIssue .cu true ∧
    PollFails (answer (List.replicate 99 .read ++ .timeout :: [.read]) S0).pollScript (S0.pollBound .cu) [.read] ∧
    PollFails (answer (List.replicate 100 .read ++ [.timeout]) S0).pollScript (S0.pollBound .cu) [.timeout] ∧
    PollFails S0.pollScript (S0.pollBound .cu) [] ∧ EngineCommand.engine .cuDumpStatistics = .cu ∧
    (0x30000 : BusAddr) = S0.statsAddr :=
  ⟨⟨rfl, rfl⟩, by decide, by decide, by decide, by decide, ⟨rfl, fun _ => rfl⟩, pollFails_timeout (by decide) _,
    pollFails_reads 100 _, pollFails_nothing (k := 0) (by decide), rfl, rfl⟩

theorem witness_DumpIsReadBack : ∃ (s : State) (k j : Nat) (counters : List Word) (rest : List PollEvent),
    s.config.wf = true ∧ s.Laid ∧ s.Running ∧ s.CanIssue .cu false ∧ s.pollScript = dumpedAfter k j counters rest ∧
    k < s.config.cuPollBound ∧ j < s.config.statsPollBound :=
  ⟨answer (dumpedAfter 99 1 [1, 2] []) S0, 99, 1, [1, 2], [], by decide +kernel, laid rfl rfl rfl rfl rfl, ⟨rfl, rfl⟩,
    S0_canIssue _ _, rfl, by decide, by decide⟩

theorem witness_DumpFaults : ∃ (s : State) (a : BusAddr) (k : Nat) (script : List PollEvent), s.config.wf = true ∧
    s.Running ∧ s.CanIssue .cu true ∧ a ≠ s.statsAddr ∧ s.pollScript = acceptedAfter .cu k script ∧
    k < s.config.cuPollBound ∧ PollFails script s.config.statsPollBound [.read] ∧
    PollFails (List.replicate 100000 .read ++ [.move (.dump [])]) s.config.statsPollBound [.move (.dump [])] ∧
    PollFails [] s.config.statsPollBound [] :=
  ⟨answer (acceptedAfter .cu 99 (List.replicate 1 .read ++ .timeout :: [.read])) S0, 0x30100, 99, _, by decide +kernel,
    ⟨rfl, rfl⟩, S0_canIssue _ _, by decide, rfl, by decide, pollFails_timeout (by decide) _, pollFails_reads _ _,
    pollFails_nothing (k := 0) (by decide)⟩

/-- S0 with an RU that has no resources and accepts a command after `k` reads. -/
def starved (k : Nat) : State := ruReports 2 (answer (acceptedAfter .ru k []) S0)

/-- S0 whose RU has no resources and has a command pending. -/
def busyRu : State := ruReports 2 (commanded 0 6)

theorem witness_RestartRuReinitialisesTheRing :
    S0.dev.unitState .ru ≠ .noResources ∧
    (busyRu.config.wf = true ∧ busyRu.Laid ∧ busyRu.Running ∧ busyRu.dev.unitState .ru = .noResources ∧
      busyRu.dev.noCommand .ru = false) ∧
    ∃ (s : State) (k : Nat) (rest : List PollEvent), s.config.wf = true ∧
      s.Laid ∧ s.Running ∧ s.dev.unitState .ru = .noResources ∧ s.dev.noCommand .ru = true ∧
      s.pollScript = acceptedAfter .ru k rest ∧ k < s.config.ruPollBound ∧
      PollFails (answer (List.replicate 100 .read) s).pollScript s.config.ruPollBound [] :=
  ⟨by decide, ⟨by decide +kernel, laid rfl rfl rfl rfl rfl, ⟨rfl, rfl⟩, by decide, by decide⟩, starved 99, 99, [],
    by decide +kernel, laid rfl rfl rfl rfl rfl, ⟨rfl, rfl⟩, by decide, by decide, rfl, by decide, pollFails_reads 100 []⟩

theorem witness_HardPhaseAcknowledgesCauses :
    S0.fault = none ∧ State.reset.started = false ∧ { S0 with irqArmed := false }.irqArmed = false ∧
    (causes 0xFF).started = true ∧ (causes 0xFF).irqArmed = true ∧ (causes 0xFF).dev.scbIsr &&& 0x8B ≠ 0 ∧
    S0.dev.scbIsr &&& 0x8B = 0 := ⟨rfl, rfl, rfl, rfl, rfl, by decide, by decide⟩

theorem witness_DeferredPhaseWithoutRingWork : ∃ s : State, s.Running ∧ s.rxHead < s.rxAddr.length ∧
    s.needReset = false ∧ s.fCna = false ∧ s.pendRx = .armed 5 ∧ statusC (s.rxStatus s.rxHead) = false ∧ s.fRnr = true ∧
    s.logAfter = [.linkReport 0x786D] ∧ s.reportsAfter = [0x786D] :=
  ⟨armedRx { S0 with fRnr := true, linkReportPending := true }, ⟨rfl, rfl⟩, by decide, rfl, rfl, rfl, by decide +kernel,
    rfl, rfl, rfl⟩

/-- A frame of length 0 at the head, an RX request armed. -/
def arrived : State := armedRx (rxDone 0 0xC000 S0)

theorem arrived_good : arrived.HeadGood := by
  refine ⟨?_, ?_, ?_, ?_, ?_, ?_⟩ <;> decide +kernel

theorem witness_DeferredPhaseDeliversTheFrame : arrived.config.wf = true ∧ arrived.Laid ∧ arrived.Running ∧
    arrived.rxHead < arrived.config.nRx ∧ arrived.needReset = false ∧ arrived.fCna = false ∧ arrived.fRnr = false ∧
    arrived.linkReportPending = false ∧ arrived.pendRx = .armed 5 ∧ arrived.HeadGood ∧
    commandEl (arrived.rxCommand (prevIdx arrived.config.nRx arrived.rxHead)) = true :=
  ⟨by decide +kernel, laid rfl rfl rfl rfl rfl, ⟨rfl, rfl⟩, by decide, rfl, rfl, rfl, rfl, rfl, arrived_good,
    by decide +kernel⟩

/-- `Active(3, 0)` with both slots complete, the CU's flag set (L2-I5, P1 step 8). -/
def doneRing : State := { finished with fCna := true }

/-- L2-I6 with an answer to the restart, and with a TX request armed; nothing retired; and the chain that is done. -/
theorem witness_RetirementPrecedesReplay :
    (∃ s : State, s.config.wf = true ∧ s.Laid ∧ s.Running ∧ s.txHead < s.config.nTx ∧
      s.txTail < s.config.nTx ∧ s.rxHead < s.config.nRx ∧ s.needReset = false ∧ s.fCna = true ∧ s.fRnr = false ∧
      s.linkReportPending = false ∧ s.pendRx = .empty ∧ s.txIdle = false ∧ s.TxRun 2 ∧
      statusC (s.txStatus (s.txWalk 2)) = false ∧ s.CanIssue .cu true ∧
      s.pollScript = acceptedAfter .cu 1 [] ∧ 1 < s.config.cuPollBound ∧ s.pendTx = .empty ∧
      (armedTx s).pendTx = .armed { client := 5, frame := f60 } ∧ nextIdx s.config.nTx s.txHead ≠ s.txWalk 2) ∧
    (∃ s : State, s.fCna = true ∧ s.txIdle = false ∧ s.TxRun 0 ∧ statusC (s.txStatus (s.txWalk 0)) = false ∧
      s.pendTx = .empty) ∧
    (∃ s : State, s.Laid ∧ s.Running ∧ s.fCna = true ∧ s.txIdle = false ∧ s.ChainDone 1 ∧ s.cfgPending = false ∧
      s.CanIssue .cu true ∧ s.pollScript = acceptedAfter .cu 99 [] ∧ 99 < s.config.cuPollBound ∧ s.pendTx = .empty ∧
      (armedTx s).pendTx = .armed { client := 5, frame := f60 }) :=
  ⟨⟨answer (acceptedAfter .cu 1 []) raced, by decide +kernel, laid rfl rfl rfl rfl rfl, ⟨rfl, rfl⟩, by decide, by decide,
    by decide, rfl, rfl, rfl, rfl, rfl, rfl, by unfold State.TxRun; decide +kernel, by decide +kernel,
    ⟨rfl, fun _ => rfl⟩, rfl, by decide, rfl, rfl, by decide⟩,
    ⟨{ active 0 2 S0 with fCna := true }, rfl, rfl, fun _ h => absurd h (Nat.not_lt_zero _), by decide +kernel, rfl⟩,
    ⟨answer (acceptedAfter .cu 99 []) doneRing, laid rfl rfl rfl rfl rfl, ⟨rfl, rfl⟩, rfl, rfl,
      ⟨by unfold State.TxRun; decide +kernel, by decide +kernel, by decide +kernel, by decide⟩, rfl,
      ⟨rfl, fun _ => rfl⟩, rfl, by decide, rfl, rfl⟩⟩

/-- L2-I7. -/
theorem witness_CommandRaceIsLogged : ∃ s : State, s.Running ∧ s.txAddr.length = s.config.nTx ∧
    s.txHead < s.config.nTx ∧ s.txTail < s.config.nTx ∧ s.needReset = false ∧ s.fCna = true ∧ s.fRnr = false ∧
    s.linkReportPending = false ∧ s.pendRx = .empty ∧ s.pendTx = .empty ∧ s.txIdle = false ∧ s.TxRun 2 ∧
    statusC (s.txStatus (s.txWalk 2)) = false ∧ s.dev.unitState .cu ≠ .idle :=
  ⟨cuReports 5 raced, ⟨rfl, rfl⟩, by decide, by decide, by decide, rfl, rfl, rfl, rfl, rfl, rfl, rfl,
    by unfold State.TxRun; decide +kernel, by decide +kernel, by decide⟩

/-- A pending configuration, the ring idle; and the ring drained by this deferred phase (L2-I10), with no request armed
and with one. -/
theorem witness_DeferredConfigurationIsSent :
    (∃ (s : State) (k j : Nat) (status : Half) (block : List Byte)
      (rest : List PollEvent), s.config.wf = true ∧ s.Laid ∧ s.Running ∧ s.needReset = false ∧ s.fCna = true ∧
      s.fRnr = false ∧ s.linkReportPending = false ∧ s.pendRx = .empty ∧ s.pendTx = .empty ∧ s.txIdle = true ∧
      s.cfgPending = true ∧ s.CanIssue .cu true ∧ s.pollScript = configuredAfter k j status block rest ∧
      k < s.config.cuPollBound ∧ j < s.config.cuPollBound) ∧
    ∃ (s : State) (script : List PollEvent), s.Laid ∧ s.Running ∧ s.needReset = false ∧ s.fCna = true ∧
      s.fRnr = false ∧ s.linkReportPending = false ∧ s.pendRx = .empty ∧ s.cfgPending = true ∧ s.CanIssue .cu true ∧
      s.txIdle = false ∧ s.txHead < s.config.nTx ∧ s.txTail < s.config.nTx ∧ s.ChainDone 1 ∧ s.pendTx = .empty ∧
      s.pollScript = configuredAfter 1 99 0x2000 [7] script ∧
      (armedTx s).pendTx = .armed { client := 5, frame := f60 } ∧ script = acceptedAfter .cu 99 [] ∧
      99 < s.config.cuPollBound :=
  ⟨⟨answer (configuredAfter 1 99 0x2000 [7] []) { S0 with fCna := true, cfgPending := true }, 1, 99, 0x2000, [7], [],
    by decide +kernel, laid rfl rfl rfl rfl rfl, ⟨rfl, rfl⟩, rfl, rfl, rfl, rfl, rfl, rfl, rfl, rfl, ⟨rfl, fun _ => rfl⟩,
    rfl, by decide, by decide⟩,
    ⟨answer (configuredAfter 1 99 0x2000 [7] (acceptedAfter .cu 99 [])) { doneRing with cfgPending := true }, _,
      laid rfl rfl rfl rfl rfl, ⟨rfl, rfl⟩, rfl, rfl, rfl, rfl, rfl, rfl, ⟨rfl, fun _ => rfl⟩, rfl, by decide, by decide,
      ⟨by unfold State.TxRun; decide +kernel, by decide +kernel, by decide +kernel, by decide⟩, rfl, rfl, rfl, rfl, by decide⟩⟩

/-- An active ring, an RX request armed, a link report due; with no TX request, and with one (P3 step 9). -/
theorem witness_DeferredDeviceReset : ∃ (s : State) (k : Nat) (rest : List PollEvent), s.config.wf = true ∧ s.Laid ∧
    s.Running ∧ s.needReset = true ∧ s.linkReportPending = true ∧ s.pendRx = .armed 5 ∧ s.pendTx = .empty ∧
    s.pollScript = bootAnswers k k k k k 0x2000 [7] rest ∧ s.config.bootInTime k k k k k ∧
    (armedTx s).pendTx = .armed { client := 5, frame := f60 } ∧ rest = acceptedAfter .cu k [.read] ∧
    k < s.config.cuPollBound ∧ s.config.minFrame ≤ f60.length ∧ f60.length ≤ s.config.maxTaggedFrame :=
  ⟨answer (bootAnswers 99 99 99 99 99 0x2000 [7] (acceptedAfter .cu 99 [.read]))
      (armedRx { active 0 3 S0 with needReset := true, linkReportPending := true }), 99, _, by decide +kernel,
    laid rfl rfl rfl rfl rfl, ⟨rfl, rfl⟩, rfl, rfl, rfl, rfl, rfl, by unfold Config.bootInTime; decide, rfl, rfl,
    by decide, by decide, by decide⟩

theorem witness_ArmStoresOneRequest : S0.fault = none ∧ State.reset.started = false ∧ S0.started = true ∧
    S0.pendTx = .empty ∧ S0.pendRx = .empty ∧ (armedTx S0).pendTx ≠ .empty ∧ (armedRx S0).pendRx ≠ .empty :=
  ⟨rfl, rfl, rfl, rfl, rfl, by decide, by decide⟩

theorem witness_OneRequestPerDirection : S0.Running ∧ S0.pendTx = .empty ∧ S0.pendRx = .empty ∧
    (armedTx S0).pendTx ≠ .empty ∧ (armedRx S0).pendRx ≠ .empty := ⟨⟨rfl, rfl⟩, rfl, rfl, by decide, by decide⟩

/-- A good frame with its mark in place and with the mark lost, a receive error, a length above the capacity. -/
theorem witness_ReceiveDeliversTheFrame : arrived.config.wf = true ∧ arrived.Laid ∧ arrived.Running ∧
    arrived.rxHead < arrived.config.nRx ∧ arrived.HeadGood ∧
    commandEl (arrived.rxCommand (prevIdx arrived.config.nRx arrived.rxHead)) = true ∧ arrived.pendRx = .armed 5 ∧
    (rxDone 0 0xC000 S0).HeadGood ∧ (rxDone 0 0xC000 S0).pendRx = .empty ∧
    (statusC ((put 0x20000 0x8000 S0).rxStatus 0) = true ∧ statusOk ((put 0x20000 0x8000 S0).rxStatus 0) = false ∧
      (put 0x20000 0x8000 S0).pendRx = .empty) ∧
    (statusC ((rxDone 0 0xC7F5 S0).rxStatus 0) = true ∧ statusOk ((rxDone 0 0xC7F5 S0).rxStatus 0) = true ∧
      statusErr ((rxDone 0 0xC7F5 S0).rxStatus 0) = 0 ∧
      ¬ lengthCount Config.bench ((rxDone 0 0xC7F5 S0).rxLength 0) ≤ capacityOf ((rxDone 0 0xC7F5 S0).rxCapacity 0)) ∧
    (put 0x21802 0 arrived).HeadGood ∧ commandEl ((put 0x21802 0 arrived).rxCommand (prevIdx 4 0)) = false := by
  refine ⟨?_, laid rfl rfl rfl rfl rfl, ⟨rfl, rfl⟩, by decide, arrived_good, ?_, rfl,
    ⟨arrived_good.1, arrived_good.2, arrived_good.3, arrived_good.4, arrived_good.5, arrived_good.6⟩, rfl, ?_, ?_,
    ⟨?_, ?_, ?_, ?_, ?_, ?_⟩, ?_⟩ <;> decide +kernel

theorem witness_ReceiveArmsTheRequest : S0.Running ∧ S0.rxHead < S0.rxAddr.length ∧
    statusC (S0.rxStatus S0.rxHead) = false ∧ S0.rxNeedRestart = false ∧ S0.dev.unitState .ru ≠ .noResources ∧
    S0.pendRx = .empty ∧ (armedRx S0).pendRx = .armed 5 :=
  ⟨⟨rfl, rfl⟩, by decide, by decide +kernel, rfl, by decide, rfl, rfl⟩

theorem witness_ReceiveRestartsTheRu : (∃ s : State, s.config.wf = true ∧ s.Laid ∧ s.Running ∧
    s.rxHead < s.config.nRx ∧ statusC (s.rxStatus s.rxHead) = false ∧ s.rxNeedRestart = true ∧
    s.dev.unitState .ru = .noResources ∧ s.dev.noCommand .ru = true ∧ s.pollScript = acceptedAfter .ru 99 [] ∧
    99 < s.config.ruPollBound ∧ s.pendRx = .empty ∧ (armedRx s).pendRx = .armed 5 ∧
    PollFails (answer (List.replicate 100 .read ++ [.timeout]) s).pollScript s.config.ruPollBound [.timeout]) ∧
    statusC ({ busyRu with rxNeedRestart := true }.rxStatus 0) = false ∧ busyRu.dev.unitState .ru = .noResources ∧
    busyRu.dev.noCommand .ru = false :=
  ⟨⟨{ starved 99 with rxNeedRestart := true, rxHead := 2 }, by decide +kernel, laid rfl rfl rfl rfl rfl, ⟨rfl, rfl⟩,
    by decide, by decide +kernel, rfl, by decide, by decide, rfl, by decide, rfl, rfl, pollFails_reads 100 _⟩,
    by decide +kernel, by decide, by decide⟩

theorem witness_ConfigureSendsTheTable : ∃ (s : State) (k j : Nat) (status : Half) (block : List Byte)
    (rest : List PollEvent), s.config.wf = true ∧ s.Laid ∧ s.Running ∧ s.txIdle = true ∧ s.CanIssue .cu true ∧
    s.pollScript = configuredAfter k j status block rest ∧ k < s.config.cuPollBound ∧ j < s.config.cuPollBound :=
  ⟨answer (configuredAfter 0 2 0x2000 [7] []) S0, 0, 2, 0x2000, [7], [], by decide +kernel, laid rfl rfl rfl rfl rfl,
    ⟨rfl, rfl⟩, rfl, S0_canIssue _ _, rfl, by decide, by decide⟩

theorem witness_ConfigureWaitsForTheRing : (active 0 1 S0).Running ∧ (active 0 1 S0).txIdle = false ∧
    (cuReports 5 S0).Running ∧ (cuReports 5 S0).txIdle = true ∧ (cuReports 5 S0).dev.unitState .cu ≠ .idle ∧
    (commanded 1 0).dev.unitState .cu = .idle ∧ (commanded 1 0).dev.noCommand .cu = false ∧
    S0.config.cmdCodes.wf = true ∧ S0.txIdle = true ∧ S0.CanIssue .cu true ∧
    PollFails S0.pollScript S0.config.cuPollBound [] ∧
    ∃ script, (answer (acceptedAfter .cu 99 (List.replicate 100 .read ++ [.timeout])) S0).pollScript =
      acceptedAfter .cu 99 script ∧ 99 < S0.config.cuPollBound ∧ PollFails script S0.config.cuPollBound [.timeout] :=
  ⟨⟨rfl, rfl⟩, rfl, ⟨rfl, rfl⟩, rfl, by decide, by decide, by decide, by decide, rfl, S0_canIssue [] true,
    pollFails_nothing (k := 0) (by decide), _, rfl, by decide, pollFails_reads 100 _⟩

theorem witness_WatchdogTick : S0.Running ∧ S0.SerialIdle ∧ { S0 with serBusy := true }.serBusy = true ∧
    { S0 with serBusy := true }.Running := ⟨⟨rfl, rfl⟩, S0_serialIdle, rfl, ⟨rfl, rfl⟩⟩

theorem witness_ReadEepromReturnsTheWord : S0.Running ∧ S0.SerialIdle ∧ supportedWidth S0.config = some .six ∧
    S0.eeWidth = .six ∧ { S0 with eeWidth := .unknown }.eeWidth = .unknown ∧ 63 < 2 ^ S0.config.eeDevWidth :=
  ⟨⟨rfl, rfl⟩, S0_serialIdle, rfl, rfl, rfl, by decide⟩

theorem witness_SerialReadFaults : S0.Running ∧ { S0 with serBusy := true }.serBusy = true ∧ S0.SerialIdle ∧
    supportedWidth S0.config = some .six ∧ S0.eeWidth = .six ∧ 2 ^ S0.config.eeDevWidth ≤ 64 ∧
    supportedWidth { Config.bench with eeDevWidth := 7 } = none ∧
    { S0 with config := { Config.bench with eeDevWidth := 7 }, eeWidth := .unknown }.SerialIdle :=
  ⟨⟨rfl, rfl⟩, rfl, S0_serialIdle, rfl, rfl, by decide, rfl, ⟨rfl, rfl, rfl, rfl, rfl⟩⟩

theorem witness_ReadPhyReturnsTheRegister : S0.Running ∧ S0.SerialIdle := ⟨⟨rfl, rfl⟩, S0_serialIdle⟩

/-- The power-on state before a reset that finds something wrong before or while it maps. -/
theorem witness_ResetEndsEarly :
    S0.fault = none ∧ S0.started = true ∧ State.reset.started = false ∧ { State.reset with pciBus := [] }.located = none ∧
    { State.reset with pciBus := [{ PciFunction.bench with base := 0xE010 }] }.located =
      some { PciFunction.bench with base := 0xE010 } ∧
    (0xE010 : Word).toNat % Config.bench.regSpan ≠ 0 ∧ State.reset.located = some PciFunction.bench ∧
    PciFunction.bench.base.toNat % Config.bench.regSpan = 0 ∧
    (∀ j, j < 5 → answerOk (({ BusMap.bench with tx := [some 0x10000, some 0x10802] }.inOrder Config.bench).getD j none)
      = true) ∧
    answerOk (({ BusMap.bench with tx := [some 0x10000, some 0x10802] }.inOrder Config.bench).getD 5 none) = false ∧
    answerOk (({ BusMap.bench with cfg := none }.inOrder Config.bench).getD 9 none) = false := by
  refine ⟨rfl, rfl, rfl, ?_⟩ <;> decide +kernel

/-- The regions mapped: an EEPROM of 7 address bits; each poll of the sequence not answered, the last one after the
configuration; an engine that drifts before its command. -/
theorem witness_ResetEndsEarly_mapped :
    (∃ (s : State) (f : PciFunction) (rx tx : List BusAddr) (stats cfg : BusAddr), s.config.wf = true ∧
      s.fault = none ∧ s.started = false ∧ s.located = some f ∧ f.base.toNat % s.config.regSpan = 0 ∧
      s.busMap.answers s.config = some (rx, tx, stats, cfg) ∧ regionsOk (regionsOf s.config rx tx stats cfg) = true ∧
      (∀ a ∈ rx ++ tx ++ [stats, cfg], a.toNat % 4 = 0) ∧ s.rxAddr.length = s.config.nRx ∧
      s.txAddr.length = s.config.nTx ∧ s.SerialIdle ∧ supportedWidth s.config = none ∧ s.eeWidth = .unknown) ∧
    supportedWidth State.reset.config = some .six ∧ State.reset.eeWidth = .unknown ∧
    PollFails State.reset.pollScript State.reset.config.cuPollBound [] ∧
    (∃ script, (answer (acceptedAfter .cu 99 (acceptedAfter .ru 99 (configuredAfter 99 99 0x2000 [7]
      (List.replicate 100 .read ++ [.timeout])))) State.reset).pollScript =
        acceptedAfter .cu 99 (acceptedAfter .ru 99 (configuredAfter 99 99 0x2000 [7] script)) ∧
      PollFails script State.reset.config.ruPollBound [.timeout]) ∧
    unitStateOf 3 ≠ .idle ∧
    (answer (acceptedAfter .cu 0 (.move (.drift .cu 3) :: acceptedAfter .ru 0 [])) State.reset).pollScript =
      acceptedAfter .cu 0 (.move (.drift .cu 3) :: acceptedAfter .ru 0 []) :=
  ⟨⟨{ State.reset with config := { Config.bench with eeDevWidth := 7 } }, PciFunction.bench, S0.rxAddr, S0.txAddr,
    0x30000, 0x30800, by decide +kernel, rfl, rfl, by decide +kernel, by decide, by decide +kernel, by decide +kernel,
    by simp [S0], by decide, by decide, ⟨rfl, rfl, rfl, rfl, rfl⟩, rfl, rfl⟩, rfl, rfl,
    pollFails_nothing (k := 0) (by decide), ⟨_, rfl, pollFails_reads 100 _⟩, by decide, rfl⟩

theorem witness_ResetStartsTheBlock : ∃ (s : State) (f : PciFunction) (rx tx : List BusAddr) (stats cfg : BusAddr),
    s.config.wf = true ∧ s.fault = none ∧ s.started = false ∧ s.located = some f ∧
    f.base.toNat % s.config.regSpan = 0 ∧ s.busMap.answers s.config = some (rx, tx, stats, cfg) ∧
    regionsOk (regionsOf s.config rx tx stats cfg) = true ∧ (∀ a ∈ rx ++ tx ++ [stats, cfg], a.toNat % 4 = 0) ∧
    s.rxAddr.length = s.config.nRx ∧ s.txAddr.length = s.config.nTx ∧ s.SerialIdle ∧
    supportedWidth s.config = some .six ∧ s.eeWidth = .unknown ∧
    s.pollScript = bootAnswers 1 2 3 4 5 0x2000 [7] [] ∧ s.config.bootInTime 1 2 3 4 5 :=
  ⟨answer (bootAnswers 1 2 3 4 5 0x2000 [7] []) State.reset, PciFunction.bench, S0.rxAddr, S0.txAddr, 0x30000, 0x30800,
    by decide +kernel, rfl, rfl, by decide +kernel, by decide, by decide +kernel, by decide +kernel, by simp [S0],
    by decide, by decide, ⟨rfl, rfl, rfl, rfl, rfl⟩, rfl, rfl, rfl, by unfold Config.bootInTime; decide⟩

/-- The CU at a TX descriptor with a COUNT of 2 and one above BUF_SIZE, at an RX descriptor, where the device may write and
where it may not, outside the regions. -/
theorem witness_CuExecutesTheDescriptor :
    S0.dev.unitState .cu ≠ .active ∧ S0.config.wf = true ∧ S0.Laid ∧ (cuCame 0x20000 S0).dev.unitState .cu = .active ∧
    S0.inRegions 0x30820 = false ∧
    (sending 3 S0).dev.cuFetch = (sending 3 S0).txSlot 3 ∧ byteCount ((sending 3 S0).txByteCount 3) = 2 ∧
    2036 < byteCount ((put 0x11808 0x87F5 (sending 3 S0)).txByteCount 3) ∧
    (cuCame 0x21800 S0).dev.cuFetch = S0.rxSlot 3 ∧
    S0.inRegions 0x30813 = true ∧ 0x30813 ∉ S0.txAddr ++ S0.rxAddr ∧
    S0.inRegions 0x20004 = true ∧ 0x20004 ∉ S0.txAddr ++ S0.rxAddr ∧
    S0.deviceMayWrite 0x30813 2 = true ∧ S0.deviceMayWrite 0x20004 2 = false := by
  refine ⟨by decide, by decide +kernel, laid rfl rfl rfl rfl rfl, ?_⟩
  decide +kernel

/-- The RU outside the regions, at an RX descriptor with the capacity BUF_SIZE and one above it, at a TX descriptor, and
elsewhere in the regions. -/
theorem witness_RuFillsTheDescriptor :
    (∃ s : State, s.agenda = .device (.ruStep f60 0x2000) :: [] ∧ s.dev.unitState .ru = .ready ∧ s.config.wf = true ∧
      s.inRegions s.dev.ruFill = false) ∧
    (∃ s : State, s.agenda = .device (.ruStep f60 0x2000) :: [] ∧ s.dev.unitState .ru = .ready ∧ s.Laid ∧
      0 < s.config.nRx ∧ s.dev.ruFill = s.rxSlot 0 ∧ capacityOf (s.rxCapacity 0) ≤ s.config.bufSize) ∧
    (∃ (s : State) (frame : Frame), s.agenda = .device (.ruStep frame 0x2000) :: [] ∧ s.dev.unitState .ru = .ready ∧
      s.Laid ∧ s.dev.ruFill = s.rxSlot 0 ∧ s.config.bufSize < capacityOf (s.rxCapacity 0) ∧
      s.config.bufSize < frame.length) ∧
    (∃ s : State, s.agenda = .device (.ruStep f60 0x2000) :: [] ∧ s.dev.unitState .ru = .ready ∧ s.Laid ∧
      3 < s.config.nTx ∧ s.dev.ruFill = s.txSlot 3) ∧
    ∃ s : State, s.agenda = .device (.ruStep f60 0x2000) :: [] ∧ s.dev.unitState .ru = .ready ∧
      s.inRegions s.dev.ruFill = true ∧ s.dev.ruFill ∉ s.rxAddr ++ s.txAddr ∧
      s.deviceMayWrite s.dev.ruFill 2 = true :=
  ⟨⟨moves (.ruStep f60 0x2000) (ruCame 0 S0), rfl, by decide, by decide +kernel, by decide +kernel⟩,
    ⟨moves (.ruStep f60 0x2000) S0, rfl, by decide, laid rfl rfl rfl rfl rfl, by decide, by decide, by decide +kernel⟩,
    ⟨moves (.ruStep (List.replicate 2037 7) 0x2000) (put 0x2000A 0x07F5 S0), List.replicate 2037 7, rfl, by decide,
      laid rfl rfl rfl rfl rfl, by decide, by decide +kernel, by rw [List.length_replicate]; decide⟩,
    ⟨moves (.ruStep f60 0x2000) (ruCame 0x11800 S0), rfl, by decide, laid rfl rfl rfl rfl rfl, by decide, by decide⟩,
    ⟨moves (.ruStep f60 0x2000) (ruCame 0x30800 S0), rfl, by decide, by decide +kernel, by decide, by decide +kernel⟩⟩

theorem witness_DeviceMovesOutsideMemory :
    (moves (.linkChange 0) S0).agenda = .device (.linkChange 0) :: [] ∧
    (moves (.spurious 0xFF) S0).agenda = .device (.spurious 0xFF) :: [] ∧
    (moves (.drift .cu 7) S0).agenda = .device (.drift .cu 7) :: [] ∧ S0.dev.dumpPending = false ∧
    (ruReports 2 S0).dev.unitState .ru ≠ .ready ∧ S0.dev.unitState .cu ≠ .active :=
  ⟨rfl, rfl, rfl, rfl, by decide, by decide⟩

end Sys2Proof.Tests
end

section
/-! SUPPORT. The statements of the scope family: what decodes, what a step is, what a run never changes, and the
invariant `State.Sound`. -/

namespace Sys2Proof.Machine

/-! ### Encodings -/

/-- The round trip of each instruction, one lemma per constructor. -/
theorem decode_encode : ∀ i : Instr, Laws.RoundTrip.Statement i
  | .rxPoll => Laws.RoundTrip.rxPoll
  | .rxRecycle n => Laws.RoundTrip.rxRecycle n
  | .txAppend f => Laws.RoundTrip.txAppend f
  | .txDrain => Laws.RoundTrip.txDrain
  | .issueCuLoadBase ri a => Laws.RoundTrip.issueCuLoadBase ri a
  | .issueRuLoadBase ri a => Laws.RoundTrip.issueRuLoadBase ri a
  | .issueCuStart ri a => Laws.RoundTrip.issueCuStart ri a
  | .issueRuStart ri a => Laws.RoundTrip.issueRuStart ri a
  | .issueCuDumpStatistics ri a => Laws.RoundTrip.issueCuDumpStatistics ri a
  | .restartRu => Laws.RoundTrip.restartRu
  | .onInterrupt => Laws.RoundTrip.onInterrupt
  | .checkInterrupts => Laws.RoundTrip.checkInterrupts
  | .armTx c f => Laws.RoundTrip.armTx c f
  | .armRx c => Laws.RoundTrip.armRx c
  | .replayTx => Laws.RoundTrip.replayTx
  | .replayRx => Laws.RoundTrip.replayRx
  | .watchdogTick => Laws.RoundTrip.watchdogTick
  | .readEeprom n => Laws.RoundTrip.readEeprom n
  | .readPhy n => Laws.RoundTrip.readPhy n
  | .configure f => Laws.RoundTrip.configure f
  | .transmit c f => Laws.RoundTrip.transmit c f
  | .receive c => Laws.RoundTrip.receive c
  | .getStatistics c => Laws.RoundTrip.getStatistics c
  | .reset => Laws.RoundTrip.reset
  | .scbCuNop => Laws.RoundTrip.scbCuNop
  | .scbCuStart => Laws.RoundTrip.scbCuStart
  | .scbCuDumpStatistics => Laws.RoundTrip.scbCuDumpStatistics
  | .scbCuLoadBase => Laws.RoundTrip.scbCuLoadBase
  | .scbRuNop => Laws.RoundTrip.scbRuNop
  | .scbRuStart => Laws.RoundTrip.scbRuStart
  | .scbRuLoadBase => Laws.RoundTrip.scbRuLoadBase
  | .txdOpNop el => Laws.RoundTrip.txdOpNop el
  | .txdOpTx el => Laws.RoundTrip.txdOpTx el

/-- The CU's command by its OP field (R114): the two codes are told apart by their numbers. -/
theorem decodeTxCommand_eq (c : Half) : decodeTxCommand c =
    if commandOp c = opNop then .ok (.txdOpNop (commandEl c))
    else if commandOp c = opTx then .ok (.txdOpTx (commandEl c)) else .error .reservedTxOp := by
  rw [decodeTxCommand, ← commandOp, ← commandEl]
  generalize commandEl c = el
  generalize commandOp c = op
  revert el op
  decide

/-! ### Operations and sound states -/

/-- Every operation of the port keeps the lengths of the caches: the start-up sequence replaces them entry by entry, any
other one is refused before the start or leaves them alone. -/
theorem request_len {i : Instr} {op : Op OpResult} (h : requestOp i = some op) {s : State}
    (h1 : s.rxAddr.length = s.config.nRx) (h2 : s.txAddr.length = s.config.nTx) : SameLen s (endState (op s)) := by
  by_cases hi : i = .reset
  · subst hi; cases h
    exact resetOp_len h1 h2
  · cases hs : s.started with
    | false => rw [request_started h hi hs]; exact ⟨rfl, rfl, rfl⟩
    | true =>
      have hk := request_run h s
      obtain ⟨-, hrx, htx, -⟩ := hk.started hs
      exact ⟨hk.config, by rw [hrx], by rw [htx]⟩

/-- An operation that is stopped, by a Fatal or otherwise, does not start the block. -/
theorem request_error_started {i : Instr} {op : Op OpResult} (h : requestOp i = some op) {s u : State} {e : Stop}
    (ho : op s = .error e u) (hs : s.started = false) : u.started = false := by
  by_cases hi : i = .reset
  · subst hi; cases h
    rcases resetOp_cases s with ⟨h1, -⟩ | ⟨-, -, h1⟩ | ⟨f, link, v, -, -, -, h1⟩ | ⟨f, e', v, -, -, hb, h1⟩
    · rw [hs] at h1; cases h1
    · rw [h1] at ho; cases ho
    · rw [h1] at ho; cases ho
    · rw [h1] at ho; cases ho
      have hk := boot_prefix f s
      rw [hb] at hk
      exact hk.started.trans hs
  · rw [request_started h hi hs] at ho
    cases ho
    exact hs

theorem State.aligned_of_eq {s t : State} (h1 : t.rxAddr = s.rxAddr) (h2 : t.txAddr = s.txAddr)
    (h3 : t.statsAddr = s.statsAddr) (h4 : t.cfgAddr = s.cfgAddr) (h : s.aligned = true) : t.aligned = true := by
  rwa [State.aligned, h1, h2, h3, h4]

theorem State.Good.withResults {s : State} (h : s.Good) (l : List OpResult) : State.Good { s with results := l } :=
  h.same rfl rfl rfl rfl rfl rfl rfl rfl rfl rfl rfl rfl rfl rfl rfl rfl

theorem State.Good.withStart {s : State} (h : s.Good) (link : Half) :
    State.Good { s with linkSnapshot := link, irqArmed := true, started := true } :=
  h.same rfl rfl rfl rfl rfl rfl rfl rfl rfl rfl rfl rfl rfl rfl rfl rfl

/-- An operation that ends leaves the serial engine idle, and the block good and aligned if it is then started. -/
theorem request_ends {i : Instr} {op : Op OpResult} (h : requestOp i = some op) {s u : State} {x : OpResult}
    (hs : s.Sound) (hf : s.fault = none) (ho : op s = .ok x u) :
    u.SerialIdle ∧ (u.started = true → u.Good ∧ u.aligned = true) := by
  by_cases hi : i = .reset
  · subst hi; cases h
    rcases resetOp_cases s with ⟨-, h1⟩ | ⟨h0, -, h1⟩ | ⟨f, link, v, -, -, hb, h1⟩ | ⟨f, e, v, -, -, -, h1⟩ <;>
      rw [h1] at ho <;> cases ho
    · exact ⟨hs.serial hf, fun hu => by rw [h0] at hu; cases hu⟩
    · obtain ⟨hg, ha⟩ := bootPrefix_good hs.params hs.map hs.rxLen hs.txLen hb
      have hg := hg.withStart link
      exact ⟨hg.serial, fun _ => ⟨hg, ha⟩⟩
  · cases h0 : s.started with
    | false => rw [request_started h hi h0] at ho; cases ho
    | true =>
      have hg : u.Good := good_request h hi s (hs.good ⟨hf, h0⟩) x u ho
      have hk := request_run h s
      rw [ho] at hk
      obtain ⟨-, hrx, htx, hst, hcf, -⟩ := hk.started h0
      exact ⟨hg.serial, fun _ => ⟨hg, State.aligned_of_eq hrx htx hst hcf (hs.aligned h0)⟩⟩

/-! ### Soundness is an invariant -/

theorem takeFatal_fault_ne_none (r : FatalReason) (s : State) : (takeFatal r s).fault ≠ none := by
  rw [takeFatal_fault]
  cases s.fault <;> exact Option.some_ne_none _

/-- The agenda is no part of a sound state. -/
theorem State.Sound.withAgenda {s : State} (h : s.Sound) (l : List Input) : State.Sound { s with agenda := l } :=
  { h with
    laid := fun hs => (h.laid hs).of_eq rfl rfl rfl rfl rfl
    marks := fun hr =>
      have hg := (h.good ⟨hr.noFault, hr.started⟩).same (t := { s with agenda := l })
        rfl rfl rfl rfl rfl rfl rfl rfl rfl rfl rfl rfl rfl rfl rfl rfl
      hg.marks
    serial := fun hf =>
      have hi := h.serial hf
      ⟨hi.busy, hi.lines, hi.serCtl, hi.ee, hi.phy⟩
    threshold := fun hr => h.threshold ⟨hr.noFault, hr.started⟩ }

/-- What is left to show of a step from a sound state: the caches keep their lengths, a block that starts is laid out
and aligned, an unfaulted one has an idle serial engine, and a running one is good. `StepRun` has the rest. -/
theorem StepRun.sound {s t : State} (hk : StepRun s t) (hs : s.Sound) (hlen : SameLen s t)
    (hstart : s.started = false → t.started = true → t.Laid ∧ t.aligned = true)
    (hserial : t.fault = none → t.SerialIdle) (hgood : t.Running → t.Good) : t.Sound := by
  have hlaid : t.started = true → t.Laid ∧ t.aligned = true := by
    intro ht
    cases h0 : s.started with
    | false => exact hstart h0 ht
    | true =>
      obtain ⟨-, hrx, htx, hst, hcf, -⟩ := hk.started h0
      exact ⟨(hs.laid h0).of_eq hk.config hrx htx hst hcf, State.aligned_of_eq hrx htx hst hcf (hs.aligned h0)⟩
  obtain ⟨hrx, htx⟩ := hlen.sized hs.rxLen hs.txLen
  exact
    { params := by rw [hk.config]; exact hs.params
      map := by rw [hk.busMap, hk.config]; exact hs.map
      memory := hk.mem hs.memory
      rxLen := hrx
      txLen := htx
      laid := fun ht => (hlaid ht).1
      aligned := fun ht => (hlaid ht).2
      marks := fun hr => (hgood hr).marks
      serial := hserial
      threshold := fun hr => (hgood hr).threshold
      counters := by rw [hk.config]; exact hk.counters hs.counters }

/-- A step after which the block is faulted, and is started only if it was, asks for nothing of a running block. -/
theorem StepRun.sound_of_fault {s t : State} (hk : StepRun s t) (hs : s.Sound) (hlen : SameLen s t)
    (hstart : s.started = false → t.started = false) (hf : t.fault ≠ none) : t.Sound :=
  hk.sound hs hlen (fun h0 ht => by rw [hstart h0] at ht; cases ht) (fun h => absurd h hf)
    fun hr => absurd hr.noFault hf

/-- An operation of the port, refused, ended or stopped by a Fatal. -/
theorem operation_sound {i : Instr} {op : Op OpResult} (ho : requestOp i = some op) {s t : State} {rest : List Input}
    (hk : StepRun s t) (hs : s.Sound) (h : runOperation op { s with agenda := rest } = .next t) : t.Sound := by
  have hs' := hs.withAgenda rest
  have hlen := request_len ho hs'.rxLen hs'.txLen
  rcases runOperation_cases h with ⟨r, hf, rfl⟩ | ⟨hf, x, u, hu, rfl⟩ | ⟨-, r, u, hu, rfl⟩
  · exact hk.sound_of_fault hs ⟨rfl, rfl, rfl⟩ id fun h => by rw [hf] at h; cases h
  · rw [hu] at hlen
    obtain ⟨hserial, hgood⟩ := request_ends ho hs' hf hu
    have hg : u.started = true → State.Good { u with results := u.results ++ [x] } :=
      fun ht => (hgood ht).1.withResults _
    exact hk.sound hs ⟨hlen.config, hlen.rx, hlen.tx⟩ (fun _ ht => ⟨(hg ht).laid, (hgood ht).2⟩)
      (fun _ => ⟨hserial.busy, hserial.lines, hserial.serCtl, hserial.ee, hserial.phy⟩) fun hr => hg hr.started
  · rw [hu] at hlen
    have hstart := request_error_started ho hu
    exact hk.sound_of_fault hs ⟨hlen.config, hlen.rx, hlen.tx⟩ hstart (takeFatal_fault_ne_none r u)

/-- A word that is no instruction: refused by a faulted block, else IllegalOp is raised. -/
theorem illegal_sound {s t : State} {rest : List Input} (hk : StepRun s t) (hs : s.Sound)
    (h : runOperation (raise .illegalOp) { s with agenda := rest } = .next t) : t.Sound := by
  rcases runOperation_cases h with ⟨r, hf, rfl⟩ | ⟨-, x, u, hu, -⟩ | ⟨-, r, u, hu, rfl⟩
  · exact hk.sound_of_fault hs ⟨rfl, rfl, rfl⟩ id fun h => by rw [hf] at h; cases h
  · cases hu
  · cases hu
    exact hk.sound_of_fault hs ⟨rfl, rfl, rfl⟩ id (takeFatal_fault_ne_none _ _)

/-- A device move touches neither the command words nor the serial lines, whether or not the block is started. -/
theorem move_sound {s t : State} {m : DeviceMove} {rest : List Input} (hk : StepRun s t) (hs : s.Sound)
    (h : runDevice (deviceMove m) { s with agenda := rest } = .next t) : t.Sound := by
  have hs' := hs.withAgenda rest
  obtain ⟨-, hm⟩ := runDevice_moved h
  have hf := hm.frame
  have hfault : t.fault = s.fault := by rw [hf]
  have hstarted : t.started = s.started := by rw [hf]
  refine hk.sound hs ⟨by rw [hf], by rw [hf], by rw [hf]⟩ (fun h0 ht => ?_) (fun ht => ?_) fun hr => ?_
  · rw [hstarted, h0] at ht; cases ht
  · have hi := hs.serial (hfault.symm.trans ht)
    exact ⟨by rw [hf]; exact hi.busy, by rw [hf]; exact hi.lines, hm.serCtl.trans hi.serCtl, hm.ee.trans hi.ee,
      hm.phy.trans hi.phy⟩
  · exact hm.good (hs'.good ⟨hfault.symm.trans hr.noFault, hstarted.symm.trans hr.started⟩)

end Sys2Proof.Machine

/-! ### The statements -/

namespace Sys2Proof.Proofs

open Sys2Proof Sys2Proof.Machine

/-- Settles O1: each constructor has its own round trip. -/
theorem decodeOfEncode : Obligations.DecodeOfEncode := fun k i hk hi => decode_encode i k hk hi

/-- Settles O19: every kind of step keeps a sound state sound. -/
theorem soundnessIsKept : Obligations.SoundnessIsKept := by
  intro s t hs h
  have hk := step_run h
  rcases step_cases s with ⟨-, hx⟩ | ⟨w, p, rest, i, op, -, -, ho, hx⟩ | ⟨w, p, rest, r, -, -, hx⟩ | ⟨m, rest, -, hx⟩ <;>
    rw [hx] at h
  · cases h; exact hs
  · exact operation_sound ho hk hs h
  · exact illegal_sound hk hs h
  · exact move_sound hk hs h

/-- Settles O14: it is part of what every step keeps. -/
theorem constantsOfARun : Obligations.ConstantsOfARun := by
  intro s t h
  have hk := step_run h
  exact ⟨hk.config, hk.pciBus, hk.busMap, fun hs => (hk.started hs).2, hk.eeWidth⟩

/-- Settles O5: the SCB_CMD decoders are the chains of the statement, a TX command is read by its OP field. -/
theorem deviceCommandCodes : Obligations.DeviceCommandCodes :=
  ⟨rfl, fun _ _ => rfl, fun _ _ => rfl, decodeTxCommand_eq⟩

/-- Settles O6: a step with no input, and a step with a request that decodes. -/
theorem stepRunsTheRequestedOperation : Obligations.StepRunsTheRequestedOperation :=
  ⟨fun _ h => step_empty h, fun _ _ _ _ _ h hd => step_request h hd⟩

/-- Settles O21: the block has not started, and every other part is a check of the power-on values. -/
theorem powerOnIsSound : Obligations.PowerOnIsSound where
  params := by decide
  map := by decide
  memory := by decide
  rxLen := rfl
  txLen := rfl
  laid h := nomatch h
  aligned h := nomatch h
  marks h := nomatch h.started
  serial _ := ⟨rfl, rfl, rfl, rfl, rfl⟩
  threshold h := nomatch h.started
  counters := by decide

end Sys2Proof.Proofs
end

section
/-! SUPPORT. The statements of the state family: what a fault, the start-up mark, the outputs and the flags allow; what
the device and the start-up sequence write. -/

namespace Sys2Proof.Machine

/-! ### The start-up mark -/

/-- An operation that starts the block is a `reset` that has returned Ok. -/
theorem operation_starts {i : Instr} {op : Op OpResult} (ho : requestOp i = some op) {s t : State}
    (h : runOperation op s = .next t) (hs : s.started = false) (ht : t.started = true) :
    i = .reset ∧ t.fault = none ∧ t.results = s.results ++ [.ok] := by
  rcases runOperation_cases h with ⟨r, -, rfl⟩ | ⟨hf, x, u, hu, rfl⟩ | ⟨-, r, u, hu, rfl⟩
  · exact absurd (hs.symm.trans ht) Bool.false_ne_true
  · by_cases hi : i = .reset
    · subst hi; cases ho
      rcases resetOp_cases s with ⟨-, h1⟩ | ⟨-, -, h1⟩ | ⟨f, link, v, -, -, hb, h1⟩ | ⟨f, e, v, -, -, -, h1⟩ <;>
        rw [h1] at hu <;> cases hu
      · exact absurd (hs.symm.trans ht) Bool.false_ne_true
      · have hk := boot_prefix f s
        rw [hb] at hk
        exact ⟨rfl, hk.fault.trans hf, by rw [← hk.results]; rfl⟩
    · rw [request_started ho hi hs] at hu
      cases hu
  · exact absurd ((request_error_started ho hu hs).symm.trans ht) Bool.false_ne_true

/-! ### The interrupt flags -/

/-- A flag that is set was set before: `f_fr`, `f_rnr` and `f_swi` (R30). -/
structure FlagsKept (s t : State) : Prop where
  fFr : t.fFr = true → s.fFr = true
  fRnr : t.fRnr = true → s.fRnr = true
  fSwi : t.fSwi = true → s.fSwi = true

theorem FlagsKept.refl (s : State) : FlagsKept s s := ⟨id, id, id⟩

theorem BootKept.flags {s t : State} (h : BootKept s t) : FlagsKept s t := ⟨h.fFr, h.fRnr, h.fSwi⟩

/-- Every operation but the hard phase keeps the flags, wherever it ends. -/
theorem request_flags {i : Instr} {op : Op OpResult} (ho : requestOp i = some op) (hi : i ≠ .onInterrupt) (s : State) :
    FlagsKept s (endState (op s)) := by
  by_cases hr : i = .reset
  · subst hr; cases ho
    rcases resetOp_cases s with ⟨-, h⟩ | ⟨-, -, h⟩ | ⟨f, link, u, -, -, hu, h⟩ | ⟨f, e, u, -, -, hu, h⟩ <;> rw [h]
    · exact FlagsKept.refl s
    · exact FlagsKept.refl s
    · have hb := boot_prefix f s
      rw [hu] at hb
      exact ⟨hb.fFr, hb.fRnr, hb.fSwi⟩
    · have hb := boot_prefix f s
      rw [hu] at hb
      exact hb.flags
  · exact (kept_request ho hi hr s).boot.flags

theorem runOperation_flags {op : Op OpResult} {s t : State} (hk : FlagsKept s (endState (op s)))
    (h : runOperation op s = .next t) : FlagsKept s t := by
  rcases runOperation_cases h with ⟨r, -, rfl⟩ | ⟨-, x, u, hu, rfl⟩ | ⟨-, r, u, hu, rfl⟩
  · exact ⟨id, id, id⟩
  · rw [hu] at hk; exact ⟨hk.fFr, hk.fRnr, hk.fSwi⟩
  · rw [hu] at hk; exact ⟨hk.fFr, hk.fRnr, hk.fSwi⟩

/-- A step whose input is not the hard phase keeps the flags. -/
theorem step_flags {s t : State} (h : step s = .next t)
    (hn : ∀ w p rest, s.agenda = .request w p :: rest → decodeOpw w p ≠ .ok .onInterrupt) : FlagsKept s t := by
  rcases step_cases s with ⟨-, hx⟩ | ⟨w, p, rest, i, op, ha, hd, ho, hx⟩ | ⟨w, p, rest, r, -, -, hx⟩ | ⟨m, rest, -, hx⟩ <;>
    rw [hx] at h
  · cases h; exact FlagsKept.refl s
  · have hi : i ≠ .onInterrupt := fun hi => hn w p rest ha (hi ▸ hd)
    have hk := runOperation_flags (request_flags ho hi _) h
    exact ⟨hk.fFr, hk.fRnr, hk.fSwi⟩
  · have hk := runOperation_flags (kept_raise .illegalOp _).boot.flags h
    exact ⟨hk.fFr, hk.fRnr, hk.fSwi⟩
  · obtain ⟨-, hm⟩ := runDevice_moved h
    rw [hm.frame]
    exact ⟨id, id, id⟩

end Sys2Proof.Machine
end

section
/-! SUPPORT. The steps of the CU and of the RU: the device after them, and what they write where they find a descriptor,
one of the other ring, or none. -/

namespace Sys2Proof.Machine

/-! ### Ring slots as addresses -/

theorem add_offStatus (a : BusAddr) : a + offStatus = a := BitVec.add_zero a

section
variable {s : State} (h : s.Laid)
include h

theorem State.Laid.rxSlot_mem {k : Nat} (hk : k < s.config.nRx) : s.rxSlot k ∈ s.rxAddr := by
  rw [State.rxSlot, List.getD_eq_getElem _ _ (by rw [h.rxLen]; exact hk)]
  exact List.getElem_mem _

theorem State.Laid.txSlot_mem {k : Nat} (hk : k < s.config.nTx) : s.txSlot k ∈ s.txAddr := by
  rw [State.txSlot, List.getD_eq_getElem _ _ (by rw [h.txLen]; exact hk)]
  exact List.getElem_mem _

theorem State.Laid.rxSlot_ne_txSlot {i j : Nat} (hi : i < s.config.nRx) (hj : j < s.config.nTx) :
    s.rxSlot i ≠ s.txSlot j := by
  intro he
  have hd := h.rx_tx hi hj
  have hsize := descriptorSize_ge s.config
  rw [he] at hd
  omega

theorem State.Laid.rxSlot_notMem_tx {k : Nat} (hk : k < s.config.nRx) : s.rxSlot k ∉ s.txAddr := by
  intro hm
  obtain ⟨j, hj, he⟩ := exists_txSlot h hm
  exact h.rxSlot_ne_txSlot hk hj he

theorem State.Laid.txSlot_notMem_rx {k : Nat} (hk : k < s.config.nTx) : s.txSlot k ∉ s.rxAddr := by
  intro hm
  obtain ⟨j, hj, he⟩ := exists_rxSlot h hm
  exact h.rxSlot_ne_txSlot hj hk he.symm

end

/-! ### Writes that take place only where the device may write -/

section
variable {s : State} {a : BusAddr} {bs : List Byte}

@[simp] theorem storeOwned_dev : (s.storeOwned a bs).dev = s.dev := by rw [storeOwned_frame]

@[simp] theorem storeOwned_deviceSpans : (s.storeOwned a bs).deviceSpans = s.deviceSpans := by
  rw [storeOwned_frame]; rfl

@[simp] theorem storeOwned_deviceMayWrite (b : BusAddr) (n : Nat) :
    (s.storeOwned a bs).deviceMayWrite b n = s.deviceMayWrite b n := by rw [storeOwned_frame]; rfl

theorem byteAt_storeOwned_other {x : BusAddr} (h : inSpan a bs.length x = false) :
    (s.storeOwned a bs).byteAt x = s.byteAt x := by
  unfold State.storeOwned
  split
  · exact byteAt_store_other h
  · rfl

theorem half_storeOwned_same {v : Half} (h : s.deviceMayWrite a 2 = true) :
    (s.storeOwned a (leBytes 2 v.toNat)).half a = v := by
  rw [storeOwned_pos (by rwa [length_leBytes]), half_store_same]

theorem changesOnly_status (v : Half) :
    s.ChangesOnly (s.store .device (a + offStatus) (leBytes 2 v.toNat)) [(a, 2)] := fun x hx => by
  have := hx (a, 2) (List.mem_singleton.mpr rfl)
  exact byteAt_store_other (by rwa [add_offStatus, length_leBytes])

theorem mem_storeOwned_neg {n : Nat} (hn : bs.length = n) (h : s.deviceMayWrite a n = false) :
    (s.storeOwned a bs).mem = s.mem := by
  rw [storeOwned_neg (by rwa [hn])]

/-- Where nothing of a span belongs to the device, nothing is written (an empty sequence changes no byte). -/
theorem mem_storeOwned_apart (h : ∀ r ∈ s.deviceSpans, Apart r.1 r.2 a bs.length) : (s.storeOwned a bs).mem = s.mem := by
  unfold State.storeOwned
  split
  case isFalse => rfl
  case isTrue hw =>
    cases bs with
    | nil => rfl
    | cons b bs =>
      have hin := inSpan_self (a := a) (Nat.zero_lt_succ bs.length)
      obtain ⟨r, hr, hx⟩ := deviceMayWrite_span hw hin
      rw [h r hr a hin] at hx
      cases hx

end

/-- Of a TX descriptor the device writes the status only: the rest lies apart from its spans (R50). -/
theorem deviceSpans_apart_txRest {s : State} (h : s.Laid) {i : Nat} (hi : i < s.config.nTx) {k : BusAddr} {n : Nat}
    (h2 : 2 ≤ k.toNat) (hk : k.toNat + n ≤ descriptorSize s.config) {r : BusAddr × Nat} (hr : r ∈ s.deviceSpans) :
    Apart r.1 r.2 (s.txSlot i + k) n := by
  have hD := descriptorSize_ge s.config
  have hB := h.tx_fits hi
  simp only [State.deviceSpans, List.mem_append, List.mem_flatMap, List.mem_map, List.mem_cons, List.not_mem_nil,
    or_false] at hr
  rcases hr with (⟨a, ha, hr⟩ | ⟨a, ha, rfl⟩) | hr
  · obtain ⟨j, hj, rfl⟩ := exists_rxSlot h ha
    have hA := h.rx_fits hj
    have hd := h.rx_tx hj hi
    rcases hr with rfl | rfl | rfl <;> refine apart_in hA hB hd ?_ hk <;> simp <;> omega
  · obtain ⟨j, hj, rfl⟩ := exists_txSlot h ha
    have hA := h.tx_fits hj
    by_cases hij : j = i
    · subst hij
      refine apart_same hA ?_ hk ?_ <;> simp <;> omega
    · have hd := h.tx_tx hj hi hij
      refine apart_in hA hB hd ?_ hk
      simp; omega
  · rcases hr with rfl | rfl
    · exact apart_whole h.stats_fits hB (h.tx_stats hi).symm hk
    · exact apart_whole h.cfg_fits hB (h.tx_cfg hi).symm hk

/-! ### The CU -/

/-- The device after a command the CU has executed: idle at the mark, else at the link (R262 move 2). -/
def Device.cuEnded (d : Device) (el : Bool) (link : Word) : Device :=
  if el then { d with cuCode := codeIdle, scbIsr := d.scbIsr ||| causeCna } else { d with cuFetch := link }

/-- The read of a descriptor's link, which takes place without the mark only. -/
def linkReads (el : Bool) (a : BusAddr) : List BusEvent := if el then [] else [.memRead .device (a + offLink) 4]

theorem cuFinish_ended (s : State) (there : Bool) (a : BusAddr) (el : Bool) : cuFinish there a el s = .ok () { s with
    events := linkReads el a ++ s.events
    dev := s.dev.cuEnded el (if there then s.word (a + offLink) else Config.absentField s.events.length) } := by
  cases el <;> rfl

theorem runDevice_fault {op : Op Unit} {s t : State} {f : Fault} (ho : op s = .error (.fault f) t) :
    runDevice op s = .fault f := by rw [runDevice, ho]

/-- An active CU executes a body that ends at the place it has come to. -/
theorem runDevice_cuExecute {s t : State} {body : Place → BusAddr → Op Unit} (ha : s.dev.unitState .cu = .active)
    (hr : s.inRegions s.dev.cuFetch = true) (hb : body (s.placeOf .cu s.dev.cuFetch) s.dev.cuFetch s = .ok () t) :
    runDevice (cuExecute body) s = .next t :=
  runDevice_ok (by rw [cuExecute_apply, if_pos ha, if_neg (placeOf_ne_outside hr), hb])

theorem runDevice_cuExecute_inactive {s : State} {body : Place → BusAddr → Op Unit} (ha : s.dev.unitState .cu ≠ .active) :
    runDevice (cuExecute body) s = .next s :=
  runDevice_ok (by rw [cuExecute_apply, if_neg ha])

theorem runDevice_cuExecute_outside {s : State} {body : Place → BusAddr → Op Unit} (hw : s.config.wf = true)
    (ha : s.dev.unitState .cu = .active) (hr : s.inRegions s.dev.cuFetch = false) :
    runDevice (cuExecute body) s = .fault .outsideRegions := by
  obtain ⟨-, -, -, -, -, -, hl⟩ := Config.wf_facts hw
  exact runDevice_fault ((cuExecute_apply _ _).trans ((if_pos ha).trans (if_pos (placeOf_outside hl hr))))

section
variable {s : State} {p : Place} {a : BusAddr} {el : Bool}

/-- TX at a descriptor of either ring: the bytes of the buffer, and free ones beyond it; then the drawn status. -/
theorem cuTransmit_descriptor (hp : p.isDescriptor = true) (hm : s.deviceMayWrite (a + offStatus) 2 = true)
    (hA : a.toNat + 12 ≤ 2 ^ 32) {n : Nat} (hn : byteCount
      (if p == .own then s.half (a + offByteCount) else (Config.absentField s.events.length).setWidth 16) = n) :
    ∃ (t : State) (beyond : List Byte), cuTransmit el p a s = .ok () t ∧ beyond.length = n - s.config.bufSize ∧
      t = { s with
        mem := t.mem, events := t.events
        dev := { s.dev with
          wire := s.dev.wire ++ [s.mem.readBytes (a + offBuffer) (min n s.config.bufSize) ++ beyond] }.cuEnded el
            (s.word (a + offLink)) } ∧
      t.half (a + offStatus) = completed s.dev.cuDraw ∧ s.ChangesOnly t [(a, 2)] ∧
      t.events = linkReads el a ++ .memWrite .device (a + offStatus) (leBytes 2 (completed s.dev.cuDraw).toNat) ::
        .memRead .device (a + offBuffer) (min n s.config.bufSize) :: .memRead .device (a + offByteCount) 2 :: s.events := by
  let beyond : List Byte := (List.range (n - min n s.config.bufSize)).map (Config.absentByte (s.events.length + 1))
  let v : State := { s with
    events := .memRead .device (a + offBuffer) (min n s.config.bufSize) :: .memRead .device (a + offByteCount) 2 :: s.events
    dev := { s.dev with
      wire := s.dev.wire ++ [s.mem.readBytes (a + offBuffer) (min n s.config.bufSize) ++ beyond] } }
  let u := v.store .device (a + offStatus) (leBytes 2 (completed s.dev.cuDraw).toNat)
  have hv : v.storeOwned (a + offStatus) (leBytes 2 (completed s.dev.cuDraw).toNat) = u :=
    storeOwned_pos (s := v) (by rwa [length_leBytes])
  have hlink : u.word (a + offLink) = s.word (a + offLink) :=
    word_store_off (s := v) (W := 12) hA (by simp) (by simp) (by simp)
  have hx : cuTransmit el p a s = .ok () { u with
      events := linkReads el a ++ u.events, dev := u.dev.cuEnded el (s.word (a + offLink)) } := by
    rw [cuTransmit_apply]
    simp only [hn, hp, if_true]
    rw [hv, cuFinish_ended, if_pos rfl, hlink]
  refine ⟨_, beyond, hx, ?_, rfl, half_store_same (s := v) (w := .device) _, changesOnly_status (s := v) _, rfl⟩
  simp only [beyond, List.length_map, List.length_range]
  omega

/-- NOP at a descriptor of either ring: the status it has, complete. -/
theorem cuNop_descriptor (hp : p.isDescriptor = true) (hm : s.deviceMayWrite (a + offStatus) 2 = true)
    (hA : a.toNat + 12 ≤ 2 ^ 32) :
    ∃ t : State, cuNop el p a s = .ok () t ∧
      t = { s with mem := t.mem, events := t.events, dev := s.dev.cuEnded el (s.word (a + offLink)) } ∧
      t.half (a + offStatus) = completed (s.half (a + offStatus)) ∧ s.ChangesOnly t [(a, 2)] ∧
      t.events = linkReads el a ++
        .memWrite .device (a + offStatus) (leBytes 2 (completed (s.half (a + offStatus))).toNat) ::
        .memRead .device (a + offStatus) 2 :: s.events := by
  let v := s.event (.memRead .device (a + offStatus) 2)
  let u := v.store .device (a + offStatus) (leBytes 2 (completed (s.half (a + offStatus))).toNat)
  have hv : v.storeOwned (a + offStatus) (leBytes 2 (completed (s.half (a + offStatus))).toNat) = u :=
    storeOwned_pos (s := v) (by rwa [length_leBytes])
  have hlink : u.word (a + offLink) = s.word (a + offLink) :=
    word_store_off (s := v) (W := 12) hA (by simp) (by simp) (by simp)
  have hx : cuNop el p a s = .ok () { u with
      events := linkReads el a ++ u.events, dev := u.dev.cuEnded el (s.word (a + offLink)) } := by
    rw [cuNop_apply]
    simp only [hp, if_true]
    rw [hv, cuFinish_ended, if_pos rfl, hlink]
  refine ⟨_, hx, rfl, half_store_same (s := v) (w := .device) _, changesOnly_status (s := v) _, rfl⟩

/-- What a completed status leaves where the device may write it, and elsewhere. -/
theorem storeOwned_status (w : Half) :
    if s.deviceMayWrite a 2
      then (s.storeOwned (a + offStatus) (leBytes 2 (completed w).toNat)).half a = completed w ∧
        s.ChangesOnly (s.storeOwned (a + offStatus) (leBytes 2 (completed w).toNat)) [(a, 2)]
      else (s.storeOwned (a + offStatus) (leBytes 2 (completed w).toNat)).mem = s.mem := by
  split
  case isTrue h =>
    rw [← add_offStatus a] at h
    rw [storeOwned_pos (by rwa [length_leBytes])]
    exact ⟨(congrArg _ (add_offStatus a)).symm.trans (half_store_same _), changesOnly_status _⟩
  case isFalse h =>
    rw [← add_offStatus a, Bool.not_eq_true] at h
    exact mem_storeOwned_neg (length_leBytes 2 _) h

theorem statusC_completed (w : Half) : statusC (completed w) = true := by
  simp only [statusC, completed]
  rw [BitVec.getLsbD_or, show (0x8000 : Half).getLsbD 15 = true from rfl, Bool.or_true]

theorem byteCount_lt (w : Half) : byteCount w < 2 ^ 14 := BitVec.isLt _

/-- TX where there is no descriptor: a free frame, a free link. -/
theorem cuTransmit_elsewhere (hp : p.isDescriptor = false) : ∃ (t : State) (link : Word) (frame : Frame),
    cuTransmit el p a s = .ok () t ∧ frame.length < 2 ^ 14 ∧
      t = { s with
        mem := t.mem, events := t.events
        dev := { s.dev with wire := s.dev.wire ++ [frame] }.cuEnded el link } ∧
      if s.deviceMayWrite a 2
        then t.half a = completed s.dev.cuDraw ∧ s.ChangesOnly t [(a, 2)]
        else t.mem = s.mem := by
  generalize hn : byteCount
    (if p == .own then s.half (a + offByteCount) else (Config.absentField s.events.length).setWidth 16) = n
  let frame : Frame := s.mem.readBytes (a + offBuffer) 0 ++
    (List.range (n - 0)).map (Config.absentByte (s.events.length + 1))
  let v : State := { s with
    events := .memRead .device (a + offBuffer) 0 :: .memRead .device (a + offByteCount) 2 :: s.events
    dev := { s.dev with wire := s.dev.wire ++ [frame] } }
  let u := v.storeOwned (a + offStatus) (leBytes 2 (completed s.dev.cuDraw).toNat)
  let link := Config.absentField u.events.length
  have hx : cuTransmit el p a s = .ok () { u with
      events := linkReads el a ++ u.events, dev := u.dev.cuEnded el link } := by
    rw [cuTransmit_apply]
    simp only [hn, hp]
    exact cuFinish_ended u false a el
  refine ⟨_, link, frame, hx, ?_, ?_, storeOwned_status (s := v) s.dev.cuDraw⟩
  · simp only [frame, Memory.readBytes, List.nil_append, List.length_map, List.length_range]
    rw [← hn]; exact byteCount_lt _
  · rw [show u = { v with mem := u.mem, events := u.events } from storeOwned_frame _]

/-- NOP where there is no descriptor: a free status, completed, and a free link. -/
theorem cuNop_elsewhere (hp : p.isDescriptor = false) : ∃ (t : State) (link : Word),
    cuNop el p a s = .ok () t ∧ t = { s with mem := t.mem, events := t.events, dev := s.dev.cuEnded el link } ∧
      if s.deviceMayWrite a 2 then statusC (t.half a) = true ∧ s.ChangesOnly t [(a, 2)] else t.mem = s.mem := by
  let v := s.event (.memRead .device (a + offStatus) 2)
  let st : Half := (Config.absentField s.events.length).setWidth 16
  let u := v.storeOwned (a + offStatus) (leBytes 2 (completed st).toNat)
  let link := Config.absentField u.events.length
  have hx : cuNop el p a s = .ok () { u with
      events := linkReads el a ++ u.events, dev := u.dev.cuEnded el link } := by
    rw [cuNop_apply]
    simp only [hp]
    exact cuFinish_ended u false a el
  refine ⟨_, link, hx, ?_, ?_⟩
  · rw [show u = { v with mem := u.mem, events := u.events } from storeOwned_frame _]; rfl
  · have hs := storeOwned_status (s := v) (a := a) st
    by_cases h : s.deviceMayWrite a 2 = true
    · rw [if_pos (show v.deviceMayWrite a 2 = true from h)] at hs
      rw [if_pos h]
      exact ⟨(congrArg statusC hs.1).trans (statusC_completed st), hs.2⟩
    · rw [if_neg (show ¬ v.deviceMayWrite a 2 = true from h)] at hs
      rw [if_neg h]
      exact hs

end

end Sys2Proof.Machine
end

section
/-! SUPPORT. The RU's step: what it stores in a receive descriptor, in a TX descriptor, and elsewhere. -/

namespace Sys2Proof.Machine

/-- The device after an RU step: FR, and no resources at the mark, else at the link (R262 move 3). -/
def Device.ruEnded (d : Device) (el : Bool) (link : Word) : Device :=
  if el then { d with ruCode := codeNoResources, scbIsr := d.scbIsr ||| causeFr ||| causeRnr }
  else { d with ruFill := link, scbIsr := d.scbIsr ||| causeFr }

theorem ruFinish_ended (s : State) (there : Bool) (a : BusAddr) {el : Bool} (hel : commandEl
      (if there then s.half (a + offCommand) else (Config.absentField s.events.length).setWidth 16) = el) :
    ruFinish there a s = .ok () { s with
      events := linkReads el a ++ .memRead .device (a + offCommand) 2 :: s.events
      dev := s.dev.ruEnded el (if there then s.word (a + offLink) else Config.absentField (s.events.length + 1)) } := by
  rw [ruFinish_apply]
  simp only [hel]
  cases el <;> rfl

/-- A ready RU fills what it finds at its fill address, unless that is outside the regions. -/
theorem ruStepMove_apply (s : State) (frame : Frame) (status : Half) : ruStepMove frame status s =
    if s.dev.unitState .ru = .ready then
      if s.placeOf .ru s.dev.ruFill = .outside then .error (.fault .outsideRegions) s
      else ruFillDescriptor (s.placeOf .ru s.dev.ruFill) s.dev.ruFill frame status s
    else .ok () s := by
  unfold ruStepMove
  simp only [bind_apply, get_apply, ite_apply', assume_apply, pure_apply]
  refine ite_congr rfl (fun _ => ?_) fun _ => rfl
  by_cases h : s.placeOf .ru s.dev.ruFill = .outside <;> simp [h]

section
variable {s t : State} {frame : Frame} {status : Half} {rest : List Input}
  (h : s.agenda = .device (.ruStep frame status) :: rest) (hr : s.dev.unitState .ru = .ready)
include h hr

theorem step_ruStep_outside (hw : s.config.wf = true) (ho : s.inRegions s.dev.ruFill = false) :
    step s = .fault .outsideRegions := by
  obtain ⟨-, -, -, -, -, -, hl⟩ := Config.wf_facts hw
  have hp := placeOf_outside (e := .ru) hl ho
  rw [step_device h]
  exact runDevice_fault ((ruStepMove_apply _ _ _).trans ((if_pos hr).trans (if_pos hp)))

theorem step_ruStep_inside (hi : s.inRegions s.dev.ruFill = true)
    (hx : ruFillDescriptor (s.placeOf .ru s.dev.ruFill) s.dev.ruFill frame status { s with agenda := rest } = .ok () t) :
    step s = .next t := by
  have hp := placeOf_ne_outside (e := .ru) hi
  rw [step_device h]
  exact runDevice_ok ((ruStepMove_apply _ _ _).trans ((if_pos hr).trans ((if_neg hp).trans hx)))

end

/-- The state when an RU step has written what it may write at `a`: buffer, length, status (R75). -/
def State.ruFilled (s : State) (a : BusAddr) (bytes : List Byte) (length : Nat) (status : Half) : State :=
  (((s.event (.memRead .device (a + offCapacity) 2)).storeOwned (a + offBuffer) bytes).storeOwned
    (a + offReceivedLength) (leBytes 2 (lengthWord length).toNat)).storeOwned
    (a + offStatus) (leBytes 2 (completed status).toNat)

/-- The capacity the RU finds: that of a receive descriptor, else a free one. -/
def State.foundCapacity (s : State) (p : Place) (a : BusAddr) : Nat :=
  capacityOf (if p == .own then s.half (a + offCapacity) else (Config.absentField s.events.length).setWidth 16)

/-- The part of a frame that the RU stores under a capacity. -/
def State.storedBytes (s : State) (capacity : Nat) (frame : Frame) : List Byte :=
  frame.take (min capacity s.config.bufSize)

theorem length_storedBytes (s : State) (capacity : Nat) (frame : Frame) :
    (s.storedBytes capacity frame).length ≤ s.config.bufSize ∧ (s.storedBytes capacity frame).length ≤ frame.length :=
  ⟨(List.length_take_le _ _).trans (Nat.min_le_right _ _), List.length_take_le' _ _⟩

theorem ruFillDescriptor_filled (s : State) (p : Place) (a : BusAddr) (frame : Frame) (status : Half) :
    ruFillDescriptor p a frame status s =
      ruFinish p.isDescriptor a (s.ruFilled a (s.storedBytes (s.foundCapacity p a) frame)
        (reportedLength s (s.foundCapacity p a) frame.length (s.storedBytes (s.foundCapacity p a) frame).length)
        status) := rfl

theorem frame_withDevice {s u : State} (h : u = { s with mem := u.mem, events := u.events }) (ev : List BusEvent)
    (d : Device) : { u with events := ev, dev := d } = { s with mem := u.mem, events := ev, dev := d } := by
  rw [h]

section
variable {s u : State} {a : BusAddr} {bytes : List Byte} {length : Nat} {status : Half}
  (hu : s.ruFilled a bytes length status = u)
include hu

theorem ruFilled_dev : u.dev = s.dev := by
  simp only [← hu, State.ruFilled, storeOwned_dev, event_dev]

theorem ruFilled_frame : u = { s with mem := u.mem, events := u.events } := by
  rw [← hu, State.ruFilled, storeOwned_frame, storeOwned_frame (a := a + offReceivedLength),
    storeOwned_frame (a := a + offBuffer)]
  rfl

theorem ruFilled_changes :
    s.ChangesOnly u [(a, 2), (a + offReceivedLength, 2), (a + offBuffer, bytes.length)] := fun x hx => by
  have h1 : inSpan (a + offStatus) 2 x = false := by rw [add_offStatus]; exact hx (a, 2) (by simp)
  have h2 : inSpan (a + offReceivedLength) 2 x = false := hx (a + offReceivedLength, 2) (by simp)
  have h3 : inSpan (a + offBuffer) bytes.length x = false := hx (a + offBuffer, bytes.length) (by simp)
  rw [← hu, State.ruFilled, byteAt_storeOwned_other (by rwa [length_leBytes]),
    byteAt_storeOwned_other (by rwa [length_leBytes]), byteAt_storeOwned_other h3, byteAt_event]

theorem ruFilled_status (hm : s.deviceMayWrite a 2 = true) : u.half a = completed status := by
  rw [← hu, State.ruFilled, add_offStatus, half_storeOwned_same]
  rw [storeOwned_deviceMayWrite, storeOwned_deviceMayWrite]
  exact hm

/-- In a receive descriptor all three are written, in this order. -/
theorem ruFilled_own (hm : a ∈ s.rxAddr) (hb : bytes.length ≤ s.config.bufSize) :
    u = (((s.event (.memRead .device (a + offCapacity) 2)).store .device (a + offBuffer) bytes).store .device
      (a + offReceivedLength) (leBytes 2 (lengthWord length).toNat)).store .device
      (a + offStatus) (leBytes 2 (completed status).toNat) := by
  have h2 : s.deviceMayWrite (a + offReceivedLength) 2 = true := deviceMayWrite_rxLength hm
  have h3 : s.deviceMayWrite (a + offStatus) 2 = true := deviceMayWrite_rxStatus hm
  rw [← hu, State.ruFilled, storeOwned_pos (s := s.event _) (deviceMayWrite_rxBuffer hm hb),
    storeOwned_pos (s := (s.event _).store _ _ _) (by rwa [length_leBytes]),
    storeOwned_pos (s := ((s.event _).store _ _ _).store _ _ _) (by rwa [length_leBytes])]

/-- The fields of a receive descriptor that was filled. -/
theorem ruFilled_own_fields (hm : a ∈ s.rxAddr) (hb : bytes.length ≤ s.config.bufSize)
    (hA : a.toNat + (12 + s.config.bufSize) ≤ 2 ^ 32) :
    u.mem.readBytes (a + offBuffer) bytes.length = bytes ∧ u.half (a + offReceivedLength) = lengthWord length ∧
      u.half (a + offStatus) = completed status ∧ u.half (a + offCommand) = s.half (a + offCommand) ∧
      u.word (a + offLink) = s.word (a + offLink) := by
  rw [ruFilled_own hu hm hb]
  refine ⟨?_, ?_, half_store_same _, ?_, ?_⟩
  · rw [readBytes_store_off hA, readBytes_store_off hA, readBytes_store_same (by omega)] <;> simp <;> omega
  · rw [half_store_off hA, half_store_same] <;> simp <;> omega
  · rw [half_store_off hA, half_store_off hA, half_store_off hA, half_event] <;> simp <;> omega
  · rw [word_store_off hA, word_store_off hA, word_store_off hA, word_event] <;> simp <;> omega

end

/-- In a TX descriptor only the status is written (R50). -/
theorem ruFilled_tx {s u : State} (h : s.Laid) {k : Nat} (hk : k < s.config.nTx) {bytes : List Byte} {length : Nat}
    {status : Half} (hu : s.ruFilled (s.txSlot k) bytes length status = u) (hb : bytes.length ≤ s.config.bufSize) :
    u.mem = (s.store .device (s.txSlot k + offStatus) (leBytes 2 (completed status).toNat)).mem := by
  have hD := descriptorSize_ge s.config
  have hw : s.deviceMayWrite (s.txSlot k + offStatus) 2 = true := deviceMayWrite_txStatus (h.txSlot_mem hk)
  have h1 : ((s.event (.memRead .device (s.txSlot k + offCapacity) 2)).storeOwned (s.txSlot k + offBuffer) bytes).mem =
      s.mem := mem_storeOwned_apart (s := s.event _) fun r hr =>
    deviceSpans_apart_txRest h hk (by decide) (by rw [toNat_offBuffer]; omega) hr
  rw [← hu, State.ruFilled, storeOwned_pos, store_mem, mem_storeOwned_apart, h1]
  · rfl
  · intro r hr
    rw [storeOwned_deviceSpans] at hr
    refine deviceSpans_apart_txRest h hk (by decide) ?_ hr
    rw [length_leBytes, toNat_offReceivedLength]
    omega
  · rw [length_leBytes, storeOwned_deviceMayWrite, storeOwned_deviceMayWrite]
    exact hw

/-! ### The whole step at each place -/

section
variable (s : State) (a : BusAddr) (frame : Frame) (status : Half)

/-- The RU at a receive descriptor (R262 move 3). -/
theorem ruFillDescriptor_own (hm : a ∈ s.rxAddr) (hA : a.toNat + (12 + s.config.bufSize) ≤ 2 ^ 32) :
    let capacity := capacityOf (s.half (a + offCapacity))
    let bytes := s.storedBytes capacity frame
    let el := commandEl (s.half (a + offCommand))
    ∃ (t : State) (length : Nat), ruFillDescriptor .own a frame status s = .ok () t ∧
      (capacity ≤ s.config.bufSize ∨ frame.length ≤ s.config.bufSize → length = bytes.length) ∧
      t = { s with mem := t.mem, events := t.events, dev := s.dev.ruEnded el (s.word (a + offLink)) } ∧
      t.mem.readBytes (a + offBuffer) bytes.length = bytes ∧ t.half (a + offReceivedLength) = lengthWord length ∧
      t.half (a + offStatus) = completed status ∧
      s.ChangesOnly t [(a, 2), (a + offReceivedLength, 2), (a + offBuffer, bytes.length)] ∧
      t.events = linkReads el a ++
        .memRead .device (a + offCommand) 2 ::
        .memWrite .device (a + offStatus) (leBytes 2 (completed status).toNat) ::
        .memWrite .device (a + offReceivedLength) (leBytes 2 (lengthWord length).toNat) ::
        .memWrite .device (a + offBuffer) bytes :: .memRead .device (a + offCapacity) 2 :: s.events := by
  intro capacity bytes el
  let length := reportedLength s capacity frame.length bytes.length
  obtain ⟨u, hu⟩ : ∃ u, s.ruFilled a bytes length status = u := ⟨_, rfl⟩
  have hb := (length_storedBytes s capacity frame).1
  obtain ⟨hbuffer, hlength, hstatus, hcommand, hlink⟩ := ruFilled_own_fields hu hm hb hA
  have hrun : ruFillDescriptor .own a frame status s = ruFinish true a u :=
    (ruFillDescriptor_filled s .own a frame status).trans (congrArg _ hu)
  have hfin := ruFinish_ended u true a (congrArg commandEl hcommand)
  rw [if_pos rfl, hlink, ruFilled_dev hu, congrArg State.events (ruFilled_own hu hm hb)] at hfin
  have hchanges := ruFilled_changes hu
  exact ⟨_, length, hrun.trans hfin, fun hc => if_neg (by omega), frame_withDevice (ruFilled_frame hu) _ _, hbuffer,
    hlength, hstatus, hchanges, rfl⟩

/-- The RU at a TX descriptor (R50). -/
theorem ruFillDescriptor_tx {s : State} (h : s.Laid) {k : Nat} (hk : k < s.config.nTx) :
    ∃ t : State, ruFillDescriptor .other (s.txSlot k) frame status s = .ok () t ∧
      t = { s with mem := t.mem, events := t.events, dev := s.dev.ruEnded (commandEl (s.txCommand k)) (s.txLink k) } ∧
      t.half (s.txSlot k + offStatus) = completed status ∧ s.ChangesOnly t [(s.txSlot k, 2)] := by
  let bytes := s.storedBytes (s.foundCapacity .other (s.txSlot k)) frame
  let length := reportedLength s (s.foundCapacity .other (s.txSlot k)) frame.length bytes.length
  obtain ⟨u, hu⟩ : ∃ u, s.ruFilled (s.txSlot k) bytes length status = u := ⟨_, rfl⟩
  have hA := h.tx_header hk
  have hmem := ruFilled_tx h hk hu (length_storedBytes s _ frame).1
  have hrun : ruFillDescriptor .other (s.txSlot k) frame status s = ruFinish true (s.txSlot k) u :=
    (ruFillDescriptor_filled s .other (s.txSlot k) frame status).trans (congrArg _ hu)
  have hcommand : u.half (s.txSlot k + offCommand) = s.txCommand k := by
    rw [State.half, hmem]
    exact half_store_off (s := s) (W := 12) hA (by simp) (by simp) (by simp)
  have hlink : u.word (s.txSlot k + offLink) = s.txLink k := by
    rw [State.word, hmem]
    exact word_store_off (s := s) (W := 12) hA (by simp) (by simp) (by simp)
  have hfin := ruFinish_ended u true (s.txSlot k) (congrArg commandEl hcommand)
  rw [if_pos rfl, hlink, ruFilled_dev hu] at hfin
  refine ⟨_, hrun.trans hfin, frame_withDevice (ruFilled_frame hu) _ _, ?_, fun x hx => ?_⟩
  · show State.half u _ = _
    rw [State.half, hmem]
    exact half_store_same _
  · show u.mem.read x.toNat = _
    rw [hmem]
    exact changesOnly_status _ x hx

/-- The RU where there is no descriptor: a free mark and a free link. -/
theorem ruFillDescriptor_elsewhere {p : Place} (hp : p.isDescriptor = false) :
    ∃ (t : State) (el : Bool) (link : Word), ruFillDescriptor p a frame status s = .ok () t ∧
      t = { s with mem := t.mem, events := t.events, dev := s.dev.ruEnded el link } ∧
      (s.deviceMayWrite a 2 = true → t.half a = completed status) ∧
      s.ChangesOnly t [(a, 2), (a + offReceivedLength, 2), (a + offBuffer, frame.length)] := by
  let bytes := s.storedBytes (s.foundCapacity p a) frame
  let length := reportedLength s (s.foundCapacity p a) frame.length bytes.length
  have hlen := (length_storedBytes s (s.foundCapacity p a) frame).2
  obtain ⟨u, hu⟩ : ∃ u, s.ruFilled a bytes length status = u := ⟨_, rfl⟩
  have hrun : ruFillDescriptor p a frame status s = ruFinish p.isDescriptor a u :=
    (ruFillDescriptor_filled s p a frame status).trans (congrArg _ hu)
  have hfin := ruFinish_ended u false a rfl
  rw [ruFilled_dev hu] at hfin
  rw [hp] at hrun
  have hstatus := ruFilled_status hu
  have hchanges := ruFilled_changes hu
  refine ⟨_, _, _, hrun.trans hfin, frame_withDevice (ruFilled_frame hu) _ _, hstatus, fun x hx => hchanges x fun r hr => ?_⟩
  simp only [List.mem_cons, List.not_mem_nil, or_false] at hr
  rcases hr with rfl | rfl | rfl
  · exact hx (a, 2) (by simp)
  · exact hx (a + offReceivedLength, 2) (by simp)
  · have h3 : inSpan (a + offBuffer) frame.length x = false := hx (a + offBuffer, frame.length) (by simp)
    rw [Bool.eq_false_iff] at h3 ⊢
    exact fun hin => h3 (inSpan_mono hin hlen)

end

end Sys2Proof.Machine
end

section
/-! SUPPORT. Polls that one move of the device answers, words written and read one after another, and a dump from the
command to the magic. -/

namespace Sys2Proof.Machine

theorem bind_ok {α β : Type} {x : Op α} {f : α → Op β} {s t : State} {a : α} (h : x s = .ok a t) :
    (x >>= f) s = f a t := by rw [bind_apply, h]

/-! ### A poll that a move answers -/

/-- Reads that say no, the move that changes that, the read that sees it (R161). -/
theorem awaitLoop_answered {test : Op Bool} {r : FatalReason} {s : State} {k n : Nat} {m : DeviceMove}
    {rest : List PollEvent} {P : State → Prop} (hno : SaysNo test s)
    (hm : ∀ ev, ∃ u, deviceMove m { s with events := ev } = .ok () u ∧ P u)
    (hyes : ∀ u, P u → ∃ ev, test u = .ok true { u with events := ev }) (hk : k < n) :
    ∃ u ev, P u ∧ awaitLoop test r (List.replicate k .read ++ .move m :: .read :: rest) n s =
      .ok () { u with pollScript := rest, events := ev } := by
  obtain ⟨i, rfl⟩ : ∃ i, n = (i + 1) + k := ⟨n - k - 1, by omega⟩
  obtain ⟨ev1, h1⟩ := awaitLoop_reads (r := r) hno k (i + 1) (.move m :: .read :: rest) s.events
  obtain ⟨u, hu, hP⟩ := hm ev1
  obtain ⟨ev2, h2⟩ := hyes u hP
  exact ⟨u, ev2, hP, h1.trans ((awaitLoop_move hu).trans ((awaitLoop_read h2).trans (if_pos rfl)))⟩

/-- A command that was written is accepted, whatever was written to memory before (R160, R161). -/
theorem awaitField_answered {s : State} {cmd : EngineCommand} {a : BusAddr} {d : Device} {k n : Nat}
    {rest : List PollEvent} (hw : s.config.cmdCodes.wf = true) (h : d.noCommand cmd.engine = true)
    (hd : s.dev = d.withCommand s.config.cmdCodes cmd a) (hk : k < n) :
    ∃ ev, awaitLoop (readFieldIsNop cmd.engine) .cmdTimeout (acceptedAfter cmd.engine k rest) n s =
      .ok () { s with dev := cmd.effect a d, pollScript := rest, events := ev } := by
  have hno : SaysNo (readFieldIsNop cmd.engine) s := saysNo_field (by rw [hd]; exact noCommand_written hw)
  have hm : ∀ ev, ∃ u, deviceMove (.accept cmd.engine) { s with events := ev } = .ok () u ∧
      ∃ ev, u = { s with dev := cmd.effect a d, events := ev } := fun ev =>
    ⟨_, acceptMove_written (s := { s with events := ev }) hw hd, ev, by
      rw [← accept_written (k := s.config.cmdCodes) h, ← hd]⟩
  have hyes : ∀ u, (∃ ev, u = { s with dev := cmd.effect a d, events := ev }) →
      ∃ ev, readFieldIsNop cmd.engine u = .ok true { u with events := ev } := by
    rintro u ⟨ev, rfl⟩
    have hn := (noCommand_effect cmd a d cmd.engine).trans h
    exact ⟨_, (readFieldIsNop_apply _ _).trans (by rw [hn]; rfl)⟩
  obtain ⟨u, ev, ⟨_, rfl⟩, hx⟩ := awaitLoop_answered (r := .cmdTimeout) (rest := rest) hno hm hyes hk
  exact ⟨ev, hx⟩

/-! ### Words one after another -/

theorem add_ofNat_succ (a : BusAddr) (i : Nat) : a + BitVec.ofNat 32 (4 * (i + 1)) = a + 4 + BitVec.ofNat 32 (4 * i) := by
  rw [Nat.mul_add, Nat.add_comm, BitVec.ofNat_add, BitVec.add_assoc]
  rfl

theorem word_of_only {s t : State} {sp : List (BusAddr × Nat)} {a : BusAddr} (h : s.ChangesOnly t sp)
    (ha : ∀ r ∈ sp, Apart r.1 r.2 a 4) : t.word a = s.word a := by
  unfold State.word
  rw [Memory.readBytes_congr (by decide) fun x hx => h x fun r hr => ha r hr x hx]

theorem writeWords_ok (w : Agent) (l : List Word) (a : BusAddr) (s : State) (hA : a.toNat + 4 * l.length ≤ 2 ^ 32) :
    ∃ u : State, writeWords w a l s = .ok () u ∧ u = { s with mem := u.mem, events := u.events } ∧
      (∀ i (hi : i < l.length), u.word (a + BitVec.ofNat 32 (4 * i)) = l[i]) ∧
      s.ChangesOnly u [(a, 4 * l.length)] := by
  induction l generalizing a s with
  | nil => exact ⟨s, rfl, rfl, fun i hi => absurd hi (Nat.not_lt_zero i), fun _ _ => rfl⟩
  | cons v l ih =>
    rw [List.length_cons] at hA
    have hA4 : (a + 4).toNat + 4 * l.length ≤ 2 ^ 32 := by
      rw [BitVec.toNat_add]
      have : (4 : BusAddr).toNat = 4 := rfl
      omega
    obtain ⟨u, hx, hu, hwords, hspan⟩ := ih (a + 4) (s.store w a (leBytes 4 v.toNat)) hA4
    refine ⟨u, by rw [writeWords, bind_apply, writeWord_apply]; exact hx, hu, fun i hi => ?_, fun x hx => ?_⟩
    · cases i with
      | zero =>
        have hapart : Apart (a + 4) (4 * l.length) (a + 0) 4 :=
          apart_same (W := 4 * (l.length + 1)) hA (by simp; omega) (by simp) (by simp)
        rw [Nat.mul_zero, List.getElem_cons_zero]
        rw [word_of_only hspan (by rintro r hr; rw [List.mem_singleton.mp hr]; exact hapart), BitVec.add_zero]
        exact word_store_same v
      | succ i =>
        rw [add_ofNat_succ]
        exact hwords i (Nat.lt_of_succ_lt_succ hi)
    · have hout : inSpan a (4 * (v :: l).length) x = false := hx (a, _) (List.mem_singleton.mpr rfl)
      rw [List.length_cons] at hout
      have h1 : inSpan (a + 4) (4 * l.length) x = false := outside_sub hA (by simp; omega) hout
      have h2 : inSpan a (leBytes 4 v.toNat).length x = false := by
        rw [length_leBytes, Bool.eq_false_iff] at *
        exact fun hin => hout (inSpan_mono hin (by omega))
      rw [hspan x (by rintro r hr; rw [List.mem_singleton.mp hr]; exact h1), byteAt_store_other h2]

theorem readWords_ok (w : Agent) (n : Nat) (a : BusAddr) (s : State) :
    ∃ ev, readWords w a n s =
      .ok ((List.range n).map fun i => s.word (a + BitVec.ofNat 32 (4 * i))) { s with events := ev } := by
  induction n generalizing a s with
  | zero => exact ⟨s.events, rfl⟩
  | succ n ih =>
    obtain ⟨ev, h⟩ := ih (a + 4) (s.event (.memRead w a 4))
    refine ⟨ev, ?_⟩
    simp only [readWords, bind_apply, readWord_apply, h, pure_apply, List.range_succ_eq_map, List.map_cons, List.map_map]
    simp only [word_event, Function.comp_def, Nat.succ_eq_add_one, add_ofNat_succ, Nat.mul_zero, BitVec.add_zero]
    rfl

/-! ### A dump -/

/-- What a completed dump has left: the counters and the magic in the statistics region, and nothing else changed. -/
structure State.DumpDone (s u : State) (values : List Word) : Prop where
  frame : u = { s with
    dev := { s.dev with counters := values, dumpPending := false }, mem := u.mem, events := u.events }
  counters : u.statsCounters = values
  magic : u.word s.statsDoneAddr = s.config.dumpMagic
  only : s.ChangesOnly u [(s.statsAddr, 4 * s.config.statsWords + 4)]

theorem State.DumpDone.of_events {s u : State} {ev : List BusEvent} {values : List Word}
    (h : ({ s with events := ev } : State).DumpDone u values) : s.DumpDone u values :=
  ⟨h.frame, h.counters, h.magic, h.only⟩

/-- A scheduled dump (R262 move 6). -/
theorem dumpMove_ok {s : State} (hp : s.dev.dumpPending = true)
    (hA : s.statsAddr.toNat + (4 * s.config.statsWords + 4) ≤ 2 ^ 32) (counters : List Word) :
    ∃ u : State, dumpMove counters s = .ok () u ∧ s.DumpDone u (dumpCounters s.config counters) := by
  let values := dumpCounters s.config counters
  have hlen : values.length = s.config.statsWords := length_dumpCounters s.config counters
  let v : State := { s with dev := { s.dev with counters := values, dumpPending := false } }
  obtain ⟨u, hu, hframe, hwords, hspan⟩ := writeWords_ok .device values s.statsAddr v (by omega)
  let t := u.store .device s.statsDoneAddr (leBytes 4 s.config.dumpMagic.toNat)
  have hstart : dumpMove counters s = (writeWords .device s.statsAddr values >>= fun _ =>
      writeWord .device s.statsDoneAddr s.config.dumpMagic) v := by
    simp only [dumpMove, bind_apply, get_apply, hp, if_true, modifyDevice, modify_apply]
    rfl
  have hx : dumpMove counters s = .ok () t := hstart.trans (bind_ok hu)
  refine ⟨t, hx, ?_, List.ext_getElem ?_ fun i h1 h2 => ?_, word_store_same _, fun x hx => ?_⟩
  · show u.store _ _ _ = _
    rw [hframe]
    rfl
  · rw [State.statsCounters, List.length_map, List.length_range, hlen, show t.config = s.config by
      show u.config = _; rw [hframe]]
  · have hi : i < values.length := h2
    have hapart : Apart s.statsDoneAddr 4 (s.statsAddr + BitVec.ofNat 32 (4 * i)) 4 := by
      refine apart_same (W := 4 * s.config.statsWords + 4) hA ?_ ?_ (.inr ?_) <;>
        simp only [BitVec.toNat_ofNat] <;> omega
    rw [← hwords i hi]
    simp only [State.statsCounters, List.getElem_map, List.getElem_range]
    rw [show t.statsAddr = s.statsAddr by show u.statsAddr = _; rw [hframe]]
    exact word_store_other (by rwa [length_leBytes])
  · have hout : inSpan s.statsAddr (4 * s.config.statsWords + 4) x = false := hx (s.statsAddr, _) (List.mem_singleton.mpr rfl)
    have h1 : inSpan s.statsDoneAddr 4 x = false :=
      outside_sub hA (by rw [BitVec.toNat_ofNat]; omega) hout
    have h2 : inSpan s.statsAddr (4 * values.length) x = false := by
      rw [Bool.eq_false_iff] at hout ⊢
      exact fun hin => hout (inSpan_mono hin (by omega))
    rw [byteAt_store_other (by rwa [length_leBytes]), hspan x (by rintro r hr; rw [List.mem_singleton.mp hr]; exact h2)]
    rfl

/-- A dump to the statistics region clears `stats_done` first. -/
theorem prepareDump_ok {s : State} {a : BusAddr} (h : a = s.statsAddr) :
    prepareDump .cuDumpStatistics a s = .ok () (s.store .block s.statsDoneAddr (leBytes 4 0)) := by
  subst h
  simp only [prepareDump, bind_apply, get_apply, if_true, require_apply, beq_self_eq_true, writeWord_apply]
  rfl

/-- The command of a dump, up to the polls: `stats_done` is cleared, then the command is written (R160, R166). -/
theorem issue_dump_start {s : State} {ri : Bool} (h : s.CanIssue .cu ri) :
    ∃ ev, issue .cuDumpStatistics s.statsAddr ri s =
      (awaitLoop (readFieldIsNop .cu) .cmdTimeout s.pollScript s.config.cuPollBound >>= fun _ =>
        awaitDump .cuDumpStatistics) { s.store .block s.statsDoneAddr (leBytes 4 0) with
          dev := s.dev.withCommand s.config.cmdCodes .cuDumpStatistics s.statsAddr, events := ev } := by
  refine ⟨.portWrite (s.writePort .scbCmd) ((EngineCommand.byte s.config.cmdCodes .cuDumpStatistics).setWidth 32) ::
    .portWrite (s.writePort .scbPtr) s.statsAddr :: .memWrite .block s.statsDoneAddr (leBytes 4 0) ::
    cmdRead s.base s.config s.dev :: (if ri then [s.statusRead] else []) ++ s.events, ?_⟩
  generalize hv : ({ s with events := (if ri then [s.statusRead] else []) ++ s.events } : State).event
    (cmdRead s.base s.config s.dev) = v
  have hi := checkIdle_ok h
  have hp : prepareDump .cuDumpStatistics s.statsAddr v = .ok () (v.store .block v.statsDoneAddr (leBytes 4 0)) :=
    prepareDump_ok (by rw [← hv]; rfl)
  rw [← writeRegister_cmd s.config]
  simp only [issue, EngineCommand.engine, bind_apply, hi, readFieldIsNop_apply, show s.dev.noCommand .cu = true from h.noCommand,
    require_apply, if_true, hv, hp, get_apply, portWrite_apply, awaitDevice]
  rw [← hv]
  rfl

/-- A dump that the device accepts and completes in time (R160, R166, R45). -/
theorem issue_dump_ok {s : State} {ri : Bool} {k j : Nat} {counters : List Word} {rest : List PollEvent}
    (hw : s.config.wf = true) (hl : s.Laid) (h : s.CanIssue .cu ri)
    (hp : s.pollScript = dumpedAfter k j counters rest) (hk : k < s.config.cuPollBound)
    (hj : j < s.config.statsPollBound) :
    let values := dumpCounters s.config counters
    ∃ t : State, issue .cuDumpStatistics s.statsAddr ri s = .ok () t ∧
      t = { s with
        dev := s.dev.dumped s.statsAddr values, pollScript := rest, mem := t.mem, events := t.events } ∧
      t.statsCounters = values ∧ t.word s.statsDoneAddr = s.config.dumpMagic ∧
      s.ChangesOnly t [(s.statsAddr, 4 * s.config.statsWords + 4)] := by
  intro values
  obtain ⟨-, -, -, -, hmagic, -, -⟩ := Config.wf_facts hw
  have hA := hl.stats_fits
  obtain ⟨ev, hstart⟩ := issue_dump_start h
  obtain ⟨ev', haccept⟩ := awaitField_answered (cmd := .cuDumpStatistics) (a := s.statsAddr) (d := s.dev) (k := k)
    (s := { s.store .block s.statsDoneAddr (leBytes 4 0) with
      dev := s.dev.withCommand s.config.cmdCodes .cuDumpStatistics s.statsAddr, events := ev })
    (rest := List.replicate j .read ++ .move (.dump counters) :: .read :: rest) (Config.wf_codes hw) h.noCommand rfl hk
  generalize hv : ({ s.store .block s.statsDoneAddr (leBytes 4 0) with
      dev := EngineCommand.effect .cuDumpStatistics s.statsAddr s.dev
      pollScript := List.replicate j .read ++ .move (.dump counters) :: .read :: rest, events := ev' } : State) = v
  have hrun : issue .cuDumpStatistics s.statsAddr ri s =
      awaitLoop readStatsDone .statsTimeout (List.replicate j .read ++ .move (.dump counters) :: .read :: rest)
        s.config.statsPollBound v := by
    rw [hstart, hp]
    refine (bind_ok haccept).trans ?_
    rw [← hv]
    rfl
  have hno : SaysNo readStatsDone v := by
    refine saysNo_statsDone ?_
    rw [← hv]
    intro h0
    exact hmagic (h0.symm.trans (word_store_same (s := s) (w := .block) 0))
  have hm : ∀ ev, ∃ u, deviceMove (.dump counters) { v with events := ev } = .ok () u ∧ v.DumpDone u values := by
    intro ev
    obtain ⟨u, hu, hd⟩ := dumpMove_ok (s := { v with events := ev }) (by rw [← hv]; rfl) (by rw [← hv]; exact hA) counters
    have hvalues : dumpCounters ({ v with events := ev } : State).config counters = values := by rw [← hv]; rfl
    exact ⟨u, hu, State.DumpDone.of_events (hvalues ▸ hd)⟩
  have hyes : ∀ u, v.DumpDone u values → ∃ ev, readStatsDone u = .ok true { u with events := ev } := by
    intro u hd
    have ha : u.statsDoneAddr = v.statsDoneAddr := by rw [hd.frame]; rfl
    have hc : u.config = v.config := by rw [hd.frame]
    have hread : u.word u.statsDoneAddr = u.config.dumpMagic := by rw [ha, hc]; exact hd.magic
    refine ⟨.memRead .block u.statsDoneAddr 4 :: u.events, ?_⟩
    simp only [readStatsDone, bind_apply, get_apply, readWord_apply, pure_apply, hread, beq_self_eq_true]
    rfl
  obtain ⟨u, ev'', hd, hx⟩ := awaitLoop_answered (r := .statsTimeout) (rest := rest) hno hm hyes hj
  obtain ⟨hframe, hcounters, hdone, honly⟩ := hd
  refine ⟨_, hrun.trans hx, ?_, hcounters, ?_, fun x hx => ?_⟩
  · rw [hframe, ← hv]; rfl
  · rw [← hv] at hdone; exact hdone
  · have hout : inSpan s.statsAddr (4 * s.config.statsWords + 4) x = false := hx (s.statsAddr, _) (List.mem_singleton.mpr rfl)
    have hcleared : inSpan s.statsDoneAddr 4 x = false := outside_sub hA (by rw [BitVec.toNat_ofNat]; omega) hout
    rw [← hv] at honly
    exact (honly x hx).trans (byteAt_store_other (w := .block) (by rwa [length_leBytes]))

end Sys2Proof.Machine
end

section
/-! SUPPORT. The drain of the TX ring over completed slots (R141): what each retired slot leaves, and where it stops. -/

namespace Sys2Proof.Machine

theorem thresholdAfter_succ (c : Config) (t : Byte) (u : Nat) :
    thresholdAfter c t (u + 1) = raiseThreshold c (thresholdAfter c t u) := by
  unfold thresholdAfter raiseThreshold
  rw [if_neg (Nat.succ_ne_zero u), Nat.add_mul, Nat.one_mul]
  split
  · next h => rw [h, Nat.zero_mul, Nat.zero_add]
  · have hmax := c.threshMax.isLt
    rw [BitVec.toNat_ofNat, Nat.mod_eq_of_lt (by omega)]
    congr 1
    omega

theorem State.underruns_succ (s : State) (k : Nat) :
    s.underruns (k + 1) = s.underruns k + if statusU (s.txStatus (s.txWalk k)) then 1 else 0 := by
  unfold State.underruns
  rw [List.range_succ, List.filter_append, List.length_append, List.filter_singleton]
  cases statusU (s.txStatus (s.txWalk k)) <;> rfl

theorem nextIdx_txWalk (s : State) (j : Nat) : nextIdx s.config.nTx (s.txWalk j) = s.txWalk (j + 1) := by
  unfold nextIdx State.txWalk
  rw [Nat.mod_add_mod, Nat.add_assoc]

theorem State.txWalk_lt {s : State} (h : s.txTail < s.config.nTx) (j : Nat) : s.txWalk j < s.config.nTx :=
  Nat.mod_lt _ (by omega)

theorem State.txWalk_zero {s : State} (h : s.txTail < s.config.nTx) : s.txWalk 0 = s.txTail := Nat.mod_eq_of_lt h

/-- A run of completed slots does not go round the ring: the walk would visit the head. -/
theorem State.TxRun.lt {s : State} {k : Nat} (h : s.TxRun k) (hh : s.txHead < s.config.nTx)
    (ht : s.txTail < s.config.nTx) : k < s.config.nTx := by
  by_contra hge
  obtain ⟨-, -, hne⟩ := h ((s.txHead + s.config.nTx - s.txTail) % s.config.nTx)
    (Nat.lt_of_lt_of_le (Nat.mod_lt _ (by omega)) (by omega))
  refine hne ?_
  unfold State.txWalk
  rw [Nat.add_mod_mod, show s.txTail + (s.txHead + s.config.nTx - s.txTail) = s.txHead + s.config.nTx by omega,
    Nat.add_mod_right, Nat.mod_eq_of_lt hh]

/-- The state after the first `j` slots from the tail on were retired. -/
def State.retired (s : State) (j : Nat) (ev : List BusEvent) : State :=
  { s with txThreshold := thresholdAfter s.config s.txThreshold (s.underruns j), events := ev }

theorem noteUnderrun_retired (s : State) (j : Nat) (ev : List BusEvent) :
    noteUnderrun (s.txStatus (s.txWalk j)) (s.retired j ev) = .ok () (s.retired (j + 1) ev) := by
  unfold noteUnderrun State.retired
  rw [State.underruns_succ]
  split
  · rw [thresholdAfter_succ]; rfl
  · rfl

/-- One completed slot of a run (R141). -/
theorem drainLoop_retire {s : State} {k j fuel : Nat} (h : s.TxRun k) (hj : j < k)
    (hlen : s.txAddr.length = s.config.nTx) (ht : s.txTail < s.config.nTx) (ev : List BusEvent) :
    ∃ ev', drainLoop (s.txWalk j) j (fuel + 1) (s.retired j ev) =
      drainLoop (s.txWalk (j + 1)) (j + 1) fuel (s.retired (j + 1) ev') := by
  obtain ⟨hc, hel, hne⟩ := h j hj
  have hi := State.txWalk_lt ht j
  have hstatus : (s.retired j ev).half ((s.retired j ev).txSlot (s.txWalk j) + offStatus) = s.txStatus (s.txWalk j) := rfl
  let ev1 : List BusEvent := .memRead .block (s.txSlot (s.txWalk j) + offStatus) 2 :: ev
  have hnote : noteUnderrun (s.txStatus (s.txWalk j)) ((s.retired j ev).event
      (.memRead .block ((s.retired j ev).txSlot (s.txWalk j) + offStatus) 2)) = .ok () (s.retired (j + 1) ev1) :=
    noteUnderrun_retired s j ev1
  have hmark : commandEl ((s.retired (j + 1) ev1).half ((s.retired j ev).txSlot (s.txWalk j) + offCommand)) = false := hel
  have hhead : (s.txWalk j != (s.retired j ev).txHead) = true := bne_iff_ne.mpr hne
  refine ⟨.memRead .block (s.txSlot (s.txWalk j) + offCommand) 2 :: ev1, ?_⟩
  rw [drainLoop]
  simp only [bind_apply, get_apply, txAddrOf_apply (s := s.retired j ev) (i := s.txWalk j) (by rw [← hlen] at hi; exact hi),
    readHalf_apply, hstatus, hc, if_true, hnote, hmark, hhead, require_apply, Bool.false_eq_true, if_false]
  exact congrArg (fun i => drainLoop i (j + 1) fuel _) (nextIdx_txWalk s j)

/-- The drain from slot `j` of a run to its end, at a slot that is not complete. -/
theorem drainLoop_run {s : State} {k : Nat} (h : s.TxRun k) (hlen : s.txAddr.length = s.config.nTx)
    (ht : s.txTail < s.config.nTx) (hstop : statusC (s.txStatus (s.txWalk k)) = false) {d : Nat} :
    ∀ {j : Nat} {fuel : Nat} (ev : List BusEvent), j + d = k → d < fuel →
      ∃ ev', drainLoop (s.txWalk j) j fuel (s.retired j ev) = .ok (s.txWalk k, k) (s.retired k ev') := by
  induction d with
  | zero =>
    intro j fuel ev hj hf
    obtain ⟨f, rfl⟩ : ∃ f, fuel = f + 1 := ⟨fuel - 1, by omega⟩
    obtain rfl : j = k := hj
    have hi := State.txWalk_lt ht j
    have hstatus : statusC ((s.retired j ev).half ((s.retired j ev).txSlot (s.txWalk j) + offStatus)) = false := hstop
    refine ⟨.memRead .block (s.txSlot (s.txWalk j) + offStatus) 2 :: ev, ?_⟩
    rw [drainLoop]
    simp only [bind_apply, get_apply,
      txAddrOf_apply (s := s.retired j ev) (i := s.txWalk j) (by rw [← hlen] at hi; exact hi), readHalf_apply, hstatus]
    rfl
  | succ d ih =>
    intro j fuel ev hj hf
    obtain ⟨f, rfl⟩ : ∃ f, fuel = f + 1 := ⟨fuel - 1, by omega⟩
    obtain ⟨ev1, h1⟩ := drainLoop_retire (fuel := f) h (show j < k by omega) hlen ht ev
    obtain ⟨ev2, h2⟩ := ih ev1 (show j + 1 + d = k by omega) (show d < f by omega)
    exact ⟨ev2, h1.trans h2⟩

/-- A drain that retires a run and stops at a slot that is not complete (R141). -/
theorem txDrain_run {s : State} {k : Nat} (h : s.TxRun k) (hlen : s.txAddr.length = s.config.nTx)
    (hh : s.txHead < s.config.nTx) (ht : s.txTail < s.config.nTx) (hidle : s.txIdle = false)
    (hstop : statusC (s.txStatus (s.txWalk k)) = false) :
    ∃ ev, txDrain s = .ok k { s.retired k ev with
      txTail := s.txWalk k, txAlive := if 0 < k then true else s.txAlive } := by
  obtain ⟨ev, hx⟩ := drainLoop_run (j := 0) (d := k) (fuel := s.config.nTx) h hlen ht hstop s.events (Nat.zero_add k)
    (h.lt hh ht)
  rw [State.txWalk_zero ht] at hx
  have h0 : s.retired 0 s.events = s := rfl
  rw [h0] at hx
  refine ⟨ev, ?_⟩
  simp only [txDrain, bind_apply, get_apply, hidle, Bool.false_eq_true, if_false, hx, modify_apply, pure_apply]
  rfl

end Sys2Proof.Machine
end

section
/-! SUPPORT. The deferred phase (R182, R183): the steps with nothing to do, and the CU's restart that finds it not
idle. -/

namespace Sys2Proof.Machine

theorem deferredReset_none {s : State} (h : s.needReset = false) : deferredReset s = .ok () s := by
  simp only [deferredReset, bind_apply, get_apply, h, Bool.false_eq_true, if_false, pure_apply]

theorem deferredRx_none {s : State} (h : s.pendRx = .empty) : deferredRx s = .ok () s := by
  have hr : s.reading = false := by rw [State.reading, h]; rfl
  simp only [deferredRx, bind_apply, get_apply, hr, Bool.false_eq_true, if_false, pure_apply]

theorem deferredRnr_none {s : State} (h : s.fRnr = false) : deferredRnr s = .ok () s := by
  simp only [deferredRnr, modify_apply, h, Bool.false_eq_true, if_false]

theorem deferredReport_none {s : State} (h : s.linkReportPending = false) : deferredReport s = .ok () s := by
  simp only [deferredReport, modify_apply, h, Bool.false_eq_true, if_false]

theorem deferredTx_cna {s : State} (h : s.fCna = true) : deferredTx s = txDeferred s := by
  simp only [deferredTx, bind_apply, get_apply, h, if_true]

theorem applyPendingConfig_none {s : State} (h : (s.cfgPending && s.txIdle) = false) :
    applyPendingConfig s = .ok () s := by
  simp only [applyPendingConfig, bind_apply, get_apply, h, Bool.false_eq_true, if_false, pure_apply]

/-- A deferred phase in which only the TX step has work. -/
theorem deferredPhase_tx {s t : State} (hr : s.needReset = false) (hp : s.pendRx = .empty) (hc : s.fCna = true)
    (ht : txDeferred { s with fFr := false, fSwi := false } = .ok () t) (hf : t.fRnr = false)
    (hl : t.linkReportPending = false) : deferredPhase s = .ok .ok t := by
  generalize hv : ({ s with fFr := false, fSwi := false } : State) = v at ht
  have hvr : v.needReset = false := by rw [← hv]; exact hr
  have hvp : v.pendRx = .empty := by rw [← hv]; exact hp
  have hvc : v.fCna = true := by rw [← hv]; exact hc
  refine (bind_ok (t := v) (by rw [← hv]; rfl)).trans ?_
  exact (bind_ok (deferredReset_none hvr)).trans <|
    (bind_ok (deferredRx_none hvp)).trans <|
    (bind_ok ((deferredTx_cna hvc).trans ht)).trans <|
    (bind_ok (deferredRnr_none hf)).trans <|
    (bind_ok (deferredReport_none hl)).trans rfl

/-- The race of R172: the CU is not idle after a retirement. -/
theorem restartCu_race {s : State} {k : Nat} (hk : 0 < k) (hi : s.txIdle = false) (h : s.dev.unitState .cu ≠ .idle) :
    restartCu k s = .ok () { s with
      log := s.log ++ [.cmdRace .cu (s.dev.unitState .cu)], fCna := true, events := s.statusRead :: s.events } := by
  have hcond : (decide (0 < k) && !s.txIdle) = true := by rw [hi, decide_eq_true hk]; rfl
  have hstate : ¬ unitStateOf (s.dev.unitCode .cu) = .idle := h
  simp only [restartCu, bind_apply, get_apply, hcond, if_true, readUnitCode_apply, if_neg hstate, logEvent_apply,
    modify_apply]
  rfl

end Sys2Proof.Machine
end

section
/-! SUPPORT. Mapping the regions when the collaborator translates every one to a multiple of 4 (R68, R72). -/

namespace Sys2Proof.Machine

theorem exists_of_mapM_some {α β : Type} {f : α → Option β} {l : List α} {r : List β} (h : l.mapM f = some r) :
    ∀ a ∈ l, ∃ b ∈ r, f a = some b := by
  induction l generalizing r with
  | nil => exact fun a ha => absurd ha List.not_mem_nil
  | cons x l ih =>
    simp only [List.mapM_cons, Option.bind_eq_bind, Option.bind_eq_some_iff, Option.pure_def, Option.some.injEq] at h
    obtain ⟨b, hb, r', hr', rfl⟩ := h
    intro a ha
    rcases List.mem_cons.mp ha with rfl | ha
    · exact ⟨b, List.mem_cons_self, hb⟩
    · obtain ⟨c, hc, hac⟩ := ih hr' a ha
      exact ⟨c, List.mem_cons_of_mem _ hc, hac⟩

/-- The collaborator's answer is one the block accepts. -/
def Accepted (answer : Option BusAddr) : Prop := ∃ b, answer = some b ∧ b.toNat % 4 = 0

theorem checkMapped_accepted {answer : Option BusAddr} (h : Accepted answer) (s : State) :
    ∃ b, checkMapped answer s = .ok b s := by
  obtain ⟨b, rfl, hb⟩ := h
  exact ⟨b, by simp only [checkMapped, bind_apply, require_apply, hb, beq_self_eq_true, if_true, pure_apply]⟩

theorem mapRx_ends (count : Nat) {i : Nat} {s : State}
    (h : ∀ j, i ≤ j → j < i + count → Accepted (s.busMap.rx.getD j none)) : ∃ t, mapRx i count s = .ok () t := by
  induction count generalizing i s with
  | zero => exact ⟨s, rfl⟩
  | succ n ih =>
    obtain ⟨b, hb⟩ := checkMapped_accepted (h i (Nat.le_refl i) (by omega)) s
    obtain ⟨t, ht⟩ := ih (i := i + 1) (s := { s with rxAddr := cacheAt s.rxAddr i b }) fun j hj hj' =>
      h j (by omega) (by omega)
    exact ⟨t, by simpa only [mapRx, bind_apply, get_apply, hb, modify_apply] using ht⟩

theorem mapTx_ends (count : Nat) {i : Nat} {s : State}
    (h : ∀ j, i ≤ j → j < i + count → Accepted (s.busMap.tx.getD j none)) : ∃ t, mapTx i count s = .ok () t := by
  induction count generalizing i s with
  | zero => exact ⟨s, rfl⟩
  | succ n ih =>
    obtain ⟨b, hb⟩ := checkMapped_accepted (h i (Nat.le_refl i) (by omega)) s
    obtain ⟨t, ht⟩ := ih (i := i + 1) (s := { s with txAddr := cacheAt s.txAddr i b }) fun j hj hj' =>
      h j (by omega) (by omega)
    exact ⟨t, by simpa only [mapTx, bind_apply, get_apply, hb, modify_apply] using ht⟩

theorem mapRegions_ends {s : State} (hrx : ∀ j, j < s.config.nRx → Accepted (s.busMap.rx.getD j none))
    (htx : ∀ j, j < s.config.nTx → Accepted (s.busMap.tx.getD j none)) (hstats : Accepted s.busMap.stats)
    (hcfg : Accepted s.busMap.cfg) (hlen : s.rxAddr.length = s.config.nRx) : ∃ t, mapRegions s = .ok () t := by
  obtain ⟨u, hu⟩ := mapRx_ends s.config.nRx (i := 0) fun j _ hj => hrx j (by omega)
  obtain ⟨_, -, -, -, hframe⟩ := mapRx_ok s.config.nRx (by omega) hu
  have hbus : u.busMap = s.busMap := by rw [hframe]
  obtain ⟨v, hv⟩ := mapTx_ends s.config.nTx (i := 0) (s := u) fun j _ hj => hbus ▸ htx j (by omega)
  obtain ⟨a, ha⟩ := checkMapped_accepted hstats v
  obtain ⟨b, hb⟩ := checkMapped_accepted hcfg { v with statsAddr := a }
  exact ⟨_, by simp only [mapRegions, bind_apply, get_apply, hu, hv, ha, modify_apply, hb]; rfl⟩

theorem BusMap.accepted_of_answers {c : Config} {m : BusMap} {rx tx : List BusAddr} {stats cfg : BusAddr}
    (h : m.answers c = some (rx, tx, stats, cfg)) (h4 : ∀ a ∈ rx ++ tx ++ [stats, cfg], a.toNat % 4 = 0) :
    (∀ j, j < c.nRx → Accepted (m.rx.getD j none)) ∧ (∀ j, j < c.nTx → Accepted (m.tx.getD j none)) ∧
      Accepted m.stats ∧ Accepted m.cfg := by
  simp only [BusMap.answers, Option.bind_eq_bind, Option.bind_eq_some_iff, Option.pure_def, Option.some.injEq,
    Prod.mk.injEq] at h
  obtain ⟨_, hrx, _, htx, _, hstats, _, hcfg, rfl, rfl, rfl, rfl⟩ := h
  have hmem : ∀ {n : Nat} {l : List (Option BusAddr)} {r : List BusAddr},
      ((List.range n).mapM fun i => l.getD i none) = some r → (∀ a ∈ r, a.toNat % 4 = 0) →
      ∀ j, j < n → Accepted (l.getD j none) := by
    intro n l r hr ha j hj
    obtain ⟨b, hb, hjb⟩ := exists_of_mapM_some hr j (List.mem_range.mpr hj)
    exact ⟨b, hjb, ha b hb⟩
  refine ⟨hmem hrx fun a ha => h4 a ?_, hmem htx fun a ha => h4 a ?_, ⟨_, hstats, h4 _ ?_⟩, ⟨_, hcfg, h4 _ ?_⟩⟩ <;>
    simp [*]

/-- The regions are mapped to the collaborator's answers. -/
theorem mapRegions_answers {s : State} {rx tx : List BusAddr} {stats cfg : BusAddr}
    (h1 : s.rxAddr.length = s.config.nRx) (h2 : s.txAddr.length = s.config.nTx)
    (h : s.busMap.answers s.config = some (rx, tx, stats, cfg)) (h4 : ∀ a ∈ rx ++ tx ++ [stats, cfg], a.toNat % 4 = 0) :
    rx.length = s.config.nRx ∧ tx.length = s.config.nTx ∧
      mapRegions s = .ok () { s with rxAddr := rx, txAddr := tx, statsAddr := stats, cfgAddr := cfg } := by
  obtain ⟨hrx, htx, hstats, hcfg⟩ := BusMap.accepted_of_answers h h4
  obtain ⟨t, ht⟩ := mapRegions_ends hrx htx hstats hcfg h1
  obtain ⟨_, _, _, _, hanswers, hl1, hl2, -, rfl⟩ := mapRegions_ok h1 h2 ht
  rw [h, Option.some.injEq, Prod.mk.injEq, Prod.mk.injEq, Prod.mk.injEq] at hanswers
  obtain ⟨rfl, rfl, rfl, rfl⟩ := hanswers
  exact ⟨hl1, hl2, ht⟩

end Sys2Proof.Machine
end

section
/-! SUPPORT. The configuration block, sent and executed (R169): what `apply_config` leaves when the device answers. -/

namespace Sys2Proof.Machine

section
variable {s : State} (h : s.Laid) (hw : s.config.wf = true)
include h hw

theorem State.Laid.cfg_notMem_rx : s.cfgAddr ∉ s.rxAddr := by
  intro hm
  obtain ⟨-, -, -, -, -, -, hlen⟩ := Config.wf_facts hw
  obtain ⟨j, hj, he⟩ := exists_rxSlot h hm
  have hd := h.rx_cfg hj
  have hsize := descriptorSize_ge s.config
  rw [he] at hd
  omega

theorem State.Laid.cfg_notMem_tx : s.cfgAddr ∉ s.txAddr := by
  intro hm
  obtain ⟨-, -, -, -, -, -, hlen⟩ := Config.wf_facts hw
  obtain ⟨j, hj, he⟩ := exists_txSlot h hm
  have hd := h.tx_cfg hj
  have hsize := descriptorSize_ge s.config
  rw [he] at hd
  omega

theorem State.Laid.placeOf_cfg : s.placeOf .cu s.cfgAddr = .block :=
  placeOf_block (h.cfg_notMem_tx hw) (h.cfg_notMem_rx hw)

end

theorem length_cfgBlock (c : Config) (table : List Byte) : (cfgBlock c table).length = c.cfgBlockLen := by
  rw [cfgBlock, List.length_map, List.length_range]

theorem cuStepMove_block {s : State} (status : Half) (block : List Byte) (ha : s.dev.unitState .cu = .active)
    (hp : s.placeOf .cu s.dev.cuFetch = .block) :
    cuStepMove status block s = cuConfigure block { s with dev := { s.dev with cuDraw := status } } := by
  generalize hv : ({ s with dev := { s.dev with cuDraw := status } } : State) = v
  have hactive : unitStateOf v.dev.cuCode = .active := by rw [← hv]; exact ha
  have hplace : v.placeOf .cu v.dev.cuFetch = .block := by rw [← hv]; exact hp
  simp only [cuStepMove, modifyDevice, bind_apply, modify_apply, get_apply, hv, hactive, if_true, hplace]

/-- The state after the CU has executed the configuration block: the device has applied it, left `left` in it and is
idle (R169). -/
def State.blockExecuted (s : State) (status : Half) (left : List Byte) : State :=
  { s with
    mem := s.mem.writeBytes s.cfgAddr (left.take s.config.cfgBlockLen)
    events := .memWrite .device s.cfgAddr (left.take s.config.cfgBlockLen) ::
      .memRead .device s.cfgAddr s.config.cfgBlockLen :: s.events
    dev := { s.dev with
      cuDraw := status, appliedCfg := s.mem.readBytes s.cfgAddr s.config.cfgBlockLen, cuCode := codeIdle
      scbIsr := s.dev.scbIsr ||| causeCna } }

theorem cuConfigure_apply (s : State) (status : Half) (left : List Byte) :
    cuConfigure left { s with dev := { s.dev with cuDraw := status } } = .ok () (s.blockExecuted status left) := rfl

theorem deviceMove_block {s : State} (status : Half) (left : List Byte) (ha : s.dev.unitState .cu = .active)
    (hp : s.placeOf .cu s.dev.cuFetch = .block) (ev : List BusEvent) :
    deviceMove (.cuStep status left) { s with events := ev } =
      .ok () (State.blockExecuted { s with events := ev } status left) :=
  (cuStepMove_block (s := { s with events := ev }) status left ha hp).trans (cuConfigure_apply _ _ _)

theorem blockExecuted_only (s : State) (status : Half) (left : List Byte) :
    s.ChangesOnly (s.blockExecuted status left) [(s.cfgAddr, s.config.cfgBlockLen)] := fun x hx => by
  have hout : inSpan s.cfgAddr s.config.cfgBlockLen x = false := hx (s.cfgAddr, _) (List.mem_singleton.mpr rfl)
  have htake : inSpan s.cfgAddr (left.take s.config.cfgBlockLen).length x = false := by
    rw [Bool.eq_false_iff] at hout ⊢
    exact fun hin => hout (inSpan_mono hin (List.length_take_le _ _))
  exact byteAt_store_other (s := s) (w := .device) htake

theorem readCuIdle_idle {s : State} (h : s.dev.unitState .cu = .idle) :
    readCuIdle s = .ok true (s.event s.statusRead) := by
  have hcode : (unitStateOf (s.dev.unitCode .cu) == .idle) = true := beq_iff_eq.mpr h
  simp only [readCuIdle, bind_apply, readUnitCode_apply, pure_apply, hcode]

/-- `apply_config` with a device that accepts the command and executes the block in time (R169). -/
theorem applyConfig_ok {s : State} {k j : Nat} {status : Half} {block : List Byte} {rest : List PollEvent}
    (hw : s.config.wf = true) (hl : s.Laid) (h : s.CanIssue .cu true)
    (hp : s.pollScript = configuredAfter k j status block rest) (hk : k < s.config.cuPollBound)
    (hj : j < s.config.cuPollBound) :
    ∃ t : State, applyConfig s = .ok () t ∧
      t = { s with
        cfgPending := false, pollScript := rest, mem := t.mem, events := t.events
        dev := s.dev.configured s.cfgAddr (cfgBlock s.config s.cfg) status } ∧
      s.ChangesOnly t [(s.cfgAddr, s.config.cfgBlockLen)] := by
  have hlen := length_cfgBlock s.config s.cfg
  have hstored : (s.store .block s.cfgAddr (cfgBlock s.config s.cfg)).mem.readBytes s.cfgAddr s.config.cfgBlockLen =
      cfgBlock s.config s.cfg := by
    have hsame := readBytes_store_same (s := s) (w := .block) (a := s.cfgAddr) (bs := cfgBlock s.config s.cfg)
      (by have := hl.cfg_fits; omega)
    rwa [hlen] at hsame
  obtain ⟨ev, hissue⟩ := issue_accepted' (s := s.store .block s.cfgAddr (cfgBlock s.config s.cfg)) (cmd := .cuStart)
    (a := s.cfgAddr) (ri := true) (k := k) (Config.wf_codes hw) (by decide) ⟨h.noCommand, h.idle⟩ hp hk
  generalize hv : ({ s.store .block s.cfgAddr (cfgBlock s.config s.cfg) with
    dev := EngineCommand.effect .cuStart s.cfgAddr s.dev
    pollScript := List.replicate j .read ++ .move (.cuStep status block) :: .read :: rest, events := ev } : State) = v
  have hissued : issue .cuStart s.cfgAddr true (s.store .block s.cfgAddr (cfgBlock s.config s.cfg)) = .ok () v := by
    rw [← hv]; exact hissue
  have hactive : v.dev.unitState .cu = .active := by rw [← hv]; rfl
  have hplace : v.placeOf .cu v.dev.cuFetch = .block := by rw [← hv]; exact hl.placeOf_cfg hw
  have happlied : v.mem.readBytes v.cfgAddr v.config.cfgBlockLen = cfgBlock s.config s.cfg := by
    rw [← hv]; exact hstored
  have hno : SaysNo readCuIdle v := saysNo_cuIdle (by rw [hactive]; decide)
  have hm : ∀ ev, ∃ u, deviceMove (.cuStep status block) { v with events := ev } = .ok () u ∧
      ∃ ev, u = State.blockExecuted { v with events := ev } status block := fun ev =>
    ⟨_, deviceMove_block status block hactive hplace ev, ev, rfl⟩
  have hyes : ∀ u, (∃ ev, u = State.blockExecuted { v with events := ev } status block) →
      ∃ ev, readCuIdle u = .ok true { u with events := ev } := by
    rintro _ ⟨ev, rfl⟩
    exact ⟨_, readCuIdle_idle rfl⟩
  obtain ⟨_, ev'', ⟨ev', rfl⟩, hx⟩ := awaitLoop_answered (r := .cmdTimeout) (rest := rest) hno hm hyes hj
  have hawait : awaitDevice readCuIdle s.config.cuPollBound .cmdTimeout v = .ok ()
      { State.blockExecuted { v with events := ev' } status block with pollScript := rest, events := ev'' } := by
    rw [← hx, ← hv]; rfl
  have hdev : (v.blockExecuted status block).dev = s.dev.configured s.cfgAddr (cfgBlock s.config s.cfg) status := by
    rw [State.blockExecuted, happlied, ← hv]
    rfl
  have hrun := (bind_ok (f := fun _ => modify fun s => { s with cfgPending := false }) hawait)
  refine ⟨_, (bind_ok rfl).trans ((bind_ok rfl).trans ((bind_ok hissued).trans (hrun.trans rfl))), ?_, fun x hx => ?_⟩
  · rw [← hdev, ← hv]
    rfl
  · have hout : inSpan s.cfgAddr s.config.cfgBlockLen x = false := hx (s.cfgAddr, _) (List.mem_singleton.mpr rfl)
    refine (blockExecuted_only { v with events := ev' } status block x (by rw [← hv]; exact hx)).trans ?_
    rw [← hv]
    exact byteAt_store_other (w := .block) (by rwa [hlen])

end Sys2Proof.Machine
end

section
/-! SUPPORT. The parts of the start-up sequence (R271) on a device that answers: the hardware address, both rings, the
commands, the RU's start. -/

namespace Sys2Proof.Machine

/-! ### The hardware address -/

theorem supportedWidth_word {c : Config} {w : EeWidth} (h : supportedWidth c = some w) {reg : Nat} (hr : reg < 2 ^ 6) :
    reg < 2 ^ c.eeDevWidth := by
  have hwidth : 6 ≤ c.eeDevWidth := by
    unfold supportedWidth at h
    split at h
    · omega
    · split at h
      · omega
      · cases h
  exact Nat.lt_of_lt_of_le hr (Nat.pow_le_pow_right (by decide) hwidth)

/-- The hardware address is read from words 0, 1 and 2 (R46). -/
theorem readHardwareAddress_ok {s : State} {w : EeWidth} (h : s.SerialIdle) (hw : supportedWidth s.config = some w)
    (hc : s.eeWidth = .unknown ∨ s.eeWidth = w) :
    ∃ ev, readHardwareAddress s = .ok () { s with
      eeWidth := w, events := ev
      hwAddr := hardwareAddress (s.config.eeMem.getD 0 0) (s.config.eeMem.getD 1 0) (s.config.eeMem.getD 2 0) } := by
  have hidle : ∀ ev, State.SerialIdle { s with eeWidth := w, events := ev } := fun _ =>
    ⟨h.busy, h.lines, h.serCtl, h.ee, h.phy⟩
  obtain ⟨ev0, h0⟩ := readEeprom_ok h hw hc (supportedWidth_word hw (show 0 < 2 ^ 6 by decide))
  obtain ⟨ev1, h1⟩ := readEeprom_ok (hidle ev0) hw (.inr rfl) (supportedWidth_word hw (show 1 < 2 ^ 6 by decide))
  obtain ⟨ev2, h2⟩ := readEeprom_ok (hidle ev1) hw (.inr rfl) (supportedWidth_word hw (show 2 < 2 ^ 6 by decide))
  exact ⟨ev2, (bind_ok h0).trans ((bind_ok h1).trans ((bind_ok h2).trans rfl))⟩

/-! ### Both rings -/

section
variable {s t : State} (h : s.Laid)
include h

theorem rxHeader_apart_txHeader {i j : Nat} (hi : i < s.config.nRx) (hj : j < s.config.nTx) :
    Apart (s.rxSlot i) 12 (s.txSlot j) 12 := by
  have := h.rx_header hi; have := h.tx_header hj; have := h.rx_tx hi hj; have := descriptorSize_ge s.config
  exact apart_of_nat (by omega) (by omega) (by omega)

theorem cfg_apart_rxHeader {i : Nat} (hi : i < s.config.nRx) :
    Apart s.cfgAddr s.config.cfgBlockLen (s.rxSlot i) 12 := by
  have := h.rx_header hi; have := h.rx_cfg hi; have := h.cfg_fits; have := descriptorSize_ge s.config
  exact apart_of_nat (by omega) (by omega) (by omega)

theorem cfg_apart_txHeader {i : Nat} (hi : i < s.config.nTx) :
    Apart s.cfgAddr s.config.cfgBlockLen (s.txSlot i) 12 := by
  have := h.tx_header hi; have := h.tx_cfg hi; have := h.cfg_fits; have := descriptorSize_ge s.config
  exact apart_of_nat (by omega) (by omega) (by omega)

/-- A change of the configuration block leaves a fresh descriptor fresh. -/
theorem State.Laid.rxFresh_of_cfg {i : Nat} (hi : i < s.config.nRx) (hf : s.RxFresh i) (ha : t.rxAddr = s.rxAddr)
    (hc : t.config = s.config) (ho : s.ChangesOnly t [(s.cfgAddr, s.config.cfgBlockLen)]) : t.RxFresh i :=
  hf.of_same ha hc (h.rx_header hi) fun x hx => ho x fun r hr => by
    rw [List.mem_singleton.mp hr]; exact cfg_apart_rxHeader h hi x hx

theorem State.Laid.txFresh_of_cfg {i : Nat} (hi : i < s.config.nTx) (hf : s.TxFresh i) (ha : t.txAddr = s.txAddr)
    (hc : t.config = s.config) (ho : s.ChangesOnly t [(s.cfgAddr, s.config.cfgBlockLen)]) : t.TxFresh i :=
  hf.of_same ha hc (h.tx_header hi) fun x hx => ho x fun r hr => by
    rw [List.mem_singleton.mp hr]; exact cfg_apart_txHeader h hi x hx

/-- `tx_init`, then `rx_init` (R145, R146). -/
theorem initRings_ok : ∃ u v : State, txInit s = .ok () u ∧ rxInit u = .ok () v ∧
    v = { s with mem := v.mem, events := v.events, rxHead := 0, txHead := 0, txTail := 0, txIdle := true } ∧
    (∀ i, i < s.config.nRx → v.RxFresh i) ∧ (∀ i, i < s.config.nTx → v.TxFresh i) ∧
    s.ChangesOnly v (headers s.rxAddr ++ headers s.txAddr) := by
  obtain ⟨m, ev, hx, hfresh, hother⟩ := txInit_ok h
  generalize hu : ({ s with mem := m, txHead := 0, txTail := 0, txIdle := true, events := ev } : State) = u
    at hx hfresh hother
  have hl : u.Laid := by rw [← hu]; exact h.of_eq rfl rfl rfl rfl rfl
  have hrx : u.config.nRx = s.config.nRx := by rw [← hu]
  have htx : u.config.nTx = s.config.nTx := by rw [← hu]
  have hslot : ∀ i, u.rxSlot i = s.rxSlot i := fun i => by rw [← hu]; rfl
  obtain ⟨m', ev', hx', hfresh', hother'⟩ := rxInit_ok hl
  refine ⟨u, _, hx, hx', by rw [← hu], fun i hi => hfresh' i (by rwa [hrx]), fun i hi => ?_, fun x hout => ?_⟩
  · refine (hfresh i hi).of_same rfl rfl (hl.tx_header (by rwa [htx])) fun x hx => hother' x fun j hj => ?_
    exact rxHeader_apart_txHeader hl hj (by rwa [htx]) x hx
  · refine (hother' x fun j hj => ?_).trans (hother x fun j hj => ?_)
    · rw [hslot]
      rw [hrx, ← h.rxLen] at hj
      exact hout _ (List.mem_append_left _ (mem_headers hj))
    · rw [← h.txLen] at hj
      exact hout _ (List.mem_append_right _ (mem_headers hj))

end

/-! ### The commands -/

/-- Both bases, then the configuration, on a device that answers (R162, R169). -/
theorem loadBasesAndConfigure_ok {s : State} {k1 k2 k3 j : Nat} {status : Half} {block : List Byte}
    {rest : List PollEvent} (hw : s.config.wf = true) (hl : s.Laid) (hcu : s.CanIssue .cu true)
    (hru : s.CanIssue .ru true)
    (hp : s.pollScript = acceptedAfter .cu k1 (acceptedAfter .ru k2 (configuredAfter k3 j status block rest)))
    (h1 : k1 < s.config.cuPollBound) (h2 : k2 < s.config.ruPollBound) (h3 : k3 < s.config.cuPollBound)
    (hj : j < s.config.cuPollBound) :
    ∃ t : State, loadBasesAndConfigure s = .ok () t ∧
      t = { s with
        cfgPending := false, pollScript := rest, mem := t.mem, events := t.events
        dev := (EngineCommand.effect .ruLoadBase 0 (EngineCommand.effect .cuLoadBase 0 s.dev)).configured s.cfgAddr
          (cfgBlock s.config s.cfg) status } ∧
      s.ChangesOnly t [(s.cfgAddr, s.config.cfgBlockLen)] := by
  have hcodes := Config.wf_codes hw
  obtain ⟨ev1, hx1⟩ := issue_accepted' (cmd := .cuLoadBase) (a := 0) hcodes (by decide) hcu hp h1
  generalize hu : ({ s with
    dev := EngineCommand.effect .cuLoadBase 0 s.dev, events := ev1
    pollScript := acceptedAfter .ru k2 (configuredAfter k3 j status block rest) } : State) = u
  have hx1 : issue .cuLoadBase 0 true s = .ok () u := by rw [← hu]; exact hx1
  obtain ⟨ev2, hx2⟩ := issue_accepted' (s := u) (cmd := .ruLoadBase) (a := 0) (ri := true) (k := k2)
    (rest := configuredAfter k3 j status block rest) (by rw [← hu]; exact hcodes) (by decide)
    (by rw [← hu]; exact ⟨hru.noCommand, hru.idle⟩) (by rw [← hu]; rfl) (by rw [← hu]; exact h2)
  generalize hv : ({ u with
    dev := EngineCommand.effect .ruLoadBase 0 u.dev, events := ev2
    pollScript := configuredAfter k3 j status block rest } : State) = v
  have hx2 : issue .ruLoadBase 0 true u = .ok () v := by rw [← hv]; exact hx2
  obtain ⟨t, hx3, hframe, honly⟩ := applyConfig_ok (s := v) (k := k3) (j := j) (status := status) (block := block)
    (rest := rest) (by rw [← hv, ← hu]; exact hw) (by rw [← hv, ← hu]; exact hl.of_eq rfl rfl rfl rfl rfl)
    (by rw [← hv, ← hu]; exact ⟨hcu.noCommand, hcu.idle⟩) (by rw [← hv]) (by rw [← hv, ← hu]; exact h3)
    (by rw [← hv, ← hu]; exact hj)
  refine ⟨t, (bind_ok hx1).trans ((bind_ok hx2).trans hx3), ?_, ?_⟩
  · rw [hframe, ← hv, ← hu]
  · rw [← hv, ← hu] at honly
    exact honly

/-- Stale causes are dropped, then the RU starts at `rx[0]` (R271). -/
theorem startReceive_ok {s : State} {k : Nat} {rest : List PollEvent} (hw : s.config.wf = true) (hl : s.Laid)
    (hru : s.CanIssue .ru true) (hp : s.pollScript = acceptedAfter .ru k rest) (hk : k < s.config.ruPollBound) :
    ∃ ev, startReceive s = .ok () { s with
      dev := EngineCommand.effect .ruStart (s.rxSlot 0) { s.dev with scbIsr := 0 }, pollScript := rest
      events := ev } := by
  obtain ⟨hn, -⟩ := Config.wf_facts hw
  have hmask : ~~~((0xFF : Word).setWidth 8) = (0 : Byte) := by decide
  have hzero : s.dev.scbIsr &&& ~~~((0xFF : Word).setWidth 8) = 0 := by rw [hmask]; exact BitVec.and_zero
  generalize hv : ({ s with
    dev := { s.dev with scbIsr := 0 }, events := .portWrite (s.writePort .scbIsr) 0xFF :: s.events } : State) = v
  have hclear : portWrite .scbIsr 0xFF s = .ok () v := by
    rw [portWrite_apply, Device.writeRegister, hzero, hv]
  obtain ⟨ev, hx⟩ := issue_accepted' (s := v) (cmd := .ruStart) (a := v.rxSlot 0) (ri := true) (k := k) (rest := rest)
    (by rw [← hv]; exact Config.wf_codes hw) (by decide) (by rw [← hv]; exact ⟨hru.noCommand, hru.idle⟩)
    (by rw [← hv]; exact hp) (by rw [← hv]; exact hk)
  have hlen : 0 < v.rxAddr.length := by rw [← hv]; show 0 < s.rxAddr.length; rw [hl.rxLen]; omega
  refine ⟨ev, (bind_ok hclear).trans ((bind_ok (rxAddrOf_apply hlen)).trans (hx.trans ?_))⟩
  rw [← hv]
  rfl

/-! ### The sequence from the mapped regions on -/

/-- The start-up sequence from the device's first command on (R271). -/
def bootCommands : Op Half := do
  loadBasesAndConfigure
  startReceive
  clearPointer
  readPhyStatus

/-- What the start-up sequence has made of a state with mapped regions when it gives the device its first command, but
for memory and the events. -/
def State.ringsReady (s : State) (w : EeWidth) : State :=
  { initContext s with
    eeWidth := w, rxHead := 0, txHead := 0, txTail := 0, txIdle := true, dev := s.dev.selectivelyReset
    hwAddr := hardwareAddress (s.config.eeMem.getD 0 0) (s.config.eeMem.getD 1 0) (s.config.eeMem.getD 2 0) }

/-- The device is reset, the hardware address read, the context set and both rings initialised (R271). -/
theorem bootRest_rings {s : State} {w : EeWidth} (hl : s.Laid) (hs : s.SerialIdle)
    (hw : supportedWidth s.config = some w) (hc : s.eeWidth = .unknown ∨ s.eeWidth = w) :
    ∃ v : State, bootRest s = bootCommands v ∧
      v = { s.ringsReady w with mem := v.mem, events := v.events } ∧
      (∀ i, i < s.config.nRx → v.RxFresh i) ∧ (∀ i, i < s.config.nTx → v.TxFresh i) ∧
      s.ChangesOnly v (headers s.rxAddr ++ headers s.txAddr) := by
  generalize hu : ({ s with
    dev := s.dev.selectivelyReset, events := .portWrite (s.writePort .scbPort) 2 :: s.events } : State) = u
  have hreset : portWrite .scbPort 2 s = .ok () u := by rw [← hu]; rfl
  obtain ⟨ev, hread⟩ := readHardwareAddress_ok (s := u) (w := w)
    (by rw [← hu]; exact ⟨hs.busy, hs.lines, hs.serCtl, hs.ee, hs.phy⟩) (by rw [← hu]; exact hw)
    (by rw [← hu]; exact hc)
  generalize hx : ({ u with
    eeWidth := w, events := ev, hwAddr := hardwareAddress (u.config.eeMem.getD 0 0) (u.config.eeMem.getD 1 0)
      (u.config.eeMem.getD 2 0) } : State) = x at hread
  have hxl : (initContext x).Laid := by rw [← hx, ← hu]; exact hl.of_eq rfl rfl rfl rfl rfl
  obtain ⟨y, v, htx, hrx, hframe, hfreshRx, hfreshTx, honly⟩ := initRings_ok hxl
  refine ⟨v, (bind_ok hreset).trans ((bind_ok hread).trans ((bind_ok rfl).trans ((bind_ok htx).trans (bind_ok hrx)))), ?_,
    ?_, ?_, ?_⟩
  · rw [hframe, ← hx, ← hu]
    rfl
  · rw [← hx, ← hu] at hfreshRx
    exact hfreshRx
  · rw [← hx, ← hu] at hfreshTx
    exact hfreshTx
  · rw [← hx, ← hu] at honly
    exact honly

/-- What the commands of the start-up sequence leave of a device. -/
def Device.booted (d : Device) (cfg rx : BusAddr) (block : List Byte) (status : Half) : Device :=
  let d1 := EngineCommand.effect .ruLoadBase 0 (EngineCommand.effect .cuLoadBase 0 d)
  { EngineCommand.effect .ruStart rx { d1.configured cfg block status with scbIsr := 0 } with scbPtr := 0 }

/-- The device accepts both bases and executes the configuration, the RU starts, and the PHY is read (R271). -/
theorem bootCommands_ok {s : State} {k1 k2 k3 j k4 : Nat} {status : Half} {block : List Byte}
    {rest : List PollEvent} (hw : s.config.wf = true) (hl : s.Laid) (hs : s.SerialIdle) (hcu : s.CanIssue .cu true)
    (hru : s.CanIssue .ru true) (hp : s.pollScript = bootAnswers k1 k2 k3 j k4 status block rest)
    (ht : s.config.bootInTime k1 k2 k3 j k4) :
    ∃ t : State, bootCommands s = .ok (s.phyValue s.config.phyStatusReg.toNat) t ∧
      t = { s with
        cfgPending := false, pollScript := rest, mem := t.mem, events := t.events
        dev := { s.dev.booted s.cfgAddr (s.rxSlot 0) (cfgBlock s.config s.cfg) status with
          lineReads := s.dev.lineReads + s.config.phyFreeReads } } ∧
      s.ChangesOnly t [(s.cfgAddr, s.config.cfgBlockLen)] := by
  obtain ⟨h1, h2, h3, hj, h4⟩ := ht
  obtain ⟨u, hload, hframe, honly⟩ := loadBasesAndConfigure_ok hw hl hcu hru hp h1 h2 h3 hj
  obtain ⟨ev, hstart⟩ := startReceive_ok (s := u) (k := k4) (rest := rest) (by rw [hframe]; exact hw)
    (by rw [hframe]; exact hl.of_eq rfl rfl rfl rfl rfl) (by rw [hframe]; exact ⟨hru.noCommand, hru.idle⟩)
    (by rw [hframe]) (by rw [hframe]; exact h4)
  generalize hv : ({ u with
    dev := { EngineCommand.effect .ruStart (u.rxSlot 0) { u.dev with scbIsr := 0 } with scbPtr := 0 }
    pollScript := rest, events := ev } : State) = v
  obtain ⟨ev', hphy⟩ := readPhy_ok (s := v)
    (by rw [← hv, hframe]; exact ⟨hs.busy, hs.lines, hs.serCtl, hs.ee, hs.phy⟩) v.config.phyStatusReg.toNat
  have hvalue : v.phyValue v.config.phyStatusReg.toNat = s.phyValue s.config.phyStatusReg.toNat := by
    rw [← hv, hframe]; rfl
  rw [hvalue] at hphy
  refine ⟨_, (bind_ok hload).trans ((bind_ok hstart).trans ((bind_ok (t := v) (by rw [← hv]; rfl)).trans
    ((bind_ok rfl).trans hphy))), ?_, ?_⟩
  · rw [← hv, hframe]
    rfl
  · intro x hx
    rw [← hv]
    exact honly x hx

/-- From mapped regions to a running device (R271, R55). -/
theorem bootRest_ok {s : State} {w : EeWidth} {k1 k2 k3 j k4 : Nat} {status : Half} {block : List Byte}
    {rest : List PollEvent} (hw : s.config.wf = true) (hl : s.Laid) (hs : s.SerialIdle)
    (hwidth : supportedWidth s.config = some w) (hc : s.eeWidth = .unknown ∨ s.eeWidth = w)
    (hp : s.pollScript = bootAnswers k1 k2 k3 j k4 status block rest) (ht : s.config.bootInTime k1 k2 k3 j k4) :
    ∃ t : State, bootRest s = .ok (s.phyValue s.config.phyStatusReg.toNat) t ∧
      t = { s.ringsReady w with
        pollScript := rest, mem := t.mem, events := t.events
        dev := { s.dev.selectivelyReset.booted s.cfgAddr (s.rxSlot 0) (cfgBlock s.config s.config.cfgDefault) status with
          lineReads := s.dev.lineReads + s.config.phyFreeReads } } ∧
      (∀ i, i < s.config.nRx → t.RxFresh i) ∧ (∀ i, i < s.config.nTx → t.TxFresh i) ∧
      s.ChangesOnly t (headers s.rxAddr ++ headers s.txAddr ++ [(s.cfgAddr, s.config.cfgBlockLen)]) := by
  obtain ⟨v, hrings, hv, hrx, htx, hvonly⟩ := bootRest_rings hl hs hwidth hc
  have hvl : v.Laid := by rw [hv]; exact hl.of_eq rfl rfl rfl rfl rfl
  have hnrx : v.config.nRx = s.config.nRx := by rw [hv]; rfl
  have hntx : v.config.nTx = s.config.nTx := by rw [hv]; rfl
  have hspan : (v.cfgAddr, v.config.cfgBlockLen) = (s.cfgAddr, s.config.cfgBlockLen) := by rw [hv]; rfl
  obtain ⟨t, hrun, hframe, honly⟩ := bootCommands_ok (s := v) (k1 := k1) (k2 := k2) (k3 := k3) (j := j) (k4 := k4)
    (status := status) (block := block) (rest := rest) (by rw [hv]; exact hw) hvl
    (by rw [hv]; exact ⟨hs.busy, hs.lines, hs.serCtl, hs.ee, hs.phy⟩) (by rw [hv]; exact ⟨rfl, fun _ => rfl⟩)
    (by rw [hv]; exact ⟨rfl, fun _ => rfl⟩) (by rw [hv]; exact hp) (by rw [hv]; exact ht)
  have hvalue : v.phyValue v.config.phyStatusReg.toNat = s.phyValue s.config.phyStatusReg.toNat := by rw [hv]; rfl
  have hrxAddr : t.rxAddr = v.rxAddr := by rw [hframe]
  have htxAddr : t.txAddr = v.txAddr := by rw [hframe]
  have hconfig : t.config = v.config := by rw [hframe]
  refine ⟨t, hrings.trans (hvalue ▸ hrun), ?_, fun i hi => ?_, fun i hi => ?_, fun x hx => ?_⟩
  · rw [hframe, hv]
    rfl
  · exact hvl.rxFresh_of_cfg (by rwa [hnrx]) (hrx i hi) hrxAddr hconfig honly
  · exact hvl.txFresh_of_cfg (by rwa [hntx]) (htx i hi) htxAddr hconfig honly
  · rw [hspan] at honly
    exact (honly x fun r hr => hx r (List.mem_append_right _ hr)).trans
      (hvonly x fun r hr => hx r (List.mem_append_left _ hr))

theorem resetOp_boots {s t : State} {f : PciFunction} {link : Half} (hs : s.started = false) (hf : s.located = some f)
    (hb : bootPrefix f s = .ok link t) :
    resetOp s = .ok .ok { t with linkSnapshot := link, irqArmed := true, started := true } := by
  simp only [resetOp, bind_apply, get_apply, hs, hf, bootSequence_eq, hb, require_apply, modify_apply, pure_apply,
    Bool.not_false, if_true]

end Sys2Proof.Machine
end

section
/-! SUPPORT. The statements of the state family, from the laws above. -/

namespace Sys2Proof.Proofs

open Sys2Proof Sys2Proof.Machine

/-- Settles O11: a request to a faulted block is refused, and a fault is part of what every step keeps. -/
theorem noReturnFromFault : Obligations.NoReturnFromFault := by
  intro s r hf
  refine ⟨fun i hi => ?_, fun t ht => (step_run ht).fault r hf⟩
  obtain ⟨op, ho⟩ := requestOp_isSome hi
  rw [exec_request ho, runOperation_faulted hf]

/-- Settles O12: every operation but `reset` first requires the mark. -/
theorem onlyResetBeforeStart : Obligations.OnlyResetBeforeStart := by
  intro s i hf hs hi hr
  obtain ⟨op, ho⟩ := requestOp_isSome hi
  rw [exec_request ho, runOperation_raised hf hf (request_started ho hr hs)]

/-- Settles O13: the mark is kept by every step; a step that sets it is an operation that starts the block. -/
theorem onlyResetStarts : Obligations.OnlyResetStarts := by
  intro s t h
  refine ⟨fun hs => ((step_run h).started hs).1, fun hs ht => ?_⟩
  have hst : s.started ≠ t.started := by rw [hs, ht]; decide
  rcases step_cases s with ⟨-, hx⟩ | ⟨w, p, rest, i, op, ha, hd, ho, hx⟩ | ⟨w, p, rest, r, -, -, hx⟩ | ⟨m, rest, -, hx⟩ <;>
    rw [hx] at h
  · cases h; exact absurd rfl hst
  · obtain ⟨rfl, hf, hr⟩ := operation_starts ho h hs ht
    exact ⟨w, p, rest, ha, hd, hf, hr⟩
  · rcases runOperation_cases h with ⟨-, -, rfl⟩ | ⟨-, x, u, hu, -⟩ | ⟨-, r, u, hu, rfl⟩
    · exact absurd rfl hst
    · cases hu
    · cases hu; exact absurd rfl hst
  · obtain ⟨-, hm⟩ := runDevice_moved h
    rw [hm.frame] at hst
    exact absurd rfl hst

/-- Settles O15: the outputs are part of what every step keeps. -/
theorem outputsOnlyGrow : Obligations.OutputsOnlyGrow := by
  intro s t h
  have hk := step_run h
  exact ⟨hk.log, hk.results, hk.replies, hk.reports, hk.wire, hk.events⟩

/-- Settles O16: a step with any other input keeps the three flags. -/
theorem onlyTheHardPhaseSetsFlags : Obligations.OnlyTheHardPhaseSetsFlags := by
  intro s t h hset
  by_contra hn
  have hk := step_flags h fun w p rest ha hd => hn ⟨w, p, rest, ha, hd⟩
  rcases hset with ⟨h0, h1⟩ | ⟨h0, h1⟩ | ⟨h0, h1⟩
  · exact absurd (h0.symm.trans (hk.fFr h1)) Bool.false_ne_true
  · exact absurd (h0.symm.trans (hk.fRnr h1)) Bool.false_ne_true
  · exact absurd (h0.symm.trans (hk.fSwi h1)) Bool.false_ne_true

/-- Settles O18: the frame of a device move. -/
theorem deviceWritesOnlyItsFields : Obligations.DeviceWritesOnlyItsFields := by
  intro s t m rest ha h
  rw [step_device ha] at h
  obtain ⟨-, hm⟩ := runDevice_moved h
  exact ⟨hm.frame, hm.only⟩

/-- Settles O27: `tx_append` finds the ring full, and each service defers. -/
theorem fullRingDefers : Obligations.FullRingDefers := by
  intro s frame c hr hfull hmin hmax
  have ha := txAppend_full hfull hmin hmax
  refine ⟨?_, fun hp => ?_, fun hp => ?_⟩
  · have hx : (txAppend frame >>= fun r => pure r.toResult) s = .ok .ringFull s := by rw [bind_apply, ha]; rfl
    exact run_ok (t := s) hr hx
  · have hx : (get >>= fun s => require (s.pendTx == .empty) .doubleArm >>= fun _ =>
        txService { client := c, frame := frame }) s = .ok .deferred { s with pendTx := .armed ⟨c, frame⟩ } := by
      simp only [bind_apply, get_apply, require_apply, hp, beq_self_eq_true, if_true]
      exact txService_full ha hp
    exact run_ok (t := { s with pendTx := .armed ⟨c, frame⟩ }) hr hx
  · have hx : replayTx s = .ok .deferred s := by
      have ha' := txAppend_full (s := { s with pendTx := .empty }) hfull hmin hmax
      rw [replayTx_armed hp, txService_full ha' rfl, ← hp]
    exact run_ok (t := s) hr hx

/-- Settles O58: what the bodies of TX and NOP do at a descriptor of either ring and where there is none. -/
theorem cuExecutesTheDescriptor : Obligations.CuExecutesTheDescriptor := by
  intro s k el ends linkRead sends completes
  refine ⟨fun ha => ⟨runDevice_cuExecute_inactive ha, runDevice_cuExecute_inactive ha⟩,
    fun hw ha hr => ⟨runDevice_cuExecute_outside hw ha hr, runDevice_cuExecute_outside hw ha hr⟩,
    fun hl ha hk hf => ?_, fun hl ha hk hf => ?_, fun ha hr hn => ?_⟩
  · have hmem := hl.txSlot_mem hk
    have hplace : s.placeOf .cu s.dev.cuFetch = .own := by rw [hf]; exact placeOf_own hmem
    have hrun : ∀ {body : Place → BusAddr → Op Unit} {t : State}, body .own (s.txSlot k) s = .ok () t →
        runDevice (cuExecute body) s = .next t := fun hb =>
      runDevice_cuExecute ha (by rw [hf]; exact inRegions_tx hmem) (by rw [hplace, hf]; exact hb)
    obtain ⟨t, beyond, hx, ht⟩ := cuTransmit_descriptor (el := el) (p := .own) rfl (deviceMayWrite_txStatus hmem)
      (hl.tx_header hk) rfl
    obtain ⟨u, hy, hu⟩ := cuNop_descriptor (el := el) (p := .own) rfl (deviceMayWrite_txStatus hmem) (hl.tx_header hk)
    exact ⟨⟨t, beyond, hrun hx, ht⟩, ⟨u, hrun hy, hu⟩⟩
  · have hmem := hl.rxSlot_mem hk
    have hplace : s.placeOf .cu s.dev.cuFetch = .other := by
      rw [hf]; exact placeOf_other (hl.rxSlot_notMem_tx hk) hmem
    have hrun : ∀ {body : Place → BusAddr → Op Unit} {t : State}, body .other (s.rxSlot k) s = .ok () t →
        runDevice (cuExecute body) s = .next t := fun hb =>
      runDevice_cuExecute ha (by rw [hf]; exact inRegions_rx hmem) (by rw [hplace, hf]; exact hb)
    obtain ⟨t, beyond, hx, ht⟩ := cuTransmit_descriptor (el := el) (p := .other) rfl (deviceMayWrite_rxStatus hmem)
      (hl.rx_header hk) rfl
    obtain ⟨u, hy, hu⟩ := cuNop_descriptor (el := el) (p := .other) rfl (deviceMayWrite_rxStatus hmem) (hl.rx_header hk)
    exact ⟨⟨_, byteCount_lt _, t, beyond, hrun hx, ht⟩, ⟨u, hrun hy, hu⟩⟩
  · rw [List.mem_append, not_or] at hn
    obtain ⟨hd, -⟩ := placeOf_noDescriptor (e := .cu) hn.1 hn.2
    obtain ⟨t, link, frame, hx, ht⟩ := cuTransmit_elsewhere (el := el) (s := s) (a := s.dev.cuFetch) hd
    obtain ⟨u, link', hy, hu⟩ := cuNop_elsewhere (el := el) (s := s) (a := s.dev.cuFetch) hd
    exact ⟨⟨t, link, frame, runDevice_cuExecute ha hr hx, ht⟩, ⟨u, link', runDevice_cuExecute ha hr hy, hu⟩⟩

/-- Settles O59: what the RU has filled, at a receive descriptor, at a TX descriptor and elsewhere. -/
theorem ruFillsTheDescriptor : Obligations.RuFillsTheDescriptor := by
  intro s frame status rest ha hr ends
  let v : State := { s with agenda := rest }
  refine ⟨fun hw ho => step_ruStep_outside ha hr hw ho, fun k hl hk hf => ?_, fun k hl hk hf => ?_, fun hi hn => ?_⟩
  · have hm := hl.rxSlot_mem hk
    have hplace : s.placeOf .ru s.dev.ruFill = .own := by rw [hf]; exact placeOf_own hm
    have hA := (Nat.add_le_add_left (descriptorSize_ge s.config) _).trans (hl.rx_fits hk)
    obtain ⟨t, length, hx, hshort, ht, hbuffer, hlength, hstatus, hspans, hev⟩ :=
      ruFillDescriptor_own v (s.rxSlot k) frame status hm hA
    have hslot : t.rxSlot k = s.rxSlot k := by rw [ht]; rfl
    refine ⟨t, length, step_ruStep_inside ha hr (by rw [hf]; exact inRegions_rx hm) (by rw [hplace, hf]; exact hx),
      hshort, ht, ?_, ?_, ?_, hspans, hev⟩
    · rw [State.rxBuffer, hslot]; exact hbuffer
    · rw [State.rxLength, hslot]; exact hlength
    · rw [State.rxStatus, hslot]; exact hstatus
  · have hm := hl.txSlot_mem hk
    have hplace : s.placeOf .ru s.dev.ruFill = .other := by
      rw [hf]; exact placeOf_other (hl.txSlot_notMem_rx hk) hm
    obtain ⟨t, hx, ht, hstatus, hspans⟩ := ruFillDescriptor_tx frame status (hl.of_eq (t := v) rfl rfl rfl rfl rfl) hk
    have hslot : t.txSlot k = s.txSlot k := by rw [ht]; rfl
    refine ⟨t, step_ruStep_inside ha hr (by rw [hf]; exact inRegions_tx hm) (by rw [hplace, hf]; exact hx), ht, ?_, hspans⟩
    rw [State.txStatus, hslot]
    exact hstatus
  · rw [List.mem_append, not_or] at hn
    obtain ⟨hd, -⟩ := placeOf_noDescriptor (e := .ru) hn.1 hn.2
    obtain ⟨t, el, link, hx, ht, hstatus, hspans⟩ := ruFillDescriptor_elsewhere v s.dev.ruFill frame status hd
    have hstep := step_ruStep_inside ha hr hi hx
    exact ⟨t, el, link, hstep, ht, hstatus, (deviceWritesOnlyItsFields s t _ rest ha hstep).2, hspans⟩

/-- Settles O34: the dump as the command issuer runs it, then the words read back. -/
theorem dumpIsReadBack : Obligations.DumpIsReadBack := by
  intro s ri c k j counters rest hw hl hr hi hp hk hj values
  obtain ⟨t, hx, ht, hcounters, hmagic, honly⟩ := issue_dump_ok hw hl hi hp hk hj
  have hres : t.results = s.results := by rw [ht]
  have hreplies : t.replies = s.replies := by rw [ht]
  refine ⟨t, ht, hcounters, ?_, honly, ?_, fun hri => ?_⟩
  · rw [← hmagic, ht]
  · rw [← hres]
    exact run_ok hr ((bind_ok hx).trans rfl)
  · subst hri
    obtain ⟨ev, hread⟩ := readWords_ok .block s.config.statsWords s.statsAddr t
    have hsnap : ((List.range s.config.statsWords).map fun i => t.word (s.statsAddr + BitVec.ofNat 32 (4 * i))) = values := by
      have hconf : t.config = s.config := by rw [ht]
      have hst : t.statsAddr = s.statsAddr := by rw [ht]
      rw [State.statsCounters, hconf, hst] at hcounters
      exact hcounters
    rw [hsnap] at hread
    refine ⟨ev, ?_⟩
    rw [← hres, ← hreplies]
    exact run_ok (t := { t with replies := t.replies ++ [(some c, .snapshot values)], events := ev }) hr
      ((bind_ok rfl).trans ((bind_ok hx).trans ((bind_ok hread).trans rfl)))

/-- Settles O41: the drain stops in an active ring, so no configuration is sent; the restart finds the race, and no
request is armed. -/
theorem commandRaceIsLogged : Obligations.CommandRaceIsLogged := by
  intro s k hrun hlen hhead htail hreset hcna hrnr hreport hrx htx hidle hk hchain hstop hrace
  obtain ⟨ev, hdrained⟩ := txDrain_run (s := { s with fFr := false, fSwi := false, fCna := false }) hchain hlen hhead htail
    hidle hstop
  obtain ⟨v, hv, hdrain⟩ : ∃ v : State, v = { s with
      fFr := false, fSwi := false, fCna := false, txTail := s.txWalk k, txAlive := true
      txThreshold := thresholdAfter s.config s.txThreshold (s.underruns k), events := ev } ∧
      txDrain { s with fFr := false, fSwi := false, fCna := false } = .ok k v :=
    ⟨_, rfl, hdrained.trans (by rw [if_pos hk]; rfl)⟩
  have hvidle : v.txIdle = false := by rw [hv]; exact hidle
  have hvrace : v.dev.unitState .cu ≠ .idle := by rw [hv]; exact hrace
  have hvtx : v.pendTx = .empty := by rw [hv]; exact htx
  have hcfg : applyPendingConfig v = .ok () v := applyPendingConfig_none (by rw [hvidle, Bool.and_false])
  have hrestart := restartCu_race hk hvidle hvrace
  generalize hw : ({ v with
    log := v.log ++ [.cmdRace .cu (v.dev.unitState .cu)], fCna := true, events := v.statusRead :: v.events } : State) = w
    at hrestart
  have hwtx : w.pendTx = .empty := by rw [← hw]; exact hvtx
  have hdeferred : txDeferred { s with fFr := false, fSwi := false } = .ok () w :=
    (bind_ok rfl).trans <|
    (bind_ok hdrain).trans <|
    (bind_ok hcfg).trans <|
    (bind_ok hrestart).trans <|
    (bind_ok (replayTx_empty hwtx)).trans rfl
  have hphase := deferredPhase_tx hreset hrx hcna hdeferred (by rw [← hw, hv]; exact hrnr)
    (by rw [← hw, hv]; exact hreport)
  refine ⟨v.statusRead :: v.events, (run_ok hrun hphase).trans ?_⟩
  rw [← hw, hv]

/-- Settles O56: the regions are mapped, then the sequence runs on a state whose regions lie apart. -/
theorem resetStartsTheBlock : Obligations.ResetStartsTheBlock := by
  intro s f rx tx stats cfg w k1 k2 k3 j k4 status block rest hw hfault hstarted hlocated hbar hanswers hregions haligned
    hrxLen htxLen hserial hwidth hee hscript htime
  obtain ⟨hrx, htx, hmap⟩ := mapRegions_answers (s := { s with base := f.base, irq := f.irq }) hrxLen htxLen hanswers
    haligned
  generalize hv : ({ s with
    base := f.base, irq := f.irq, rxAddr := rx, txAddr := tx, statsAddr := stats, cfgAddr := cfg } : State) = v
  have hmap : mapRegions { s with base := f.base, irq := f.irq } = .ok () v := by rw [← hv]; exact hmap
  have hprefix : bootPrefix f s = bootRest v :=
    (bind_ok rfl).trans ((bind_ok rfl).trans ((bind_ok (by rw [require_apply, hbar]; rfl)).trans (bind_ok hmap)))
  have hl : v.Laid := by rw [← hv]; exact ⟨hrx, htx, hregions⟩
  obtain ⟨t, hrun, hframe, hrxFresh, htxFresh, honly⟩ := bootRest_ok (s := v) (w := w) (k1 := k1) (k2 := k2) (k3 := k3)
    (j := j) (k4 := k4) (status := status) (block := block) (rest := rest) (by rw [← hv]; exact hw) hl
    (by rw [← hv]; exact ⟨hserial.busy, hserial.lines, hserial.serCtl, hserial.ee, hserial.phy⟩)
    (by rw [← hv]; exact hwidth) (by rw [← hv]; exact hee) (by rw [← hv]; exact hscript) (by rw [← hv]; exact htime)
  have hhead : rx.headD 0 = v.rxSlot 0 := by rw [← hv]; cases rx <;> rfl
  rw [hhead]
  refine ⟨_, runOperation_ok hfault (resetOp_boots hstarted hlocated (hprefix.trans hrun)), ?_, ?_, ?_, ?_⟩
  · rw [hframe, ← hv]
    rfl
  · rw [← hv] at hrxFresh
    intro i hi
    obtain ⟨h1, h2, h3, h4, h5⟩ := hrxFresh i hi
    exact ⟨h1, h2, h3, h4, h5⟩
  · rw [← hv] at htxFresh
    intro i hi
    obtain ⟨h1, h2, h3, h4, h5⟩ := htxFresh i hi
    exact ⟨h1, h2, h3, h4, h5⟩
  · rw [← hv] at honly
    exact honly

end Sys2Proof.Proofs
end

section
/-! SUPPORT. What a step of the CU runs at each place it has come to (R262 move 2): the command it reads there, and that
it stops outside the regions. -/

namespace Sys2Proof.Machine

/-! ### The command the CU reads -/

section
variable {s : State}

theorem cuAtCommand_of_place (ha : s.dev.unitState .cu = .active)
    (hp : (s.placeOf .cu s.dev.cuFetch).hasCommand = true) : s.cuAtCommand = true := by
  have hactive : (unitStateOf s.dev.cuCode == .active) = true := beq_iff_eq.mpr ha
  rw [State.cuAtCommand, hactive, hp, Bool.and_self]

theorem placeOf_descriptor (h : s.dev.cuFetch ∈ s.txAddr ++ s.rxAddr) :
    (s.placeOf .cu s.dev.cuFetch).isDescriptor = true ∧ (s.placeOf .cu s.dev.cuFetch).hasCommand = true := by
  by_cases htx : s.dev.cuFetch ∈ s.txAddr
  · rw [placeOf_own (e := .cu) htx]
    exact ⟨rfl, rfl⟩
  · rw [placeOf_other (e := .cu) htx ((List.mem_append.mp h).resolve_left htx)]
    exact ⟨rfl, rfl⟩

/-- At a descriptor the CU reads the command word as it stands. -/
theorem cuCommand_descriptor (h : s.dev.cuFetch ∈ s.txAddr ++ s.rxAddr) :
    s.cuCommand = s.half (s.dev.cuFetch + offCommand) := if_pos (placeOf_descriptor h).1

theorem cuCommand_elsewhere (hp : s.placeOf .cu s.dev.cuFetch = .elsewhere) :
    s.cuCommand = absentCommand (Config.absentField s.events.length) :=
  if_neg (by rw [hp]; decide)

end

/-- A free command is NOP or TX (log entry 41). -/
theorem decodeTxCommand_absent (v : Word) :
    decodeTxCommand (absentCommand v) = .ok (.txdOpNop (v.getLsbD 15)) ∨
      decodeTxCommand (absentCommand v) = .ok (.txdOpTx (v.getLsbD 15)) := by
  have hnop : ∀ el, decodeTxCommand (txCommandWord el opNop) = .ok (.txdOpNop el) := by decide
  have htx : ∀ el, decodeTxCommand (txCommandWord el opTx) = .ok (.txdOpTx el) := by decide
  rw [absentCommand]
  cases v.getLsbD 0
  · exact .inl (hnop _)
  · exact .inr (htx _)

/-! ### The step -/

section
variable {s : State} {rest : List Input}

theorem step_accept_ok {e : Engine} {i : Instr} (h : s.agenda = .device (.accept e) :: rest)
    (hd : decodeScbByte s.config.cmdCodes e (scbCmdByte s.dev) = .ok i) : step s = exec i { s with agenda := rest } := by
  simp only [step, h, runInput, fetch, decode, hd, afterFetch]

theorem step_accept_reserved {e : Engine} {r : DecodeError} (h : s.agenda = .device (.accept e) :: rest)
    (hd : decodeScbByte s.config.cmdCodes e (scbCmdByte s.dev) = .error r) : step s = .fault .reservedDeviceCommand := by
  simp only [step, h, runInput, fetch, decode, hd, runIllegal]

variable {status : Half} {block : List Byte} (h : s.agenda = .device (.cuStep status block) :: rest)
include h

/-- A CU step where there is a command is the step of its instruction, or stops at a reserved code. -/
theorem step_cuStep_ok {i : Instr} (hc : s.cuAtCommand = true) (hd : decodeTxCommand s.cuCommand = .ok i) :
    step s = exec i (afterFetch (.device (.cuStep status block)) { s with agenda := rest }) := by
  have hat : State.cuAtCommand { s with agenda := rest } = true := hc
  have hdecode : decodeTxCommand (State.cuCommand { s with agenda := rest }) = .ok i := hd
  simp only [step, h, runInput, fetch, hat, if_true, decode, hdecode]

theorem step_cuStep_reserved {r : DecodeError} (hc : s.cuAtCommand = true)
    (hd : decodeTxCommand s.cuCommand = .error r) : step s = .fault .reservedDeviceCommand := by
  have hat : State.cuAtCommand { s with agenda := rest } = true := hc
  have hdecode : decodeTxCommand (State.cuCommand { s with agenda := rest }) = .error r := hd
  simp only [step, h, runInput, fetch, hat, if_true, decode, hdecode, runIllegal]

theorem step_cuStep_outside (ha : s.dev.unitState .cu = .active) (hw : s.config.wf = true)
    (ho : s.inRegions s.dev.cuFetch = false) : step s = .fault .outsideRegions := by
  obtain ⟨-, -, -, -, -, -, hlen⟩ := Config.wf_facts hw
  generalize hv : ({ s with agenda := rest, dev := { s.dev with cuDraw := status } } : State) = v
  have hactive : unitStateOf v.dev.cuCode = .active := by rw [← hv]; exact ha
  have hplace : v.placeOf .cu v.dev.cuFetch = .outside := by
    rw [← hv]; exact placeOf_outside (s := s) (e := .cu) (by omega) ho
  have hrun : cuStepMove status block { s with agenda := rest } = .error (.fault .outsideRegions) v := by
    simp only [cuStepMove, modifyDevice, bind_apply, modify_apply, get_apply, hv, hactive, if_true, hplace, stop_apply]
  exact (step_cuStep h).trans (runDevice_fault hrun)

end

end Sys2Proof.Machine
end

section
/-! SUPPORT. Mapping the regions when the collaborator gives an answer the block does not accept (R68, R72): which Fatal
the first such answer in the rule's order raises, and what is cached before it. -/

namespace Sys2Proof.Machine

/-! ### One answer -/

theorem accepted_of_answerOk {answer : Option BusAddr} (h : answerOk answer = true) : Accepted answer := by
  cases answer with
  | none => exact absurd h Bool.false_ne_true
  | some b => exact ⟨b, rfl, beq_iff_eq.mp h⟩

/-- The Fatal of an answer the block does not accept. -/
def refusalOf (answer : Option BusAddr) : FatalReason := if answer = none then .mapFailed else .misaligned

theorem some_refusalOf (answer : Option BusAddr) :
    some (refusalOf answer) = if answer = none then some .mapFailed else some .misaligned := by
  unfold refusalOf
  split <;> rfl

theorem checkMapped_refused {answer : Option BusAddr} (h : answerOk answer = false) (s : State) :
    checkMapped answer s = .error (.fatal (refusalOf answer)) s := by
  cases answer with
  | none => rfl
  | some b =>
    have hb : (b.toNat % 4 == 0) = false := h
    simp only [checkMapped, bind_apply, require_apply, hb]
    rfl

/-! ### The answers in the rule's order -/

section
variable {c : Config} {m : BusMap}

theorem getD_map_range {α : Type} (f : Nat → α) {n j : Nat} (hj : j < n) (d : α) :
    ((List.range n).map f).getD j d = f j := by
  rw [List.getD_eq_getElem _ _ (by simpa), List.getElem_map, List.getElem_range]

theorem inOrder_rx {j : Nat} (hj : j < c.nRx) : (m.inOrder c).getD j none = m.rx.getD j none := by
  rw [BusMap.inOrder, List.append_assoc, List.getD_append _ _ _ _ (by simpa), getD_map_range _ hj]

theorem inOrder_tx {j : Nat} (hj : j < c.nTx) : (m.inOrder c).getD (c.nRx + j) none = m.tx.getD j none := by
  rw [BusMap.inOrder, List.append_assoc, List.getD_append_right _ _ _ _ (by simp),
    List.length_map, List.length_range, Nat.add_sub_cancel_left, List.getD_append _ _ _ _ (by simpa),
    getD_map_range _ hj]

theorem inOrder_stats : (m.inOrder c).getD (c.nRx + c.nTx) none = m.stats := by
  rw [BusMap.inOrder, List.getD_append_right _ _ _ _ (by simp), List.length_append, List.length_map, List.length_map,
    List.length_range, List.length_range, Nat.sub_self]
  rfl

theorem inOrder_cfg : (m.inOrder c).getD (c.nRx + c.nTx + 1) none = m.cfg := by
  rw [BusMap.inOrder, List.getD_append_right _ _ _ _ (by simp), List.length_append, List.length_map, List.length_map,
    List.length_range, List.length_range, Nat.add_sub_cancel_left]
  rfl

end

/-! ### One ring -/

/-- Mapping a ring, whichever it is: the collaborator's answers for it, and how one is cached. -/
def mapRing (answers : BusMap → List (Option BusAddr)) (put : Nat → BusAddr → State → State) (i : Nat) : Nat → Op Unit
  | 0 => pure ()
  | count + 1 => do
    let s ← get
    let a ← checkMapped ((answers s.busMap).getD i none)
    modify (put i a)
    mapRing answers put (i + 1) count

/-- The next RX address is cached. -/
def putRx (i : Nat) (a : BusAddr) (s : State) : State := { s with rxAddr := cacheAt s.rxAddr i a }

/-- The next TX address is cached. -/
def putTx (i : Nat) (a : BusAddr) (s : State) : State := { s with txAddr := cacheAt s.txAddr i a }

theorem mapRx_eq_mapRing (i count : Nat) : mapRx i count = mapRing BusMap.rx putRx i count := by
  induction count generalizing i with
  | zero => rfl
  | succ n ih => rw [mapRx, mapRing, ih]; rfl

theorem mapTx_eq_mapRing (i count : Nat) : mapTx i count = mapRing BusMap.tx putTx i count := by
  induction count generalizing i with
  | zero => rfl
  | succ n ih => rw [mapTx, mapRing, ih]; rfl

theorem mapRing_accepted {answers : BusMap → List (Option BusAddr)} {put : Nat → BusAddr → State → State} {i n : Nat}
    {s : State} {b : BusAddr} (hb : checkMapped ((answers s.busMap).getD i none) s = .ok b s) :
    mapRing answers put i (n + 1) s = mapRing answers put (i + 1) n (put i b s) :=
  (bind_ok rfl).trans ((bind_ok hb).trans (bind_ok rfl))

section
variable {answers : BusMap → List (Option BusAddr)} {put : Nat → BusAddr → State → State} {P : State → Prop} {m : BusMap}
  (hput : ∀ i a t, P t → P (put i a t)) (hbus : ∀ t, P t → t.busMap = m)
include hput hbus

/-- The answers the block accepts are passed; `P` is what caching an address keeps. -/
theorem mapRing_passes {k i : Nat} (n : Nat) {s : State} (hs : P s)
    (h : ∀ j, j < k → Accepted ((answers m).getD (i + j) none)) :
    ∃ t, P t ∧ mapRing answers put i (k + n) s = mapRing answers put (i + k) n t := by
  induction k generalizing i s with
  | zero => exact ⟨s, hs, by rw [Nat.zero_add]; rfl⟩
  | succ k ih =>
    obtain ⟨b, hb⟩ := checkMapped_accepted (h 0 (Nat.succ_pos k)) s
    rw [Nat.add_zero, ← hbus s hs] at hb
    obtain ⟨t, ht, hx⟩ := ih (i := i + 1) (hput i b s hs) fun j hj => by
      rw [Nat.add_assoc, Nat.add_comm 1]; exact h (j + 1) (Nat.succ_lt_succ hj)
    refine ⟨t, ht, ?_⟩
    rw [Nat.add_right_comm k 1 n, mapRing_accepted hb, hx, Nat.add_assoc i 1 k, Nat.add_comm 1 k]

theorem mapRing_ends {count : Nat} {s : State} (hs : P s) (h : ∀ j, j < count → Accepted ((answers m).getD j none)) :
    ∃ t, P t ∧ mapRing answers put 0 count s = .ok () t := by
  obtain ⟨t, ht, hx⟩ := mapRing_passes hput hbus (i := 0) 0 hs fun j hj => by rw [Nat.zero_add]; exact h j hj
  exact ⟨t, ht, hx⟩

/-- The first answer that the block does not accept ends the mapping. -/
theorem mapRing_refused {count k : Nat} {s : State} (hk : k < count) (hs : P s)
    (h : ∀ j, j < k → Accepted ((answers m).getD j none)) (hbad : answerOk ((answers m).getD k none) = false) :
    ∃ t, P t ∧ mapRing answers put 0 count s = .error (.fatal (refusalOf ((answers m).getD k none))) t := by
  obtain ⟨n, rfl⟩ : ∃ n, count = k + (n + 1) := ⟨count - k - 1, by omega⟩
  obtain ⟨t, ht, hx⟩ := mapRing_passes hput hbus (i := 0) (n + 1) hs fun j hj => by rw [Nat.zero_add]; exact h j hj
  refine ⟨t, ht, hx.trans ?_⟩
  rw [Nat.zero_add, mapRing, bind_apply, get_apply]
  simp only [bind_apply, hbus t ht, checkMapped_refused hbad]

end

/-! ### Every region -/

/-- Of a state only the caches filled before the configuration block's can have changed. -/
def State.Mapping (s t : State) : Prop :=
  t = { s with rxAddr := t.rxAddr, txAddr := t.txAddr, statsAddr := t.statsAddr }

theorem State.Mapping.refl (s : State) : s.Mapping s := rfl

theorem State.Mapping.busMap {s t : State} (h : s.Mapping t) : t.busMap = s.busMap := by rw [h]

theorem State.Mapping.put {s t : State} (h : s.Mapping t) (i : Nat) (a : BusAddr) :
    s.Mapping (putRx i a t) ∧ s.Mapping (putTx i a t) := by
  unfold State.Mapping
  constructor <;> rw [h] <;> rfl

/-- The regions before the first bad answer are mapped, and that answer's Fatal is raised (R271). -/
theorem mapRegions_refused {s : State} {i : Nat}
    (h : ∀ j, j < i → answerOk ((s.busMap.inOrder s.config).getD j none) = true)
    (hi : i < s.config.nRx + s.config.nTx + 2) (hbad : answerOk ((s.busMap.inOrder s.config).getD i none) = false) :
    ∃ t, s.Mapping t ∧
      mapRegions s = .error (.fatal (refusalOf ((s.busMap.inOrder s.config).getD i none))) t := by
  have hrx : ∀ j, j < i → j < s.config.nRx → Accepted (s.busMap.rx.getD j none) := fun j hj hr =>
    accepted_of_answerOk (inOrder_rx hr ▸ h j hj)
  have htx : ∀ j, s.config.nRx + j < i → j < s.config.nTx → Accepted (s.busMap.tx.getD j none) := fun j hj ht =>
    accepted_of_answerOk (inOrder_tx ht ▸ h _ hj)
  have hputRx : ∀ i a t, s.Mapping t → s.Mapping (putRx i a t) := fun i a t ht => (ht.put i a).1
  have hputTx : ∀ i a t, s.Mapping t → s.Mapping (putTx i a t) := fun i a t ht => (ht.put i a).2
  have hbus : ∀ t, s.Mapping t → t.busMap = s.busMap := fun t ht => ht.busMap
  by_cases hiRx : i < s.config.nRx
  · rw [inOrder_rx hiRx] at hbad ⊢
    obtain ⟨t, ht, hx⟩ := mapRing_refused hputRx hbus hiRx (.refl s) (fun j hj => hrx j hj (by omega)) hbad
    rw [← mapRx_eq_mapRing] at hx
    exact ⟨t, ht, by simp only [mapRegions, bind_apply, get_apply, hx]⟩
  obtain ⟨u, hu, hmapRx⟩ := mapRing_ends hputRx hbus (.refl s) fun j hj => hrx j (by omega) hj
  rw [← mapRx_eq_mapRing] at hmapRx
  by_cases hiTx : i < s.config.nRx + s.config.nTx
  · obtain ⟨k, rfl⟩ : ∃ k, i = s.config.nRx + k := ⟨i - s.config.nRx, by omega⟩
    have hk : k < s.config.nTx := by omega
    rw [inOrder_tx hk] at hbad ⊢
    obtain ⟨t, ht, hx⟩ := mapRing_refused hputTx hbus hk hu (fun j hj => htx j (by omega) (by omega)) hbad
    rw [← mapTx_eq_mapRing] at hx
    exact ⟨t, ht, by simp only [mapRegions, bind_apply, get_apply, hmapRx, hx]⟩
  obtain ⟨v, hv, hmapTx⟩ := mapRing_ends hputTx hbus hu fun j hj => htx j (by omega) hj
  rw [← mapTx_eq_mapRing] at hmapTx
  by_cases hiStats : i = s.config.nRx + s.config.nTx
  · rw [hiStats, inOrder_stats] at hbad ⊢
    exact ⟨v, hv, by simp only [mapRegions, bind_apply, get_apply, hmapRx, hmapTx, checkMapped_refused hbad]⟩
  · have hiCfg : i = s.config.nRx + s.config.nTx + 1 := by omega
    have hstats : Accepted s.busMap.stats :=
      accepted_of_answerOk (inOrder_stats ▸ h (s.config.nRx + s.config.nTx) (by omega))
    obtain ⟨a, ha⟩ := checkMapped_accepted hstats v
    rw [hiCfg, inOrder_cfg] at hbad ⊢
    refine ⟨{ v with statsAddr := a }, by unfold State.Mapping; rw [hv], ?_⟩
    simp only [mapRegions, bind_apply, get_apply, hmapRx, hmapTx, ha, modify_apply, checkMapped_refused hbad]

end Sys2Proof.Machine
end

section
/-! SUPPORT. The start-up sequence's commands when one of them ends it early (R160, R161, R169): not accepted, the CU not
idle again, or an engine that has drifted. -/

namespace Sys2Proof.Machine

/-! ### How a piece of the sequence ends -/

section
variable {α β : Type}

/-- A piece raises a Fatal: the poll script and the device it leaves, and the spans where memory may have changed. -/
def Raises (x : Op α) (s : State) (r : FatalReason) (rest : List PollEvent) (d : Device) (sp : List (BusAddr × Nat)) :
    Prop :=
  ∃ t : State, x s = .error (.fatal r) t ∧
    t = { s with pollScript := rest, dev := d, mem := t.mem, events := t.events } ∧ s.ChangesOnly t sp

/-- A piece ends, likewise. -/
def Reaches (x : Op Unit) (s : State) (rest : List PollEvent) (d : Device) (sp : List (BusAddr × Nat)) : Prop :=
  ∃ t : State, x s = .ok () t ∧
    t = { s with pollScript := rest, dev := d, mem := t.mem, events := t.events } ∧ s.ChangesOnly t sp

variable {s : State} {r : FatalReason} {l rest : List PollEvent} {d d' : Device} {sp : List (BusAddr × Nat)}

theorem Raises.of_eq {x : Op α} {ev : List BusEvent}
    (h : x s = .error (.fatal r) { s with pollScript := rest, dev := d, events := ev }) : Raises x s r rest d sp :=
  ⟨_, h, rfl, fun _ _ => rfl⟩

theorem Reaches.of_eq {x : Op Unit} {ev : List BusEvent}
    (h : x s = .ok () { s with pollScript := rest, dev := d, events := ev }) : Reaches x s rest d sp :=
  ⟨_, h, rfl, fun _ _ => rfl⟩

/-- Nothing runs after a Fatal. -/
theorem Raises.bind {x : Op α} (h : Raises x s r rest d sp) (f : α → Op β) : Raises (x >>= f) s r rest d sp := by
  obtain ⟨t, hx, ht⟩ := h
  exact ⟨t, by rw [bind_apply, hx], ht⟩

theorem Reaches.then_raises {x : Op Unit} {f : Unit → Op β} (h : Reaches x s l d sp)
    (hf : ∀ m ev, Raises (f ()) { s with pollScript := l, dev := d, mem := m, events := ev } r rest d' sp) :
    Raises (x >>= f) s r rest d' sp := by
  obtain ⟨t, hx, ht, htonly⟩ := h
  obtain ⟨u, hu, hframe, huonly⟩ := hf t.mem t.events
  rw [← ht] at hu
  exact ⟨u, (bind_ok hx).trans hu, hframe, fun y hy => (huonly y hy).trans (htonly y hy)⟩

end

/-! ### A drift during a poll -/

/-- The device after an engine has drifted (R262 move 7). -/
def Device.drifted (d : Device) (e : Engine) (code : BitVec 3) : Device :=
  match e with
  | .cu => { d with cuCode := code }
  | .ru => { d with ruCode := code }

theorem deviceMove_drift (e : Engine) (code : BitVec 3) (s : State) :
    deviceMove (.drift e code) s = .ok () { s with dev := s.dev.drifted e code } := by cases e <;> rfl

theorem withCommand_drifted (d : Device) (k : CmdCodes) (cmd : EngineCommand) (a : BusAddr) (e : Engine)
    (code : BitVec 3) : (d.withCommand k cmd a).drifted e code = (d.drifted e code).withCommand k cmd a := by
  cases e <;> rfl

theorem noCommand_drifted (d : Device) (e e' : Engine) (code : BitVec 3) :
    (d.drifted e code).noCommand e' = d.noCommand e' := by
  cases e <;> cases e' <;> rfl

/-- A command that is accepted after an engine has drifted. -/
theorem issue_accepted_drift {s : State} {cmd : EngineCommand} {a : BusAddr} {ri : Bool} {e : Engine} {code : BitVec 3}
    {k : Nat} {rest : List PollEvent} (hw : s.config.cmdCodes.wf = true) (hc : cmd ≠ .cuDumpStatistics)
    (h : s.CanIssue cmd.engine ri) (hp : s.pollScript = .move (.drift e code) :: acceptedAfter cmd.engine k rest)
    (hk : k < s.pollBound cmd.engine) :
    ∃ ev, issue cmd a ri s =
      .ok () { s with dev := cmd.effect a (s.dev.drifted e code), pollScript := rest, events := ev } := by
  obtain ⟨n, hn⟩ : ∃ n, s.pollBound cmd.engine = n + 1 := ⟨s.pollBound cmd.engine - 1, by omega⟩
  have hmove := deviceMove_drift e code (s.issued cmd a ri)
  have hdev : (s.issued cmd a ri).dev.drifted e code = (s.dev.drifted e code).withCommand s.config.cmdCodes cmd a :=
    withCommand_drifted _ _ _ _ _ _
  rw [hdev] at hmove
  rw [issue_start hc h, hp, hn, awaitLoop_move hmove, ← hn]
  exact awaitField_answered (s := { s.issued cmd a ri with
    dev := (s.dev.drifted e code).withCommand s.config.cmdCodes cmd a }) hw
    ((noCommand_drifted _ _ _ _).trans h.noCommand) rfl hk

/-! ### One command -/

section
variable {s : State} {cmd : EngineCommand} {a : BusAddr} {k : Nat} {rest : List PollEvent}
  {sp : List (BusAddr × Nat)}

theorem issue_raises_notIdle (h : s.dev.unitState cmd.engine ≠ .idle) :
    Raises (issue cmd a true) s .notIdle s.pollScript s.dev sp := .of_eq (issue_notIdle h)

variable (hw : s.config.cmdCodes.wf = true) (hc : cmd ≠ .cuDumpStatistics) (h : s.CanIssue cmd.engine true)
include hw hc h

theorem issue_raises_timeout (hp : PollFails s.pollScript (s.pollBound cmd.engine) rest) :
    Raises (issue cmd a true) s .cmdTimeout rest (s.dev.withCommand s.config.cmdCodes cmd a) sp :=
  have ⟨_, hx⟩ := issue_timeout hw hc h hp
  .of_eq hx

theorem issue_reaches (hp : s.pollScript = acceptedAfter cmd.engine k rest) (hk : k < s.pollBound cmd.engine) :
    Reaches (issue cmd a true) s rest (cmd.effect a s.dev) sp :=
  have ⟨_, hx⟩ := issue_accepted' hw hc h hp hk
  .of_eq hx

theorem issue_reaches_drift {e : Engine} {code : BitVec 3}
    (hp : s.pollScript = .move (.drift e code) :: acceptedAfter cmd.engine k rest) (hk : k < s.pollBound cmd.engine) :
    Reaches (issue cmd a true) s rest (cmd.effect a (s.dev.drifted e code)) sp :=
  have ⟨_, hx⟩ := issue_accepted_drift hw hc h hp hk
  .of_eq hx

end

/-! ### The configuration -/

/-- The configuration block, as a span. -/
def State.cfgSpan (s : State) : BusAddr × Nat := (s.cfgAddr, s.config.cfgBlockLen)

/-- The block written for the table, before the command (R169). -/
def State.cfgWritten (s : State) : State := s.store .block s.cfgAddr (cfgBlock s.config s.cfg)

/-- `apply_config` after the block is written (R169): the CU is started at it and must become idle again. -/
def sendCfg (a : BusAddr) (bound : Nat) : Op Unit := do
  issue .cuStart a true
  awaitDevice readCuIdle bound .cmdTimeout
  modify fun s => { s with cfgPending := false }

section
variable {s : State}

theorem applyConfig_apply (s : State) : applyConfig s =
    (writeBuffer .block s.cfgAddr (cfgBlock s.config s.cfg) >>= fun _ => sendCfg s.cfgAddr s.config.cuPollBound) s := rfl

theorem cfgWritten_only (s : State) : s.ChangesOnly s.cfgWritten [s.cfgSpan] := fun x hx => by
  have hout : inSpan s.cfgAddr s.config.cfgBlockLen x = false := hx s.cfgSpan (List.mem_singleton.mpr rfl)
  rw [← length_cfgBlock s.config s.cfg] at hout
  exact byteAt_store_other hout

theorem writeCfg_reaches (s : State) :
    Reaches (writeBuffer .block s.cfgAddr (cfgBlock s.config s.cfg)) s s.pollScript s.dev [s.cfgSpan] :=
  ⟨s.cfgWritten, rfl, rfl, cfgWritten_only s⟩

/-- What the command raises after the block is written. -/
theorem applyConfig_raises {r : FatalReason} {rest : List PollEvent} {d : Device}
    (h : ∀ m ev, Raises (sendCfg s.cfgAddr s.config.cuPollBound) { s with mem := m, events := ev } r rest d [s.cfgSpan]) :
    Raises applyConfig s r rest d [s.cfgSpan] := by
  unfold Raises
  rw [applyConfig_apply]
  exact (writeCfg_reaches s).then_raises h

theorem applyConfig_raises_notIdle (h : s.dev.unitState .cu ≠ .idle) :
    Raises applyConfig s .notIdle s.pollScript s.dev [s.cfgSpan] :=
  applyConfig_raises fun m ev =>
    (issue_raises_notIdle (s := { s with mem := m, events := ev }) (cmd := .cuStart) h).bind _

section
variable {k : Nat} {l rest : List PollEvent} (hw : s.config.cmdCodes.wf = true) (h : s.CanIssue .cu true)
include hw h

theorem applyConfig_raises_timeout (hp : PollFails s.pollScript s.config.cuPollBound rest) :
    Raises applyConfig s .cmdTimeout rest (s.dev.withCommand s.config.cmdCodes .cuStart s.cfgAddr) [s.cfgSpan] :=
  applyConfig_raises fun m ev =>
    (issue_raises_timeout (s := { s with mem := m, events := ev }) (cmd := .cuStart) hw (by decide)
      ⟨h.noCommand, h.idle⟩ hp).bind _

/-- The CU accepts the command and does not become idle again in time (R169). -/
theorem applyConfig_raises_busy (hp : s.pollScript = acceptedAfter .cu k l) (hk : k < s.config.cuPollBound)
    (hf : PollFails l s.config.cuPollBound rest) :
    Raises applyConfig s .cmdTimeout rest (EngineCommand.effect .cuStart s.cfgAddr s.dev) [s.cfgSpan] := by
  refine applyConfig_raises fun m ev => (issue_reaches (s := { s with mem := m, events := ev }) (cmd := .cuStart) hw
    (by decide) ⟨h.noCommand, h.idle⟩ hp hk).then_raises fun m' ev' => ?_
  obtain ⟨ev'', hx⟩ := awaitLoop_fails (r := .cmdTimeout) (saysNo_cuIdle (s := { s with
    pollScript := l, dev := EngineCommand.effect .cuStart s.cfgAddr s.dev, mem := m', events := ev' })
    (show unitStateOf codeActive ≠ .idle by decide)) hf
  exact Raises.bind (.of_eq hx) _

end

/-- A CU at the configuration block executes it after some reads that still find it busy (R169). -/
theorem awaitCuIdle_block {j n : Nat} {status : Half} {block : List Byte} {rest : List PollEvent}
    (ha : s.dev.unitState .cu = .active) (hp : s.placeOf .cu s.dev.cuFetch = .block) (hj : j < n) :
    ∃ ev ev', awaitLoop readCuIdle .cmdTimeout (List.replicate j .read ++ .move (.cuStep status block) :: .read :: rest) n s =
      .ok () { State.blockExecuted { s with events := ev } status block with pollScript := rest, events := ev' } := by
  have hno : SaysNo readCuIdle s := saysNo_cuIdle (by rw [ha]; decide)
  have hm : ∀ ev, ∃ u, deviceMove (.cuStep status block) { s with events := ev } = .ok () u ∧
      ∃ ev, u = State.blockExecuted { s with events := ev } status block := fun ev =>
    ⟨_, deviceMove_block status block ha hp ev, ev, rfl⟩
  have hyes : ∀ u, (∃ ev, u = State.blockExecuted { s with events := ev } status block) →
      ∃ ev, readCuIdle u = .ok true { u with events := ev } := by
    rintro _ ⟨ev, rfl⟩
    exact ⟨_, readCuIdle_idle rfl⟩
  obtain ⟨_, ev', ⟨ev, rfl⟩, hx⟩ := awaitLoop_answered (r := .cmdTimeout) (rest := rest) hno hm hyes hj
  exact ⟨ev, ev', hx⟩

theorem cfgWritten_block (hl : s.Laid) :
    s.cfgWritten.mem.readBytes s.cfgAddr s.config.cfgBlockLen = cfgBlock s.config s.cfg := by
  have hlen := length_cfgBlock s.config s.cfg
  have hsame := readBytes_store_same (s := s) (w := .block) (a := s.cfgAddr) (bs := cfgBlock s.config s.cfg)
    (by have := hl.cfg_fits; omega)
  rwa [hlen] at hsame

/-- `apply_config` once its command was accepted by a device `d` that then executes the block (R169). -/
theorem applyConfig_reaches {d : Device} {j : Nat} {status : Half} {block : List Byte} {rest : List PollEvent}
    {ev : List BusEvent} (hw : s.config.wf = true) (hl : s.Laid) (hcfg : s.cfgPending = false)
    (hissue : issue .cuStart s.cfgAddr true s.cfgWritten = .ok () { s.cfgWritten with
      dev := EngineCommand.effect .cuStart s.cfgAddr d, events := ev
      pollScript := List.replicate j .read ++ .move (.cuStep status block) :: .read :: rest })
    (hj : j < s.config.cuPollBound) :
    Reaches applyConfig s rest (d.configured s.cfgAddr (cfgBlock s.config s.cfg) status) [s.cfgSpan] := by
  generalize hv : ({ s.cfgWritten with
    dev := EngineCommand.effect .cuStart s.cfgAddr d, events := ev
    pollScript := List.replicate j .read ++ .move (.cuStep status block) :: .read :: rest } : State) = v at hissue
  have hscript : v.pollScript = List.replicate j .read ++ .move (.cuStep status block) :: .read :: rest := by rw [← hv]
  obtain ⟨ev1, ev2, hawait⟩ := awaitCuIdle_block (s := v) (status := status) (block := block) (rest := rest)
    (by rw [← hv]; rfl) (by rw [← hv]; exact hl.placeOf_cfg hw) hj
  rw [← hscript] at hawait
  have hdev : (v.blockExecuted status block).dev = d.configured s.cfgAddr (cfgBlock s.config s.cfg) status := by
    rw [← cfgWritten_block hl, ← hv]
    rfl
  refine ⟨_, (applyConfig_apply s).trans ((bind_ok (t := s.cfgWritten) rfl).trans ((bind_ok hissue).trans
    ((bind_ok hawait).trans rfl))), ?_, fun x hx => ?_⟩
  · rw [← hdev, ← hv, ← hcfg]
    rfl
  · refine (blockExecuted_only { v with events := ev1 } status block x (by rw [← hv]; exact hx)).trans ?_
    rw [← hv]
    exact cfgWritten_only s x hx

end

/-! ### The RU's start -/

section
variable {s : State}

/-- Stale causes are dropped, then the RU START is issued (R271). -/
theorem startReceive_apply (h : 0 < s.rxAddr.length) : ∃ ev,
    startReceive s = issue .ruStart (s.rxSlot 0) true { s with dev := { s.dev with scbIsr := 0 }, events := ev } := by
  have hmask : ~~~((0xFF : Word).setWidth 8) = (0 : Byte) := by decide
  have hzero : s.dev.scbIsr &&& ~~~((0xFF : Word).setWidth 8) = 0 := by rw [hmask]; exact BitVec.and_zero
  generalize hv : ({ s with
    dev := { s.dev with scbIsr := 0 }, events := .portWrite (s.writePort .scbIsr) 0xFF :: s.events } : State) = v
  have hclear : portWrite .scbIsr 0xFF s = .ok () v := by rw [portWrite_apply, Device.writeRegister, hzero, hv]
  have hslot : rxAddrOf 0 v = .ok (s.rxSlot 0) v := by rw [← hv]; exact rxAddrOf_apply h
  refine ⟨.portWrite (s.writePort .scbIsr) 0xFF :: s.events, (bind_ok hclear).trans ((bind_ok hslot).trans ?_)⟩
  rw [hv]

theorem startReceive_raises {r : FatalReason} {rest : List PollEvent} {d : Device} {sp : List (BusAddr × Nat)}
    (h : 0 < s.rxAddr.length) (hi : ∀ ev, Raises (issue .ruStart (s.rxSlot 0) true)
      { s with dev := { s.dev with scbIsr := 0 }, events := ev } r rest d sp) : Raises startReceive s r rest d sp := by
  obtain ⟨ev, hx⟩ := startReceive_apply h
  obtain ⟨t, ht⟩ := hi ev
  rw [← hx] at ht
  exact ⟨t, ht⟩

theorem startReceive_raises_notIdle {sp : List (BusAddr × Nat)} (h : 0 < s.rxAddr.length)
    (hn : s.dev.unitState .ru ≠ .idle) :
    Raises startReceive s .notIdle s.pollScript { s.dev with scbIsr := 0 } sp :=
  startReceive_raises h fun ev => issue_raises_notIdle (s := { s with
    dev := { s.dev with scbIsr := 0 }, events := ev }) (cmd := .ruStart) hn

theorem startReceive_raises_timeout {rest : List PollEvent} {sp : List (BusAddr × Nat)} (h : 0 < s.rxAddr.length)
    (hw : s.config.cmdCodes.wf = true) (hi : s.CanIssue .ru true) (hp : PollFails s.pollScript s.config.ruPollBound rest) :
    Raises startReceive s .cmdTimeout rest
      (({ s.dev with scbIsr := 0 } : Device).withCommand s.config.cmdCodes .ruStart (s.rxSlot 0)) sp :=
  startReceive_raises h fun ev => issue_raises_timeout (s := { s with
    dev := { s.dev with scbIsr := 0 }, events := ev }) (cmd := .ruStart) hw (by decide) ⟨hi.noCommand, hi.idle⟩ hp

end

end Sys2Proof.Machine
end

section
/-! SUPPORT. Where the start-up sequence ends early (R271): at its base address, while it maps, at the EEPROM, or at one of
the device's commands. -/

namespace Sys2Proof.Machine

/-! ### The commands of the sequence -/

/-- The sequence from the configuration on (R271). -/
def bootFromConfig : Op Half := do
  applyConfig
  startReceive
  clearPointer
  readPhyStatus

/-- Both engines have accepted the base 0 (R162); memory and the events are any. -/
def State.basesLoaded (s : State) (l : List PollEvent) (m : Memory) (ev : List BusEvent) : State :=
  { s with
    pollScript := l, mem := m, events := ev
    dev := EngineCommand.effect .ruLoadBase 0 (EngineCommand.effect .cuLoadBase 0 s.dev) }

theorem bootCommands_eq : bootCommands =
    (issue .cuLoadBase 0 true >>= fun _ => issue .ruLoadBase 0 true >>= fun _ => bootFromConfig) := by
  simp only [bootCommands, loadBasesAndConfigure, bootFromConfig, bind_assoc]

section
variable {s : State} {k1 k2 k3 j : Nat} {code : BitVec 3} {status : Half} {block : List Byte} {l rest : List PollEvent}
  {sp : List (BusAddr × Nat)} (hw : s.config.wf = true) (hcu : s.CanIssue .cu true) (hru : s.CanIssue .ru true)
include hw hcu

theorem bootCommands_raises_cuBase (hp : PollFails s.pollScript s.config.cuPollBound rest) :
    Raises bootCommands s .cmdTimeout rest (s.dev.withCommand s.config.cmdCodes .cuLoadBase 0) sp := by
  rw [bootCommands_eq]
  exact (issue_raises_timeout (cmd := .cuLoadBase) (Config.wf_codes hw) (by decide) hcu hp).bind _

/-- The RU drifts while the CU's base is loaded. -/
theorem bootCommands_raises_ruDrift (hcode : unitStateOf code ≠ .idle)
    (hp : s.pollScript = .move (.drift .ru code) :: acceptedAfter .cu k1 rest) (h1 : k1 < s.config.cuPollBound) :
    Raises bootCommands s .notIdle rest { EngineCommand.effect .cuLoadBase 0 s.dev with ruCode := code } sp := by
  rw [bootCommands_eq]
  exact (issue_reaches_drift (cmd := .cuLoadBase) (Config.wf_codes hw) (by decide) hcu hp h1).then_raises fun m ev =>
    (issue_raises_notIdle (s := { s with
      pollScript := rest, dev := { EngineCommand.effect .cuLoadBase 0 s.dev with ruCode := code }, mem := m, events := ev })
      (cmd := .ruLoadBase) hcode).bind _

include hru

theorem bootCommands_raises_ruBase (hp : s.pollScript = acceptedAfter .cu k1 l) (h1 : k1 < s.config.cuPollBound)
    (hf : PollFails l s.config.ruPollBound rest) :
    Raises bootCommands s .cmdTimeout rest
      ((EngineCommand.effect .cuLoadBase 0 s.dev).withCommand s.config.cmdCodes .ruLoadBase 0) sp := by
  rw [bootCommands_eq]
  exact (issue_reaches (cmd := .cuLoadBase) (Config.wf_codes hw) (by decide) hcu hp h1).then_raises fun m ev =>
    (issue_raises_timeout (s := { s with
      pollScript := l, dev := EngineCommand.effect .cuLoadBase 0 s.dev, mem := m, events := ev })
      (cmd := .ruLoadBase) (Config.wf_codes hw) (by decide) ⟨hru.noCommand, hru.idle⟩ hf).bind _

/-- The CU drifts while the RU's base is loaded. -/
theorem bootCommands_raises_cuDrift (hcode : unitStateOf code ≠ .idle)
    (hp : s.pollScript = acceptedAfter .cu k1 (.move (.drift .cu code) :: acceptedAfter .ru k2 rest))
    (h1 : k1 < s.config.cuPollBound) (h2 : k2 < s.config.ruPollBound) :
    Raises bootCommands s .notIdle rest
      { EngineCommand.effect .ruLoadBase 0 (EngineCommand.effect .cuLoadBase 0 s.dev) with cuCode := code }
      [s.cfgSpan] := by
  rw [bootCommands_eq]
  exact (issue_reaches (cmd := .cuLoadBase) (Config.wf_codes hw) (by decide) hcu hp h1).then_raises fun m ev =>
    (issue_reaches_drift (s := { s with
      pollScript := .move (.drift .cu code) :: acceptedAfter .ru k2 rest, mem := m, events := ev
      dev := EngineCommand.effect .cuLoadBase 0 s.dev })
      (cmd := .ruLoadBase) (Config.wf_codes hw) (by decide) ⟨hru.noCommand, hru.idle⟩ rfl h2).then_raises fun m ev =>
    (applyConfig_raises_notIdle (s := { s with
      pollScript := rest, mem := m, events := ev
      dev := { EngineCommand.effect .ruLoadBase 0 (EngineCommand.effect .cuLoadBase 0 s.dev) with cuCode := code } })
      hcode).bind _

/-- With both bases loaded, the configuration decides. -/
theorem bootCommands_raises {r : FatalReason} {d : Device}
    (hp : s.pollScript = acceptedAfter .cu k1 (acceptedAfter .ru k2 l)) (h1 : k1 < s.config.cuPollBound)
    (h2 : k2 < s.config.ruPollBound) (h : ∀ m ev, Raises bootFromConfig (s.basesLoaded l m ev) r rest d sp) :
    Raises bootCommands s r rest d sp := by
  rw [bootCommands_eq]
  exact (issue_reaches (cmd := .cuLoadBase) (Config.wf_codes hw) (by decide) hcu hp h1).then_raises fun m ev =>
    (issue_reaches (s := { s with
      pollScript := acceptedAfter .ru k2 l, dev := EngineCommand.effect .cuLoadBase 0 s.dev, mem := m, events := ev })
      (cmd := .ruLoadBase) (Config.wf_codes hw) (by decide) ⟨hru.noCommand, hru.idle⟩ rfl h2).then_raises h

end

/-! ### From the configuration on -/

theorem State.Laid.rxAddr_pos {s : State} (hl : s.Laid) (hw : s.config.wf = true) : 0 < s.rxAddr.length := by
  obtain ⟨hn, -⟩ := Config.wf_facts hw
  rw [hl.rxLen]
  omega

section
variable {s : State} {k j : Nat} {code : BitVec 3} {status : Half} {block : List Byte} {l rest : List PollEvent}
  (hw : s.config.wf = true) (hl : s.Laid) (hcfg : s.cfgPending = false) (hcu : s.CanIssue .cu true)
  (hk : k < s.config.cuPollBound) (hj : j < s.config.cuPollBound)
include hw hl hcfg hcu hk hj

/-- The configuration is sent and the RU does not start (R168, R169). -/
theorem bootFromConfig_raises_ruStart (hru : s.CanIssue .ru true) (hp : s.pollScript = configuredAfter k j status block l)
    (hf : PollFails l s.config.ruPollBound rest) :
    Raises bootFromConfig s .cmdTimeout rest
      (({ s.dev.configured s.cfgAddr (cfgBlock s.config s.cfg) status with scbIsr := 0 } : Device).withCommand
        s.config.cmdCodes .ruStart (s.rxSlot 0)) [s.cfgSpan] := by
  obtain ⟨ev, hissue⟩ := issue_accepted' (s := s.cfgWritten) (cmd := .cuStart) (a := s.cfgAddr) (ri := true)
    (Config.wf_codes hw) (by decide) ⟨hcu.noCommand, hcu.idle⟩ hp hk
  exact (applyConfig_reaches hw hl hcfg hissue hj).then_raises fun m ev =>
    (startReceive_raises_timeout (s := { s with
      pollScript := l, dev := s.dev.configured s.cfgAddr (cfgBlock s.config s.cfg) status, mem := m, events := ev })
      (hl.rxAddr_pos hw) (Config.wf_codes hw) ⟨hru.noCommand, hru.idle⟩ hf).bind _

/-- The RU drifts while the CU accepts the configuration. -/
theorem bootFromConfig_raises_ruDrift (hcode : unitStateOf code ≠ .idle)
    (hp : s.pollScript = .move (.drift .ru code) :: configuredAfter k j status block rest) :
    Raises bootFromConfig s .notIdle rest
      { s.dev.configured s.cfgAddr (cfgBlock s.config s.cfg) status with scbIsr := 0, ruCode := code } [s.cfgSpan] := by
  obtain ⟨ev, hissue⟩ := issue_accepted_drift (s := s.cfgWritten) (cmd := .cuStart) (a := s.cfgAddr) (ri := true)
    (Config.wf_codes hw) (by decide) ⟨hcu.noCommand, hcu.idle⟩ hp hk
  exact (applyConfig_reaches hw hl hcfg hissue hj).then_raises fun m ev =>
    (startReceive_raises_notIdle (s := { s with
      pollScript := rest, mem := m, events := ev
      dev := { s.dev.configured s.cfgAddr (cfgBlock s.config s.cfg) status with ruCode := code } })
      (hl.rxAddr_pos hw) hcode).bind _

end

/-! ### The sequence up to the first command -/

section
variable {s t : State} {f : PciFunction}

theorem resetOp_started (hs : s.started = true) : resetOp s = .error (.fatal .precondition) s := by
  simp only [resetOp, bind_apply, get_apply, hs, require_apply, Bool.not_true, Bool.false_eq_true, if_false]

theorem resetOp_absent (hs : s.started = false) (hf : s.located = none) : resetOp s = .ok .absent s := by
  simp only [resetOp, bind_apply, get_apply, hs, hf, require_apply, Bool.not_false, if_true, pure_apply]

theorem resetOp_raises {e : Stop} (hs : s.started = false) (hf : s.located = some f) (hb : bootPrefix f s = .error e t) :
    resetOp s = .error e t := by
  simp only [resetOp, bind_apply, get_apply, hs, hf, bootSequence_eq, hb, require_apply, Bool.not_false, if_true]

/-- A sequence that raises a Fatal faults the block and starts nothing (R240). -/
theorem reset_raises {r : FatalReason} (hfault : s.fault = none) (hs : s.started = false) (hf : s.located = some f)
    (hb : bootPrefix f s = .error (.fatal r) t) (ht : t.fault = none) : exec .reset s = .next { t with fault := some r } :=
  runOperation_raised hfault ht (resetOp_raises hs hf hb)

theorem bootPrefix_badBar (h : f.base.toNat % s.config.regSpan ≠ 0) :
    bootPrefix f s = .error (.fatal .badBar) { s with base := f.base, irq := f.irq } := by
  have hbar : (f.base.toNat % s.config.regSpan == 0) = false := beq_eq_false_iff_ne.mpr h
  simp only [bootPrefix, bind_apply, modify_apply, get_apply, require_apply, hbar, Bool.false_eq_true, if_false]

/-- With an aligned base the sequence maps the regions. -/
theorem bootPrefix_aligned (h : f.base.toNat % s.config.regSpan = 0) :
    bootPrefix f s = (mapRegions >>= fun _ => bootRest) { s with base := f.base, irq := f.irq } :=
  (bind_ok rfl).trans ((bind_ok rfl).trans (bind_ok (by rw [require_apply, h]; rfl)))

/-- An EEPROM part of another width ends the sequence at the first read (R204). -/
theorem bootRest_width (h : s.SerialIdle) (hw : supportedWidth s.config = none) (hu : s.eeWidth = .unknown) :
    ∃ l e n ev, bootRest s =
      .error (.fatal .eepromWidth) (State.serial { s with dev := s.dev.selectivelyReset } l e .idle n ev) := by
  generalize hv : ({ s with
    dev := s.dev.selectivelyReset, events := .portWrite (s.writePort .scbPort) 2 :: s.events } : State) = v
  have hreset : portWrite .scbPort 2 s = .ok () v := by rw [← hv]; rfl
  obtain ⟨l, e, n, ev, hread⟩ := readEeprom_width (s := v) (by rw [← hv]; exact ⟨h.busy, h.lines, h.serCtl, h.ee, h.phy⟩)
    (by rw [← hv]; exact hw) (by rw [← hv]; exact hu) 0
  refine ⟨l, e, n, ev, (bind_ok hreset).trans ?_⟩
  simp only [readHardwareAddress, bind_apply, hread]
  rw [← hv]
  rfl

/-- The sequence has come from `s` to its first command in `v`, with both rings initialised (R271). -/
structure State.AtCommands (s : State) (f : PciFunction) (v : State) : Prop where
  run : bootPrefix f s = bootCommands v
  noFault : v.fault = none
  laid : v.Laid
  rxFresh : ∀ i, i < v.config.nRx → v.RxFresh i
  txFresh : ∀ i, i < v.config.nTx → v.TxFresh i
  only : s.ChangesOnly v (headers v.rxAddr ++ headers v.txAddr)

/-- A command that raises a Fatal there ends `reset`; the rings stay as they were initialised. -/
theorem State.AtCommands.ends {v : State} {r : FatalReason} {rest : List PollEvent} {d : Device}
    {sp : List (BusAddr × Nat)} (h : s.AtCommands f v) (hfault : s.fault = none) (hs : s.started = false)
    (hf : s.located = some f) (hsp : ∀ q ∈ sp, q = v.cfgSpan) (hr : Raises bootCommands v r rest d sp) :
    ∃ t : State, exec .reset s = .next t ∧
      t = { v with fault := some r, pollScript := rest, dev := d, mem := t.mem, events := t.events } ∧
      (∀ i, i < v.config.nRx → t.RxFresh i) ∧ (∀ i, i < v.config.nTx → t.TxFresh i) ∧
      s.ChangesOnly t (headers v.rxAddr ++ headers v.txAddr ++ sp) := by
  obtain ⟨u, hu, hframe, honly⟩ := hr
  have hcfg : v.ChangesOnly { u with fault := some r } [v.cfgSpan] := fun x hx => honly x fun q hq => by
    rw [hsp q hq]; exact hx _ (List.mem_singleton.mpr rfl)
  have hrx : u.rxAddr = v.rxAddr := by rw [hframe]
  have htx : u.txAddr = v.txAddr := by rw [hframe]
  have hconfig : u.config = v.config := by rw [hframe]
  refine ⟨{ u with fault := some r }, reset_raises hfault hs hf (h.run.trans hu) (by rw [hframe]; exact h.noFault),
    by rw [hframe], fun i hi => ?_, fun i hi => ?_, fun x hx => ?_⟩
  · exact h.laid.rxFresh_of_cfg hi (h.rxFresh i hi) hrx hconfig hcfg
  · exact h.laid.txFresh_of_cfg hi (h.txFresh i hi) htx hconfig hcfg
  · exact (honly x fun q hq => hx q (List.mem_append_right _ hq)).trans
      (h.only x fun q hq => hx q (List.mem_append_left _ hq))

end

/-- Every region is mapped (R271). -/
def State.mapped (s : State) (f : PciFunction) (rx tx : List BusAddr) (stats cfg : BusAddr) : State :=
  { s with base := f.base, irq := f.irq, rxAddr := rx, txAddr := tx, statsAddr := stats, cfgAddr := cfg }

section
variable {s : State} {f : PciFunction} {rx tx : List BusAddr} {stats cfg : BusAddr}
  (hbar : f.base.toNat % s.config.regSpan = 0) (hanswers : s.busMap.answers s.config = some (rx, tx, stats, cfg))
  (haligned : ∀ a ∈ rx ++ tx ++ [stats, cfg], a.toNat % 4 = 0) (hrxLen : s.rxAddr.length = s.config.nRx)
  (htxLen : s.txAddr.length = s.config.nTx)
include hbar hanswers haligned hrxLen htxLen

theorem bootPrefix_mapped : rx.length = s.config.nRx ∧ tx.length = s.config.nTx ∧
    bootPrefix f s = bootRest (s.mapped f rx tx stats cfg) := by
  obtain ⟨hrx, htx, hmap⟩ := mapRegions_answers (s := { s with base := f.base, irq := f.irq }) hrxLen htxLen hanswers
    haligned
  exact ⟨hrx, htx, (bootPrefix_aligned hbar).trans (bind_ok hmap)⟩

theorem exists_atCommands {w : EeWidth} (hfault : s.fault = none)
    (hregions : regionsOk (regionsOf s.config rx tx stats cfg) = true) (hserial : s.SerialIdle)
    (hwidth : supportedWidth s.config = some w) (hee : s.eeWidth = .unknown ∨ s.eeWidth = w) :
    ∃ m ev, s.AtCommands f { s.bootContext f rx tx stats cfg w with mem := m, events := ev } := by
  obtain ⟨hrx, htx, hmapped⟩ := bootPrefix_mapped hbar hanswers haligned hrxLen htxLen
  have hl : (s.mapped f rx tx stats cfg).Laid := ⟨hrx, htx, hregions⟩
  obtain ⟨u, hrun, hframe, hrxFresh, htxFresh, honly⟩ := bootRest_rings hl
    ⟨hserial.busy, hserial.lines, hserial.serCtl, hserial.ee, hserial.phy⟩ hwidth hee
  have hready : u = { s.bootContext f rx tx stats cfg w with mem := u.mem, events := u.events } := hframe
  have hconfig : u.config = s.config := by rw [hready]; rfl
  refine ⟨u.mem, u.events, ?_⟩
  rw [← hready]
  exact {
    run := hmapped.trans hrun
    noFault := by rw [hready]; exact hfault
    laid := by rw [hframe]; exact hl.of_eq rfl rfl rfl rfl rfl
    rxFresh := by rw [hconfig]; exact hrxFresh
    txFresh := by rw [hconfig]; exact htxFresh
    only := by rw [hready] at honly ⊢; exact honly }

end

end Sys2Proof.Machine
end

section
/-! SUPPORT. The statements of the memory family, from the laws above. -/

namespace Sys2Proof.Proofs

open Sys2Proof Sys2Proof.Machine

/-- Settles O8: the step of an acceptance and of a CU step is the step of what the engine reads. -/
theorem stepRunsTheDeviceCommand : Obligations.StepRunsTheDeviceCommand := by
  refine ⟨fun s e rest i h hd => step_accept_ok h hd, fun s e rest r h hd => step_accept_reserved h hd, ?_⟩
  intro s status block rest h ha fetched
  refine ⟨fun i hm hd => ?_, fun r hm hd => ?_, fun hr hm hc => ?_, fun hw ho => step_cuStep_outside h ha hw ho⟩
  · rw [← cuCommand_descriptor hm] at hd
    exact step_cuStep_ok h (cuAtCommand_of_place ha (placeOf_descriptor hm).2) hd
  · rw [← cuCommand_descriptor hm] at hd
    exact step_cuStep_reserved h (cuAtCommand_of_place ha (placeOf_descriptor hm).2) hd
  · rw [List.mem_append, not_or] at hm
    have hplace : s.placeOf .cu s.dev.cuFetch = .elsewhere := placeOf_elsewhere (e := .cu) hm.1 hm.2 hc hr
    have hat : s.cuAtCommand = true := cuAtCommand_of_place ha (by rw [hplace]; rfl)
    have hread := cuCommand_elsewhere hplace
    rcases decodeTxCommand_absent (Config.absentField s.events.length) with hd | hd <;> rw [← hread] at hd
    · exact ⟨_, .inl (step_cuStep_ok h hat hd)⟩
    · exact ⟨_, .inr (step_cuStep_ok h hat hd)⟩

/-- Settles O55: the sequence stops where it checks, maps, reads the EEPROM or issues a command; a command's end is read
off the state the sequence has come to with its first command. -/
theorem resetEndsEarly : Obligations.ResetEndsEarly := by
  intro s f i rx tx stats cfg w k1 k2 k3 j code status block script rest hfault
  refine ⟨fun hs => ?_, fun hs hf => ?_, fun hs hf hbar => ?_, fun hs hf hbar hok hi hbad => ?_,
    fun hw hs hf hbar hanswers hregions haligned hrxLen htxLen hserial => ⟨fun hwidth hee => ?_, ?_⟩⟩
  · exact runOperation_raised hfault hfault (resetOp_started hs)
  · exact runOperation_ok hfault (resetOp_absent hs hf)
  · exact reset_raises hfault hs hf (bootPrefix_badBar hbar) hfault
  · obtain ⟨t, ht, hx⟩ := mapRegions_refused (s := { s with base := f.base, irq := f.irq }) hok hi hbad
    have hraised : bootPrefix f s = .error _ t := (bootPrefix_aligned hbar).trans (by rw [bind_apply, hx])
    refine ⟨_, reset_raises hfault hs hf hraised (by rw [ht]; exact hfault), ?_⟩
    rw [ht, ← some_refusalOf]
  · obtain ⟨-, -, hmapped⟩ := bootPrefix_mapped hbar hanswers haligned hrxLen htxLen
    obtain ⟨l, e, n, ev, hx⟩ := bootRest_width (s := s.mapped f rx tx stats cfg)
      ⟨hserial.busy, hserial.lines, hserial.serCtl, hserial.ee, hserial.phy⟩ hwidth hee
    have hraised := hmapped.trans hx
    refine ⟨_, reset_raises hfault hs hf hraised hfault, rfl, ?_⟩
    show ({ s.dev.selectivelyReset with serCtl := l, ee := e, phy := .idle, lineReads := n } : Device) = _
    rw [← hserial.phy]
    rfl
  · intro hwidth hee h1 h2 h3 hj v codes rings endsIn d1 d2 d3 sent
    obtain ⟨m, ev, hat⟩ := exists_atCommands hbar hanswers haligned hrxLen htxLen hfault hregions hserial hwidth hee
    let u : State := { v with mem := m, events := ev }
    have hcodes := Config.wf_codes hw
    have hcu : u.CanIssue .cu true := ⟨rfl, fun _ => rfl⟩
    have hru : u.CanIssue .ru true := ⟨rfl, fun _ => rfl⟩
    have hcu' : ∀ l m ev, (u.basesLoaded l m ev).CanIssue .cu true := fun _ _ _ => ⟨rfl, fun _ => rfl⟩
    have hru' : ∀ l m ev, (u.basesLoaded l m ev).CanIssue .ru true := fun _ _ _ => ⟨rfl, fun _ => rfl⟩
    have hl' : ∀ l m ev, (u.basesLoaded l m ev).Laid := fun _ _ _ => hat.laid.of_eq rfl rfl rfl rfl rfl
    have hhead : rx.headD 0 = v.rxSlot 0 := by
      show rx.headD 0 = rx.getD 0 0
      cases rx <;> rfl
    have hrings : ∀ {r d}, Raises bootCommands u r rest d [] → endsIn r d rings := by
      intro r d hr
      have hends := hat.ends hfault hs hf (fun q hq => absurd hq List.not_mem_nil) hr
      rw [List.append_nil] at hends
      exact hends
    have hsent : ∀ {r d}, Raises bootCommands u r rest d [(cfg, s.config.cfgBlockLen)] →
        endsIn r d sent := fun hr => hat.ends hfault hs hf (fun q hq => List.mem_singleton.mp hq) hr
    rw [hhead]
    refine ⟨fun hp => ?_, fun hp hx => ?_, fun hp hx => ?_, fun hp hx => ?_, fun hp hx => ?_, fun hc hp => ?_,
      fun hc hp => ?_, fun hc hp => ?_⟩
    · exact hrings (bootCommands_raises_cuBase (s := u) hw hcu hp)
    · exact hrings (bootCommands_raises_ruBase (s := u) hw hcu hru hp h1 hx)
    · exact hsent (bootCommands_raises (s := u) hw hcu hru hp h1 h2 fun m' ev' =>
        (applyConfig_raises_timeout (s := u.basesLoaded script m' ev') hcodes (hcu' _ _ _) hx).bind _)
    · exact hsent (bootCommands_raises (s := u) hw hcu hru hp h1 h2 fun m' ev' =>
        (applyConfig_raises_busy (s := u.basesLoaded (acceptedAfter .cu k3 script) m' ev') hcodes (hcu' _ _ _) rfl h3
          hx).bind _)
    · exact hsent (bootCommands_raises (s := u) hw hcu hru hp h1 h2 fun m' ev' =>
        bootFromConfig_raises_ruStart (s := u.basesLoaded (configuredAfter k3 j status block script) m' ev') hw (hl' _ _ _)
          rfl (hcu' _ _ _) h3 hj (hru' _ _ _) rfl hx)
    · exact hrings (bootCommands_raises_ruDrift (s := u) hw hcu hc hp h1)
    · exact hsent (bootCommands_raises_cuDrift (s := u) hw hcu hru hc hp h1 h2)
    · exact hsent (bootCommands_raises (s := u) hw hcu hru hp h1 h2 fun m' ev' =>
        bootFromConfig_raises_ruDrift
          (s := u.basesLoaded (.move (.drift .ru code) :: configuredAfter k3 j status block rest) m' ev') hw (hl' _ _ _)
          rfl (hcu' _ _ _) h3 hj hc rfl)

end Sys2Proof.Proofs
end

section
/-! SUPPORT. The statements of the encoding family: a word that is no instruction, a word that is placed where the next
step reads it, and the commands of the engines. -/

namespace Sys2Proof.Machine

/-! ### Words that are no instruction -/

theorem illegalOperation_raises {s : State} (hf : s.fault = none) :
    illegalOperation s = .next { s with fault := some .illegalOp } :=
  runOperation_raised hf hf (raise_apply s .illegalOp)

/-- A word that the decoder refuses raises IllegalOp and changes nothing else (R94). -/
theorem step_illegal_raises {s : State} {w : Word} {p : Payload} {rest : List Input} {r : DecodeError}
    (h : s.agenda = .request w p :: rest) (hf : s.fault = none) (hd : decodeOpw w p = .error r) :
    step s = .next { s with agenda := rest, fault := some .illegalOp } :=
  (step_illegal h hd).trans (illegalOperation_raises (s := { s with agenda := rest }) hf)

/-- A word of no row is refused by the decoder. -/
theorem decodeOpw_error_of_no_row {w : Word} (p : Payload) (h : ∀ r ∈ opwRows, w &&& r.1 ≠ r.2) :
    ∃ e, decodeOpw w p = .error e := by
  cases hd : decodeOpw w p with
  | error e => exact ⟨e, rfl⟩
  | ok i =>
    obtain ⟨r, hr, hrow⟩ := decodeOpw_row hd
    exact absurd hrow (h r hr)

/-! ### Placed words -/

section
variable {nbits w : Nat} {x : Encoded} (hx : tableWord nbits w = some x)
include hx

theorem decode_of_decodeTableWord {i : Instr} (h : decodeTableWord nbits w = some i) :
    decode CmdCodes.table x = .ok i := by
  simp only [decodeTableWord, hx] at h
  cases hd : decode CmdCodes.table x with
  | error e => rw [hd] at h; cases h
  | ok j => rw [hd] at h; cases h; rfl

theorem withFetchWord_of_tableWord (s : State) : s.withFetchWord nbits w = placeWords s x := by
  rw [State.withFetchWord, hx]

end

theorem step_placeWords_opw {w : Word} {p : Payload} {i : Instr} (s : State) (h : decodeOpw w p = .ok i) :
    step (placeWords s (.opw w p)) = exec i s := step_request rfl h

/-- An engine reads only its own field of the byte, and that field is put into the device. -/
theorem decodeScbByte_placed (k : CmdCodes) (e : Engine) (b : Byte) (d : Device) :
    decodeScbByte k e (scbCmdByte { d with cmdCu := scbCuField b, cmdRu := scbRuField b }) = decodeScbByte k e b := by
  cases e with
  | cu => simp only [decodeScbByte, scbCuField_cmdByte]
  | ru => simp only [decodeScbByte, scbRuField_cmdByte]

theorem step_placeWords_scb {e : Engine} {b : Byte} {i : Instr} (s : State)
    (h : decodeScbByte s.config.cmdCodes e b = .ok i) :
    step (placeWords s (.scb e b)) =
      exec i { s with dev := { s.dev with cmdCu := scbCuField b, cmdRu := scbRuField b } } :=
  step_accept_ok rfl ((decodeScbByte_placed _ e b s.dev).trans h)

/-- The descriptor that a command word is placed in is one of the TX ring. -/
theorem placeTxCommand_mem_txAddr (s : State) (c : Half) : s.txAddr.headD 0 ∈ (placeTxCommand s c).txAddr := by
  unfold placeTxCommand
  cases s.txAddr with
  | nil => exact List.mem_singleton_self _
  | cons a l => exact List.mem_cons_self

/-- The command word of that descriptor is the placed one. -/
theorem placeTxCommand_half (s : State) (c : Half) : (placeTxCommand s c).half (s.txAddr.headD 0 + offCommand) = c :=
  half_store_same (s := s) (w := .device) c

theorem step_placeWords_txd {c : Half} {i : Instr} (s : State) (h : decodeTxCommand c = .ok i) :
    step (placeWords s (.txd c)) = exec i { placeTxCommand s c with
      events := .memRead .device (s.txAddr.headD 0 + offCommand) 2 :: s.events } := by
  have hmem : (placeWords s (.txd c)).dev.cuFetch ∈ (placeWords s (.txd c)).txAddr ++ (placeWords s (.txd c)).rxAddr :=
    List.mem_append_left _ (placeTxCommand_mem_txAddr s c)
  have hcommand : (placeWords s (.txd c)).cuCommand = c := (cuCommand_descriptor hmem).trans (placeTxCommand_half s c)
  exact step_cuStep_ok rfl (cuAtCommand_of_place rfl (placeOf_descriptor hmem).2) (by rw [hcommand]; exact h)

/-! ### The commands of the engines -/

theorem runDevice_modifyDevice (f : Device → Device) (s : State) :
    runDevice (modifyDevice f) s = .next { s with dev := f s.dev } := runDevice_ok rfl

end Sys2Proof.Machine
end

section
/-! SUPPORT. The statements of the encoding family, from the laws above. -/

namespace Sys2Proof.Proofs

open Sys2Proof Sys2Proof.Machine

/-- Settles O2: it is what the decoder's inversion says of an accepted word. -/
theorem encodeOfDecode : Obligations.EncodeOfDecode := fun _ _ _ h => decodeOpw_cases h

/-- Settles O3: an accepted word is an encoding, which has its row; a word of a row has the row's fields. -/
theorem wordDecodesIffTableRow : Obligations.WordDecodesIffTableRow :=
  fun _ p => ⟨fun ⟨_, h⟩ => decodeOpw_row h, fun ⟨_, hr, h⟩ => decodeOpw_of_row p hr h⟩

/-- Settles O4: each word is evaluated; the reserved ones have an unknown OP and a reserved SEL. -/
theorem workedOperationWords : Obligations.WorkedOperationWords := by
  intro p
  refine ⟨rfl, rfl, rfl, rfl, rfl, rfl, rfl, rfl, rfl, rfl, ?_⟩
  rintro w (rfl | rfl) s rest h hf
  · exact step_illegal_raises (r := .unknownOp) h hf rfl
  · exact step_illegal_raises (r := .selReserved) h hf rfl

/-- Settles O7: a word of no row is refused by the decoder. -/
theorem illegalWordRaisesIllegalOp : Obligations.IllegalWordRaisesIllegalOp := by
  intro s w p rest h hf hrow
  obtain ⟨e, hd⟩ := decodeOpw_error_of_no_row p hrow
  exact step_illegal_raises h hf hd

/-- Settles O10: a table word of each width is placed and read by the decoder of its place. -/
theorem placedWordRunsNext : Obligations.PlacedWordRunsNext := by
  refine ⟨fun s w i h => ?_, fun s w i hk h => ?_, fun s w i h => ?_⟩
  · rw [withFetchWord_of_tableWord rfl]
    exact step_placeWords_opw s (decode_of_decodeTableWord (x := .opw _ _) rfl h)
  · rw [withFetchWord_of_tableWord rfl]
    exact step_placeWords_scb s (by rw [hk]; exact decode_of_decodeTableWord (x := .scb _ _) rfl h)
  · rw [withFetchWord_of_tableWord rfl]
    exact step_placeWords_txd s (decode_of_decodeTableWord (x := .txd _) rfl h)

/-- Settles O57: NOP does nothing, and each other command is one change of the device. -/
theorem engineCommandsTakeThePointer : Obligations.EngineCommandsTakeThePointer := fun s =>
  ⟨runDevice_ok rfl, runDevice_ok rfl, runDevice_modifyDevice acceptCuStart s, runDevice_modifyDevice acceptRuStart s,
    runDevice_modifyDevice acceptCuLoadBase s, runDevice_modifyDevice acceptRuLoadBase s,
    runDevice_modifyDevice acceptCuDumpStatistics s⟩

end Sys2Proof.Proofs
end

section
/-! SUPPORT. What a service request runs on the operation port, how an append ends for each of its callers, and what the
checks of `rx_poll` read. -/

namespace Sys2Proof.Machine

/-! ### The request services on the operation port -/

/-- Two operations that end alike run alike on the port. -/
theorem runOperation_congr {x y : Op OpResult} {s t : State} (hs : s.fault = none) (ht : t.fault = none)
    (h : x s = y t) : runOperation x s = runOperation y t := by
  simp only [runOperation, hs, ht, h]

section
variable {s : State} (hr : s.Running)
include hr

/-- `transmit` is the service of its request (R226). -/
theorem exec_transmit_empty {c : Client} {frame : Frame} (hp : s.pendTx = .empty) :
    exec (.transmit c frame) s =
      runOperation (txService { client := c, frame := frame }) { s with pendTx := .empty } := by
  have hs : ({ s with pendTx := .empty } : State) = s := by rw [← hp]
  refine runOperation_congr hr.noFault hr.noFault ?_
  rw [transmitOp, requireStarted_run hr.started, hs]
  simp only [bind_apply, get_apply, require_apply, hp, beq_self_eq_true, if_true]

/-- `replay_tx` empties the slot and is the service of the request that was there (R187). -/
theorem exec_replayTx_armed {r : TxRequest} (hp : s.pendTx = .armed r) :
    exec .replayTx s = runOperation (txService r) { s with pendTx := .empty } := by
  refine runOperation_congr hr.noFault hr.noFault ?_
  rw [replayTxOp, requireStarted_run hr.started, replayTx_armed hp]

/-- `receive` is the service of its request (R227). -/
theorem exec_receive_empty {c : Client} (hp : s.pendRx = .empty) :
    exec (.receive c) s = runOperation (rxService c) { s with pendRx := .empty } := by
  have hs : ({ s with pendRx := .empty } : State) = s := by rw [← hp]
  refine runOperation_congr hr.noFault hr.noFault ?_
  rw [receiveOp, requireStarted_run hr.started, hs]
  simp only [bind_apply, get_apply, require_apply, hp, beq_self_eq_true, if_true]

/-- `replay_rx` empties the slot and is the service of the request that was there (R188). -/
theorem exec_replayRx_armed {c : Client} (hp : s.pendRx = .armed c) :
    exec .replayRx s = runOperation (rxService c) { s with pendRx := .empty } := by
  refine runOperation_congr hr.noFault hr.noFault ?_
  rw [replayRxOp, requireStarted_run hr.started, replayRx_armed hp]

end

/-! ### An append for each of its callers -/

section
variable {s t : State} {frame : Frame} (hr : s.Running) (htx : t.pendTx = s.pendTx)
include hr htx

/-- A frame that `tx_append` takes, whatever the pending slot is, is acknowledged by both services (R226, R187). -/
theorem append_sent {n : Nat} (c : Client) (hres : t.results = s.results) (hrep : t.replies = s.replies)
    (hx : ∀ p, txAppend frame { s with pendTx := p } = .ok (.appended n) { t with pendTx := p }) :
    exec (.txAppend frame) s = .next { t with results := s.results ++ [.appended n] } ∧
    (s.pendTx = .empty → exec (.transmit c frame) s =
      .next { t with results := s.results ++ [.sent], replies := s.replies ++ [(some c, .ack)] }) ∧
    (s.pendTx = .armed { client := c, frame := frame } → exec .replayTx s = .next { t with
      pendTx := .empty, results := s.results ++ [.sent], replies := s.replies ++ [(some c, .ack)] }) := by
  have hself : ({ t with pendTx := s.pendTx } : State) = t := by rw [← htx]
  have hown : txAppend frame s = .ok (.appended n) t := (hx s.pendTx).trans (by rw [hself])
  have hservice : runOperation (txService { client := c, frame := frame }) { s with pendTx := .empty } = .next { t with
      pendTx := .empty, results := s.results ++ [.sent], replies := s.replies ++ [(some c, .ack)] } := by
    refine (runOperation_ok (s := { s with pendTx := .empty }) hr.noFault
      (txService_appended (r := { client := c, frame := frame }) (hx .empty))).trans ?_
    rw [hres, hrep]
  refine ⟨?_, fun hp => ?_, fun hp => (exec_replayTx_armed hr hp).trans hservice⟩
  · rw [← hres]
    exact run_ok hr ((bind_ok hown).trans rfl)
  · rw [exec_transmit_empty hr hp, hservice, ← hp, ← htx]

/-- A Fatal of `tx_append`, whatever the pending slot is, ends both services too (R240). -/
theorem append_raised {r : FatalReason} (c : Client) (hf : t.fault = none)
    (hx : ∀ p, txAppend frame { s with pendTx := p } = .error (.fatal r) { t with pendTx := p }) :
    exec (.txAppend frame) s = .next { t with fault := some r } ∧
    (s.pendTx = .empty → exec (.transmit c frame) s = .next { t with fault := some r }) ∧
    (s.pendTx = .armed { client := c, frame := frame } →
      exec .replayTx s = .next { t with pendTx := .empty, fault := some r }) := by
  have hself : ({ t with pendTx := s.pendTx } : State) = t := by rw [← htx]
  have hown : txAppend frame s = .error (.fatal r) t := (hx s.pendTx).trans (by rw [hself])
  have hservice : runOperation (txService { client := c, frame := frame }) { s with pendTx := .empty } =
      .next { t with pendTx := .empty, fault := some r } :=
    runOperation_raised (t := { t with pendTx := .empty }) hr.noFault hf
      (txService_error (r := { client := c, frame := frame }) (hx .empty))
  refine ⟨run_raised hr hf (by rw [bind_apply, hown]), fun hp => ?_,
    fun hp => (exec_replayTx_armed hr hp).trans hservice⟩
  rw [exec_transmit_empty hr hp, hservice, ← hp, ← htx]

end

/-! ### Ring marks -/

/-- Where a property holds of one index only, the filter has that index only. -/
theorem filter_range_eq_singleton {n x : Nat} {p : Nat → Bool} (hx : x < n) (h : ∀ i, i < n → p i = (i == x)) :
    (List.range n).filter p = [x] := by
  rw [List.filter_congr fun i hi => h i (List.mem_range.mp hi), List.filter_beq,
    List.count_eq_one_of_mem List.nodup_range (List.mem_range.mpr hx)]
  rfl

/-! ### rx_poll -/

/-- A complete head descriptor is checked with its status read (R131). -/
theorem rxPoll_complete {s : State} (h : s.rxHead < s.rxAddr.length) (hc : statusC (s.rxStatus s.rxHead) = true) :
    rxPoll s = (rxFrame s.config (s.rxSlot s.rxHead) (s.rxStatus s.rxHead) >>= fun frame =>
      pure (.ready s.rxHead frame))
        { s with events := .memRead .block (s.rxSlot s.rxHead + offStatus) 2 :: s.events } := by
  have hc' : statusC (s.half (s.rxSlot s.rxHead + offStatus)) = true := hc
  simp only [rxPoll, bind_apply, get_apply, rxAddrOf_apply h, readHalf_apply, if_pos hc']
  rfl

/-- The checks of the head descriptor once its status was read, with the reads they make (R131). -/
theorem rxFrame_head (s : State) (ev : List BusEvent) :
    rxFrame s.config (s.rxSlot s.rxHead) (s.rxStatus s.rxHead) { s with events := ev } =
      if statusOk (s.rxStatus s.rxHead) && statusErr (s.rxStatus s.rxHead) == 0 then
        if lengthEof (s.rxLength s.rxHead) && lengthFinal (s.rxLength s.rxHead) then
          if lengthCount s.config (s.rxLength s.rxHead) ≤ capacityOf (s.rxCapacity s.rxHead) then
            .ok s.headFrame { s with
              events := .memRead .block (s.rxSlot s.rxHead + offBuffer) (lengthCount s.config (s.rxLength s.rxHead)) ::
                .memRead .block (s.rxSlot s.rxHead + offCapacity) 2 ::
                .memRead .block (s.rxSlot s.rxHead + offReceivedLength) 2 :: ev }
          else .error (.fatal .rxLength) { s with
            events := .memRead .block (s.rxSlot s.rxHead + offCapacity) 2 ::
              .memRead .block (s.rxSlot s.rxHead + offReceivedLength) 2 :: ev }
        else .error (.fatal .rxLength) { s with
          events := .memRead .block (s.rxSlot s.rxHead + offReceivedLength) 2 :: ev }
      else .error (.fatal .rxError) { s with events := ev } :=
  rxFrame_apply s.config (s.rxSlot s.rxHead) (s.rxStatus s.rxHead) { s with events := ev }

end Sys2Proof.Machine
end

section
/-! SUPPORT. Statements of the ring family, from the laws above: the marks, `rx_poll`, `rx_recycle`, the frame size. -/

namespace Sys2Proof.Proofs

open Sys2Proof Sys2Proof.Machine

/-- Settles O22: a sound state has its marks, and every step keeps a sound state sound. -/
theorem oneEndOfListMark : Obligations.OneEndOfListMark := by
  intro s t hs hstep hr
  have hsound := soundnessIsKept s t hs hstep
  have hm := hsound.marks hr
  have hn := (Config.wf_facts hsound.params).1
  exact ⟨filter_range_eq_singleton (prevIdx_lt (by omega)) hm.rxEl, filter_range_eq_singleton hm.txHead hm.txEl,
    hm.idle⟩

/-- Settles O23: the checks of `rx_poll` one after another, with the reads made by then. -/
theorem rxPollInspectsTheHead : Obligations.RxPollInspectsTheHead := by
  refine ⟨fun p => rfl, ?_⟩
  intro s hf hh st rl final a statusRead lengthRead capacityRead
  have hraised : ∀ {t : State} {r : FatalReason}, s.started = true → t.fault = none →
      rxPoll s = .error (.fatal r) t → exec .rxPoll s = .next { t with fault := some r } := fun hs ht hx =>
    run_raised ⟨hf, hs⟩ ht (by rw [bind_apply, hx])
  have hended : ∀ {t : State} {x : PollResult}, s.started = true → rxPoll s = .ok x t →
      exec .rxPoll s = .next { t with results := t.results ++ [x.toResult] } := fun hs hx =>
    run_ok ⟨hf, hs⟩ ((bind_ok hx).trans rfl)
  refine ⟨run_notStarted hf, fun hs hc => ?_, fun hs hc he => ?_, fun hs hc ho he hl => ?_,
    fun hs hc ho he hl hcap => ?_, fun hs hg => ?_⟩
  · exact hended hs (by rw [rxPoll_apply hh, if_neg (by rw [hc]; decide)])
  · refine hraised hs (t := { s with events := statusRead }) hf ?_
    rw [rxPoll_complete hh hc, bind_apply, rxFrame_head, if_neg (by simpa using he)]
  · refine hraised hs (t := { s with events := lengthRead }) hf ?_
    rw [rxPoll_complete hh hc, bind_apply, rxFrame_head, if_pos (by simpa using ⟨ho, he⟩),
      if_neg fun h => hl (by simpa using h)]
  · refine hraised hs (t := { s with events := capacityRead }) hf ?_
    rw [rxPoll_complete hh hc, bind_apply, rxFrame_head, if_pos (by simpa using ⟨ho, he⟩),
      if_pos (by simpa [final] using hl), if_neg (Nat.not_le.mpr hcap)]
  · refine hended hs (t := { s with
      events := .memRead .block (a + offBuffer) (lengthCount s.config rl) :: capacityRead })
      (x := .ready s.rxHead s.headFrame) ?_
    rw [rxPoll_complete hh hg.complete, bind_apply, rxFrame_head, if_pos (by simpa using ⟨hg.ok, hg.err⟩),
      if_pos (by simpa using ⟨hg.eof, hg.final⟩), if_pos hg.fits]
    rfl

/-- Settles O24: the outcomes of `rx_recycle` are those of the ring's law. -/
theorem rxRecycleMovesTheMark : Obligations.RxRecycleMovesTheMark := by
  refine ⟨fun sel p => by rw [decodeOpw_mkOpw]; rfl, ?_⟩
  intro s index hw hl hh hf p a
  have hn := (Config.wf_facts hw).1
  have hlen : s.rxHead < s.rxAddr.length := by rw [hl.rxLen]; exact hh
  have hraised : ∀ {t : State} {r : FatalReason}, s.started = true → t.fault = none →
      rxRecycle index s = .error (.fatal r) t → exec (.rxRecycle index) s = .next { t with fault := some r } :=
    fun hs ht hx => run_raised ⟨hf, hs⟩ ht (by rw [bind_apply, hx])
  refine ⟨run_notStarted hf, fun hs hi => hraised hs hf (rxRecycle_index hi), fun hs hi hc => ?_,
    fun hs hi hc hel => ?_, fun hs hi hc hel => ?_⟩ <;> subst hi
  · obtain ⟨ev, hx⟩ := rxRecycle_incomplete hlen hc
    exact ⟨ev, hraised (t := { s with events := ev }) hs hf hx⟩
  · obtain ⟨t, hx, ht, hstatus, hlength, hcommand, honly⟩ := rxRecycle_invariant hn hl hh hc hel
    exact ⟨_, hraised hs (by rw [ht]; exact hf) hx, by rw [ht], hstatus, hlength, hcommand, honly⟩
  · obtain ⟨t, hx, ht, hstatus, hlength, hcommand, hprev, honly, hev⟩ := rxRecycle_ok hn hl hh hc hel
    exact ⟨_, run_ok ⟨hf, hs⟩ ((bind_ok hx).trans rfl), by rw [ht], hstatus, hlength, hcommand, hprev, honly,
      hev⟩

/-- Settles O25: `tx_append` checks the size first, for each of its callers. -/
theorem frameOutOfBoundsIsFatal : Obligations.FrameOutOfBoundsIsFatal := fun _ _ c hr hsize =>
  append_raised hr rfl c hr.noFault fun _ => txAppend_size hsize

end Sys2Proof.Proofs
end

section
/-! SUPPORT. `tx_append` in explicit states: the filled slot, the old mark, the chain that goes on and the chain that
begins afresh; what the three hold in memory; and how an append ends. -/

namespace Sys2Proof.Machine

theorem Apart.symm {a b : BusAddr} {n m : Nat} (h : Apart a n b m) : Apart b m a n := fun x hx => by
  by_contra hc
  rw [h x (by simpa using hc)] at hx
  cases hx

theorem State.ChangesOnly.trans {s t u : State} {l l' : List (BusAddr × Nat)} (h : s.ChangesOnly t l)
    (h' : t.ChangesOnly u l') : s.ChangesOnly u (l ++ l') := fun x hx =>
  (h' x fun r hr => hx r (List.mem_append_right l hr)).trans (h x fun r hr => hx r (List.mem_append_left l' hr))

/-! ### The states -/

/-- The state after `write_slot` (R137). -/
def State.slotFilled (s : State) (k : Nat) (frame : Frame) : State :=
  { s with
    mem := ((((s.mem.writeBytes (s.txSlot k + offStatus) (leBytes 2 0)).writeBytes (s.txSlot k + offByteCount)
      (leBytes 2 (byteCountWord frame.length).toNat)).writeBytes (s.txSlot k + offThresh) [s.txThreshold]).writeBytes
      (s.txSlot k + offBuffer) frame).writeBytes (s.txSlot k + offCommand) (leBytes 2 (txCommandWord true opTx).toNat)
    events := .memWrite .block (s.txSlot k + offCommand) (leBytes 2 (txCommandWord true opTx).toNat) ::
      .memWrite .block (s.txSlot k + offBuffer) frame :: .memWrite .block (s.txSlot k + offThresh) [s.txThreshold] ::
      .memWrite .block (s.txSlot k + offByteCount) (leBytes 2 (byteCountWord frame.length).toNat) ::
      .memWrite .block (s.txSlot k + offStatus) (leBytes 2 0) :: s.events }

/-- The state after the mark of a chain that stopped was cleared (R140). -/
def State.oldMarkCleared (s : State) (k : Nat) : State :=
  { s with
    mem := if k = 0 then s.mem
      else s.mem.writeBytes (s.txSlot k + offCommand)
        (leBytes 2 (txCommandWord false (commandOp (s.txCommand k))).toNat)
    events := if k = 0 then s.events
      else .memWrite .block (s.txSlot k + offCommand)
          (leBytes 2 (txCommandWord false (commandOp (s.txCommand k))).toNat) ::
        .memRead .block (s.txSlot k + offCommand) 2 :: s.events }

/-- The state after a frame was appended to an active chain (R138). -/
def State.chainExtended (s : State) (frame : Frame) : State :=
  { s with
    txHead := nextIdx s.config.nTx s.txHead
    mem := (s.slotFilled (nextIdx s.config.nTx s.txHead) frame).mem.writeBytes (s.txSlot s.txHead + offCommand)
      (leBytes 2 (txCommandWord false opTx).toNat)
    events := s.appendEvents (nextIdx s.config.nTx s.txHead) s.txHead s.txThreshold frame ++ s.events }

/-- The state in which the CU is started on a fresh chain (R136, R140). -/
def State.chainBegun (s : State) (frame : Frame) : State :=
  { s with
    txHead := 0, txTail := 0, txIdle := false
    mem := ((s.slotFilled 0 frame).oldMarkCleared s.txHead).mem
    events := ((s.slotFilled 0 frame).oldMarkCleared s.txHead).events }

section
variable {s : State} {k : Nat} {frame : Frame}

theorem writeSlot_apply (hk : k < s.txAddr.length) : writeSlot k frame s = .ok () (s.slotFilled k frame) := by
  simp only [writeSlot, bind_apply, get_apply, txAddrOf_apply hk, writeHalf_apply, writeByte_apply, writeBuffer_apply,
    State.store]
  rfl

theorem clearOldEl_apply (hk : k < s.txAddr.length) : clearOldEl k s = .ok () (s.oldMarkCleared k) := by
  unfold clearOldEl State.oldMarkCleared
  by_cases h : k = 0
  · simp only [if_pos h, pure_apply]
  · simp only [if_neg h, bind_apply, txAddrOf_apply hk, readHalf_apply, writeHalf_apply, State.store, State.event]
    rfl

end

/-! ### How an append runs -/

section
variable {s : State} {frame : Frame} (h1 : s.config.minFrame ≤ frame.length)
  (h2 : frame.length ≤ s.config.maxTaggedFrame)
include h1 h2

theorem txAppend_active (hi : s.txIdle = false) (hn : nextIdx s.config.nTx s.txHead ≠ s.txTail)
    (hlen : s.txAddr.length = s.config.nTx) (hh : s.txHead < s.config.nTx) :
    txAppend frame s = .ok (.appended (nextIdx s.config.nTx s.txHead)) (s.chainExtended frame) := by
  have hnext : nextIdx s.config.nTx s.txHead < s.txAddr.length := by rw [hlen]; exact nextIdx_lt (by omega)
  have haddr : s.txHead < (s.slotFilled (nextIdx s.config.nTx s.txHead) frame).txAddr.length := by
    show s.txHead < s.txAddr.length
    omega
  simp only [txAppend, bind_apply, get_apply, require_apply, frameSizeOk_iff.mpr ⟨h1, h2⟩, if_true, hi,
    Bool.false_eq_true, if_false, appendActive, if_neg hn, writeSlot_apply hnext, txAddrOf_apply haddr,
    writeHalf_apply, modify_apply, pure_apply]
  rfl

/-- On an idle ring everything is written before the CU is started (R136). -/
theorem txAppend_idle (hi : s.txIdle = true) (hlen : s.txAddr.length = s.config.nTx) (hh : s.txHead < s.config.nTx) :
    txAppend frame s = (issue .cuStart (s.txSlot 0) true >>= fun _ => pure (.appended 0)) (s.chainBegun frame) := by
  have h0 : 0 < s.txAddr.length := by omega
  have hold : s.txHead < (s.slotFilled 0 frame).txAddr.length := by
    show s.txHead < s.txAddr.length
    omega
  have hstart : txAddrOf 0 (s.chainBegun frame) = .ok (s.txSlot 0) (s.chainBegun frame) := txAddrOf_apply h0
  have hsize : require (frameSizeOk s.config frame.length) .frameSize s = .ok () s := by
    rw [require_apply, if_pos (frameSizeOk_iff.mpr ⟨h1, h2⟩)]
  rw [txAppend, bind_ok (get_apply s), bind_ok hsize, if_pos hi, appendIdle, bind_ok (get_apply s),
    bind_ok (writeSlot_apply h0), bind_ok (clearOldEl_apply hold), bind_ok (modify_apply _ _)]
  exact bind_ok hstart

end

/-! ### What an append leaves in memory -/

/-- A filled descriptor whose bytes are the same. -/
theorem State.TxFilled.of_same {s t : State} {k W : Nat} {threshold : Byte} {frame : Frame}
    (h : s.TxFilled k threshold frame) (ha : t.txAddr = s.txAddr) (hA : (s.txSlot k).toNat + W ≤ 2 ^ 32)
    (hW : 12 + frame.length ≤ W) (hb : SameBytes s t (s.txSlot k) W) : t.TxFilled k threshold frame := by
  have hs : t.txSlot k = s.txSlot k := by rw [State.txSlot, ha, State.txSlot]
  refine ⟨?_, ?_, ?_, ?_, ?_⟩
  · rw [State.txStatus, hs, hb.half hA (by simp; omega)]; exact h.status
  · rw [State.txByteCount, hs, hb.half hA (by simp; omega)]; exact h.byteCount
  · rw [State.txThresh, hs, hb.byte hA (by simp; omega)]; exact h.thresh
  · rw [State.txBuffer, hs, hb.readBytes hA (by simp; omega)]; exact h.buffer
  · rw [State.txCommand, hs, hb.half hA (by simp; omega)]; exact h.command

/-- A filled descriptor whose memory is the same. -/
theorem State.TxFilled.of_mem {s t : State} {k : Nat} {threshold : Byte} {frame : Frame}
    (h : s.TxFilled k threshold frame) (hm : t.mem = s.mem) (ha : t.txAddr = s.txAddr) :
    t.TxFilled k threshold frame := by
  have hs : t.txSlot k = s.txSlot k := by rw [State.txSlot, ha, State.txSlot]
  refine ⟨?_, ?_, ?_, ?_, ?_⟩
  · rw [State.txStatus, State.half, hs, hm]; exact h.status
  · rw [State.txByteCount, State.half, hs, hm]; exact h.byteCount
  · rw [State.txThresh, State.byteAt, hs, hm]; exact h.thresh
  · rw [State.txBuffer, hs, hm]; exact h.buffer
  · rw [State.txCommand, State.half, hs, hm]; exact h.command

section
variable {s : State} (h : s.Laid) {frame : Frame} (hf : frame.length ≤ s.config.bufSize)
include h hf

theorem slotFilled_filled {k : Nat} (hk : k < s.config.nTx) :
    (s.slotFilled k frame).TxFilled k s.txThreshold frame ∧
    s.ChangesOnly (s.slotFilled k frame) (s.filledSpans k frame) ∧
    ∀ i, i < s.config.nTx → i ≠ k → (s.slotFilled k frame).txCommand i = s.txCommand i := by
  obtain ⟨u, hx, -, hfilled, honly, hother, -⟩ := writeSlot_commands h hk hf
  rw [writeSlot_apply (by rw [h.txLen]; exact hk)] at hx
  cases hx
  exact ⟨hfilled, honly, hother⟩

/-- A filled slot stays filled when the command word of another one is written. -/
theorem filled_of_otherCommand {u t : State} {j k : Nat} (hj : j < s.config.nTx) (hk : k < s.config.nTx) (hjk : j ≠ k)
    {threshold : Byte} (hfilled : u.TxFilled k threshold frame) (hu : u.txAddr = s.txAddr) (ht : t.txAddr = u.txAddr)
    (honly : u.ChangesOnly t [s.txCommandSpan j]) : t.TxFilled k threshold frame := by
  have hD := descriptorSize_ge s.config
  have hslot : u.txSlot k = s.txSlot k := by rw [State.txSlot, hu, State.txSlot]
  have hapart : Apart (s.txSlot j + offCommand) 2 (s.txSlot k) (descriptorSize s.config) :=
    Apart.symm (apart_whole (h.tx_fits hk) (h.tx_fits hj) (h.tx_tx hk hj (Ne.symm hjk)) (by simp; omega))
  refine hfilled.of_same (W := descriptorSize s.config) ht (by rw [hslot]; exact h.tx_fits hk) (by omega) ?_
  rw [hslot]
  exact SameBytes.of_apart (fun x hx => honly x (by simpa [State.txCommandSpan] using hx)) hapart

end

/-- What an append to an active chain leaves in memory (R137, R138). -/
structure State.ExtendsChain (s t : State) (frame : Frame) : Prop where
  filled : t.TxFilled (nextIdx s.config.nTx s.txHead) s.txThreshold frame
  oldMark : t.txCommand s.txHead = txCommandWord false opTx
  only : s.ChangesOnly t (s.filledSpans (nextIdx s.config.nTx s.txHead) frame ++ [s.txCommandSpan s.txHead])

/-- What an append to an idle ring leaves in memory (R137, R140). -/
structure State.BeginsChain (s t : State) (frame : Frame) : Prop where
  filled : t.TxFilled 0 s.txThreshold frame
  oldMark : s.txHead ≠ 0 → t.txCommand s.txHead = txCommandWord false (commandOp (s.txCommand s.txHead))
  only : s.ChangesOnly t (s.filledSpans 0 frame ++ [s.txCommandSpan s.txHead])

section
variable {s : State} (h : s.Laid) {frame : Frame} (hf : frame.length ≤ s.config.bufSize)
  (hh : s.txHead < s.config.nTx)
include h hf hh

theorem chainExtended_extends (hn : 2 ≤ s.config.nTx) : s.ExtendsChain (s.chainExtended frame) frame := by
  have hnext : nextIdx s.config.nTx s.txHead < s.config.nTx := nextIdx_lt (by omega)
  have hne : s.txHead ≠ nextIdx s.config.nTx s.txHead := fun e =>
    prevIdx_ne hn hh (by rw [e, prevIdx_nextIdx hh]; exact e)
  obtain ⟨hfilled, honly, -⟩ := slotFilled_filled h hf hnext
  have hmark : (s.slotFilled (nextIdx s.config.nTx s.txHead) frame).ChangesOnly (s.chainExtended frame)
      [s.txCommandSpan s.txHead] := fun x hx =>
    byteAt_store_other (w := .block) (hx (s.txCommandSpan s.txHead) (List.mem_singleton_self _))
  exact ⟨filled_of_otherCommand h hf hh hnext hne hfilled rfl rfl hmark, half_store_same (w := .block) _,
    honly.trans hmark⟩

theorem chainBegun_begins : s.BeginsChain (s.chainBegun frame) frame := by
  obtain ⟨hfilled, honly, hother⟩ := slotFilled_filled h hf (k := 0) (by omega)
  have hlaid : (s.slotFilled 0 frame).Laid := h.of_eq rfl rfl rfl rfl rfl
  obtain ⟨v, hx, hv, hold, hvonly, -, -⟩ := clearOldEl_ok hlaid (k := s.txHead) hh
  rw [clearOldEl_apply (by rw [hlaid.txLen]; exact hh)] at hx
  cases hx
  have hmark : (s.slotFilled 0 frame).ChangesOnly (s.chainBegun frame) [s.txCommandSpan s.txHead] := hvonly
  refine ⟨?_, fun h0 => (hold h0).trans (by rw [hother s.txHead hh h0]), honly.trans hmark⟩
  by_cases h0 : s.txHead = 0
  · have hmem : (s.chainBegun frame).mem = (s.slotFilled 0 frame).mem := if_pos h0
    have hD := descriptorSize_ge s.config
    exact hfilled.of_same (W := descriptorSize s.config) rfl (h.tx_fits (by omega)) (by omega)
      fun x _ => by rw [State.byteAt, hmem]; rfl
  · exact filled_of_otherCommand h hf hh (by omega) h0 hfilled rfl rfl hmark

end

/-! ### The CU's start, whatever the pending request is -/

/-- The START of the CU raises a Fatal, in the same way whatever the pending request is. -/
def State.StartRaises (s : State) (a : BusAddr) (r : FatalReason) (d : Device) (script : List PollEvent) : Prop :=
  ∃ ev, ∀ p : Pending TxRequest, issue .cuStart a true { s with pendTx := p } =
    .error (.fatal r) { s with pendTx := p, dev := d, pollScript := script, events := ev }

/-- A poll for a pending command that the device does not answer: how many reads it makes. -/
theorem awaitField_fails {script rest : List PollEvent} {bound : Nat} (h : PollFails script bound rest) :
    ∃ k, ∀ (s : State) (e : Engine) (r : FatalReason), s.dev.noCommand e = false →
      awaitLoop (readFieldIsNop e) r script bound s =
        .error (.fatal r) { s.pendingReads k with pollScript := rest } := by
  rcases h with ⟨k, hk, rfl⟩ | rfl | ⟨rfl, k, hk, rfl⟩
  · obtain ⟨m, rfl⟩ : ∃ m, bound = (m + 1) + k := ⟨bound - k - 1, by omega⟩
    exact ⟨k, fun s e r hn => (awaitField_pending hn k (m + 1) _).trans awaitLoop_timeout⟩
  · refine ⟨bound, fun s e r hn => ?_⟩
    have hreads := awaitField_pending (r := r) hn bound 0 rest
    rw [Nat.zero_add] at hreads
    exact hreads.trans awaitLoop_bound
  · obtain ⟨m, rfl⟩ : ∃ m, bound = (m + 1) + k := ⟨bound - k - 1, by omega⟩
    refine ⟨k + 1, fun s e r hn => ?_⟩
    have hreads := awaitField_pending (r := r) hn k (m + 1) []
    rw [List.append_nil] at hreads
    refine hreads.trans ((awaitLoop_end (readFieldIsNop_apply _ e)).trans ?_)
    exact if_neg (by show ¬ s.dev.noCommand e = true; rw [hn]; decide)

section
variable {s : State} {a : BusAddr}

theorem startRaises_notIdle (h : s.dev.unitState .cu ≠ .idle) : s.StartRaises a .notIdle s.dev s.pollScript :=
  ⟨s.statusRead :: s.events, fun p => issue_notIdle (s := { s with pendTx := p }) (cmd := .cuStart) h⟩

theorem startRaises_cmdBusy (hi : s.dev.unitState .cu = .idle) (h : s.dev.noCommand .cu = false) :
    s.StartRaises a .cmdBusy s.dev s.pollScript := by
  refine ⟨cmdRead s.base s.config s.dev :: s.statusRead :: s.events, fun p => ?_⟩
  have hidle : (unitStateOf (s.dev.unitCode .cu) == .idle) = true := beq_iff_eq.mpr hi
  simp only [issue, bind_apply, checkIdle, EngineCommand.engine, if_true, readUnitCode_apply, hidle, require_apply,
    readFieldIsNop_apply, event_dev, h, Bool.false_eq_true, if_false]
  rfl

theorem startRaises_cmdTimeout {rest : List PollEvent} (hw : s.config.cmdCodes.wf = true) (h : s.CanIssue .cu true)
    (hp : PollFails s.pollScript s.config.cuPollBound rest) :
    s.StartRaises a .cmdTimeout (s.dev.withCommand s.config.cmdCodes .cuStart a) rest := by
  obtain ⟨k, hk⟩ := awaitField_fails hp
  refine ⟨((s.issued .cuStart a true).pendingReads k).events, fun p => ?_⟩
  rw [issue_start (s := { s with pendTx := p }) (cmd := .cuStart) (by decide) ⟨h.noCommand, h.idle⟩]
  exact hk _ .cu .cmdTimeout (noCommand_written (cmd := .cuStart) hw)

end

/-! ### An append to an idle ring, for each of its callers -/

section
variable {s : State} {frame : Frame} (h : s.Laid) (hr : s.Running) (hw : s.config.wf = true)
  (hh : s.txHead < s.config.nTx) (hi : s.txIdle = true) (h1 : s.config.minFrame ≤ frame.length)
  (h2 : frame.length ≤ s.config.maxTaggedFrame)
include h hh hi h1 h2

/-- The same, whatever the pending request is. -/
theorem txAppend_idle_pendTx (p : Pending TxRequest) : txAppend frame { s with pendTx := p } =
    (issue .cuStart (s.txSlot 0) true >>= fun _ => pure (.appended 0)) { s.chainBegun frame with pendTx := p } :=
  txAppend_idle (s := { s with pendTx := p }) h1 h2 hi h.txLen hh

/-- The device accepts the START. -/
theorem txAppend_idle_accepted (hw : s.config.wf = true) (hci : s.CanIssue .cu true) {k : Nat} {rest : List PollEvent}
    (hp : s.pollScript = acceptedAfter .cu k rest) (hk : k < s.config.cuPollBound) (p : Pending TxRequest) :
    txAppend frame { s with pendTx := p } = .ok (.appended 0)
      { (s.chainBegun frame).accepted .cuStart (s.txSlot 0) true k rest with pendTx := p } := by
  rw [txAppend_idle_pendTx h hh hi h1 h2 p]
  exact bind_ok (issue_accepted (s := { s.chainBegun frame with pendTx := p }) (cmd := .cuStart) (Config.wf_codes hw)
    (by decide) ⟨hci.noCommand, hci.idle⟩ hp hk)

include hr hw in
/-- The START raises a Fatal: what was written before stays (R240). -/
theorem appendIdle_raises (c : Client) {r : FatalReason} {d : Device} {script : List PollEvent}
    (hstart : (s.chainBegun frame).StartRaises (s.txSlot 0) r d script) : ∃ t : State,
      t = { s with
        txHead := 0, txTail := 0, txIdle := false, fault := some r, mem := t.mem, events := t.events
        dev := d, pollScript := script } ∧
      t.TxFilled 0 s.txThreshold frame ∧
      (s.txHead ≠ 0 → t.txCommand s.txHead = txCommandWord false (commandOp (s.txCommand s.txHead))) ∧
      s.ChangesOnly t (s.filledSpans 0 frame ++ [s.txCommandSpan s.txHead]) ∧
      exec (.txAppend frame) s = .next t ∧
      (s.pendTx = .empty → exec (.transmit c frame) s = .next t) ∧
      (s.pendTx = .armed { client := c, frame := frame } → exec .replayTx s = .next { t with pendTx := .empty }) := by
  have hbuf := (Config.wf_facts hw).2.2.1
  obtain ⟨ev, hissue⟩ := hstart
  obtain ⟨hfilled, hold, honly⟩ := chainBegun_begins h (frame := frame) (by omega) hh
  have hraised := append_raised (t := { s.chainBegun frame with dev := d, pollScript := script, events := ev }) hr rfl c
    hr.noFault fun p => by rw [txAppend_idle_pendTx h hh hi h1 h2 p, bind_apply, hissue p]
  exact ⟨{ s.chainBegun frame with fault := some r, dev := d, pollScript := script, events := ev }, rfl,
    hfilled.of_mem rfl rfl, hold, honly, hraised⟩

end

end Sys2Proof.Machine
end

section
/-! SUPPORT. The statements about an append, from the laws above. -/

namespace Sys2Proof.Proofs

open Sys2Proof Sys2Proof.Machine

/-- Settles O26: the chain is extended, and each service acknowledges. -/
theorem appendToActiveChain : Obligations.AppendToActiveChain := by
  intro s frame c hw hl hr hh hi hmin hmax hroom n
  obtain ⟨-, hn, hbuf, -⟩ := Config.wf_facts hw
  obtain ⟨hfilled, hold, honly⟩ := chainExtended_extends hl (frame := frame) (by omega) hh hn
  exact ⟨s.chainExtended frame, rfl, hfilled.of_mem rfl rfl, hold, honly, rfl,
    append_sent (t := s.chainExtended frame) hr rfl c rfl rfl fun p =>
      txAppend_active (s := { s with pendTx := p }) hmin hmax hi hroom hl.txLen hh⟩

/-- Settles O28: a chain is begun, the device accepts the START, and each service acknowledges. -/
theorem appendToIdleRing : Obligations.AppendToIdleRing := by
  intro s frame c k rest hw hl hr hh hi hmin hmax hci hp hk
  have hbuf := (Config.wf_facts hw).2.2.1
  obtain ⟨hfilled, hold, honly⟩ := chainBegun_begins hl (frame := frame) (by omega) hh
  exact ⟨(s.chainBegun frame).accepted .cuStart (s.txSlot 0) true k rest, rfl, hfilled.of_mem rfl rfl, hold,
    honly,
    append_sent (t := (s.chainBegun frame).accepted .cuStart (s.txSlot 0) true k rest) hr rfl c rfl rfl
      (txAppend_idle_accepted hl hh hi hmin hmax hw hci hp hk)⟩

/-- Settles O29: the START raises each of its Fatals after the chain was begun. -/
theorem appendKeepsItsWritesOnFault : Obligations.AppendKeepsItsWritesOnFault := by
  intro s frame c rest hw hl hr hh hi hmin hmax endsIn
  refine ⟨fun hidle => ?_, fun hidle hbusy => ?_, fun hci hp => ?_⟩
  · exact appendIdle_raises hl hr hw hh hi hmin hmax c (startRaises_notIdle (s := s.chainBegun frame) hidle)
  · exact appendIdle_raises hl hr hw hh hi hmin hmax c (startRaises_cmdBusy (s := s.chainBegun frame) hidle hbusy)
  · exact appendIdle_raises hl hr hw hh hi hmin hmax c
      (startRaises_cmdTimeout (s := s.chainBegun frame) (Config.wf_codes hw) ⟨hci.noCommand, hci.idle⟩ hp)

end Sys2Proof.Proofs
end

section
/-! SUPPORT. The drain of the TX ring at a completed slot that ends the chain, or that lacks its mark or has a lost one
(R141); and that a drain only reads fields of the ring. -/

namespace Sys2Proof.Machine

/-! ### Where the drain stops -/

section
variable {s : State} {k : Nat} (hlen : s.txAddr.length = s.config.nTx) (ht : s.txTail < s.config.nTx)
include hlen ht

/-- The drain over the first slots of a run. -/
theorem drainLoop_walk (h : s.TxRun k) {j : Nat} (hj : j ≤ k) (fuel : Nat) :
    ∃ ev, drainLoop s.txTail 0 (fuel + j) s = drainLoop (s.txWalk j) j fuel (s.retired j ev) := by
  induction j generalizing fuel with
  | zero => exact ⟨s.events, by rw [State.txWalk_zero ht]; rfl⟩
  | succ j ih =>
    obtain ⟨ev, hx⟩ := ih (by omega) (fuel + 1)
    obtain ⟨ev', hy⟩ := drainLoop_retire (fuel := fuel) h (show j < k by omega) hlen ht ev
    exact ⟨ev', by rw [show fuel + (j + 1) = fuel + 1 + j by omega, hx, hy]⟩

/-- The completed slot after a run is retired, and its mark is checked against the head. -/
theorem drainLoop_complete (hc : statusC (s.txStatus (s.txWalk k)) = true) (fuel : Nat) (ev : List BusEvent) :
    ∃ ev', drainLoop (s.txWalk k) k (fuel + 1) (s.retired k ev) =
      (if commandEl (s.txCommand (s.txWalk k)) then do
        require (s.txWalk k == s.txHead) .ringInvariant
        modify fun t : State => { t with txIdle := true }
        pure (s.txWalk k, k + 1)
      else do
        require (s.txWalk k != s.txHead) .ringInvariant
        drainLoop (s.txWalk (k + 1)) (k + 1) fuel : Op (Nat × Nat)) (s.retired (k + 1) ev') := by
  have hi := State.txWalk_lt ht k
  have hstatus : (s.retired k ev).half ((s.retired k ev).txSlot (s.txWalk k) + offStatus) =
      s.txStatus (s.txWalk k) := rfl
  let ev1 : List BusEvent := .memRead .block (s.txSlot (s.txWalk k) + offStatus) 2 :: ev
  have hnote : noteUnderrun (s.txStatus (s.txWalk k)) ((s.retired k ev).event
      (.memRead .block ((s.retired k ev).txSlot (s.txWalk k) + offStatus) 2)) = .ok () (s.retired (k + 1) ev1) :=
    noteUnderrun_retired s k ev1
  have hmark : (s.retired (k + 1) ev1).half ((s.retired k ev).txSlot (s.txWalk k) + offCommand) =
      s.txCommand (s.txWalk k) := rfl
  refine ⟨.memRead .block (s.txSlot (s.txWalk k) + offCommand) 2 :: ev1, ?_⟩
  rw [← nextIdx_txWalk, drainLoop]
  simp only [bind_apply, get_apply, readHalf_apply, hstatus,
    txAddrOf_apply (s := s.retired k ev) (i := s.txWalk k) (by rw [← hlen] at hi; exact hi), hc, if_true, hnote,
    hmark]
  rfl

section
variable (hh : s.txHead < s.config.nTx) (hidle : s.txIdle = false)
include hh hidle

/-- A drain that retires the whole chain (R141): the ring becomes idle. -/
theorem txDrain_done (h : s.ChainDone k) : ∃ ev, txDrain s = .ok (k + 1) { s.retired (k + 1) ev with
    txIdle := true, txTail := s.txHead, txAlive := true } := by
  have hlt := h.run.lt hh ht
  obtain ⟨ev, hx⟩ := drainLoop_walk hlen ht h.run le_rfl (s.config.nTx - k - 1 + 1)
  obtain ⟨ev', hy⟩ := drainLoop_complete hlen ht h.complete (s.config.nTx - k - 1) ev
  rw [show s.config.nTx - k - 1 + 1 + k = s.config.nTx by omega, hy, if_pos h.mark, h.head] at hx
  refine ⟨ev', ?_⟩
  simp only [txDrain, bind_apply, get_apply, hidle, Bool.false_eq_true, if_false, hx, require_apply, beq_self_eq_true,
    if_true, modify_apply, pure_apply]
  rfl

/-- A drain that meets a mark elsewhere than on the head, or a head without it (R141). -/
theorem txDrain_invariant (h : s.TxRun k) (hc : statusC (s.txStatus (s.txWalk k)) = true)
    (hm : commandEl (s.txCommand (s.txWalk k)) = decide (s.txWalk k ≠ s.txHead)) :
    ∃ ev, txDrain s = .error (.fatal .ringInvariant) (s.retired (k + 1) ev) := by
  have hlt := h.lt hh ht
  obtain ⟨ev, hx⟩ := drainLoop_walk hlen ht h le_rfl (s.config.nTx - k - 1 + 1)
  obtain ⟨ev', hy⟩ := drainLoop_complete hlen ht hc (s.config.nTx - k - 1) ev
  have hstop : drainLoop s.txTail 0 s.config.nTx s = .error (.fatal .ringInvariant) (s.retired (k + 1) ev') := by
    rw [show s.config.nTx - k - 1 + 1 + k = s.config.nTx by omega, hy, hm] at hx
    rw [hx]
    by_cases hhead : s.txWalk k = s.txHead
    · simp only [hhead, ne_eq, not_true, decide_false, Bool.false_eq_true, if_false, bind_apply, require_apply,
        bne_self_eq_false]
    · simp only [hhead, ne_eq, not_false_iff, decide_true, if_true, bind_apply, require_apply,
        beq_eq_false_iff_ne.mpr hhead, Bool.false_eq_true, if_false]
  refine ⟨ev', ?_⟩
  simp only [txDrain, bind_apply, get_apply, hidle, Bool.false_eq_true, if_false, hstop]

end

end

theorem txDrain_idle {s : State} (h : s.txIdle = true) : txDrain s = .ok 0 s := by
  simp only [txDrain, bind_apply, get_apply, h, if_true, pure_apply]

/-! ### What the drain reads -/

/-- From one state to another only 16-bit fields of the TX ring were read. -/
structure State.ReadsRing (s t : State) : Prop where
  txAddr : t.txAddr = s.txAddr
  events : ∃ reads : List BusEvent, t.events = reads ++ s.events ∧
    ∀ e ∈ reads, ∃ i off, e = .memRead .block (s.txSlot i + off) 2

section
variable {s : State}

theorem readsRing_modify {f : State → State} (ha : ∀ t, (f t).txAddr = t.txAddr)
    (he : ∀ t, (f t).events = t.events) :
    Holds s.ReadsRing (modify f : Op Unit) :=
  holds_modify fun t h => ⟨(ha t).trans h.txAddr, by rw [he t]; exact h.events⟩

theorem readsRing_readHalf (i : Nat) (off : BusAddr) : Holds s.ReadsRing (readHalf .block (s.txSlot i + off)) := by
  intro t h b u hx
  cases hx
  obtain ⟨reads, ht, hreads⟩ := h.events
  refine ⟨h.txAddr, .memRead .block (s.txSlot i + off) 2 :: reads, by rw [event_events, ht]; rfl, fun e he => ?_⟩
  rcases List.mem_cons.mp he with rfl | he
  · exact ⟨i, off, rfl⟩
  · exact hreads e he

theorem readsRing_txAddrOf {α : Type} {i : Nat} {f : BusAddr → Op α} (hf : Holds s.ReadsRing (f (s.txSlot i))) :
    Holds s.ReadsRing (txAddrOf i >>= f) := by
  intro t h b u hx
  have hslot : t.txSlot i = s.txSlot i := by rw [State.txSlot, h.txAddr, State.txSlot]
  rw [bind_apply, txAddrOf_eq] at hx
  by_cases hi : i < t.txAddr.length
  · rw [if_pos hi, hslot] at hx
    exact hf t h b u hx
  · rw [if_neg hi] at hx
    cases hx

theorem readsRing_drainLoop (fuel : Nat) (i count : Nat) : Holds s.ReadsRing (drainLoop i count fuel) := by
  induction fuel generalizing i count with
  | zero => exact holds_stop _
  | succ fuel ih =>
    refine holds_get_bind fun t => (readsRing_txAddrOf <| holds_bind (readsRing_readHalf i offStatus) fun st =>
      holds_ite (holds_bind ?_ fun _ => holds_bind (readsRing_readHalf i offCommand) fun c => holds_ite ?_ ?_)
        (holds_pure _)) t
    · exact holds_ite (readsRing_modify (fun _ => rfl) fun _ => rfl) (holds_pure _)
    · exact holds_bind (holds_require _ _) fun _ =>
        holds_bind (readsRing_modify (fun _ => rfl) fun _ => rfl) fun _ => holds_pure _
    · exact holds_bind (holds_require _ _) fun _ => ih _ _

theorem readsRing_txDrain : Holds s.ReadsRing txDrain := by
  refine holds_get_bind fun t => (holds_ite (holds_pure _) <| holds_bind (readsRing_drainLoop _ _ _) fun _ =>
    holds_bind ?_ fun _ => holds_pure _) t
  exact readsRing_modify (fun _ => rfl) fun _ => rfl

theorem txDrain_reads {t : State} {n : Nat} (h : txDrain s = .ok n t) : s.ReadsRing t :=
  readsRing_txDrain s ⟨rfl, [], rfl, fun _ he => absurd he List.not_mem_nil⟩ n t h

end

end Sys2Proof.Machine
end

section
/-! SUPPORT. The statements about `tx_drain`, from the laws above. -/

namespace Sys2Proof.Proofs

open Sys2Proof Sys2Proof.Machine

/-- Settles O30: an idle ring has nothing to drain; a run is retired up to the incomplete slot. -/
theorem drainStopsAtTheFirstIncomplete : Obligations.DrainStopsAtTheFirstIncomplete := by
  intro s k hr
  refine ⟨fun hi => ?_, fun hi hlen hh ht hrun hstop => ?_⟩
  · exact run_ok hr ((bind_ok (txDrain_idle hi)).trans rfl)
  · obtain ⟨ev, hx⟩ := txDrain_run hrun hlen hh ht hi hstop
    refine ⟨ev, (run_ok hr ((bind_ok hx).trans rfl)).trans ?_⟩
    have halive : (if 0 < k then true else s.txAlive) = (s.txAlive || decide (0 < k)) := by
      cases s.txAlive <;> by_cases h : 0 < k <;> simp [h]
    rw [← halive]
    rfl

/-- Settles O31: the slot after the run is retired, then its mark ends the chain or is a lost one. -/
theorem drainStopsAtTheMark : Obligations.DrainStopsAtTheMark := by
  intro s k hr hi hlen hh ht hrun hc
  refine ⟨fun hm hhead => ?_, fun hm => ?_⟩
  · obtain ⟨ev, hx⟩ := txDrain_done hlen ht hh hi ⟨hrun, hc, hm, hhead⟩
    exact ⟨ev, (run_ok hr ((bind_ok hx).trans rfl)).trans rfl⟩
  · obtain ⟨ev, hx⟩ := txDrain_invariant hlen ht hh hi hrun hc hm
    exact ⟨ev, run_raised (t := s.retired (k + 1) ev) hr hr.noFault (by rw [bind_apply, hx])⟩

end Sys2Proof.Proofs
end

section
/-! SUPPORT. The RU's restart when its command is not accepted, and the receive services when they end in a Fatal or arm
their request. -/

namespace Sys2Proof.Machine

/-! ### The RU's restart -/

/-- A fresh descriptor whose memory is the same. -/
theorem State.RxFresh.of_mem {s t : State} {i : Nat} (h : s.RxFresh i) (hm : t.mem = s.mem)
    (ha : t.rxAddr = s.rxAddr) (hc : t.config = s.config) : t.RxFresh i := by
  have hs : ∀ j, t.rxSlot j = s.rxSlot j := fun j => by rw [State.rxSlot, ha, State.rxSlot]
  refine ⟨?_, ?_, ?_, ?_, ?_⟩
  · rw [State.rxStatus, State.half, hs, hm]; exact h.status
  · rw [State.rxLength, State.half, hs, hm]; exact h.length
  · rw [State.rxCapacity, State.half, hs, hm, hc]; exact h.capacity
  · rw [State.rxLink, State.word, hs, hs, hm, hc]; exact h.link
  · rw [State.rxCommand, State.half, hs, hm, hc]; exact h.command

/-- For an RU without resources the ring is initialised, then the RU is started at its first descriptor (R168). -/
theorem restartRu_initialises {s : State} (hn : 0 < s.config.nRx) (h : s.Laid)
    (hu : s.dev.unitState .ru = .noResources) :
    ∃ u : State, u = { s with rxHead := 0, mem := u.mem, events := u.events } ∧
      (∀ i, i < s.config.nRx → u.RxFresh i) ∧ s.ChangesOnly u (headers s.rxAddr) ∧
      restartRu s = (issue .ruStart (s.rxSlot 0) false >>= fun _ =>
        modify fun t : State => { t with rxNeedRestart := false }) u := by
  obtain ⟨m, ev, hx, hfresh, hbytes⟩ := rxInit_ok (s := s.event s.statusRead) (h.of_eq rfl rfl rfl rfl rfl)
  have hstate : (unitStateOf (s.dev.unitCode .ru) == .noResources) = true := beq_iff_eq.mpr hu
  refine ⟨_, rfl, hfresh, fun x hx => hbytes x fun j hj => hx _ (mem_headers (by rw [h.rxLen]; exact hj)), ?_⟩
  rw [restartRu, bind_ok (readUnitCode_apply s .ru), bind_ok (a := ()) (t := s.event s.statusRead)
    (by rw [require_apply, hstate]; rfl), bind_ok hx]
  exact bind_ok (rxAddrOf_apply (by show 0 < s.rxAddr.length; rw [h.rxLen]; exact hn))

/-! ### The receive services -/

section
variable {s t u : State} {c : Client}

theorem rxService_pollRaised {e : Stop} (h : rxPoll s = .error e t) : rxService c s = .error e t := by
  simp only [rxService, bind_apply, h]

theorem rxService_recycleRaised {e : Stop} {i : Nat} {f : Frame} (h : rxPoll s = .ok (.ready i f) t)
    (hr : rxRecycle i t = .error e u) : rxService c s = .error e u := by
  simp only [rxService, bind_apply, h, hr]

/-- A good frame whose descriptor cannot be recycled: the mark is not where it belongs (R133). -/
theorem rxService_invariant (c : Client) (hw : 2 ≤ s.config.nRx) (h : s.Laid) (hh : s.rxHead < s.config.nRx)
    (hg : s.HeadGood) (hel : commandEl (s.rxCommand (prevIdx s.config.nRx s.rxHead)) = false) :
    ∃ t : State, rxService c s = .error (.fatal .ringInvariant) t ∧
      t = { s with mem := t.mem, events := t.events } ∧
      t.rxStatus s.rxHead = 0 ∧ t.rxLength s.rxHead = 0 ∧ t.rxCommand s.rxHead = rxCommandWord true ∧
      s.ChangesOnly t (s.recycledSpans s.rxHead) := by
  obtain ⟨ev, hp⟩ := rxPoll_ready (by rw [h.rxLen]; exact hh) hg
  obtain ⟨t, hx, ht⟩ := rxRecycle_invariant (s := { s with events := ev }) hw (h.of_eq rfl rfl rfl rfl rfl) hh
    hg.complete hel
  exact ⟨t, rxService_recycleRaised hp hx, ht⟩

/-- With no complete frame and no RU to restart the request is armed (R227, R228). -/
theorem rxService_arms (c : Client) (hh : s.rxHead < s.rxAddr.length) (hc : statusC (s.rxStatus s.rxHead) = false)
    (hres : s.rxNeedRestart = false ∨ s.dev.unitState .ru ≠ .noResources) (hp : s.pendRx = .empty) :
    ∃ ev, rxService c s = .ok .deferred { s with pendRx := .armed c, events := ev } := by
  obtain ⟨ev, hpoll⟩ := rxPoll_notReady hh hc
  by_cases hm : s.rxNeedRestart = true
  · obtain ⟨ev', hbusy⟩ := lazyRestart_busy (s := { s with events := ev }) hm
      (hres.resolve_left (by rw [hm]; decide))
    exact ⟨ev', rxService_notReady hpoll hbusy hp⟩
  · exact ⟨ev, rxService_notReady hpoll (lazyRestart_unmarked (Bool.eq_false_iff.mpr hm)) hp⟩

end

section
variable {s u : State} {c : Client} (hr : s.Running)
include hr

/-- A service that ends with nothing armed, for both of its callers. -/
theorem receive_ends {x : OpResult} (hx : rxService c { s with pendRx := .empty } = .ok x u) (hu : u.pendRx = .empty)
    (hres : u.results = s.results) :
    (s.pendRx = .empty → exec (.receive c) s = .next { u with pendRx := s.pendRx, results := s.results ++ [x] }) ∧
    (s.pendRx = .armed c → exec .replayRx s = .next { u with pendRx := .empty, results := s.results ++ [x] }) := by
  have hrun : runOperation (rxService c) { s with pendRx := .empty } =
      .next { u with pendRx := .empty, results := s.results ++ [x] } := by
    refine (runOperation_ok (s := { s with pendRx := .empty }) hr.noFault hx).trans ?_
    rw [hres, ← hu]
  refine ⟨fun hp => ?_, fun hp => (exec_replayRx_armed hr hp).trans hrun⟩
  rw [exec_receive_empty hr hp, hrun, hp]

/-- A service that raises a Fatal, for both of its callers. -/
theorem receive_raises {r : FatalReason} (hx : rxService c { s with pendRx := .empty } = .error (.fatal r) u)
    (hu : u.pendRx = .empty) (hf : u.fault = none) :
    (s.pendRx = .empty → exec (.receive c) s = .next { u with pendRx := s.pendRx, fault := some r }) ∧
    (s.pendRx = .armed c → exec .replayRx s = .next { u with pendRx := .empty, fault := some r }) := by
  have hrun : runOperation (rxService c) { s with pendRx := .empty } =
      .next { u with pendRx := .empty, fault := some r } := by
    refine (runOperation_raised (s := { s with pendRx := .empty }) hr.noFault hf hx).trans ?_
    rw [← hu]
  refine ⟨fun hp => ?_, fun hp => (exec_replayRx_armed hr hp).trans hrun⟩
  rw [exec_receive_empty hr hp, hrun, hp]

end

end Sys2Proof.Machine
end

section
/-! SUPPORT. The statements about the RU's restart and the receive services, from the laws above. -/

namespace Sys2Proof.Proofs

open Sys2Proof Sys2Proof.Machine

/-- Settles O36: the ring is initialised before the RU's START, which is accepted or raises a Fatal. -/
theorem restartRuReinitialisesTheRing : Obligations.RestartRuReinitialisesTheRing := by
  intro s k rest hw hl hr
  have hraised : ∀ {t : State} {r : FatalReason}, t.fault = none → restartRu s = .error (.fatal r) t →
      exec .restartRu s = .next { t with fault := some r } := fun ht hx => run_raised hr ht (by rw [bind_apply, hx])
  have hn : 0 < s.config.nRx := by have := (Config.wf_facts hw).1; omega
  refine ⟨fun hu => ?_, fun hu hbusy => ?_, fun hu hcmd hp => ?_, fun hu hcmd hp hk => ?_⟩
  · exact ⟨s.statusRead :: s.events, hraised (t := s.event s.statusRead) hr.noFault (restartRu_precondition hu)⟩
  · obtain ⟨u, hue, hfresh, honly, hx⟩ := restartRu_initialises hn hl hu
    obtain ⟨ev, hissue⟩ := issue_cmdBusy (s := u) (cmd := .ruStart) (a := s.rxSlot 0) (ri := false)
      (fun h => absurd h Bool.false_ne_true) (by rw [hue]; exact hbusy)
    rw [bind_apply, hissue] at hx
    refine ⟨_, hraised (by rw [hue]; exact hr.noFault) hx, by rw [hue],
      fun i hi => (hfresh i hi).of_mem rfl rfl rfl, honly⟩
  · obtain ⟨u, hue, hfresh, honly, hx⟩ := restartRu_initialises hn hl hu
    obtain ⟨ev, hissue⟩ := issue_timeout (s := u) (cmd := .ruStart) (a := s.rxSlot 0) (ri := false) (rest := rest)
      (by rw [hue]; exact Config.wf_codes hw) (by decide)
      ⟨by rw [hue]; exact hcmd, fun h => absurd h Bool.false_ne_true⟩
      (by rw [hue]; exact hp)
    rw [bind_apply, hissue] at hx
    refine ⟨_, hraised (by rw [hue]; exact hr.noFault) hx, by rw [hue],
      fun i hi => (hfresh i hi).of_mem rfl rfl rfl, honly⟩
  · obtain ⟨t, hx, ht, hfresh, honly⟩ := restartRu_ok hw hl hu hcmd hp hk
    refine ⟨_, run_ok hr ((bind_ok hx).trans rfl), by rw [ht],
      fun i hi => (hfresh i hi).of_mem rfl rfl rfl, honly⟩

/-- Settles O46: the poll and the recycling of the service, each with its Fatals, from the state with an empty slot. -/
theorem receiveDeliversTheFrame : Obligations.ReceiveDeliversTheFrame := by
  intro s c hw hl hr hh st rl p faults
  have hn := (Config.wf_facts hw).1
  have hlen : s.rxHead < s.rxAddr.length := by rw [hl.rxLen]; exact hh
  have hvl : State.Laid { s with pendRx := .empty } := hl.of_eq rfl rfl rfl rfl rfl
  have hgood : s.HeadGood → State.HeadGood { s with pendRx := .empty } := fun hg =>
    ⟨hg.complete, hg.ok, hg.err, hg.eof, hg.final, hg.fits⟩
  have hfaults : ∀ {r : FatalReason}, (∃ ev, rxPoll { s with pendRx := .empty } =
      .error (.fatal r) { s with pendRx := .empty, events := ev }) → faults r :=
    fun ⟨ev, hx⟩ => ⟨ev, receive_raises (u := { s with pendRx := .empty, events := ev }) hr
      (rxService_pollRaised hx) rfl hr.noFault⟩
  refine ⟨fun hg hel => ?_, fun hc he => hfaults (rxPoll_rxError hlen hc he),
    fun hc ho he hlen' => hfaults (rxPoll_rxLength hlen hc ho he hlen'), fun hg hel => ?_⟩
  · obtain ⟨u, hx, hu, hstatus, hlength, hcommand, hprev, honly⟩ :=
      rxService_delivers (s := { s with pendRx := .empty }) c hn hvl hh (hgood hg) hel
    exact ⟨{ u with pendRx := s.pendRx, results := s.results ++ [.delivered] }, by rw [hu]; rfl, hstatus, hlength,
      hcommand, hprev, honly, receive_ends hr hx (by rw [hu]) (by rw [hu])⟩
  · obtain ⟨u, hx, hu, hstatus, hlength, hcommand, honly⟩ :=
      rxService_invariant (s := { s with pendRx := .empty }) c hn hvl hh (hgood hg) hel
    exact ⟨{ u with pendRx := s.pendRx, fault := some .ringInvariant }, by rw [hu], hstatus, hlength, hcommand, honly,
      receive_raises hr hx (by rw [hu]) (by rw [hu]; exact hr.noFault)⟩

/-- Settles O47: the service arms its request, for both of its callers. -/
theorem receiveArmsTheRequest : Obligations.ReceiveArmsTheRequest := by
  intro s c hr hh hc hres
  obtain ⟨ev, hx⟩ := rxService_arms (s := { s with pendRx := .empty }) c hh hc hres rfl
  have hrun := runOperation_ok (s := { s with pendRx := .empty }) hr.noFault hx
  refine ⟨fun hp => ⟨ev, (exec_receive_empty hr hp).trans hrun⟩, fun hp => ⟨ev, ?_⟩⟩
  rw [exec_replayRx_armed hr hp, hrun, hp]

end Sys2Proof.Proofs
end

section
/-! SUPPORT. The deferred TX work (R183) with its drain, its restart and its replay, each in an explicit state. -/

namespace Sys2Proof.Machine

/-! ### The restart -/

theorem restartCu_none {s : State} {k : Nat} (h : (decide (0 < k) && !s.txIdle) = false) :
    restartCu k s = .ok () s := by
  simp only [restartCu, bind_apply, get_apply, h, Bool.false_eq_true, if_false, pure_apply]

/-- An idle CU is started at the slot where the drain stopped (R183). -/
theorem restartCu_accepted {s : State} {k j : Nat} {rest : List PollEvent} (hk : 0 < k) (hi : s.txIdle = false)
    (hw : s.config.cmdCodes.wf = true) (hci : s.CanIssue .cu true) (ht : s.txTail < s.txAddr.length)
    (hp : s.pollScript = acceptedAfter .cu j rest) (hj : j < s.config.cuPollBound) :
    restartCu k s = .ok () ((s.event s.statusRead).accepted .cuStart (s.txSlot s.txTail) false j rest) := by
  have hcond : (decide (0 < k) && !s.txIdle) = true := by rw [hi, decide_eq_true hk]; rfl
  have hstate : unitStateOf (s.dev.unitCode .cu) = .idle := hci.idle rfl
  have haddr : txAddrOf s.txTail (s.event s.statusRead) = .ok (s.txSlot s.txTail) (s.event s.statusRead) :=
    txAddrOf_apply ht
  have hissue : issue .cuStart (s.txSlot s.txTail) false (s.event s.statusRead) = _ :=
    issue_accepted hw (by decide) ⟨hci.noCommand, fun h => absurd h Bool.false_ne_true⟩ hp hj
  simp only [restartCu, bind_apply, get_apply, hcond, if_true, readUnitCode_apply, hstate, haddr, hissue]

/-! ### The phase -/

/-- `check_interrupts` with work for the TX step only: the drain, the configuration, the restart, the replay. -/
theorem checkInterrupts_tx {s d u v w : State} {k : Nat} {x : OpResult} (hr : s.Running) (hreset : s.needReset = false)
    (hcna : s.fCna = true) (hrx : s.pendRx = .empty)
    (hdrain : txDrain { s with fFr := false, fSwi := false, fCna := false } = .ok k d)
    (hcfg : applyPendingConfig d = .ok () u) (hrestart : restartCu k u = .ok () v) (hreplay : replayTx v = .ok x w)
    (hrnr : w.fRnr = false) (hreport : w.linkReportPending = false) :
    exec .checkInterrupts s = .next { w with results := w.results ++ [.ok] } := by
  have hdeferred : txDeferred { s with fFr := false, fSwi := false } = .ok () w :=
    (bind_ok rfl).trans <| (bind_ok hdrain).trans <| (bind_ok hcfg).trans <| (bind_ok hrestart).trans <|
      (bind_ok hreplay).trans rfl
  exact run_ok hr (deferredPhase_tx hreset hrx hcna hdeferred hrnr hreport)

/-- The replay of an armed request that `tx_append` takes (R187). -/
theorem replayTx_sent {s t : State} {r : TxRequest} {n : Nat} (hp : s.pendTx = .armed r)
    (hx : txAppend r.frame { s with pendTx := .empty } = .ok (.appended n) t) :
    replayTx s = .ok .sent { t with replies := t.replies ++ [(some r.client, .ack)] } := by
  rw [replayTx_armed hp]
  exact txService_appended hx

/-! ### The state the drain leaves -/

/-- The state of the deferred phase after its drain: `n` slots retired, `i` the stopping point. -/
def State.deferredDrained (s : State) (n i : Nat) (idle : Bool) (reads : List BusEvent) : State :=
  { s with
    fFr := false, fSwi := false, fCna := false, txTail := i, txIdle := idle
    txThreshold := thresholdAfter s.config s.txThreshold (s.underruns n)
    txAlive := if 0 < n then true else s.txAlive, events := reads ++ s.events }

section
variable {s : State} {k : Nat} (hlen : s.txAddr.length = s.config.nTx) (hh : s.txHead < s.config.nTx)
  (ht : s.txTail < s.config.nTx) (hidle : s.txIdle = false)
include hlen hh ht hidle

theorem deferredDrain_run (h : s.TxRun k) (hstop : statusC (s.txStatus (s.txWalk k)) = false) :
    ∃ reads : List BusEvent, (∀ e ∈ reads, ∃ i off, e = .memRead .block (s.txSlot i + off) 2) ∧
      txDrain { s with fFr := false, fSwi := false, fCna := false } =
        .ok k (s.deferredDrained k (s.txWalk k) s.txIdle reads) := by
  obtain ⟨ev, hx⟩ :=
    txDrain_run (s := { s with fFr := false, fSwi := false, fCna := false }) h hlen hh ht hidle hstop
  obtain ⟨reads, rfl, hreads⟩ := (txDrain_reads hx).events
  exact ⟨reads, hreads, hx⟩

theorem deferredDrain_done (h : s.ChainDone k) :
    ∃ reads : List BusEvent, txDrain { s with fFr := false, fSwi := false, fCna := false } =
        .ok (k + 1) (s.deferredDrained (k + 1) s.txHead true reads) := by
  obtain ⟨ev, hx⟩ := txDrain_done (s := { s with fFr := false, fSwi := false, fCna := false }) hlen ht hh hidle
    ⟨h.run, h.complete, h.mark, h.head⟩
  obtain ⟨reads, rfl, -⟩ := (txDrain_reads hx).events
  refine ⟨reads, hx.trans ?_⟩
  rw [State.deferredDrained, if_pos (Nat.succ_pos k)]
  rfl

end

/-! ### Restart and append after a drain -/

/-- The events of a restart, newest first: the polls of SCB_CMD, the code, the pointer, the check, the state (R183,
R160). -/
theorem restarted_events (d : State) (a : BusAddr) (j : Nat) (rest : List PollEvent) :
    ((d.event d.statusRead).accepted .cuStart a false j rest).events =
      cmdRead d.base d.config (EngineCommand.effect .cuStart a d.dev) ::
        List.replicate j (cmdRead d.base d.config (d.dev.withCommand d.config.cmdCodes .cuStart a)) ++
      .portWrite (d.writePort .scbCmd) ((EngineCommand.byte d.config.cmdCodes .cuStart).setWidth 32) ::
      .portWrite (d.writePort .scbPtr) a :: cmdRead d.base d.config d.dev :: d.statusRead :: d.events := rfl

/-- The state after the drain and the restart. -/
def State.deferredRestarted (s : State) (k j : Nat) (reads : List BusEvent) (rest : List PollEvent) : State :=
  let d := s.deferredDrained k (s.txWalk k) s.txIdle reads
  (d.event d.statusRead).accepted .cuStart (s.txSlot (s.txWalk k)) false j rest

/-- The events of the whole phase: the append after the restart after the drain. -/
theorem restarted_append (s : State) (k j : Nat) (reads : List BusEvent) (rest : List PollEvent) (frame : Frame) :
    (({ s.deferredRestarted k j reads rest with pendTx := .empty } : State).chainExtended frame).events =
      s.appendEvents (nextIdx s.config.nTx s.txHead) s.txHead (thresholdAfter s.config s.txThreshold (s.underruns k))
          frame ++
        (cmdRead s.base s.config (EngineCommand.effect .cuStart (s.txSlot (s.txWalk k)) s.dev) ::
          List.replicate j
            (cmdRead s.base s.config (s.dev.withCommand s.config.cmdCodes .cuStart (s.txSlot (s.txWalk k))))) ++
        .portWrite (s.writePort .scbCmd) ((EngineCommand.byte s.config.cmdCodes .cuStart).setWidth 32) ::
        .portWrite (s.writePort .scbPtr) (s.txSlot (s.txWalk k)) :: cmdRead s.base s.config s.dev ::
        (s.deferredDrained k (s.txWalk k) s.txIdle reads).statusRead :: reads ++ s.events := by
  rw [List.append_assoc, List.append_assoc]
  exact congrArg (s.appendEvents _ _ _ frame ++ ·)
    (restarted_events (s.deferredDrained k (s.txWalk k) s.txIdle reads) (s.txSlot (s.txWalk k)) j rest)

end Sys2Proof.Machine
end

section
/-! SUPPORT. The statement about the deferred TX work, from the laws above. -/

namespace Sys2Proof.Proofs

open Sys2Proof Sys2Proof.Machine

/-- Settles O40: the drain, then the restart of the CU, then the replay. -/
theorem retirementPrecedesReplay : Obligations.RetirementPrecedesReplay := by
  intro s k j rest c frame hw hl hr hh ht hrxHead hreset hcna hrnr hreport hrx hidle n r
  obtain ⟨-, hn, hbuf, -⟩ := Config.wf_facts hw
  refine ⟨fun hrun hstop => ?_, fun hdone hnone => ?_⟩
  · intro u
    obtain ⟨reads, hreads, hdrain⟩ := deferredDrain_run hl.txLen hh ht hidle hrun hstop
    have hcfg : applyPendingConfig (s.deferredDrained k (s.txWalk k) s.txIdle reads) = .ok () _ :=
      applyPendingConfig_none (by show (s.cfgPending && s.txIdle) = false; rw [hidle, Bool.and_false])
    refine ⟨fun hk hp => ?_, fun hk hci hscript hj => ?_⟩
    · -- nothing is retired: neither a restart nor a replay
      subst hk
      refine ⟨reads ++ s.events, (checkInterrupts_tx hr hreset hcna hrx hdrain hcfg (restartCu_none rfl)
        (replayTx_empty hp) hrnr hreport).trans ?_⟩
      have htail : s.txWalk 0 = s.txTail := State.txWalk_zero ht
      rw [htail]
      rfl
    · -- the CU is restarted where the drain stopped
      have hrestart : restartCu k (s.deferredDrained k (s.txWalk k) s.txIdle reads) =
          .ok () (s.deferredRestarted k j reads rest) :=
        restartCu_accepted hk hidle (Config.wf_codes hw) ⟨hci.noCommand, hci.idle⟩
          (by show s.txWalk k < s.txAddr.length; rw [hl.txLen]; exact State.txWalk_lt ht k) hscript hj
      have halive : (if 0 < k then true else s.txAlive) = true := if_pos hk
      refine ⟨fun hp => ?_, fun hp hroom hmin hmax => ?_⟩
      · refine ⟨(s.deferredRestarted k j reads rest).events,
          (checkInterrupts_tx hr hreset hcna hrx hdrain hcfg hrestart (replayTx_empty hp) hrnr hreport).trans ?_⟩
        rw [State.deferredRestarted, State.deferredDrained, halive]
        rfl
      · -- the armed request goes into the room the drain made
        have hv : (s.deferredRestarted k j reads rest).Laid := hl.of_eq rfl rfl rfl rfl rfl
        obtain ⟨hfilled, hold, honly⟩ :=
          chainExtended_extends (s := { s.deferredRestarted k j reads rest with pendTx := .empty }) (frame := frame)
            (hv.of_eq rfl rfl rfl rfl rfl) (by show frame.length ≤ s.config.bufSize; omega) hh hn
        have happend : txAppend frame { s.deferredRestarted k j reads rest with pendTx := .empty } =
            .ok (.appended n)
              (({ s.deferredRestarted k j reads rest with pendTx := .empty } : State).chainExtended frame) :=
          txAppend_active hmin hmax hidle hroom hl.txLen hh
        refine ⟨_, checkInterrupts_tx hr hreset hcna hrx hdrain hcfg hrestart
          (replayTx_sent (r := { client := c, frame := frame }) hp happend) hrnr hreport, ?_,
          hfilled.of_mem rfl rfl, hold, honly, ?_⟩
        · rw [State.deferredRestarted, State.deferredDrained, halive]
          rfl
        · refine ⟨cmdRead s.base s.config (EngineCommand.effect .cuStart r s.dev) ::
            List.replicate j (cmdRead s.base s.config (s.dev.withCommand s.config.cmdCodes .cuStart r)), reads, _, _,
            fun e he => ?_, hreads, restarted_append s k j reads rest frame⟩
          obtain rfl | he := List.mem_cons.mp he
          · exact ⟨_, rfl⟩
          · exact ⟨_, List.eq_of_mem_replicate he⟩
  · -- the whole chain is retired: the ring is idle, and there is nothing to restart
    intro u
    obtain ⟨reads, hdrain⟩ := deferredDrain_done hl.txLen hh ht hidle hdone
    have halive : (if 0 < k + 1 then true else s.txAlive) = true := if_pos (Nat.succ_pos k)
    have hcfg : applyPendingConfig (s.deferredDrained (k + 1) s.txHead true reads) = .ok () _ :=
      applyPendingConfig_none (by show (s.cfgPending && true) = false; rw [hnone]; rfl)
    have hrestart : restartCu (k + 1) (s.deferredDrained (k + 1) s.txHead true reads) = .ok () _ :=
      restartCu_none (Bool.and_false _)
    refine ⟨fun hp => ?_, fun hp hmin hmax hci hscript hj => ?_⟩
    · refine ⟨reads ++ s.events, (checkInterrupts_tx hr hreset hcna hrx hdrain hcfg hrestart
        (replayTx_empty hp) hrnr hreport).trans ?_⟩
      rw [State.deferredDrained, halive]
    · have hd : (s.deferredDrained (k + 1) s.txHead true reads).Laid := hl.of_eq rfl rfl rfl rfl rfl
      obtain ⟨hfilled, hold, honly⟩ := chainBegun_begins hd (frame := frame)
        (by show frame.length ≤ s.config.bufSize; omega) hh
      have happend := txAppend_idle_accepted hd hh rfl hmin hmax hw ⟨hci.noCommand, hci.idle⟩ hscript hj .empty
      refine ⟨_, checkInterrupts_tx hr hreset hcna hrx hdrain hcfg hrestart
        (replayTx_sent (r := { client := c, frame := frame }) hp happend) hrnr hreport, ?_,
        hfilled.of_mem rfl rfl, hold, honly⟩
      rw [State.deferredDrained, halive, hidle]
      rfl

end Sys2Proof.Proofs
end

section
/-! SUPPORT. The issue operations on the operation port: an accepted command, a Fatal of one, and the Fatals of a dump,
which `get_statistics` shares. -/

namespace Sys2Proof.Machine

/-! ### The issue operations on the port -/

theorem exec_issue (cmd : EngineCommand) (ri : Bool) (a : BusAddr) (s : State) :
    exec (cmd.instr ri a) s = runOperation (issueOp cmd a ri) s := by cases cmd <;> rfl

section
variable {s t : State} (hr : s.Running)
include hr

theorem exec_issue_ok {cmd : EngineCommand} {ri : Bool} {a : BusAddr} (hx : issue cmd a ri s = .ok () t) :
    exec (cmd.instr ri a) s = .next { t with results := t.results ++ [.ok] } := by
  rw [exec_issue]
  exact run_ok hr ((bind_ok hx).trans rfl)

theorem exec_issue_raised {cmd : EngineCommand} {ri : Bool} {a : BusAddr} {r : FatalReason}
    (hx : issue cmd a ri s = .error (.fatal r) t) (ht : t.fault = none) :
    exec (cmd.instr ri a) s = .next { t with fault := some r } := by
  rw [exec_issue]
  exact run_raised hr ht (by rw [bind_apply, hx])

/-- `get_statistics` raises what its dump raises (R229). -/
theorem exec_getStatistics_raised (c : Client) {r : FatalReason}
    (hx : issue .cuDumpStatistics s.statsAddr false s = .error (.fatal r) t) (ht : t.fault = none) :
    exec (.getStatistics c) s = .next { t with fault := some r } :=
  run_raised hr ht (by rw [bind_ok (get_apply s), bind_apply, hx])

end

/-! ### A dump that ends in a Fatal -/

theorem prepareDump_otherAddress {s : State} {a : BusAddr} (h : a ≠ s.statsAddr) :
    prepareDump .cuDumpStatistics a s = .error (.fatal .precondition) s := by
  simp only [prepareDump, bind_apply, get_apply, if_true, require_apply, beq_eq_false_iff_ne.mpr h,
    if_neg Bool.false_ne_true]

/-- A dump to another address than `stats_addr`: the engine and its field were read, nothing was written (R160). -/
theorem issue_dump_otherAddress {s : State} {a : BusAddr} {ri : Bool} (hc : s.CanIssue .cu ri) (h : a ≠ s.statsAddr) :
    ∃ ev, issue .cuDumpStatistics a ri s = .error (.fatal .precondition) { s with events := ev } := by
  let u : State := { s with events := (if ri then [s.statusRead] else []) ++ s.events }
  have hnop : u.dev.noCommand .cu = true := hc.noCommand
  have hprepare := prepareDump_otherAddress (s := u.event (cmdRead u.base u.config u.dev)) h
  refine ⟨cmdRead s.base s.config s.dev :: u.events, ?_⟩
  rw [issue, EngineCommand.engine, bind_ok (checkIdle_ok hc), bind_ok (readFieldIsNop_apply u .cu), hnop,
    bind_ok (require_apply _ true _), bind_apply, hprepare]
  rfl

/-- The state of a dump after `stats_done` was cleared (R166), but for the events: the device and the poll script are
what the command has made of them. -/
def State.statsCleared (s : State) (d : Device) (script : List PollEvent) (ev : List BusEvent) : State :=
  { s with mem := s.mem.writeBytes s.statsDoneAddr (leBytes 4 0), dev := d, pollScript := script, events := ev }

section
variable (s : State) (d : Device) (script : List PollEvent) (ev : List BusEvent)

theorem statsCleared_word : (s.statsCleared d script ev).word s.statsDoneAddr = 0 :=
  word_store_same (s := s) (w := .block) 0

theorem statsCleared_only : s.ChangesOnly (s.statsCleared d script ev) [(s.statsDoneAddr, 4)] := fun x hx =>
  byteAt_store_other (s := s) (w := .block) (by
    rw [length_leBytes]; exact hx (s.statsDoneAddr, 4) (List.mem_singleton_self _))

variable {s d script ev}

/-- A dump that raises a Fatal once `stats_done` is cleared, for both of its callers (R160, R229). -/
theorem dump_raises {ri : Bool} {r : FatalReason} (hr : s.Running) (c : Client)
    (hx : issue .cuDumpStatistics s.statsAddr ri s = .error (.fatal r) (s.statsCleared d script ev)) :
    ∃ t : State, exec (.issueCuDumpStatistics ri s.statsAddr) s = .next t ∧
      t = { s with fault := some r, pollScript := script, mem := t.mem, events := t.events, dev := d } ∧
      t.word s.statsDoneAddr = 0 ∧ s.ChangesOnly t [(s.statsDoneAddr, 4)] ∧
      (ri = false → exec (.getStatistics c) s = .next t) := by
  refine ⟨{ s.statsCleared d script ev with fault := some r },
    exec_issue_raised (cmd := .cuDumpStatistics) hr hx hr.noFault, rfl, statsCleared_word s d script ev,
    statsCleared_only s d script ev, ?_⟩
  rintro rfl
  exact exec_getStatistics_raised hr c hx hr.noFault

end

section
variable {s : State} {ri : Bool} {rest : List PollEvent} (hc : s.CanIssue .cu ri)
include hc

/-- The polls of a dump begin with `stats_done` cleared and the command written (R160, R166). -/
theorem issue_dump_polls : ∃ ev, issue .cuDumpStatistics s.statsAddr ri s =
    (awaitLoop (readFieldIsNop .cu) .cmdTimeout s.pollScript s.config.cuPollBound >>= fun _ =>
      awaitDump .cuDumpStatistics)
        (s.statsCleared (s.dev.withCommand s.config.cmdCodes .cuDumpStatistics s.statsAddr) s.pollScript ev) :=
  issue_dump_start hc

/-- A dump that the device does not accept (R160, R161). -/
theorem issue_dump_notAccepted (hw : s.config.cmdCodes.wf = true)
    (hp : PollFails s.pollScript s.config.cuPollBound rest) : ∃ ev,
    issue .cuDumpStatistics s.statsAddr ri s = .error (.fatal .cmdTimeout)
      (s.statsCleared (s.dev.withCommand s.config.cmdCodes .cuDumpStatistics s.statsAddr) rest ev) := by
  obtain ⟨ev, hstart⟩ := issue_dump_polls hc
  generalize hv : s.statsCleared (s.dev.withCommand s.config.cmdCodes .cuDumpStatistics s.statsAddr) s.pollScript ev = v
    at hstart
  have hpending : v.dev.noCommand .cu = false := by
    rw [← hv]; exact noCommand_written (cmd := .cuDumpStatistics) hw
  obtain ⟨ev', hfails⟩ := awaitLoop_fails (r := .cmdTimeout) (saysNo_field hpending) hp
  refine ⟨ev', ?_⟩
  rw [hstart, bind_apply, hfails, ← hv]
  rfl

/-- A dump that is accepted and whose magic does not appear in time (R166): `stats_done` was cleared, so no old magic
ends the poll. -/
theorem issue_dump_notCompleted {k : Nat} {script : List PollEvent} (hw : s.config.wf = true)
    (hs : s.pollScript = acceptedAfter .cu k script) (hk : k < s.config.cuPollBound)
    (hp : PollFails script s.config.statsPollBound rest) : ∃ ev,
    issue .cuDumpStatistics s.statsAddr ri s = .error (.fatal .statsTimeout)
      (s.statsCleared (EngineCommand.effect .cuDumpStatistics s.statsAddr s.dev) rest ev) := by
  obtain ⟨-, -, -, -, hmagic, -, -⟩ := Config.wf_facts hw
  obtain ⟨ev, hstart⟩ := issue_dump_polls hc
  rw [hs] at hstart
  obtain ⟨ev', haccept⟩ := awaitField_answered (cmd := .cuDumpStatistics) (a := s.statsAddr) (d := s.dev)
    (s := s.statsCleared (s.dev.withCommand s.config.cmdCodes .cuDumpStatistics s.statsAddr)
      (acceptedAfter .cu k script) ev) (rest := script) (Config.wf_codes hw) hc.noCommand rfl hk
  have hno : SaysNo readStatsDone
      (s.statsCleared (EngineCommand.effect .cuDumpStatistics s.statsAddr s.dev) script ev') :=
    saysNo_statsDone fun h => hmagic (h.symm.trans (statsCleared_word s _ script ev'))
  obtain ⟨ev'', hfails⟩ := awaitLoop_fails (r := .statsTimeout) hno hp
  exact ⟨ev'', hstart.trans ((bind_ok haccept).trans hfails)⟩

end

end Sys2Proof.Machine
end

section
/-! SUPPORT. The statements about `issue`, from the laws above. -/

namespace Sys2Proof.Proofs

open Sys2Proof Sys2Proof.Machine

/-- Settles O32: the events of an accepted command are the polls, the code, the pointer and the checks. -/
theorem issueRunsToAcceptance : Obligations.IssueRunsToAcceptance := by
  intro cmd ri a s k rest hw hcmd hr hc hp hk
  refine ⟨cmdRead s.base s.config (cmd.effect a s.dev) ::
    List.replicate k (cmdRead s.base s.config (s.dev.withCommand s.config.cmdCodes cmd a)), ?_, fun e he => ?_, ?_⟩
  · rw [List.length_cons, List.length_replicate]
  · obtain rfl | he := List.mem_cons.mp he
    · exact ⟨_, rfl⟩
    · exact ⟨_, List.eq_of_mem_replicate he⟩
  · rw [exec_issue_ok hr (issue_accepted hw hcmd hc hp hk), List.append_assoc]
    rfl

/-- Settles O33: each check and the poll of `issue` raise their Fatal, on the port and from `get_statistics`. -/
theorem issueFaults : Obligations.IssueFaults := by
  intro cmd ri a c s rest hr
  refine ⟨fun hri hidle => ?_, fun hidle hbusy => ?_, fun hbusy => ?_, fun hw hc hp => ⟨fun hcmd => ?_, ?_⟩⟩
  · subst hri
    exact ⟨s.statusRead :: s.events, exec_issue_raised hr (issue_notIdle hidle) hr.noFault⟩
  · obtain ⟨ev, hx⟩ := issue_cmdBusy (a := a) hidle hbusy
    exact ⟨ev, exec_issue_raised hr hx hr.noFault⟩
  · obtain ⟨ev, hx⟩ := issue_cmdBusy (cmd := .cuDumpStatistics) (a := s.statsAddr) (ri := false)
      (fun h => absurd h Bool.false_ne_true) hbusy
    exact ⟨ev, exec_getStatistics_raised hr c hx hr.noFault⟩
  · obtain ⟨ev, hx⟩ := issue_timeout (a := a) hw hcmd hc hp
    exact ⟨ev, exec_issue_raised hr hx hr.noFault⟩
  · rintro rfl rfl
    obtain ⟨ev, hx⟩ := issue_dump_notAccepted hc hw hp
    exact dump_raises hr c hx

/-- Settles O35: the address is checked before anything is written, and the cleared `stats_done` is no magic. -/
theorem dumpFaults : Obligations.DumpFaults := by
  intro s ri a c k script rest hw hr hc
  refine ⟨fun ha => ?_, fun hs hk hp => ?_⟩
  · obtain ⟨ev, hx⟩ := issue_dump_otherAddress hc ha
    exact ⟨ev, exec_issue_raised (cmd := .cuDumpStatistics) hr hx hr.noFault⟩
  · obtain ⟨ev, hx⟩ := issue_dump_notCompleted hc hw hs hk hp
    exact dump_raises hr c hx

end Sys2Proof.Proofs
end

section
/-! SUPPORT. The lazy restart of the RU when its START raises a Fatal: what the restart leaves, and that the
receive services end with it. -/

namespace Sys2Proof.Machine

/-! ### The lazy restart -/

/-- The START of the RU in a restart raises a Fatal, whatever the ring's initialisation has made of memory and the
events. -/
def State.RuStartRaises (s : State) (r : FatalReason) (d : Device) (script : List PollEvent) : Prop :=
  ∀ m ev, ∃ ev', issue .ruStart (s.rxSlot 0) false { s with rxHead := 0, mem := m, events := ev } =
    .error (.fatal r) { s with rxHead := 0, mem := m, dev := d, pollScript := script, events := ev' }

section
variable {s : State}

theorem ruStartRaises_cmdBusy (h : s.dev.noCommand .ru = false) : s.RuStartRaises .cmdBusy s.dev s.pollScript :=
  fun m ev => issue_cmdBusy (s := { s with rxHead := 0, mem := m, events := ev }) (cmd := .ruStart)
    (fun h => absurd h Bool.false_ne_true) h

theorem ruStartRaises_cmdTimeout {rest : List PollEvent} (hw : s.config.cmdCodes.wf = true)
    (h : s.dev.noCommand .ru = true) (hp : PollFails s.pollScript s.config.ruPollBound rest) :
    s.RuStartRaises .cmdTimeout (s.dev.withCommand s.config.cmdCodes .ruStart (s.rxSlot 0)) rest :=
  fun m ev => issue_timeout (s := { s with rxHead := 0, mem := m, events := ev }) (cmd := .ruStart) hw (by decide)
    ⟨h, fun h => absurd h Bool.false_ne_true⟩ hp

/-- A restart whose START raises a Fatal: the ring is initialised by then (R168, R240). -/
theorem restartRu_raised {r : FatalReason} {d : Device} {rest : List PollEvent} (hn : 0 < s.config.nRx) (hl : s.Laid)
    (hu : s.dev.unitState .ru = .noResources) (hstart : s.RuStartRaises r d rest) :
    ∃ t : State, restartRu s = .error (.fatal r) t ∧
      t = { s with rxHead := 0, dev := d, pollScript := rest, mem := t.mem, events := t.events } ∧
      (∀ i, i < s.config.nRx → t.RxFresh i) ∧ s.ChangesOnly t (headers s.rxAddr) := by
  obtain ⟨u, hue, hfresh, honly, hx⟩ := restartRu_initialises hn hl hu
  obtain ⟨ev, hi⟩ := hstart u.mem u.events
  rw [← hue] at hi
  rw [bind_apply, hi] at hx
  exact ⟨_, hx, rfl, fun i hin => (hfresh i hin).of_mem rfl (by rw [hue]) (by rw [hue]), honly⟩

end

theorem rxService_restartRaised {s t u : State} {c : Client} {e : Stop} (h : rxPoll s = .ok .notReady t)
    (hr : lazyRestart t = .error e u) : rxService c s = .error e u := by
  simp only [rxService, bind_apply, h, hr]

end Sys2Proof.Machine
end

section
/-! SUPPORT. The statement about the lazy restart, from the laws above. -/

namespace Sys2Proof.Proofs

open Sys2Proof Sys2Proof.Machine

/-- Settles O48: the service restarts the RU before it arms its request, so a Fatal of the restart leaves none armed. -/
theorem receiveRestartsTheRu : Obligations.ReceiveRestartsTheRu := by
  intro s c k rest hw hl hr hh hc hm hu faults
  have hn : 0 < s.config.nRx := by omega
  obtain ⟨ev₀, hpoll⟩ := rxPoll_notReady (s := { s with pendRx := .empty })
    (by show s.rxHead < s.rxAddr.length; rw [hl.rxLen]; exact hh) hc
  obtain ⟨ev, hlazy⟩ := lazyRestart_restart (s := { s with pendRx := .empty, events := ev₀ }) hm hu
  let v : State := { s with pendRx := .empty, events := ev }
  have hvl : v.Laid := hl.of_eq rfl rfl rfl rfl rfl
  have hfaults : ∀ {r d l}, v.RuStartRaises r d l → faults r d l := by
    intro r d l hstart
    obtain ⟨u, hx, hue, hfresh, honly⟩ := restartRu_raised (s := v) hn hvl hu hstart
    have hservice : rxService c { s with pendRx := .empty } = .error (.fatal r) u :=
      rxService_restartRaised hpoll (hlazy.trans hx)
    exact ⟨{ u with pendRx := s.pendRx, fault := some r }, by rw [hue],
      fun i hi => (hfresh i hi).of_mem rfl rfl rfl, honly,
      receive_raises hr hservice (by rw [hue]) (by rw [hue]; exact hr.noFault)⟩
  refine ⟨fun hcmd hp hk => ?_, fun hbusy => hfaults (ruStartRaises_cmdBusy (s := v) hbusy),
    fun hcmd hp => hfaults (ruStartRaises_cmdTimeout (s := v) (Config.wf_codes hw) hcmd hp)⟩
  obtain ⟨u, hx, hue, hfresh, honly⟩ := restartRu_ok (s := v) hw hvl hu hcmd hp hk
  have hrun := runOperation_ok (s := { s with pendRx := .empty }) hr.noFault
    (rxService_notReady (c := c) hpoll (hlazy.trans hx) (by rw [hue]))
  exact ⟨{ u with pendRx := .armed c, results := u.results ++ [.deferred] }, by rw [hue]; rfl,
    fun i hi => (hfresh i hi).of_mem rfl rfl rfl, honly, fun hp => (exec_receive_empty hr hp).trans hrun,
    fun hp => (exec_replayRx_armed hr hp).trans hrun⟩

end Sys2Proof.Proofs
end

section
/-! SUPPORT. `configure` on the operation port: its table is sent, waits for the ring, or is kept while its command raises
a Fatal (R224). -/

namespace Sys2Proof.Machine

/-- A pending command that the configuration meets (R160). -/
theorem applyConfig_raises_cmdBusy {s : State} (hi : s.dev.unitState .cu = .idle) (h : s.dev.noCommand .cu = false) :
    Raises applyConfig s .cmdBusy s.pollScript s.dev [s.cfgSpan] :=
  applyConfig_raises fun m ev =>
    have ⟨_, hx⟩ := issue_cmdBusy (s := { s with mem := m, events := ev }) (cmd := .cuStart) (a := s.cfgAddr)
      (fun _ => hi) h
    Raises.bind (.of_eq hx) _

/-- The state in which `configure` has computed the new table (R224). -/
def State.withTable (s : State) (flags : ModeFlags) : State := { s with cfg := cfgUpdate s.config s.cfg flags }

/-- The end of `configure`: the reply and the result are the hardware address (R225). -/
def replyAddress : Op OpResult := do
  let t ← get
  replyUnnamed (.address t.hwAddr)
  pure (.hardwareAddress t.hwAddr)

theorem replyAddress_apply (s : State) : replyAddress s = .ok (.hardwareAddress s.hwAddr)
    { s with replies := s.replies ++ [(none, .address s.hwAddr)] } := rfl

section
variable {s : State} {flags : ModeFlags} (hr : s.Running)
include hr

/-- On an active ring the table is marked and the reply is immediate. -/
theorem exec_configure_active (hi : s.txIdle = false) : exec (.configure flags) s = .next { s.withTable flags with
    cfgPending := true, results := s.results ++ [.hardwareAddress s.hwAddr]
    replies := s.replies ++ [(none, .address s.hwAddr)] } := by
  have hactive : ¬ (s.withTable flags).txIdle = true := by rw [State.withTable, hi]; decide
  let marked : State := { s.withTable flags with cfgPending := true }
  exact (runOperation_congr (y := replyAddress) (t := marked) hr.noFault hr.noFault
    ((requireStarted_run hr.started _).trans (congrFun (if_neg hactive) _))).trans
    (runOperation_ok (s := marked) hr.noFault (replyAddress_apply marked))

variable (hi : s.txIdle = true)
include hi

/-- On an idle ring the configuration comes before the reply. -/
theorem exec_configure_idle : exec (.configure flags) s =
    runOperation (applyConfig >>= fun _ => replyAddress) (s.withTable flags) :=
  runOperation_congr hr.noFault hr.noFault
    ((requireStarted_run hr.started _).trans (congrFun (if_pos (show (s.withTable flags).txIdle = true from hi)) _))

theorem exec_configure_sent {t : State} (hx : applyConfig (s.withTable flags) = .ok () t) :
    exec (.configure flags) s = .next { t with
      results := t.results ++ [.hardwareAddress t.hwAddr], replies := t.replies ++ [(none, .address t.hwAddr)] } := by
  have hrun := (bind_ok (f := fun _ => replyAddress) hx).trans (replyAddress_apply t)
  exact (exec_configure_idle hr hi).trans (runOperation_ok (s := s.withTable flags) hr.noFault hrun)

/-- A Fatal of the configuration command keeps the table and leaves out the reply (R240). -/
theorem exec_configure_raised {r : FatalReason} {rest : List PollEvent} {d : Device}
    (hx : Raises applyConfig (s.withTable flags) r rest d [s.cfgSpan]) :
    ∃ t : State, exec (.configure flags) s = .next t ∧
      t = { s.withTable flags with fault := some r, pollScript := rest, dev := d, mem := t.mem, events := t.events } ∧
      s.ChangesOnly t [s.cfgSpan] := by
  obtain ⟨t, hx, ht, honly⟩ := hx.bind fun _ => replyAddress
  exact ⟨{ t with fault := some r },
    (exec_configure_idle hr hi).trans
      (runOperation_raised (s := s.withTable flags) hr.noFault (by rw [ht]; exact hr.noFault) hx), by rw [ht], honly⟩

end

end Sys2Proof.Machine
end

section
/-! SUPPORT. The statements about `configure`, from the laws above. -/

namespace Sys2Proof.Proofs

open Sys2Proof Sys2Proof.Machine

/-- Settles O49: the configuration of the new table is sent on an idle ring. -/
theorem configureSendsTheTable : Obligations.ConfigureSendsTheTable := by
  intro s flags k j status block rest hw hl hr hi hc hp hk hj table
  obtain ⟨t, hx, ht, honly⟩ := applyConfig_ok (s := s.withTable flags) hw (hl.of_eq rfl rfl rfl rfl rfl)
    ⟨hc.noCommand, hc.idle⟩ hp hk hj
  refine ⟨_, exec_configure_sent hr hi hx, ?_, honly⟩
  rw [ht]
  rfl

/-- Settles O50: an active ring keeps the table for later; on an idle one each Fatal of the configuration ends it. -/
theorem configureWaitsForTheRing : Obligations.ConfigureWaitsForTheRing := by
  intro s flags k script rest hr table
  refine ⟨fun hi => exec_configure_active hr hi, fun hi hidle => ?_, fun hi hidle hbusy => ?_, fun hw hi hc hp => ?_,
    fun hw hi hc hp hk hf => ?_⟩
  · exact exec_configure_raised hr hi (applyConfig_raises_notIdle (s := s.withTable flags) hidle)
  · exact exec_configure_raised hr hi (applyConfig_raises_cmdBusy (s := s.withTable flags) hidle hbusy)
  · exact exec_configure_raised hr hi (applyConfig_raises_timeout (s := s.withTable flags) hw ⟨hc.noCommand, hc.idle⟩ hp)
  · exact exec_configure_raised hr hi
      (applyConfig_raises_busy (s := s.withTable flags) hw ⟨hc.noCommand, hc.idle⟩ hp hk hf)

end Sys2Proof.Proofs
end

section
/-! SUPPORT. The deferred TX work with a pending configuration (R183): on a ring that is idle after the drain it is sent, and
then an armed request begins a chain. -/

namespace Sys2Proof.Machine

theorem State.ChangesOnly.mono {s t : State} {l l' : List (BusAddr × Nat)} (h : s.ChangesOnly t l) (hl : l ⊆ l') :
    s.ChangesOnly t l' := fun x hx => h x fun r hr => hx r (hl hr)

/-- A change of the configuration block leaves the commands of the TX ring alone. -/
theorem State.Laid.txCommand_of_cfg {s t : State} (h : s.Laid) {i : Nat} (hi : i < s.config.nTx)
    (ha : t.txAddr = s.txAddr) (ho : s.ChangesOnly t [s.cfgSpan]) : t.txCommand i = s.txCommand i := by
  have hsame : SameBytes s t (s.txSlot i) 12 := SameBytes.of_apart
    (fun x hx => ho x fun r hr => by rw [List.mem_singleton.mp hr]; exact hx) (cfg_apart_txHeader h hi)
  rw [State.txCommand, State.txSlot, ha]
  exact hsame.half (h.tx_header hi) (by simp)

/-- The state after `apply_config` (R169), whatever memory and the events are. -/
def State.cfgSent (s : State) (status : Half) (rest : List PollEvent) (m : Memory) (ev : List BusEvent) : State :=
  { s with
    cfgPending := false, pollScript := rest, mem := m, events := ev
    dev := s.dev.configured s.cfgAddr (cfgBlock s.config s.cfg) status }

/-- On an idle ring the pending configuration is sent (R183). -/
theorem applyPendingConfig_sent {s : State} {k j : Nat} {status : Half} {block : List Byte} {rest : List PollEvent}
    (hw : s.config.wf = true) (hl : s.Laid) (hi : s.txIdle = true) (hcfg : s.cfgPending = true)
    (hc : s.CanIssue .cu true) (hp : s.pollScript = configuredAfter k j status block rest)
    (hk : k < s.config.cuPollBound) (hj : j < s.config.cuPollBound) :
    ∃ m ev, applyPendingConfig s = .ok () (s.cfgSent status rest m ev) ∧
      s.ChangesOnly (s.cfgSent status rest m ev) [s.cfgSpan] := by
  obtain ⟨t, hx, ht, honly⟩ := applyConfig_ok hw hl hc hp hk hj
  have hsent : t = s.cfgSent status rest t.mem t.events := ht
  rw [hsent] at hx honly
  refine ⟨t.mem, t.events, ?_, honly⟩
  rw [← hx]
  simp only [applyPendingConfig, bind_apply, get_apply, hcfg, hi, Bool.and_self, if_true]

/-- An idle ring has no chain segment to restart (R183). -/
theorem restartCu_idle {s : State} (k : Nat) (h : s.txIdle = true) : restartCu k s = .ok () s :=
  restartCu_none (by rw [h]; exact Bool.and_false _)

end Sys2Proof.Machine
end

section
/-! SUPPORT. The statement about the deferred configuration, from the laws above. -/

namespace Sys2Proof.Proofs

open Sys2Proof Sys2Proof.Machine

/-- Settles O42: on a ring that is idle after the drain the configuration is sent, nothing is restarted, and the replay
comes last. -/
theorem deferredConfigurationIsSent : Obligations.DeferredConfigurationIsSent := by
  intro s k j m l status block rest c frame hw hl hr hreset hcna hrnr hreport hrx hcfg hc hk hj hm u configured
  refine ⟨fun hi hp hscript => ?_, fun hi hh ht hdone => ?_⟩
  · -- nothing to drain
    let d : State := { s with fFr := false, fSwi := false, fCna := false }
    obtain ⟨mem, ev, hsent, honly⟩ := applyPendingConfig_sent (s := d) hw (hl.of_eq rfl rfl rfl rfl rfl) hi hcfg
      ⟨hc.noCommand, hc.idle⟩ hscript hk hj
    exact ⟨_, checkInterrupts_tx hr hreset hcna hrx (txDrain_idle hi) hsent (restartCu_idle 0 hi) (replayTx_empty hp)
      hrnr hreport, rfl, honly⟩
  · -- the drain makes the ring idle
    obtain ⟨reads, hdrain⟩ := deferredDrain_done hl.txLen hh ht hi hdone
    let d := s.deferredDrained (l + 1) s.txHead true reads
    have hd : d.Laid := hl.of_eq rfl rfl rfl rfl rfl
    have hsends : ∀ {script}, s.pollScript = configuredAfter k j status block script → ∃ m ev,
        applyPendingConfig d = .ok () (d.cfgSent status script m ev) ∧
          d.ChangesOnly (d.cfgSent status script m ev) [d.cfgSpan] := fun hscript =>
      applyPendingConfig_sent hw hd rfl hcfg ⟨hc.noCommand, hc.idle⟩ hscript hk hj
    refine ⟨fun hp hscript => ?_, fun hp hmin hmax hscript => ?_⟩
    · obtain ⟨mem, ev, hsent, honly⟩ := hsends hscript
      exact ⟨_, checkInterrupts_tx hr hreset hcna hrx hdrain hsent (restartCu_idle _ rfl) (replayTx_empty hp) hrnr
        hreport, rfl, honly⟩
    · obtain ⟨mem, ev, hsent, honly⟩ := hsends hscript
      let v := d.cfgSent status (acceptedAfter .cu m rest) mem ev
      have hv : v.Laid := hl.of_eq rfl rfl rfl rfl rfl
      obtain ⟨-, -, hbuf, -⟩ := Config.wf_facts hw
      obtain ⟨hfilled, hold, hchain⟩ := chainBegun_begins hv (frame := frame)
        (by show frame.length ≤ s.config.bufSize; omega) hh
      have happend := txAppend_idle_accepted hv hh rfl hmin hmax hw ⟨hc.noCommand, fun _ => rfl⟩ rfl hm .empty
      have hcommand : v.txCommand s.txHead = s.txCommand s.txHead := hd.txCommand_of_cfg hh rfl honly
      refine ⟨_, checkInterrupts_tx hr hreset hcna hrx hdrain hsent (restartCu_idle _ rfl)
        (replayTx_sent (r := { client := c, frame := frame }) hp happend) hrnr hreport, ?_, hfilled.of_mem rfl rfl,
        fun h0 => (hold h0).trans (by rw [← hcommand]; rfl), ?_⟩
      · rw [hi]
        rfl
      · have hspans := (honly.trans hchain).mono List.perm_append_comm.subset
        rw [List.append_assoc] at hspans
        exact hspans

end Sys2Proof.Proofs
end

section
/-! SUPPORT. The pending slots: how arming runs on the operation port, which pieces leave the clients alone, and how a
request service accounts for its request (R225, R230). -/

namespace Sys2Proof.Machine

/-! ### Arming, and a request of a direction that has one -/

section
variable {s : State} (hr : s.Running)
include hr

/-- `arm_tx` stores the whole request (R184). -/
theorem exec_armTx_empty (c : Client) (frame : Frame) (hp : s.pendTx = .empty) :
    exec (.armTx c frame) s = .next { s with
      pendTx := .armed { client := c, frame := frame }, results := s.results ++ [.ok] } :=
  run_ok (t := { s with pendTx := .armed { client := c, frame := frame } }) hr (bind_ok (armTx_empty hp))

theorem exec_armTx_armed (c : Client) (frame : Frame) (hp : s.pendTx ≠ .empty) :
    exec (.armTx c frame) s = .next { s with fault := some .doubleArm } :=
  run_raised hr hr.noFault (by rw [bind_apply, armTx_armed hp])

/-- `arm_rx` stores the whole request (R185). -/
theorem exec_armRx_empty (c : Client) (hp : s.pendRx = .empty) :
    exec (.armRx c) s = .next { s with pendRx := .armed c, results := s.results ++ [.ok] } :=
  run_ok (t := { s with pendRx := .armed c }) hr (bind_ok (armRx_empty hp))

theorem exec_armRx_armed (c : Client) (hp : s.pendRx ≠ .empty) :
    exec (.armRx c) s = .next { s with fault := some .doubleArm } :=
  run_raised hr hr.noFault (by rw [bind_apply, armRx_armed hp])

/-- `transmit` while a TX request is armed (R226). -/
theorem exec_transmit_armed (c : Client) (frame : Frame) (hp : s.pendTx ≠ .empty) :
    exec (.transmit c frame) s = .next { s with fault := some .doubleArm } :=
  run_raised hr hr.noFault <| by
    simp only [bind_apply, get_apply, require_apply, beq_eq_false_iff_ne.mpr hp, Bool.false_eq_true, if_false]

/-- `receive` while an RX request is armed (R227). -/
theorem exec_receive_armed (c : Client) (hp : s.pendRx ≠ .empty) :
    exec (.receive c) s = .next { s with fault := some .doubleArm } :=
  run_raised hr hr.noFault <| by
    simp only [bind_apply, get_apply, require_apply, beq_eq_false_iff_ne.mpr hp, Bool.false_eq_true, if_false]

end

/-! ### Pieces that leave the clients alone -/

/-- The replies and both pending slots are the same in two states. -/
structure State.SameClients (s t : State) : Prop where
  replies : t.replies = s.replies
  pendTx : t.pendTx = s.pendTx
  pendRx : t.pendRx = s.pendRx

theorem State.SameClients.refl (s : State) : s.SameClients s := ⟨rfl, rfl, rfl⟩

theorem State.SameClients.trans {s t u : State} (h : s.SameClients t) (h' : t.SameClients u) : s.SameClients u :=
  ⟨h'.replies.trans h.replies, h'.pendTx.trans h.pendTx, h'.pendRx.trans h.pendRx⟩

section
variable {o : State}

theorem sameClients_of_ends {α : Type} {x : Op α} (h : ∀ s a t, x s = .ok a t → s.SameClients t) :
    Holds o.SameClients x := fun s hs a t hx => hs.trans (h s a t hx)

theorem sameClients_modify {f : State → State} (h : ∀ s : State, s.SameClients (f s)) :
    Holds o.SameClients (modify f : Op Unit) := holds_modify fun s hs => hs.trans (h s)

/-! Accesses, and moves of the device -/

theorem sameClients_readHalf (w : Agent) (a : BusAddr) : Holds o.SameClients (readHalf w a) :=
  sameClients_of_ends fun _ _ _ h => by cases h; exact ⟨rfl, rfl, rfl⟩

theorem sameClients_readWord (w : Agent) (a : BusAddr) : Holds o.SameClients (readWord w a) :=
  sameClients_of_ends fun _ _ _ h => by cases h; exact ⟨rfl, rfl, rfl⟩

theorem sameClients_readBuffer (w : Agent) (a : BusAddr) (n : Nat) : Holds o.SameClients (readBuffer w a n) :=
  sameClients_of_ends fun _ _ _ h => by cases h; exact ⟨rfl, rfl, rfl⟩

theorem sameClients_writeBuffer (w : Agent) (a : BusAddr) (bs : List Byte) : Holds o.SameClients (writeBuffer w a bs) :=
  sameClients_of_ends fun _ _ _ h => by cases h; exact ⟨rfl, rfl, rfl⟩

theorem sameClients_portRead (r : ReadReg) : Holds o.SameClients (portRead r) :=
  sameClients_of_ends fun _ _ _ h => by cases h; exact ⟨rfl, rfl, rfl⟩

theorem sameClients_portWrite (r : WriteReg) (v : Word) : Holds o.SameClients (portWrite r v) :=
  sameClients_of_ends fun _ _ _ h => by cases h; exact ⟨rfl, rfl, rfl⟩

theorem sameClients_rxAddrOf (i : Nat) : Holds o.SameClients (rxAddrOf i) :=
  sameClients_of_ends fun s _ _ h => by rw [rxAddrOf_eq] at h; split at h <;> cases h; exact .refl s

theorem sameClients_txAddrOf (i : Nat) : Holds o.SameClients (txAddrOf i) :=
  sameClients_of_ends fun s _ _ h => by rw [txAddrOf_eq] at h; split at h <;> cases h; exact .refl s

theorem sameClients_deviceMove (m : DeviceMove) : Holds o.SameClients (deviceMove m) :=
  sameClients_of_ends fun s a t h => by
    have hm := moves_deviceMove (o := s) m s ⟨rfl, rfl, rfl, rfl, rfl⟩
    rw [h] at hm
    have hframe : t = { s with mem := t.mem, events := t.events, dev := t.dev } := hm.frame
    rw [hframe]
    exact ⟨rfl, rfl, rfl⟩

/-! Commands -/

theorem sameClients_readUnitCode (e : Engine) : Holds o.SameClients (readUnitCode e) :=
  holds_bind holds_get fun _ => holds_bind (sameClients_portRead _) fun _ => holds_pure _

theorem sameClients_readFieldIsNop (e : Engine) : Holds o.SameClients (readFieldIsNop e) :=
  holds_bind (sameClients_portRead _) fun _ => holds_pure _

theorem sameClients_readStatsDone : Holds o.SameClients readStatsDone :=
  holds_bind holds_get fun _ => holds_bind (sameClients_readWord _ _) fun _ => holds_pure _

theorem sameClients_setPollScript (l : List PollEvent) : Holds o.SameClients (setPollScript l) :=
  sameClients_modify fun _ => ⟨rfl, rfl, rfl⟩

theorem sameClients_awaitLoop {test : Op Bool} (h : Holds o.SameClients test) (r : FatalReason) (l : List PollEvent)
    (n : Nat) : Holds o.SameClients (awaitLoop test r l n) := by
  induction l generalizing n with
  | nil =>
    cases n with
    | zero => exact holds_bind (sameClients_setPollScript _) fun _ => holds_raise _
    | succ n => exact holds_bind (sameClients_setPollScript _) fun _ => holds_bind h fun _ => holds_require _ _
  | cons e l ih =>
    cases n with
    | zero => exact holds_bind (sameClients_setPollScript _) fun _ => holds_raise _
    | succ n =>
      cases e with
      | move m => exact holds_bind (sameClients_deviceMove m) fun _ => ih (n + 1)
      | read => exact holds_bind h fun _ => holds_ite (sameClients_setPollScript _) (ih n)
      | timeout => exact holds_bind (sameClients_setPollScript _) fun _ => holds_raise _

theorem sameClients_awaitDevice {test : Op Bool} (h : Holds o.SameClients test) (n : Nat) (r : FatalReason) :
    Holds o.SameClients (awaitDevice test n r) := holds_bind holds_get fun _ => sameClients_awaitLoop h r _ n

theorem sameClients_issue (cmd : EngineCommand) (a : BusAddr) (ri : Bool) : Holds o.SameClients (issue cmd a ri) :=
  holds_bind (holds_ite (holds_bind (sameClients_readUnitCode _) fun _ => holds_require _ _) (holds_pure _)) fun _ =>
    holds_bind (sameClients_readFieldIsNop _) fun _ => holds_bind (holds_require _ _) fun _ =>
    holds_bind (holds_bind holds_get fun _ => holds_ite (holds_bind (holds_require _ _) fun _ =>
      sameClients_writeBuffer _ _ _) (holds_pure _)) fun _ => holds_bind holds_get fun _ =>
    holds_bind (sameClients_portWrite _ _) fun _ => holds_bind (sameClients_portWrite _ _) fun _ =>
    holds_bind (sameClients_awaitDevice (sameClients_readFieldIsNop _) _ _) fun _ =>
    holds_bind holds_get fun _ => holds_ite (sameClients_awaitDevice sameClients_readStatsDone _ _) (holds_pure _)

/-! The rings -/

theorem sameClients_rxInitLoop (i n : Nat) : Holds o.SameClients (rxInitLoop i n) := by
  induction n generalizing i with
  | zero => exact holds_pure _
  | succ n ih =>
    refine holds_bind ?_ fun _ => ih _
    exact holds_bind holds_get fun _ => holds_bind (sameClients_rxAddrOf _) fun _ =>
      holds_bind (sameClients_writeBuffer _ _ _) fun _ => holds_bind (sameClients_writeBuffer _ _ _) fun _ =>
      holds_bind (sameClients_writeBuffer _ _ _) fun _ => holds_bind (sameClients_rxAddrOf _) fun _ =>
      holds_bind (sameClients_writeBuffer _ _ _) fun _ => sameClients_writeBuffer _ _ _

theorem sameClients_rxInit : Holds o.SameClients rxInit :=
  holds_bind holds_get fun _ => holds_bind (sameClients_rxInitLoop _ _) fun _ =>
    sameClients_modify fun _ => ⟨rfl, rfl, rfl⟩

theorem sameClients_restartRu : Holds o.SameClients restartRu :=
  holds_bind (sameClients_readUnitCode _) fun _ => holds_bind (holds_require _ _) fun _ =>
    holds_bind sameClients_rxInit fun _ => holds_bind (sameClients_rxAddrOf _) fun _ =>
    holds_bind (sameClients_issue _ _ _) fun _ => sameClients_modify fun _ => ⟨rfl, rfl, rfl⟩

theorem sameClients_lazyRestart : Holds o.SameClients lazyRestart :=
  holds_bind holds_get fun _ => holds_ite (holds_bind (sameClients_readUnitCode _) fun _ =>
    holds_ite sameClients_restartRu (holds_pure _)) (holds_pure _)

theorem sameClients_rxPoll : Holds o.SameClients rxPoll :=
  holds_bind holds_get fun _ => holds_bind (sameClients_rxAddrOf _) fun _ =>
    holds_bind (sameClients_readHalf _ _) fun _ => holds_ite (holds_bind
      (holds_bind (holds_require _ _) fun _ => holds_bind (sameClients_readHalf _ _) fun _ =>
        holds_bind (holds_require _ _) fun _ => holds_bind (sameClients_readHalf _ _) fun _ =>
        holds_bind (holds_require _ _) fun _ => sameClients_readBuffer _ _ _) fun _ => holds_pure _) (holds_pure _)

theorem sameClients_rxRecycle (i : Nat) : Holds o.SameClients (rxRecycle i) :=
  holds_bind holds_get fun _ => holds_bind (holds_require _ _) fun _ => holds_bind (sameClients_rxAddrOf _) fun _ =>
    holds_bind (sameClients_readHalf _ _) fun _ => holds_bind (holds_require _ _) fun _ =>
    holds_bind (sameClients_writeBuffer _ _ _) fun _ => holds_bind (sameClients_writeBuffer _ _ _) fun _ =>
    holds_bind (sameClients_writeBuffer _ _ _) fun _ => holds_bind (sameClients_rxAddrOf _) fun _ =>
    holds_bind (sameClients_readHalf _ _) fun _ => holds_bind (holds_require _ _) fun _ =>
    holds_bind (sameClients_writeBuffer _ _ _) fun _ => sameClients_modify fun _ => ⟨rfl, rfl, rfl⟩

theorem sameClients_writeSlot (k : Nat) (frame : Frame) : Holds o.SameClients (writeSlot k frame) :=
  holds_bind holds_get fun _ => holds_bind (sameClients_txAddrOf _) fun _ =>
    holds_bind (sameClients_writeBuffer _ _ _) fun _ => holds_bind (sameClients_writeBuffer _ _ _) fun _ =>
    holds_bind (sameClients_writeBuffer _ _ _) fun _ => holds_bind (sameClients_writeBuffer _ _ _) fun _ =>
    sameClients_writeBuffer _ _ _

theorem sameClients_appendIdle (frame : Frame) : Holds o.SameClients (appendIdle frame) :=
  holds_bind holds_get fun _ => holds_bind (sameClients_writeSlot _ _) fun _ =>
    holds_bind (holds_ite (holds_pure _) (holds_bind (sameClients_txAddrOf _) fun _ =>
      holds_bind (sameClients_readHalf _ _) fun _ => sameClients_writeBuffer _ _ _)) fun _ =>
    holds_bind (sameClients_modify fun _ => ⟨rfl, rfl, rfl⟩) fun _ => holds_bind (sameClients_txAddrOf _) fun _ =>
    holds_bind (sameClients_issue _ _ _) fun _ => holds_pure _

theorem sameClients_appendActive (frame : Frame) : Holds o.SameClients (appendActive frame) :=
  holds_bind holds_get fun _ => holds_ite (holds_pure _) (holds_bind (sameClients_writeSlot _ _) fun _ =>
    holds_bind (sameClients_txAddrOf _) fun _ => holds_bind (sameClients_writeBuffer _ _ _) fun _ =>
    holds_bind (sameClients_modify fun _ => ⟨rfl, rfl, rfl⟩) fun _ => holds_pure _)

theorem sameClients_txAppend (frame : Frame) : Holds o.SameClients (txAppend frame) :=
  holds_bind holds_get fun _ => holds_bind (holds_require _ _) fun _ =>
    holds_ite (sameClients_appendIdle frame) (sameClients_appendActive frame)

end

/-! ### The accounting of a service -/

/-- An operation of the port that leaves no fault has ended. -/
theorem runOperation_ended {op : Op OpResult} {s t : State} (hs : s.fault = none) (ht : t.fault = none)
    (h : runOperation op s = .next t) : ∃ x u, op s = .ok x u ∧ t = { u with results := u.results ++ [x] } := by
  rcases runOperation_cases h with ⟨r, hf, -⟩ | ⟨-, x, u, hu, rfl⟩ | ⟨-, r, u, -, rfl⟩
  · rw [hs] at hf
    cases hf
  · exact ⟨x, u, hu, rfl⟩
  · exact absurd ht (takeFatal_fault_ne_none r u)

section
variable {s t : State} {x : OpResult}

/-- `tx_append` touches neither the replies nor the slot, so the service does one of the two. -/
theorem txService_accounts {r : TxRequest} (hp : s.pendTx = .empty) (h : txService r s = .ok x t) :
    (t.replies = s.replies ++ [(some r.client, .ack)] ∧ t.pendTx = .empty) ∨
    (t.replies = s.replies ∧ t.pendTx = .armed r) := by
  cases hx : txAppend r.frame s with
  | error e u =>
    rw [txService_error hx] at h
    cases h
  | ok res u =>
    have hu : s.SameClients u := sameClients_txAppend r.frame s (.refl s) res u hx
    have hempty : u.pendTx = .empty := hu.pendTx.trans hp
    cases res with
    | appended k =>
      rw [txService_appended hx] at h
      cases h
      exact .inl ⟨by rw [hu.replies], hempty⟩
    | ringFull =>
      simp only [txService, bind_apply, hx, armTx_empty hempty, pure_apply] at h
      cases h
      exact .inr ⟨hu.replies, rfl⟩

/-- Neither the poll, nor the recycling, nor the lazy restart touches the replies or the slot. -/
theorem rxService_accounts {c : Client} (hp : s.pendRx = .empty) (h : rxService c s = .ok x t) :
    (∃ bytes, t.replies = s.replies ++ [(some c, .frame bytes)] ∧ t.pendRx = .empty) ∨
    (t.replies = s.replies ∧ t.pendRx = .armed c) := by
  cases hx : rxPoll s with
  | error e u =>
    rw [rxService_pollRaised hx] at h
    cases h
  | ok res u =>
    have hu : s.SameClients u := sameClients_rxPoll s (.refl s) res u hx
    cases res with
    | ready i frame =>
      cases hy : rxRecycle i u with
      | error e v =>
        rw [rxService_recycleRaised hx hy] at h
        cases h
      | ok a v =>
        have hv : s.SameClients v := sameClients_rxRecycle i u hu a v hy
        rw [rxService_ready hx hy] at h
        cases h
        exact .inl ⟨frame, by rw [hv.replies], hv.pendRx.trans hp⟩
    | notReady =>
      cases hy : lazyRestart u with
      | error e v =>
        rw [rxService_restartRaised hx hy] at h
        cases h
      | ok a v =>
        have hv : s.SameClients v := sameClients_lazyRestart u hu a v hy
        rw [rxService_notReady hx hy (hv.pendRx.trans hp)] at h
        cases h
        exact .inr ⟨hv.replies, rfl⟩

end

end Sys2Proof.Machine
end

section
/-! SUPPORT. The statements about the pending slots, from the laws above. -/

namespace Sys2Proof.Proofs

open Sys2Proof Sys2Proof.Machine

/-- Settles O44: before the start-up sequence nothing is armed; after it an empty slot takes the request. -/
theorem armStoresOneRequest : Obligations.ArmStoresOneRequest := by
  refine ⟨fun p => ⟨rfl, rfl⟩, fun s c frame hf => ⟨fun hs => ⟨run_notStarted hf hs, run_notStarted hf hs⟩,
    fun hs hp => ?_, fun hs hp => ?_, fun hs hp => ?_, fun hs hp => ?_⟩⟩
  · exact exec_armTx_empty ⟨hf, hs⟩ c frame hp
  · exact exec_armTx_armed ⟨hf, hs⟩ c frame hp
  · exact exec_armRx_empty ⟨hf, hs⟩ c hp
  · exact exec_armRx_armed ⟨hf, hs⟩ c hp

/-- Settles O45: the clients' requests check the slot first, and the replays look at nothing else. -/
theorem oneRequestPerDirection : Obligations.OneRequestPerDirection := fun _ c frame hr =>
  ⟨exec_transmit_armed hr c frame, exec_receive_armed hr c, fun hp => run_ok hr (replayTx_empty hp),
    fun hp => run_ok hr (replayRx_empty hp)⟩

/-- Settles O17: each operation is the service of its request on an empty slot, and the service accounts for it. -/
theorem requestsReplyOnceOrStayArmed : Obligations.RequestsReplyOnceOrStayArmed := by
  intro s t c frame hr ht
  have htx : runOperation (txService { client := c, frame := frame }) { s with pendTx := .empty } = .next t →
      (t.replies = s.replies ++ [(some c, .ack)] ∧ t.pendTx = .empty) ∨
      (t.replies = s.replies ∧ t.pendTx = .armed { client := c, frame := frame }) := fun h => by
    obtain ⟨x, u, hx, rfl⟩ := runOperation_ended (s := { s with pendTx := .empty }) hr.noFault ht h
    exact txService_accounts (s := { s with pendTx := .empty }) (t := u) rfl hx
  have hrx : runOperation (rxService c) { s with pendRx := .empty } = .next t →
      (∃ bytes, t.replies = s.replies ++ [(some c, .frame bytes)] ∧ t.pendRx = .empty) ∨
      (t.replies = s.replies ∧ t.pendRx = .armed c) := fun h => by
    obtain ⟨x, u, hx, rfl⟩ := runOperation_ended (s := { s with pendRx := .empty }) hr.noFault ht h
    exact rxService_accounts (s := { s with pendRx := .empty }) (t := u) rfl hx
  refine ⟨fun h => ?_, fun hp h => ?_, fun h => ?_, fun hp h => ?_⟩
  · by_cases hp : s.pendTx = .empty
    · exact htx ((exec_transmit_empty hr hp).symm.trans h)
    · rw [exec_transmit_armed hr c frame hp] at h
      cases h
      cases ht
  · rw [hp]
    exact htx ((exec_replayTx_armed hr hp).symm.trans h)
  · by_cases hp : s.pendRx = .empty
    · exact hrx ((exec_receive_empty hr hp).symm.trans h)
    · rw [exec_receive_armed hr c hp] at h
      cases h
      cases ht
  · rw [hp]
    exact hrx ((exec_replayRx_armed hr hp).symm.trans h)

end Sys2Proof.Proofs
end

section
/-! SUPPORT. The interrupt phases (R180, R182): the causes as bits of SCB_ISR, and the deferred phase step by step. -/

namespace Sys2Proof.Machine

/-! ### Causes -/

/-- A cause is one bit of SCB_ISR (R101). -/
theorem hasCause_twoPow (v : Byte) {i : Nat} (hi : i < 8) : hasCause v (BitVec.twoPow 8 i) = v.getLsbD i := by
  have hne : BitVec.twoPow 8 i ≠ 0 := fun h => by
    have hbit := BitVec.getLsbD_twoPow (w := 8) i i
    rw [h] at hbit
    simp [hi] at hbit
  rw [hasCause, BitVec.and_twoPow]
  cases v.getLsbD i
  · rfl
  · exact bne_iff_ne.mpr hne

/-! ### The deferred phase -/

theorem deferredTx_none {s : State} (h : s.fCna = false) : deferredTx s = .ok () s := by
  simp only [deferredTx, bind_apply, get_apply, h, Bool.false_eq_true, if_false, pure_apply]

section
variable {s : State}

/-- The RX step with nothing to replay reads at most the head's status. -/
theorem deferredRx_idle (hh : s.rxHead < s.rxAddr.length)
    (h : s.pendRx = .empty ∨ statusC (s.rxStatus s.rxHead) = false) :
    ∃ ev, deferredRx s = .ok () { s with events := ev } := by
  by_cases hp : s.pendRx = .empty
  · exact ⟨s.events, deferredRx_none hp⟩
  · have hreading : s.reading = true := bne_iff_ne.mpr hp
    have hc : statusC (s.half (s.rxSlot s.rxHead + offStatus)) = false := h.resolve_left hp
    refine ⟨.memRead .block (s.rxSlot s.rxHead + offStatus) 2 :: s.events, ?_⟩
    simp only [deferredRx, bind_apply, get_apply, hreading, if_true, rxAddrOf_apply hh, readHalf_apply, hc,
      Bool.false_eq_true, if_false, pure_apply]
    rfl

/-- The RX step with a complete head replays the armed request. -/
theorem deferredRx_replays {t : State} {c : Client} {x : OpResult} (hh : s.rxHead < s.rxAddr.length)
    (hp : s.pendRx = .armed c) (hc : statusC (s.rxStatus s.rxHead) = true)
    (hx : rxService c { s.event (.memRead .block (s.rxSlot s.rxHead + offStatus) 2) with pendRx := .empty } = .ok x t) :
    deferredRx s = .ok () t := by
  have hreading : s.reading = true := by rw [State.reading, hp]; rfl
  have hc' : statusC (s.half (s.rxSlot s.rxHead + offStatus)) = true := hc
  have hreplay : replayRx (s.event (.memRead .block (s.rxSlot s.rxHead + offStatus) 2)) = .ok x t :=
    (replayRx_armed (s := s.event (.memRead .block (s.rxSlot s.rxHead + offStatus) 2)) hp).trans hx
  simp only [deferredRx, bind_apply, get_apply, hreading, if_true, rxAddrOf_apply hh, readHalf_apply, hc', hreplay,
    pure_apply]

/-- The state after the last two steps: an RU that was flagged is marked for restart, a link report goes out. -/
def State.deferredEnd (s : State) : State :=
  { s with
    fRnr := false, rxNeedRestart := s.rxNeedRestart || s.fRnr
    reports := s.reportsAfter, log := s.logAfter, linkReportPending := false }

theorem deferredRnr_apply (s : State) :
    deferredRnr s = .ok () { s with fRnr := false, rxNeedRestart := s.rxNeedRestart || s.fRnr } := by
  cases h : s.fRnr
  · rw [deferredRnr_none h, Bool.or_false, ← h]
  · rw [deferredRnr, modify_apply, if_pos h, Bool.or_true]

theorem deferredReport_apply (s : State) : deferredReport s = .ok () { s with
    reports := s.reportsAfter, log := s.logAfter, linkReportPending := false } := by
  rw [State.reportsAfter, State.logAfter]
  cases h : s.linkReportPending
  · rw [deferredReport_none h, if_neg Bool.false_ne_true, if_neg Bool.false_ne_true, ← h]
  · rw [deferredReport, modify_apply, if_pos h, if_pos rfl, if_pos rfl]

theorem deferredEnd_none (hf : s.fRnr = false) (hl : s.linkReportPending = false) : s.deferredEnd = s := by
  cases s
  cases hf
  cases hl
  simp [State.deferredEnd, State.reportsAfter, State.logAfter]

/-- `check_interrupts`: the reset, the RX step, the TX step, then the last two. -/
theorem checkInterrupts_steps {u v w : State} (hr : s.Running)
    (hreset : deferredReset { s with fFr := false, fSwi := false } = .ok () u) (hrx : deferredRx u = .ok () v)
    (htx : deferredTx v = .ok () w) :
    exec .checkInterrupts s = .next { w.deferredEnd with results := w.results ++ [.ok] } := by
  have hphase : deferredPhase s = .ok .ok w.deferredEnd :=
    (bind_ok rfl).trans <| (bind_ok hreset).trans <| (bind_ok hrx).trans <| (bind_ok htx).trans <|
      (bind_ok (deferredRnr_apply w)).trans <| (bind_ok (deferredReport_apply _)).trans rfl
  exact run_ok hr hphase

end

end Sys2Proof.Machine
end

section
/-! SUPPORT. The statements about the interrupt phases without a device reset, from the laws above. -/

namespace Sys2Proof.Proofs

open Sys2Proof Sys2Proof.Machine

/-- Settles O37: the hard phase, with each flag as a bit of the causes read. -/
theorem hardPhaseAcknowledgesCauses : Obligations.HardPhaseAcknowledgesCauses := by
  refine ⟨fun p => rfl, fun s hf => ?_⟩
  intro v
  refine ⟨fun hs => run_notStarted hf hs, fun hs ha => ?_, fun hs ha => ?_⟩
  · exact run_ok ⟨hf, hs⟩ (hardPhase_disarmed ha)
  · have hrun : exec .onInterrupt s = _ := run_ok ⟨hf, hs⟩ (hardPhase_armed ha)
    rw [hrun, ← hasCause_twoPow v (i := 6) (by decide), ← hasCause_twoPow v (i := 5) (by decide),
      ← hasCause_twoPow v (i := 4) (by decide), ← hasCause_twoPow v (i := 2) (by decide)]
    rfl

/-- Settles O38: the first three steps have nothing to do but read the head's status. -/
theorem deferredPhaseWithoutRingWork : Obligations.DeferredPhaseWithoutRingWork := by
  intro s hr hh hreset hcna hrx
  obtain ⟨ev, hidle⟩ := deferredRx_idle (s := { s with fFr := false, fSwi := false }) hh hrx
  exact ⟨ev, checkInterrupts_steps hr (deferredReset_none hreset) hidle (deferredTx_none hcna)⟩

/-- Settles O39: the RX step replays the request, and the service delivers the frame. -/
theorem deferredPhaseDeliversTheFrame : Obligations.DeferredPhaseDeliversTheFrame := by
  intro s c hw hl hr hh hreset hcna hrnr hreport hp hg hel
  have hlen : s.rxHead < s.rxAddr.length := by rw [hl.rxLen]; exact hh
  let v : State := { s with
    fFr := false, fSwi := false, pendRx := .empty
    events := .memRead .block (s.rxSlot s.rxHead + offStatus) 2 :: s.events }
  obtain ⟨t, hx, ht, hstatus, hlength, hcommand, hprev, honly⟩ := rxService_delivers (s := v) c (Config.wf_facts hw).1
    (hl.of_eq rfl rfl rfl rfl rfl) hh ⟨hg.complete, hg.ok, hg.err, hg.eof, hg.final, hg.fits⟩ hel
  have hrun := checkInterrupts_steps hr (deferredReset_none hreset)
    (deferredRx_replays (s := { s with fFr := false, fSwi := false }) hlen hp hg.complete hx)
    (deferredTx_none (s := t) (by rw [ht]; exact hcna))
  rw [deferredEnd_none (s := t) (by rw [ht]; exact hrnr) (by rw [ht]; exact hreport)] at hrun
  exact ⟨_, hrun, by rw [ht]; rfl, hstatus, hlength, hcommand, hprev, honly⟩

end Sys2Proof.Proofs
end

section
/-! SUPPORT. The device reset that the watchdog asked for (R275), and the chain begun at slot 0 after it (R137). -/

namespace Sys2Proof.Machine

/-! ### The device reset -/

/-- What a device reset leaves of the device: both bases zero, the configuration executed, no cause, the RU started. -/
def State.resetDevice (s : State) (status : Half) : Device :=
  { s.dev with
    cuCode := codeIdle, ruCode := codeReady, cmdCu := 0, cmdRu := 0, scbPtr := s.rxSlot 0, scbIsr := 0
    cuBase := 0, ruBase := 0, cuFetch := s.cfgAddr, ruFill := s.rxSlot 0
    appliedCfg := cfgBlock s.config s.cfg, cuDraw := status }

/-- The state after a device reset, whatever memory and the events are. -/
def State.deviceWasReset (s : State) (status : Half) (rest : List PollEvent) (m : Memory) (ev : List BusEvent) :
    State :=
  { s with
    rxHead := 0, txHead := 0, txTail := 0, txIdle := true, cfgPending := false, fCna := false, fRnr := false
    rxNeedRestart := false, txAlive := true, pollScript := rest, mem := m, events := ev, dev := s.resetDevice status }

/-- Both rings are as their initialisation leaves them. -/
structure State.RingsFresh (s : State) : Prop where
  rx : ∀ i, i < s.config.nRx → s.RxFresh i
  tx : ∀ i, i < s.config.nTx → s.TxFresh i

theorem State.RingsFresh.of_mem {s t : State} (h : s.RingsFresh) (hm : t.mem = s.mem) (hrx : t.rxAddr = s.rxAddr)
    (htx : t.txAddr = s.txAddr) (hc : t.config = s.config) (hl : s.Laid) : t.RingsFresh :=
  ⟨fun i hi => (h.rx i (hc ▸ hi)).of_mem hm hrx hc,
    fun i hi => (h.tx i (hc ▸ hi)).of_same htx hc (hl.tx_header (hc ▸ hi)) fun x _ => by
      rw [State.byteAt, hm, State.byteAt]⟩

theorem State.RingsFresh.of_cfg {s t : State} (h : s.RingsFresh) (hl : s.Laid) (hrx : t.rxAddr = s.rxAddr)
    (htx : t.txAddr = s.txAddr) (hc : t.config = s.config)
    (honly : s.ChangesOnly t [(s.cfgAddr, s.config.cfgBlockLen)]) : t.RingsFresh :=
  ⟨fun i hi => hl.rxFresh_of_cfg (hc ▸ hi) (h.rx i (hc ▸ hi)) hrx hc honly,
    fun i hi => hl.txFresh_of_cfg (hc ▸ hi) (h.tx i (hc ▸ hi)) htx hc honly⟩

/-- `device_reset` on a device that answers in time (R275). -/
theorem deviceReset_ok {s : State} {k1 k2 k3 j k4 : Nat} {status : Half} {block : List Byte} {rest : List PollEvent}
    (hw : s.config.wf = true) (hl : s.Laid) (hp : s.pollScript = bootAnswers k1 k2 k3 j k4 status block rest)
    (ht : s.config.bootInTime k1 k2 k3 j k4) :
    ∃ m ev, deviceReset s = .ok () (s.deviceWasReset status rest m ev) ∧
      (s.deviceWasReset status rest m ev).RingsFresh ∧
      s.ChangesOnly (s.deviceWasReset status rest m ev)
        (headers s.rxAddr ++ headers s.txAddr ++ [(s.cfgAddr, s.config.cfgBlockLen)]) := by
  obtain ⟨h1, h2, h3, hj, h4⟩ := ht
  let u : State := { s with
    dev := s.dev.selectivelyReset, events := .portWrite (s.writePort .scbPort) 2 :: s.events }
  have hport : portWrite .scbPort 2 s = .ok () u := rfl
  obtain ⟨x, v, htx, hrx, hv, hfreshRx, hfreshTx, hring⟩ := initRings_ok (s := u) (hl.of_eq rfl rfl rfl rfl rfl)
  generalize v.mem = m at hv
  generalize v.events = ev at hv
  subst hv
  let v : State := { u with rxHead := 0, txHead := 0, txTail := 0, txIdle := true, mem := m, events := ev }
  obtain ⟨y, hload, hy, hcfg⟩ := loadBasesAndConfigure_ok (s := v) hw (hl.of_eq rfl rfl rfl rfl rfl)
    ⟨rfl, fun _ => rfl⟩ ⟨rfl, fun _ => rfl⟩ hp h1 h2 h3 hj
  generalize y.mem = m' at hy
  generalize y.events = ev' at hy
  subst hy
  let z : State := { v with
    cfgPending := false, fCna := false, fRnr := false, rxNeedRestart := false
    pollScript := acceptedAfter .ru k4 rest, mem := m', events := ev'
    dev := (EngineCommand.effect .ruLoadBase 0 (EngineCommand.effect .cuLoadBase 0 u.dev)).configured s.cfgAddr
      (cfgBlock s.config s.cfg) status }
  obtain ⟨ev'', hstart⟩ := startReceive_ok (s := z) hw (hl.of_eq rfl rfl rfl rfl rfl) ⟨rfl, fun _ => rfl⟩ rfl h4
  refine ⟨m', ev'', (bind_ok hport).trans ((bind_ok htx).trans ((bind_ok hrx).trans ((bind_ok hload).trans
    ((bind_ok rfl).trans ((bind_ok hstart).trans rfl))))), ?_, hring.trans hcfg⟩
  have hfresh := State.RingsFresh.of_cfg (s := v) (t := z) ⟨hfreshRx, hfreshTx⟩ (hl.of_eq rfl rfl rfl rfl rfl) rfl rfl
    rfl hcfg
  exact hfresh.of_mem rfl rfl rfl rfl (hl.of_eq rfl rfl rfl rfl rfl)

/-- The reset step of the deferred phase: the device reset, then the armed TX request. -/
theorem deferredReset_done {s t u : State} {x : OpResult} (h : s.needReset = true) (hx : deviceReset s = .ok () t)
    (hr : replayTx { t with needReset := false } = .ok x u) : deferredReset s = .ok () u := by
  simp only [deferredReset, bind_apply, get_apply, h, if_true, hx, modify_apply, hr, pure_apply]

/-- On a fresh RX ring the RX step of the deferred phase has nothing to replay. -/
theorem deferredRx_fresh {s : State} (hn : 0 < s.config.nRx) (hlen : s.rxAddr.length = s.config.nRx)
    (hh : s.rxHead = 0) (hf : s.RxFresh 0) : ∃ ev, deferredRx s = .ok () { s with events := ev } :=
  deferredRx_idle (by rw [hh, hlen]; exact hn) (.inr (by rw [hh, hf.status]; decide))

/-! ### A chain begun on a fresh ring -/

section
variable {s : State} (h : s.Laid) {k : Nat} (hk : k < s.config.nTx) {frame : Frame}
  (hf : frame.length ≤ s.config.bufSize)
include h hk hf

/-- What `write_slot` writes lies inside its descriptor, so apart from a region that the descriptor is apart from. -/
theorem filledSpans_apart {A : BusAddr} {n : Nat} (hA : A.toNat + n ≤ 2 ^ 32)
    (hd : (s.txSlot k).toNat + descriptorSize s.config ≤ A.toNat ∨ A.toNat + n ≤ (s.txSlot k).toNat)
    {r : BusAddr × Nat} (hr : r ∈ s.filledSpans k frame) : Apart r.1 r.2 A n := by
  have hD := descriptorSize_ge s.config
  have hpart : ∀ {o : BusAddr} {m : Nat}, o.toNat + m ≤ descriptorSize s.config → Apart (s.txSlot k + o) m A n :=
    fun ho => (apart_whole hA (h.tx_fits hk) hd.symm ho).symm
  simp only [State.filledSpans, List.mem_cons, List.not_mem_nil, or_false] at hr
  rcases hr with rfl | rfl | rfl
  · have hstart := hpart (o := 0) (m := 4) (by simp; omega)
    rwa [show s.txSlot k + 0 = s.txSlot k by simp] at hstart
  · exact hpart (by simp; omega)
  · exact hpart (by simp; omega)

theorem filled_apart_rxHeader {i : Nat} (hi : i < s.config.nRx) {r : BusAddr × Nat}
    (hr : r ∈ s.filledSpans k frame) : Apart r.1 r.2 (s.rxSlot i) 12 := by
  have hD := descriptorSize_ge s.config
  have hd := h.rx_tx hi hk
  exact filledSpans_apart h hk hf (h.rx_header hi) (by omega) hr

theorem filled_apart_txHeader {i : Nat} (hi : i < s.config.nTx) (hne : i ≠ k) {r : BusAddr × Nat}
    (hr : r ∈ s.filledSpans k frame) : Apart r.1 r.2 (s.txSlot i) 12 := by
  have hD := descriptorSize_ge s.config
  have hd := h.tx_tx hi hk hne
  exact filledSpans_apart h hk hf (h.tx_header hi) (by omega) hr

/-- `write_slot` writes around the link. -/
theorem filled_apart_link {r : BusAddr × Nat} (hr : r ∈ s.filledSpans k frame) :
    Apart r.1 r.2 (s.txSlot k + offLink) 4 := by
  have hD := descriptorSize_ge s.config
  have hpart : ∀ {o : BusAddr} {m : Nat}, o.toNat + m ≤ descriptorSize s.config →
      (o.toNat + m ≤ 4 ∨ 8 ≤ o.toNat) → Apart (s.txSlot k + o) m (s.txSlot k + offLink) 4 :=
    fun ho hd => apart_same (h.tx_fits hk) ho (by simp; omega) (by simpa using hd)
  simp only [State.filledSpans, List.mem_cons, List.not_mem_nil, or_false] at hr
  rcases hr with rfl | rfl | rfl
  · have hstart := hpart (o := 0) (m := 4) (by simp; omega) (by simp)
    rwa [show s.txSlot k + 0 = s.txSlot k by simp] at hstart
  · exact hpart (by simp; omega) (by simp)
  · exact hpart (by simp; omega) (by simp)

end

/-- What the frame in slot 0 of a fresh TX ring leaves: a filled head with its link, every other descriptor fresh. -/
structure State.FirstSlotFilled (s : State) (threshold : Byte) (frame : Frame) : Prop where
  filled : s.TxFilled 0 threshold frame
  link : s.txLink 0 = s.txSlot 1
  rx : ∀ i, i < s.config.nRx → s.RxFresh i
  tx : ∀ i, 0 < i → i < s.config.nTx → s.TxFresh i

/-- A frame is put into slot 0 of a fresh ring. -/
theorem slotFilled_first {s t : State} {frame : Frame} (h : s.Laid) (hn : 2 ≤ s.config.nTx)
    (hf : frame.length ≤ s.config.bufSize) (hfresh : s.RingsFresh) (hm : t.mem = (s.slotFilled 0 frame).mem)
    (hrx : t.rxAddr = s.rxAddr) (htx : t.txAddr = s.txAddr) (hc : t.config = s.config) :
    t.FirstSlotFilled s.txThreshold frame ∧ s.ChangesOnly t (s.filledSpans 0 frame) := by
  have h0 : 0 < s.config.nTx := by omega
  obtain ⟨hfilled, hother, -⟩ := slotFilled_filled h hf h0
  have honly : s.ChangesOnly t (s.filledSpans 0 frame) := fun x hx => by
    rw [State.byteAt, hm]; exact hother x hx
  have hslot : ∀ i, t.txSlot i = s.txSlot i := fun i => by rw [State.txSlot, htx, State.txSlot]
  refine ⟨⟨hfilled.of_mem hm htx, ?_, fun i hi => ?_, fun i hpos hi => ?_⟩, honly⟩
  · have hlink := (hfresh.tx 0 h0).link
    rw [nextIdx, Nat.mod_eq_of_lt (by omega)] at hlink
    rw [State.txLink, hslot, hslot, word_of_only honly fun r hr => filled_apart_link h h0 hf hr]
    exact hlink
  · rw [hc] at hi
    exact (hfresh.rx i hi).of_same hrx hc (h.rx_header hi) fun x hx => honly x fun r hr =>
      filled_apart_rxHeader h h0 hf hi hr x hx
  · rw [hc] at hi
    exact (hfresh.tx i hi).of_same htx hc (h.tx_header hi) fun x hx => honly x fun r hr =>
      filled_apart_txHeader h h0 hf hi (by omega) hr x hx

end Sys2Proof.Machine
end

section
/-! SUPPORT. The statement about the device reset, from the laws above. -/

namespace Sys2Proof.Proofs

open Sys2Proof Sys2Proof.Machine

/-- Settles O43: the device reset initialises both rings; then an armed TX request begins a chain at slot 0, and the RX
and TX steps of the deferred phase find nothing to do. -/
theorem deferredDeviceReset : Obligations.DeferredDeviceReset := by
  intro s k1 k2 k3 j k4 k5 status block rest c frame hw hl hr hreset htime hk5 fresh
  obtain ⟨hnRx, hnTx, hbuf, -⟩ := Config.wf_facts hw
  let b : State := { s with fFr := false, fSwi := false }
  have hn : 0 < s.config.nRx := by omega
  refine ⟨fun hp hscript => ?_, fun hp hmin hmax hscript => ?_⟩
  · obtain ⟨m, ev, hx, hfresh, honly⟩ := deviceReset_ok (s := b) hw (hl.of_eq rfl rfl rfl rfl rfl) hscript htime
    let u : State := { b.deviceWasReset status rest m ev with needReset := false }
    have hu : u.RingsFresh := hfresh.of_mem rfl rfl rfl rfl (hl.of_eq rfl rfl rfl rfl rfl)
    obtain ⟨ev', hrx⟩ := deferredRx_fresh (s := u) hn hl.rxLen rfl (hu.rx 0 hn)
    have hrun := checkInterrupts_steps hr (deferredReset_done hreset hx (replayTx_empty (s := u) hp)) hrx
      (deferredTx_none rfl)
    have hend := hu.of_mem (t := { { u with events := ev' }.deferredEnd with results := s.results ++ [.ok] }) rfl rfl
      rfl rfl (hl.of_eq rfl rfl rfl rfl rfl)
    exact ⟨_, hrun, rfl, hend.rx, hend.tx, honly⟩
  · obtain ⟨m, ev, hx, hfresh, honly⟩ := deviceReset_ok (s := b) hw (hl.of_eq rfl rfl rfl rfl rfl) hscript htime
    let u : State := { b.deviceWasReset status (acceptedAfter .cu k5 rest) m ev with needReset := false }
    have hul : u.Laid := hl.of_eq rfl rfl rfl rfl rfl
    have hu : u.RingsFresh := hfresh.of_mem rfl rfl rfl rfl (hl.of_eq rfl rfl rfl rfl rfl)
    have h0 : 0 < s.config.nTx := by omega
    have happend := txAppend_idle_accepted (s := u) hul h0 rfl hmin hmax hw ⟨rfl, fun _ => rfl⟩ rfl hk5 .empty
    have hreplay := replayTx_sent (s := u) (r := { client := c, frame := frame }) hp happend
    let v : State := { (u.chainBegun frame).accepted .cuStart (u.txSlot 0) true k5 rest with
      pendTx := .empty, replies := s.replies ++ [(some c, .ack)] }
    have hfilled := fun (t : State) => slotFilled_first (t := t) hul hnTx (Nat.le_trans hmax hbuf) hu
    obtain ⟨hv, -⟩ := hfilled v rfl rfl rfl rfl
    obtain ⟨ev', hrx⟩ := deferredRx_fresh (s := v) hn hl.rxLen rfl (hv.rx 0 hn)
    have hrun := checkInterrupts_steps hr (deferredReset_done hreset hx hreplay) hrx (deferredTx_none rfl)
    obtain ⟨⟨hslot, hlink, hrxFresh, htxFresh⟩, hchain⟩ :=
      hfilled { { v with events := ev' }.deferredEnd with results := s.results ++ [.ok] } rfl rfl rfl rfl
    refine ⟨_, hrun, rfl, hrxFresh, hslot, hlink, htxFresh, ?_⟩
    have hall : b.ChangesOnly u _ := honly
    refine (hall.trans hchain).mono ?_
    rw [List.append_assoc, List.append_assoc (headers s.rxAddr ++ headers s.txAddr)]
    exact (List.perm_append_comm.append_left _).subset

end Sys2Proof.Proofs
end

section
/-! SUPPORT. The watchdog's two parts (R220), and the reads of the serial engine that stop. -/

namespace Sys2Proof.Machine

/-! ### A serial read that stops -/

/-- A piece that stops ends the operation it stands in. -/
theorem bind_stopped {α β : Type} {x : Op α} {s t : State} {e : Stop} (h : x s = .error e t) (f : α → Op β) :
    (x >>= f) s = .error e t := by rw [bind_apply, h]

theorem readPhy_busy {s : State} (h : s.serBusy = true) (reg : Nat) :
    readPhy reg s = .error (.fatal .serialBusy) s := by
  have henter : enterSerial s = .error (.fatal .serialBusy) s := by simp [enterSerial, h]
  exact (bind_ok (get_apply s)).trans (bind_stopped henter _)

/-! ### The software interrupt -/

/-- The causes of SCB_ISR after a software interrupt, if there was one. -/
def withSwi (raised : Bool) (isr : Byte) : Byte := if raised then isr ||| causeSwi else isr

/-- SWI is one cause, however often it is asserted. -/
theorem withSwi_withSwi (a b : Bool) (isr : Byte) : withSwi b (withSwi a isr) = withSwi (a || b) isr := by
  cases a <;> cases b <;> simp [withSwi, BitVec.or_assoc]

theorem raiseSwi_apply (s : State) :
    raiseSwi s = .ok () { s with
      dev := { s.dev with scbIsr := s.dev.scbIsr ||| causeSwi }
      events := .portWrite (s.writePort .scbIcr) 2 :: s.events } := rfl

/-! ### The link -/

/-- A state that has taken note of a link value: a new one is logged, kept, scheduled for a report and announced. -/
def State.linkSeen (s : State) (v : Half) : State :=
  { s with
    linkSnapshot := v
    log := if v = s.linkSnapshot then s.log else s.log ++ [.linkChange s.linkSnapshot v]
    linkReportPending := s.linkReportPending || v != s.linkSnapshot
    dev := { s.dev with scbIsr := withSwi (v != s.linkSnapshot) s.dev.scbIsr } }

theorem linkSeen_same (s : State) : s.linkSeen s.linkSnapshot = s := by
  simp [State.linkSeen, withSwi]

theorem linkSeen_new {s : State} {v : Half} (h : v ≠ s.linkSnapshot) :
    s.linkSeen v = { s with
      linkSnapshot := v, log := s.log ++ [.linkChange s.linkSnapshot v], linkReportPending := true
      dev := { s.dev with scbIsr := s.dev.scbIsr ||| causeSwi } } := by
  simp [State.linkSeen, withSwi, h]

/-- A link value is noted if it is new. -/
theorem noteIfNew_apply (s : State) (v : Half) :
    ∃ ev, (if v = s.linkSnapshot then pure () else noteLinkChange v : Op Unit) s =
      .ok () { s.linkSeen v with events := ev } := by
  by_cases hv : v = s.linkSnapshot
  · exact ⟨s.events, by rw [if_pos hv, hv, linkSeen_same]; rfl⟩
  · exact ⟨.portWrite (s.writePort .scbIcr) 2 :: s.events, by rw [if_neg hv, linkSeen_new hv]; rfl⟩

/-- The free line levels that a read of the PHY uses up (log entry 20). -/
def State.phyWasRead (s : State) : State :=
  { s with dev := { s.dev with lineReads := s.dev.lineReads + s.config.phyFreeReads } }

/-- R209: no link value is read while the serial engine is busy. -/
theorem detectLinkChange_busy {s : State} (h : s.serBusy = true) : detectLinkChange s = .ok () s := by
  simp only [detectLinkChange, bind_apply, get_apply, h, if_true, pure_apply]

theorem readPhyStatus_apply (s : State) : readPhyStatus s = readPhy s.config.phyStatusReg.toNat s := by
  rw [readPhyStatus, bind_apply, get_apply]

/-- The link value read is that of the PHY's status register (R208). -/
theorem detectLinkChange_idle {s : State} (h : s.SerialIdle) :
    ∃ ev, detectLinkChange s =
      .ok () { s.phyWasRead.linkSeen (s.phyValue s.config.phyStatusReg.toNat) with events := ev } := by
  obtain ⟨ev, hphy⟩ := readPhy_ok h s.config.phyStatusReg.toNat
  rw [← readPhyStatus_apply] at hphy
  generalize s.phyValue s.config.phyStatusReg.toNat = v at hphy ⊢
  obtain ⟨ev', hnote⟩ := noteIfNew_apply { s.phyWasRead with events := ev } v
  refine ⟨ev', ?_⟩
  rw [detectLinkChange, bind_apply, get_apply]
  simp only [h.busy, Bool.false_eq_true, if_false]
  exact (bind_ok hphy).trans hnote

/-! ### A stalled request -/

/-- An armed TX request has seen no progress for a whole period. -/
def State.stalled (s : State) : Bool := s.pendTx != .empty && !s.txAlive

/-- A stall asks for a device reset and is announced; `tx_alive` begins the next period. -/
theorem detectStall_apply (s : State) :
    ∃ ev, detectStall s = .ok () { s with
      txAlive := s.pendTx == .empty
      needReset := s.needReset || s.stalled
      dev := { s.dev with scbIsr := withSwi s.stalled s.dev.scbIsr }
      events := ev } := by
  by_cases hp : s.pendTx = .empty
  · refine ⟨s.events, ?_⟩
    simp [detectStall, State.stalled, withSwi, hp]
  · have hne : (s.pendTx == .empty) = false := beq_eq_false_iff_ne.mpr hp
    cases ha : s.txAlive
    · refine ⟨.portWrite (s.writePort .scbIcr) 2 :: s.events, ?_⟩
      simp [detectStall, State.stalled, withSwi, hp, hne, ha, raiseSwi_apply, State.writePort]
    · refine ⟨s.events, ?_⟩
      simp [detectStall, State.stalled, withSwi, hp, hne, ha]

/-- `watchdog_tick`: the link, then the stall. -/
theorem watchdogTick_steps {s t u : State} (hr : s.Running) (hlink : detectLinkChange s = .ok () t)
    (hstall : detectStall t = .ok () u) : exec .watchdogTick s = .next { u with results := u.results ++ [.ok] } :=
  run_ok hr ((bind_ok hlink).trans ((bind_ok hstall).trans rfl))

/-! ### The serial reads on the operation port -/

section
variable {s t : State} (hr : s.Running) {reg : Nat}
include hr

theorem readEeprom_returns {w : Half} (h : readEeprom reg s = .ok w t) :
    exec (.readEeprom reg) s = .next { t with results := t.results ++ [.serialWord w] } :=
  run_ok hr ((bind_ok h).trans rfl)

theorem readEeprom_raises {r : FatalReason} (h : readEeprom reg s = .error (.fatal r) t) (ht : t.fault = none) :
    exec (.readEeprom reg) s = .next { t with fault := some r } :=
  run_raised hr ht (bind_stopped h _)

theorem readPhy_returns {w : Half} (h : readPhy reg s = .ok w t) :
    exec (.readPhy reg) s = .next { t with results := t.results ++ [.serialWord w] } :=
  run_ok hr ((bind_ok h).trans rfl)

theorem readPhy_raises {r : FatalReason} (h : readPhy reg s = .error (.fatal r) t) (ht : t.fault = none) :
    exec (.readPhy reg) s = .next { t with fault := some r } :=
  run_raised hr ht (bind_stopped h _)

end

end Sys2Proof.Machine
end

section
/-! SUPPORT. The statements of the serial family: the watchdog and the two serial reads, from the laws of the serial
engine. -/

namespace Sys2Proof.Proofs

open Sys2Proof Sys2Proof.Machine

/-- Settles O51: the link is looked at while the serial engine is idle, then the stall, whose SWI joins the link's. -/
theorem watchdogTick : Obligations.WatchdogTick := by
  intro s hr v stalled
  refine ⟨fun hidle => ?_, fun hbusy => ?_⟩
  · obtain ⟨ev, hlink⟩ := detectLinkChange_idle hidle
    obtain ⟨ev', hstall⟩ := detectStall_apply { s.phyWasRead.linkSeen v with events := ev }
    have hswi : withSwi stalled (withSwi (v != s.linkSnapshot) s.dev.scbIsr) =
      if v != s.linkSnapshot || stalled then s.dev.scbIsr ||| causeSwi else s.dev.scbIsr := withSwi_withSwi _ _ _
    rw [← hswi]
    exact ⟨ev', watchdogTick_steps hr hlink hstall⟩
  · obtain ⟨ev, hstall⟩ := detectStall_apply s
    exact ⟨ev, watchdogTick_steps hr (detectLinkChange_busy hbusy) hstall⟩

/-- Settles O52: the width is detected or cached, then the frame is read. -/
theorem readEepromReturnsTheWord : Obligations.ReadEepromReturnsTheWord := by
  intro s reg w hr hidle hw hc hreg
  obtain ⟨ev, hread⟩ := readEeprom_ok hidle hw hc hreg
  exact ⟨ev, readEeprom_returns hr hread⟩

/-- Settles O53: each Fatal of a serial read is the operation's. -/
theorem serialReadFaults : Obligations.SerialReadFaults := by
  intro s reg w hr
  refine ⟨fun hbusy => ⟨?_, ?_⟩, fun hidle hw hc hreg => ?_, fun hidle hw hu => ?_⟩
  · exact readEeprom_raises hr (readEeprom_busy s reg hbusy) hr.noFault
  · exact readPhy_raises hr (readPhy_busy hbusy reg) hr.noFault
  · obtain ⟨ev, hread⟩ := readEeprom_range hidle hw hc hreg
    exact ⟨ev, readEeprom_raises hr hread hr.noFault⟩
  · obtain ⟨l, e, n, ev, hread⟩ := readEeprom_width hidle hw hu reg
    have hdev : ({ s.dev with serCtl := l, ee := e, phy := .idle, lineReads := n } : Device) =
        { s.dev with serCtl := l, ee := e, lineReads := n } := by rw [← hidle.phy]
    exact ⟨_, readEeprom_raises hr hread hr.noFault, rfl, hdev⟩

/-- Settles O54: the frame reaches the PHY, whose register comes back; with no PHY there the levels are free. -/
theorem readPhyReturnsTheRegister : Obligations.ReadPhyReturnsTheRegister := by
  intro s reg hr hidle
  obtain ⟨ev, hread⟩ := readPhy_ok hidle reg
  exact ⟨ev, readPhy_returns hr hread⟩

end Sys2Proof.Proofs
end

section
/-! SUPPORT. The device moves that touch no memory, and the moves that are not admitted, each in its explicit state. -/

namespace Sys2Proof.Machine

/-! ### The moves outside memory -/

/-- The causes that no rule names are the other four bits of SCB_ISR (R101). -/
theorem unknownCauses_eq (v : Byte) : unknownCauses v = v &&& 0x8B := rfl

theorem deviceMove_linkChange (value : Half) (s : State) :
    deviceMove (.linkChange value) s = .ok () { s with
      dev := { s.dev with phyReg := s.dev.phyReg.set s.config.phyStatusReg.toNat value } } := rfl

theorem deviceMove_spurious (bits : Byte) (s : State) :
    deviceMove (.spurious bits) s = .ok () { s with
      dev := { s.dev with scbIsr := s.dev.scbIsr ||| (bits &&& 0x8B) } } := by
  rw [← unknownCauses_eq]; rfl

/-! ### The moves that are not admitted -/

theorem deviceMove_dump_unscheduled {s : State} (h : s.dev.dumpPending = false) (counters : List Word) :
    deviceMove (.dump counters) s = .ok () s := by
  simp only [deviceMove, dumpMove, bind_apply, get_apply, h, Bool.false_eq_true, if_false, pure_apply]

theorem deviceMove_ruStep_notReady {s : State} (h : s.dev.unitState .ru ≠ .ready) (frame : Frame) (status : Half) :
    deviceMove (.ruStep frame status) s = .ok () s :=
  (ruStepMove_apply s frame status).trans (if_neg h)

/-- A CU step without an active CU still takes its draw (log entry 4). -/
theorem deviceMove_cuStep_notActive {s : State} (h : s.dev.unitState .cu ≠ .active) (status : Half)
    (block : List Byte) :
    deviceMove (.cuStep status block) s = .ok () { s with dev := { s.dev with cuDraw := status } } := by
  have hcode : unitStateOf s.dev.cuCode ≠ .active := h
  simp only [deviceMove, cuStepMove, modifyDevice, bind_apply, modify_apply, get_apply, hcode, if_false, pure_apply]

/-- A device input whose move ends well steps to the state the move leaves. -/
theorem step_device_ok {s t : State} {m : DeviceMove} {rest : List Input} (h : s.agenda = .device m :: rest)
    (hm : deviceMove m { s with agenda := rest } = .ok () t) : step s = .next t :=
  (step_device h).trans (runDevice_ok hm)

end Sys2Proof.Machine
end

section
/-! SUPPORT. The statements about the device's moves as inputs: a device input is its move, and the moves that touch no
memory. -/

namespace Sys2Proof.Proofs

open Sys2Proof Sys2Proof.Machine

/-- Settles O9: the law of a device input, proved move by move; the accepted commands and the fetched ones are its two
long cases. -/
theorem deviceInputIsItsMove : Obligations.DeviceInputIsItsMove := fun _ _ _ h => step_device h

/-- Settles O60: each move in its explicit state, as the step of its input. -/
theorem deviceMovesOutsideMemory : Obligations.DeviceMovesOutsideMemory := by
  intro s m rest h
  refine ⟨?_, ?_, ?_, ?_, ?_, ?_, ?_⟩
  · rintro v rfl
    exact step_device_ok h (deviceMove_linkChange v _)
  · rintro b rfl
    exact step_device_ok h (deviceMove_spurious b _)
  · rintro c rfl
    exact step_device_ok h (deviceMove_drift .cu c _)
  · rintro c rfl
    exact step_device_ok h (deviceMove_drift .ru c _)
  · rintro l rfl hidle
    exact step_device_ok h (deviceMove_dump_unscheduled (s := { s with agenda := rest }) hidle l)
  · rintro f v rfl hnot
    exact step_device_ok h (deviceMove_ruStep_notReady (s := { s with agenda := rest }) hnot f v)
  · rintro v l rfl hnot
    exact step_device_ok h (deviceMove_cuStep_notActive (s := { s with agenda := rest }) hnot v l)

end Sys2Proof.Proofs
end

section
/-! SUPPORT. The statement about power-on, and the sequencer as a view of the fault. -/

namespace Sys2Proof.Machine

/-- R47: the sequencer is ready exactly while there is no fault. -/
theorem seq_eq_ready_iff (s : State) : s.seq = .ready ↔ s.fault = none := by
  unfold State.seq
  cases s.fault <;> simp

end Sys2Proof.Machine

namespace Sys2Proof.Proofs

open Sys2Proof Sys2Proof.Machine

/-- Settles O20: the sequencer is ready because there is no fault; R270 gives every other value as a field. -/
theorem powerOnValues : Obligations.PowerOnValues :=
  have noFault : State.reset.fault = none := rfl
  ⟨noFault, (seq_eq_ready_iff _).mpr noFault, rfl, rfl, rfl, rfl, rfl, rfl, rfl⟩

end Sys2Proof.Proofs
end
